-- ==== Sys2Proof/Word.lean ====
section
/-! DEFINITION. The word types of the machine (00_scope.md rules R11, R12). -/

namespace Sys2Proof

/-- A doubleword: the width of the general registers, HI, LO, the pc and the latch (R10). -/
abbrev Word := BitVec 64

/-- A byte (R11). -/
abbrev Byte := BitVec 8

/-- A 5-bit register field of an instruction word (R181): a general register or a CP0/CP2 register number. -/
abbrev RegIdx := BitVec 5

/-- A 16-bit immediate or offset field (R181). -/
abbrev Imm16 := BitVec 16

end Sys2Proof
end

