-- ==== Sys2Proof/Syntax.lean ====
section
/-! DEFINITION. The instructions: one constructor for each row of opcode_table.json, in the table's order.
The operands are the fields of the row's format (30_encoding.md rules R181, R182) that the spec names;
the fields the format fixes at 0 are not operands (R184). -/

namespace Sys2Proof

/-- The instruction set (00_scope.md rule R2). `brk` is BREAK; `code` fields are carried although the
hardware ignores them (R191); `cop1` carries bits 25:0 of a word with `op` = 0x11 (R441). -/
inductive Instr where
  /-- `SLL`, R230. -/
  | sll (rd rt : RegIdx) (sa : BitVec 5)
  /-- `SRL`, R231. -/
  | srl (rd rt : RegIdx) (sa : BitVec 5)
  /-- `SRA`, R232. -/
  | sra (rd rt : RegIdx) (sa : BitVec 5)
  /-- `SLLV`, R233. -/
  | sllv (rd rt rs : RegIdx)
  /-- `SRLV`, R234. -/
  | srlv (rd rt rs : RegIdx)
  /-- `SRAV`, R235. -/
  | srav (rd rt rs : RegIdx)
  /-- `JR`, R302. -/
  | jr (rs : RegIdx)
  /-- `JALR`, R303. -/
  | jalr (rd rs : RegIdx)
  /-- `SYSCALL`, R391. -/
  | syscall (code : BitVec 20)
  /-- `BREAK`, R392. -/
  | brk (code : BitVec 20)
  /-- `SYNC`, R394. -/
  | sync
  /-- `MFHI`, R261. -/
  | mfhi (rd : RegIdx)
  /-- `MTHI`, R262. -/
  | mthi (rs : RegIdx)
  /-- `MFLO`, R263. -/
  | mflo (rd : RegIdx)
  /-- `MTLO`, R264. -/
  | mtlo (rs : RegIdx)
  /-- `DSLLV`, R242. -/
  | dsllv (rd rt rs : RegIdx)
  /-- `DSRLV`, R243. -/
  | dsrlv (rd rt rs : RegIdx)
  /-- `DSRAV`, R244. -/
  | dsrav (rd rt rs : RegIdx)
  /-- `MULT`, R265. -/
  | mult (rs rt : RegIdx)
  /-- `MULTU`, R266. -/
  | multu (rs rt : RegIdx)
  /-- `DIV`, R269. -/
  | div (rs rt : RegIdx)
  /-- `DIVU`, R270. -/
  | divu (rs rt : RegIdx)
  /-- `DMULT`, R267. -/
  | dmult (rs rt : RegIdx)
  /-- `DMULTU`, R268. -/
  | dmultu (rs rt : RegIdx)
  /-- `DDIV`, R271. -/
  | ddiv (rs rt : RegIdx)
  /-- `DDIVU`, R272. -/
  | ddivu (rs rt : RegIdx)
  /-- `ADD`, R201. -/
  | add (rd rs rt : RegIdx)
  /-- `ADDU`, R202. -/
  | addu (rd rs rt : RegIdx)
  /-- `SUB`, R203. -/
  | sub (rd rs rt : RegIdx)
  /-- `SUBU`, R204. -/
  | subu (rd rs rt : RegIdx)
  /-- `AND`, R220. -/
  | and (rd rs rt : RegIdx)
  /-- `OR`, R221. -/
  | or (rd rs rt : RegIdx)
  /-- `XOR`, R222. -/
  | xor (rd rs rt : RegIdx)
  /-- `NOR`, R223. -/
  | nor (rd rs rt : RegIdx)
  /-- `SLT`, R215. -/
  | slt (rd rs rt : RegIdx)
  /-- `SLTU`, R216. -/
  | sltu (rd rs rt : RegIdx)
  /-- `DADD`, R205. -/
  | dadd (rd rs rt : RegIdx)
  /-- `DADDU`, R206. -/
  | daddu (rd rs rt : RegIdx)
  /-- `DSUB`, R207. -/
  | dsub (rd rs rt : RegIdx)
  /-- `DSUBU`, R208. -/
  | dsubu (rd rs rt : RegIdx)
  /-- `TGE`, R421. -/
  | tge (rs rt : RegIdx) (code : BitVec 10)
  /-- `TGEU`, R422. -/
  | tgeu (rs rt : RegIdx) (code : BitVec 10)
  /-- `TLT`, R423. -/
  | tlt (rs rt : RegIdx) (code : BitVec 10)
  /-- `TLTU`, R424. -/
  | tltu (rs rt : RegIdx) (code : BitVec 10)
  /-- `TEQ`, R425. -/
  | teq (rs rt : RegIdx) (code : BitVec 10)
  /-- `TNE`, R426. -/
  | tne (rs rt : RegIdx) (code : BitVec 10)
  /-- `DSLL`, R236. -/
  | dsll (rd rt : RegIdx) (sa : BitVec 5)
  /-- `DSRL`, R237. -/
  | dsrl (rd rt : RegIdx) (sa : BitVec 5)
  /-- `DSRA`, R238. -/
  | dsra (rd rt : RegIdx) (sa : BitVec 5)
  /-- `DSLL32`, R239. -/
  | dsll32 (rd rt : RegIdx) (sa : BitVec 5)
  /-- `DSRL32`, R240. -/
  | dsrl32 (rd rt : RegIdx) (sa : BitVec 5)
  /-- `DSRA32`, R241. -/
  | dsra32 (rd rt : RegIdx) (sa : BitVec 5)
  /-- `BLTZ`, R308. -/
  | bltz (rs : RegIdx) (imm : Imm16)
  /-- `BGEZ`, R309. -/
  | bgez (rs : RegIdx) (imm : Imm16)
  /-- `BLTZL`, R316. -/
  | bltzl (rs : RegIdx) (imm : Imm16)
  /-- `BGEZL`, R317. -/
  | bgezl (rs : RegIdx) (imm : Imm16)
  /-- `TGEI`, R427. -/
  | tgei (rs : RegIdx) (imm : Imm16)
  /-- `TGEIU`, R428. -/
  | tgeiu (rs : RegIdx) (imm : Imm16)
  /-- `TLTI`, R429. -/
  | tlti (rs : RegIdx) (imm : Imm16)
  /-- `TLTIU`, R430. -/
  | tltiu (rs : RegIdx) (imm : Imm16)
  /-- `TEQI`, R431. -/
  | teqi (rs : RegIdx) (imm : Imm16)
  /-- `TNEI`, R432. -/
  | tnei (rs : RegIdx) (imm : Imm16)
  /-- `BLTZAL`, R310. -/
  | bltzal (rs : RegIdx) (imm : Imm16)
  /-- `BGEZAL`, R311. -/
  | bgezal (rs : RegIdx) (imm : Imm16)
  /-- `BLTZALL`, R318. -/
  | bltzall (rs : RegIdx) (imm : Imm16)
  /-- `BGEZALL`, R319. -/
  | bgezall (rs : RegIdx) (imm : Imm16)
  /-- `J`, R300. -/
  | j (target : BitVec 26)
  /-- `JAL`, R301. -/
  | jal (target : BitVec 26)
  /-- `BEQ`, R304. -/
  | beq (rs rt : RegIdx) (imm : Imm16)
  /-- `BNE`, R305. -/
  | bne (rs rt : RegIdx) (imm : Imm16)
  /-- `BLEZ`, R306. -/
  | blez (rs : RegIdx) (imm : Imm16)
  /-- `BGTZ`, R307. -/
  | bgtz (rs : RegIdx) (imm : Imm16)
  /-- `ADDI`, R210. -/
  | addi (rt rs : RegIdx) (imm : Imm16)
  /-- `ADDIU`, R211. -/
  | addiu (rt rs : RegIdx) (imm : Imm16)
  /-- `SLTI`, R217. -/
  | slti (rt rs : RegIdx) (imm : Imm16)
  /-- `SLTIU`, R218. -/
  | sltiu (rt rs : RegIdx) (imm : Imm16)
  /-- `ANDI`, R224. -/
  | andi (rt rs : RegIdx) (imm : Imm16)
  /-- `ORI`, R225. -/
  | ori (rt rs : RegIdx) (imm : Imm16)
  /-- `XORI`, R226. -/
  | xori (rt rs : RegIdx) (imm : Imm16)
  /-- `LUI`, R227. -/
  | lui (rt : RegIdx) (imm : Imm16)
  /-- `BEQL`, R312. -/
  | beql (rs rt : RegIdx) (imm : Imm16)
  /-- `BNEL`, R313. -/
  | bnel (rs rt : RegIdx) (imm : Imm16)
  /-- `BLEZL`, R314. -/
  | blezl (rs : RegIdx) (imm : Imm16)
  /-- `BGTZL`, R315. -/
  | bgtzl (rs : RegIdx) (imm : Imm16)
  /-- `DADDI`, R212. -/
  | daddi (rt rs : RegIdx) (imm : Imm16)
  /-- `DADDIU`, R213. -/
  | daddiu (rt rs : RegIdx) (imm : Imm16)
  /-- `LDL`, R351. -/
  | ldl (rt base : RegIdx) (offset : Imm16)
  /-- `LDR`, R352. -/
  | ldr (rt base : RegIdx) (offset : Imm16)
  /-- `LB`, R342. -/
  | lb (rt base : RegIdx) (offset : Imm16)
  /-- `LH`, R344. -/
  | lh (rt base : RegIdx) (offset : Imm16)
  /-- `LWL`, R349. -/
  | lwl (rt base : RegIdx) (offset : Imm16)
  /-- `LW`, R346. -/
  | lw (rt base : RegIdx) (offset : Imm16)
  /-- `LBU`, R343. -/
  | lbu (rt base : RegIdx) (offset : Imm16)
  /-- `LHU`, R345. -/
  | lhu (rt base : RegIdx) (offset : Imm16)
  /-- `LWR`, R350. -/
  | lwr (rt base : RegIdx) (offset : Imm16)
  /-- `LWU`, R347. -/
  | lwu (rt base : RegIdx) (offset : Imm16)
  /-- `SB`, R353. -/
  | sb (rt base : RegIdx) (offset : Imm16)
  /-- `SH`, R354. -/
  | sh (rt base : RegIdx) (offset : Imm16)
  /-- `SWL`, R357. -/
  | swl (rt base : RegIdx) (offset : Imm16)
  /-- `SW`, R355. -/
  | sw (rt base : RegIdx) (offset : Imm16)
  /-- `SDL`, R359. -/
  | sdl (rt base : RegIdx) (offset : Imm16)
  /-- `SDR`, R360. -/
  | sdr (rt base : RegIdx) (offset : Imm16)
  /-- `SWR`, R358. -/
  | swr (rt base : RegIdx) (offset : Imm16)
  /-- `CACHE`, R393. -/
  | cache (op base : RegIdx) (offset : Imm16)
  /-- `LL`, R361. -/
  | ll (rt base : RegIdx) (offset : Imm16)
  /-- `LWC1`, R442. -/
  | lwc1 (ft base : RegIdx) (offset : Imm16)
  /-- `LWC2`, R460. -/
  | lwc2 (rt base : RegIdx) (offset : Imm16)
  /-- `LLD`, R364. -/
  | lld (rt base : RegIdx) (offset : Imm16)
  /-- `LDC1`, R443. -/
  | ldc1 (ft base : RegIdx) (offset : Imm16)
  /-- `LDC2`, R461. -/
  | ldc2 (rt base : RegIdx) (offset : Imm16)
  /-- `LD`, R348. -/
  | ld (rt base : RegIdx) (offset : Imm16)
  /-- `SC`, R362. -/
  | sc (rt base : RegIdx) (offset : Imm16)
  /-- `SWC1`, R444. -/
  | swc1 (ft base : RegIdx) (offset : Imm16)
  /-- `SWC2`, R462. -/
  | swc2 (rt base : RegIdx) (offset : Imm16)
  /-- `SCD`, R363. -/
  | scd (rt base : RegIdx) (offset : Imm16)
  /-- `SDC1`, R445. -/
  | sdc1 (ft base : RegIdx) (offset : Imm16)
  /-- `SDC2`, R463. -/
  | sdc2 (rt base : RegIdx) (offset : Imm16)
  /-- `SD`, R356. -/
  | sd (rt base : RegIdx) (offset : Imm16)
  /-- `MFC0`, R401. -/
  | mfc0 (rt rd : RegIdx)
  /-- `DMFC0`, R403. -/
  | dmfc0 (rt rd : RegIdx)
  /-- `MTC0`, R402. -/
  | mtc0 (rt rd : RegIdx)
  /-- `DMTC0`, R404. -/
  | dmtc0 (rt rd : RegIdx)
  /-- `TLBR`, R407. -/
  | tlbr
  /-- `TLBWI`, R408. -/
  | tlbwi
  /-- `TLBWR`, R409. -/
  | tlbwr
  /-- `TLBP`, R410. -/
  | tlbp
  /-- `ERET`, R411. -/
  | eret
  /-- `COP1`, R441. -/
  | cop1 (bits : BitVec 26)
  /-- `MFC2`, R451. -/
  | mfc2 (rt rd : RegIdx)
  /-- `DMFC2`, R452. -/
  | dmfc2 (rt rd : RegIdx)
  /-- `CFC2`, R453. -/
  | cfc2 (rt rd : RegIdx)
  /-- `DCFC2`, R457. -/
  | dcfc2 (rt rd : RegIdx)
  /-- `MTC2`, R454. -/
  | mtc2 (rt rd : RegIdx)
  /-- `DMTC2`, R455. -/
  | dmtc2 (rt rd : RegIdx)
  /-- `CTC2`, R456. -/
  | ctc2 (rt rd : RegIdx)
  /-- `DCTC2`, R458. -/
  | dctc2 (rt rd : RegIdx)
deriving DecidableEq, Repr

end Sys2Proof
end

