-- ==== Sys2Proof/Decode.lean ====
section
/-! DEFINITION. The decoder and the encoder, both written from the opcode maps of 30_encoding.md (rules
R180–R192). Decoding is total: a word of no row is rejected by the name of the space it lies in. -/

namespace Sys2Proof

/-- Why a word is no instruction of the table (R190): which checks precede its ReservedInstruction. -/
inductive Reserved where
  /-- A word of no coprocessor space: ReservedInstruction at once (R190). -/
  | general
  /-- An RI word of the COP0 space: the CP0 usability check comes first (R188). -/
  | cop0
  /-- An RI word of the COP2 space: the CU2 check comes first (R189, 45_coprocessors.md rule R459). -/
  | cop2
  /-- Not four bytes: no instruction word at all (R180). -/
  | notAWord
deriving DecidableEq, Repr

/-! The fields of an instruction word (R181). -/

/-- `op`, bits 31:26. -/
def opOf (w : BitVec 32) : BitVec 6 := w.extractLsb' 26 6
/-- `rs` (the base of a load, store or CACHE; the sub-opcode of a COP word), bits 25:21. -/
def rsOf (w : BitVec 32) : BitVec 5 := w.extractLsb' 21 5
/-- `rt` (the sub-opcode of a REGIMM word), bits 20:16. -/
def rtOf (w : BitVec 32) : BitVec 5 := w.extractLsb' 16 5
/-- `rd`, bits 15:11. -/
def rdOf (w : BitVec 32) : BitVec 5 := w.extractLsb' 11 5
/-- `sa`, bits 10:6. -/
def saOf (w : BitVec 32) : BitVec 5 := w.extractLsb' 6 5
/-- `funct`, bits 5:0. -/
def functOf (w : BitVec 32) : BitVec 6 := w.extractLsb' 0 6
/-- `imm`, bits 15:0. -/
def immOf (w : BitVec 32) : BitVec 16 := w.extractLsb' 0 16
/-- `target`, bits 25:0. -/
def targetOf (w : BitVec 32) : BitVec 26 := w.extractLsb' 0 26
/-- The `code` of SYSCALL and BREAK, bits 25:6. -/
def codeOf (w : BitVec 32) : BitVec 20 := w.extractLsb' 6 20
/-- The `code` of a trap, bits 15:6. -/
def trapCodeOf (w : BitVec 32) : BitVec 10 := w.extractLsb' 6 10

/-- The SPECIAL map (R186), by `funct`. -/
def decodeSpecial (w : BitVec 32) : Except Reserved Instr :=
  match functOf w with
  | 0x00#6 => .ok (.sll (rdOf w) (rtOf w) (saOf w))
  | 0x02#6 => .ok (.srl (rdOf w) (rtOf w) (saOf w))
  | 0x03#6 => .ok (.sra (rdOf w) (rtOf w) (saOf w))
  | 0x04#6 => .ok (.sllv (rdOf w) (rtOf w) (rsOf w))
  | 0x06#6 => .ok (.srlv (rdOf w) (rtOf w) (rsOf w))
  | 0x07#6 => .ok (.srav (rdOf w) (rtOf w) (rsOf w))
  | 0x08#6 => .ok (.jr (rsOf w))
  | 0x09#6 => .ok (.jalr (rdOf w) (rsOf w))
  | 0x0C#6 => .ok (.syscall (codeOf w))
  | 0x0D#6 => .ok (.brk (codeOf w))
  | 0x0F#6 => .ok .sync
  | 0x10#6 => .ok (.mfhi (rdOf w))
  | 0x11#6 => .ok (.mthi (rsOf w))
  | 0x12#6 => .ok (.mflo (rdOf w))
  | 0x13#6 => .ok (.mtlo (rsOf w))
  | 0x14#6 => .ok (.dsllv (rdOf w) (rtOf w) (rsOf w))
  | 0x16#6 => .ok (.dsrlv (rdOf w) (rtOf w) (rsOf w))
  | 0x17#6 => .ok (.dsrav (rdOf w) (rtOf w) (rsOf w))
  | 0x18#6 => .ok (.mult (rsOf w) (rtOf w))
  | 0x19#6 => .ok (.multu (rsOf w) (rtOf w))
  | 0x1A#6 => .ok (.div (rsOf w) (rtOf w))
  | 0x1B#6 => .ok (.divu (rsOf w) (rtOf w))
  | 0x1C#6 => .ok (.dmult (rsOf w) (rtOf w))
  | 0x1D#6 => .ok (.dmultu (rsOf w) (rtOf w))
  | 0x1E#6 => .ok (.ddiv (rsOf w) (rtOf w))
  | 0x1F#6 => .ok (.ddivu (rsOf w) (rtOf w))
  | 0x20#6 => .ok (.add (rdOf w) (rsOf w) (rtOf w))
  | 0x21#6 => .ok (.addu (rdOf w) (rsOf w) (rtOf w))
  | 0x22#6 => .ok (.sub (rdOf w) (rsOf w) (rtOf w))
  | 0x23#6 => .ok (.subu (rdOf w) (rsOf w) (rtOf w))
  | 0x24#6 => .ok (.and (rdOf w) (rsOf w) (rtOf w))
  | 0x25#6 => .ok (.or (rdOf w) (rsOf w) (rtOf w))
  | 0x26#6 => .ok (.xor (rdOf w) (rsOf w) (rtOf w))
  | 0x27#6 => .ok (.nor (rdOf w) (rsOf w) (rtOf w))
  | 0x2A#6 => .ok (.slt (rdOf w) (rsOf w) (rtOf w))
  | 0x2B#6 => .ok (.sltu (rdOf w) (rsOf w) (rtOf w))
  | 0x2C#6 => .ok (.dadd (rdOf w) (rsOf w) (rtOf w))
  | 0x2D#6 => .ok (.daddu (rdOf w) (rsOf w) (rtOf w))
  | 0x2E#6 => .ok (.dsub (rdOf w) (rsOf w) (rtOf w))
  | 0x2F#6 => .ok (.dsubu (rdOf w) (rsOf w) (rtOf w))
  | 0x30#6 => .ok (.tge (rsOf w) (rtOf w) (trapCodeOf w))
  | 0x31#6 => .ok (.tgeu (rsOf w) (rtOf w) (trapCodeOf w))
  | 0x32#6 => .ok (.tlt (rsOf w) (rtOf w) (trapCodeOf w))
  | 0x33#6 => .ok (.tltu (rsOf w) (rtOf w) (trapCodeOf w))
  | 0x34#6 => .ok (.teq (rsOf w) (rtOf w) (trapCodeOf w))
  | 0x36#6 => .ok (.tne (rsOf w) (rtOf w) (trapCodeOf w))
  | 0x38#6 => .ok (.dsll (rdOf w) (rtOf w) (saOf w))
  | 0x3A#6 => .ok (.dsrl (rdOf w) (rtOf w) (saOf w))
  | 0x3B#6 => .ok (.dsra (rdOf w) (rtOf w) (saOf w))
  | 0x3C#6 => .ok (.dsll32 (rdOf w) (rtOf w) (saOf w))
  | 0x3E#6 => .ok (.dsrl32 (rdOf w) (rtOf w) (saOf w))
  | 0x3F#6 => .ok (.dsra32 (rdOf w) (rtOf w) (saOf w))
  | _ => .error .general

/-- The REGIMM map (R187), by `rt`. -/
def decodeRegimm (w : BitVec 32) : Except Reserved Instr :=
  match rtOf w with
  | 0x00#5 => .ok (.bltz (rsOf w) (immOf w))
  | 0x01#5 => .ok (.bgez (rsOf w) (immOf w))
  | 0x02#5 => .ok (.bltzl (rsOf w) (immOf w))
  | 0x03#5 => .ok (.bgezl (rsOf w) (immOf w))
  | 0x08#5 => .ok (.tgei (rsOf w) (immOf w))
  | 0x09#5 => .ok (.tgeiu (rsOf w) (immOf w))
  | 0x0A#5 => .ok (.tlti (rsOf w) (immOf w))
  | 0x0B#5 => .ok (.tltiu (rsOf w) (immOf w))
  | 0x0C#5 => .ok (.teqi (rsOf w) (immOf w))
  | 0x0E#5 => .ok (.tnei (rsOf w) (immOf w))
  | 0x10#5 => .ok (.bltzal (rsOf w) (immOf w))
  | 0x11#5 => .ok (.bgezal (rsOf w) (immOf w))
  | 0x12#5 => .ok (.bltzall (rsOf w) (immOf w))
  | 0x13#5 => .ok (.bgezall (rsOf w) (immOf w))
  | _ => .error .general

/-- The COP0 words with `CO` = 1 (R188), by `funct`. -/
def decodeCop0Function (w : BitVec 32) : Except Reserved Instr :=
  match functOf w with
  | 0x01#6 => .ok .tlbr
  | 0x02#6 => .ok .tlbwi
  | 0x06#6 => .ok .tlbwr
  | 0x08#6 => .ok .tlbp
  | 0x18#6 => .ok .eret
  | _ => .error .cop0

/-- The COP0 map (R188), by `rs`; bit 25 is `CO`. -/
def decodeCop0 (w : BitVec 32) : Except Reserved Instr :=
  match rsOf w with
  | 0x00#5 => .ok (.mfc0 (rtOf w) (rdOf w))
  | 0x01#5 => .ok (.dmfc0 (rtOf w) (rdOf w))
  | 0x04#5 => .ok (.mtc0 (rtOf w) (rdOf w))
  | 0x05#5 => .ok (.dmtc0 (rtOf w) (rdOf w))
  | _ => if w.getLsbD 25 then decodeCop0Function w else .error .cop0

/-- The COP2 map (R189), by `rs`. -/
def decodeCop2 (w : BitVec 32) : Except Reserved Instr :=
  match rsOf w with
  | 0x00#5 => .ok (.mfc2 (rtOf w) (rdOf w))
  | 0x01#5 => .ok (.dmfc2 (rtOf w) (rdOf w))
  | 0x02#5 => .ok (.cfc2 (rtOf w) (rdOf w))
  | 0x03#5 => .ok (.dcfc2 (rtOf w) (rdOf w))
  | 0x04#5 => .ok (.mtc2 (rtOf w) (rdOf w))
  | 0x05#5 => .ok (.dmtc2 (rtOf w) (rdOf w))
  | 0x06#5 => .ok (.ctc2 (rtOf w) (rdOf w))
  | 0x07#5 => .ok (.dctc2 (rtOf w) (rdOf w))
  | _ => .error .cop2

/-- The primary map (R185), by `op`. Fields a format fixes at 0 are ignored (R184). -/
def decode (w : BitVec 32) : Except Reserved Instr :=
  match opOf w with
  | 0x00#6 => decodeSpecial w
  | 0x01#6 => decodeRegimm w
  | 0x02#6 => .ok (.j (targetOf w))
  | 0x03#6 => .ok (.jal (targetOf w))
  | 0x04#6 => .ok (.beq (rsOf w) (rtOf w) (immOf w))
  | 0x05#6 => .ok (.bne (rsOf w) (rtOf w) (immOf w))
  | 0x06#6 => .ok (.blez (rsOf w) (immOf w))
  | 0x07#6 => .ok (.bgtz (rsOf w) (immOf w))
  | 0x08#6 => .ok (.addi (rtOf w) (rsOf w) (immOf w))
  | 0x09#6 => .ok (.addiu (rtOf w) (rsOf w) (immOf w))
  | 0x0A#6 => .ok (.slti (rtOf w) (rsOf w) (immOf w))
  | 0x0B#6 => .ok (.sltiu (rtOf w) (rsOf w) (immOf w))
  | 0x0C#6 => .ok (.andi (rtOf w) (rsOf w) (immOf w))
  | 0x0D#6 => .ok (.ori (rtOf w) (rsOf w) (immOf w))
  | 0x0E#6 => .ok (.xori (rtOf w) (rsOf w) (immOf w))
  | 0x0F#6 => .ok (.lui (rtOf w) (immOf w))
  | 0x10#6 => decodeCop0 w
  | 0x11#6 => .ok (.cop1 (targetOf w))
  | 0x12#6 => decodeCop2 w
  | 0x14#6 => .ok (.beql (rsOf w) (rtOf w) (immOf w))
  | 0x15#6 => .ok (.bnel (rsOf w) (rtOf w) (immOf w))
  | 0x16#6 => .ok (.blezl (rsOf w) (immOf w))
  | 0x17#6 => .ok (.bgtzl (rsOf w) (immOf w))
  | 0x18#6 => .ok (.daddi (rtOf w) (rsOf w) (immOf w))
  | 0x19#6 => .ok (.daddiu (rtOf w) (rsOf w) (immOf w))
  | 0x1A#6 => .ok (.ldl (rtOf w) (rsOf w) (immOf w))
  | 0x1B#6 => .ok (.ldr (rtOf w) (rsOf w) (immOf w))
  | 0x20#6 => .ok (.lb (rtOf w) (rsOf w) (immOf w))
  | 0x21#6 => .ok (.lh (rtOf w) (rsOf w) (immOf w))
  | 0x22#6 => .ok (.lwl (rtOf w) (rsOf w) (immOf w))
  | 0x23#6 => .ok (.lw (rtOf w) (rsOf w) (immOf w))
  | 0x24#6 => .ok (.lbu (rtOf w) (rsOf w) (immOf w))
  | 0x25#6 => .ok (.lhu (rtOf w) (rsOf w) (immOf w))
  | 0x26#6 => .ok (.lwr (rtOf w) (rsOf w) (immOf w))
  | 0x27#6 => .ok (.lwu (rtOf w) (rsOf w) (immOf w))
  | 0x28#6 => .ok (.sb (rtOf w) (rsOf w) (immOf w))
  | 0x29#6 => .ok (.sh (rtOf w) (rsOf w) (immOf w))
  | 0x2A#6 => .ok (.swl (rtOf w) (rsOf w) (immOf w))
  | 0x2B#6 => .ok (.sw (rtOf w) (rsOf w) (immOf w))
  | 0x2C#6 => .ok (.sdl (rtOf w) (rsOf w) (immOf w))
  | 0x2D#6 => .ok (.sdr (rtOf w) (rsOf w) (immOf w))
  | 0x2E#6 => .ok (.swr (rtOf w) (rsOf w) (immOf w))
  | 0x2F#6 => .ok (.cache (rtOf w) (rsOf w) (immOf w))
  | 0x30#6 => .ok (.ll (rtOf w) (rsOf w) (immOf w))
  | 0x31#6 => .ok (.lwc1 (rtOf w) (rsOf w) (immOf w))
  | 0x32#6 => .ok (.lwc2 (rtOf w) (rsOf w) (immOf w))
  | 0x34#6 => .ok (.lld (rtOf w) (rsOf w) (immOf w))
  | 0x35#6 => .ok (.ldc1 (rtOf w) (rsOf w) (immOf w))
  | 0x36#6 => .ok (.ldc2 (rtOf w) (rsOf w) (immOf w))
  | 0x37#6 => .ok (.ld (rtOf w) (rsOf w) (immOf w))
  | 0x38#6 => .ok (.sc (rtOf w) (rsOf w) (immOf w))
  | 0x39#6 => .ok (.swc1 (rtOf w) (rsOf w) (immOf w))
  | 0x3A#6 => .ok (.swc2 (rtOf w) (rsOf w) (immOf w))
  | 0x3C#6 => .ok (.scd (rtOf w) (rsOf w) (immOf w))
  | 0x3D#6 => .ok (.sdc1 (rtOf w) (rsOf w) (immOf w))
  | 0x3E#6 => .ok (.sdc2 (rtOf w) (rsOf w) (immOf w))
  | 0x3F#6 => .ok (.sd (rtOf w) (rsOf w) (immOf w))
  | _ => .error .general

/-- The decoder on bytes, the word's most significant byte first (R180, 20_memory.md rule R103). -/
def decodeBytes : List Byte → Except Reserved Instr
  | [b0, b1, b2, b3] => decode (b0 ++ b1 ++ b2 ++ b3)
  | _ => .error .notAWord

/-- The bytes of a word as the hardware stores it, most significant first (R180, 20_memory.md rule R104). -/
def wordBytes (w : BitVec 32) : List Byte :=
  [w.extractLsb' 24 8, w.extractLsb' 16 8, w.extractLsb' 8 8, w.extractLsb' 0 8]

/-- The instruction the decoder reads from a table row's `nbits` low bits `w`, the bits above them 0. -/
def decodeTableWord (nbits w : Nat) : Option Instr :=
  match decodeBytes (wordBytes (BitVec.ofNat 32 (w % 2 ^ nbits))) with
  | .ok i => some i
  | .error _ => none

/-! The encoder: the formats of R181, the fields a format fixes at 0 written as 0 (notes/assumptions/17.md). -/

/-- The R format with `op` = 0 (SPECIAL). -/
def encodeR (rs rt rd sa : BitVec 5) (funct : BitVec 6) : BitVec 32 :=
  0#6 ++ rs ++ rt ++ rd ++ sa ++ funct
/-- The I format, also REGIMM with `op` = 1 and `rt` the sub-opcode. -/
def encodeI (op : BitVec 6) (rs rt : BitVec 5) (imm : BitVec 16) : BitVec 32 :=
  op ++ rs ++ rt ++ imm
/-- The J format, also a COP1 word with bits 25:0. -/
def encodeJ (op : BitVec 6) (target : BitVec 26) : BitVec 32 :=
  op ++ target
/-- SYSCALL and BREAK: `code` in bits 25:6. -/
def encodeCode (code : BitVec 20) (funct : BitVec 6) : BitVec 32 :=
  0#6 ++ code ++ funct
/-- The register trap forms: `code` in bits 15:6. -/
def encodeTrap (rs rt : BitVec 5) (code : BitVec 10) (funct : BitVec 6) : BitVec 32 :=
  0#6 ++ rs ++ rt ++ code ++ funct
/-- The COP move format. -/
def encodeCop (op : BitVec 6) (sub rt rd : BitVec 5) : BitVec 32 :=
  op ++ sub ++ rt ++ rd ++ 0#11
/-- The COP function format of COP0: `CO` = 1. -/
def encodeCop0Function (funct : BitVec 6) : BitVec 32 :=
  0x10#6 ++ 1#1 ++ 0#19 ++ funct

/-- The word of an instruction (R181, R185–R189). -/
def encode : Instr → BitVec 32
  | .sll rd rt sa => encodeR 0 rt rd sa 0x00
  | .srl rd rt sa => encodeR 0 rt rd sa 0x02
  | .sra rd rt sa => encodeR 0 rt rd sa 0x03
  | .sllv rd rt rs => encodeR rs rt rd 0 0x04
  | .srlv rd rt rs => encodeR rs rt rd 0 0x06
  | .srav rd rt rs => encodeR rs rt rd 0 0x07
  | .jr rs => encodeR rs 0 0 0 0x08
  | .jalr rd rs => encodeR rs 0 rd 0 0x09
  | .syscall code => encodeCode code 0x0C
  | .brk code => encodeCode code 0x0D
  | .sync => encodeR 0 0 0 0 0x0F
  | .mfhi rd => encodeR 0 0 rd 0 0x10
  | .mthi rs => encodeR rs 0 0 0 0x11
  | .mflo rd => encodeR 0 0 rd 0 0x12
  | .mtlo rs => encodeR rs 0 0 0 0x13
  | .dsllv rd rt rs => encodeR rs rt rd 0 0x14
  | .dsrlv rd rt rs => encodeR rs rt rd 0 0x16
  | .dsrav rd rt rs => encodeR rs rt rd 0 0x17
  | .mult rs rt => encodeR rs rt 0 0 0x18
  | .multu rs rt => encodeR rs rt 0 0 0x19
  | .div rs rt => encodeR rs rt 0 0 0x1A
  | .divu rs rt => encodeR rs rt 0 0 0x1B
  | .dmult rs rt => encodeR rs rt 0 0 0x1C
  | .dmultu rs rt => encodeR rs rt 0 0 0x1D
  | .ddiv rs rt => encodeR rs rt 0 0 0x1E
  | .ddivu rs rt => encodeR rs rt 0 0 0x1F
  | .add rd rs rt => encodeR rs rt rd 0 0x20
  | .addu rd rs rt => encodeR rs rt rd 0 0x21
  | .sub rd rs rt => encodeR rs rt rd 0 0x22
  | .subu rd rs rt => encodeR rs rt rd 0 0x23
  | .and rd rs rt => encodeR rs rt rd 0 0x24
  | .or rd rs rt => encodeR rs rt rd 0 0x25
  | .xor rd rs rt => encodeR rs rt rd 0 0x26
  | .nor rd rs rt => encodeR rs rt rd 0 0x27
  | .slt rd rs rt => encodeR rs rt rd 0 0x2A
  | .sltu rd rs rt => encodeR rs rt rd 0 0x2B
  | .dadd rd rs rt => encodeR rs rt rd 0 0x2C
  | .daddu rd rs rt => encodeR rs rt rd 0 0x2D
  | .dsub rd rs rt => encodeR rs rt rd 0 0x2E
  | .dsubu rd rs rt => encodeR rs rt rd 0 0x2F
  | .tge rs rt code => encodeTrap rs rt code 0x30
  | .tgeu rs rt code => encodeTrap rs rt code 0x31
  | .tlt rs rt code => encodeTrap rs rt code 0x32
  | .tltu rs rt code => encodeTrap rs rt code 0x33
  | .teq rs rt code => encodeTrap rs rt code 0x34
  | .tne rs rt code => encodeTrap rs rt code 0x36
  | .dsll rd rt sa => encodeR 0 rt rd sa 0x38
  | .dsrl rd rt sa => encodeR 0 rt rd sa 0x3A
  | .dsra rd rt sa => encodeR 0 rt rd sa 0x3B
  | .dsll32 rd rt sa => encodeR 0 rt rd sa 0x3C
  | .dsrl32 rd rt sa => encodeR 0 rt rd sa 0x3E
  | .dsra32 rd rt sa => encodeR 0 rt rd sa 0x3F
  | .bltz rs imm => encodeI 0x01 rs 0x00 imm
  | .bgez rs imm => encodeI 0x01 rs 0x01 imm
  | .bltzl rs imm => encodeI 0x01 rs 0x02 imm
  | .bgezl rs imm => encodeI 0x01 rs 0x03 imm
  | .tgei rs imm => encodeI 0x01 rs 0x08 imm
  | .tgeiu rs imm => encodeI 0x01 rs 0x09 imm
  | .tlti rs imm => encodeI 0x01 rs 0x0A imm
  | .tltiu rs imm => encodeI 0x01 rs 0x0B imm
  | .teqi rs imm => encodeI 0x01 rs 0x0C imm
  | .tnei rs imm => encodeI 0x01 rs 0x0E imm
  | .bltzal rs imm => encodeI 0x01 rs 0x10 imm
  | .bgezal rs imm => encodeI 0x01 rs 0x11 imm
  | .bltzall rs imm => encodeI 0x01 rs 0x12 imm
  | .bgezall rs imm => encodeI 0x01 rs 0x13 imm
  | .j target => encodeJ 0x02 target
  | .jal target => encodeJ 0x03 target
  | .beq rs rt imm => encodeI 0x04 rs rt imm
  | .bne rs rt imm => encodeI 0x05 rs rt imm
  | .blez rs imm => encodeI 0x06 rs 0 imm
  | .bgtz rs imm => encodeI 0x07 rs 0 imm
  | .addi rt rs imm => encodeI 0x08 rs rt imm
  | .addiu rt rs imm => encodeI 0x09 rs rt imm
  | .slti rt rs imm => encodeI 0x0A rs rt imm
  | .sltiu rt rs imm => encodeI 0x0B rs rt imm
  | .andi rt rs imm => encodeI 0x0C rs rt imm
  | .ori rt rs imm => encodeI 0x0D rs rt imm
  | .xori rt rs imm => encodeI 0x0E rs rt imm
  | .lui rt imm => encodeI 0x0F 0 rt imm
  | .beql rs rt imm => encodeI 0x14 rs rt imm
  | .bnel rs rt imm => encodeI 0x15 rs rt imm
  | .blezl rs imm => encodeI 0x16 rs 0 imm
  | .bgtzl rs imm => encodeI 0x17 rs 0 imm
  | .daddi rt rs imm => encodeI 0x18 rs rt imm
  | .daddiu rt rs imm => encodeI 0x19 rs rt imm
  | .ldl rt base offset => encodeI 0x1A base rt offset
  | .ldr rt base offset => encodeI 0x1B base rt offset
  | .lb rt base offset => encodeI 0x20 base rt offset
  | .lh rt base offset => encodeI 0x21 base rt offset
  | .lwl rt base offset => encodeI 0x22 base rt offset
  | .lw rt base offset => encodeI 0x23 base rt offset
  | .lbu rt base offset => encodeI 0x24 base rt offset
  | .lhu rt base offset => encodeI 0x25 base rt offset
  | .lwr rt base offset => encodeI 0x26 base rt offset
  | .lwu rt base offset => encodeI 0x27 base rt offset
  | .sb rt base offset => encodeI 0x28 base rt offset
  | .sh rt base offset => encodeI 0x29 base rt offset
  | .swl rt base offset => encodeI 0x2A base rt offset
  | .sw rt base offset => encodeI 0x2B base rt offset
  | .sdl rt base offset => encodeI 0x2C base rt offset
  | .sdr rt base offset => encodeI 0x2D base rt offset
  | .swr rt base offset => encodeI 0x2E base rt offset
  | .cache op base offset => encodeI 0x2F base op offset
  | .ll rt base offset => encodeI 0x30 base rt offset
  | .lwc1 ft base offset => encodeI 0x31 base ft offset
  | .lwc2 rt base offset => encodeI 0x32 base rt offset
  | .lld rt base offset => encodeI 0x34 base rt offset
  | .ldc1 ft base offset => encodeI 0x35 base ft offset
  | .ldc2 rt base offset => encodeI 0x36 base rt offset
  | .ld rt base offset => encodeI 0x37 base rt offset
  | .sc rt base offset => encodeI 0x38 base rt offset
  | .swc1 ft base offset => encodeI 0x39 base ft offset
  | .swc2 rt base offset => encodeI 0x3A base rt offset
  | .scd rt base offset => encodeI 0x3C base rt offset
  | .sdc1 ft base offset => encodeI 0x3D base ft offset
  | .sdc2 rt base offset => encodeI 0x3E base rt offset
  | .sd rt base offset => encodeI 0x3F base rt offset
  | .mfc0 rt rd => encodeCop 0x10 0x00 rt rd
  | .dmfc0 rt rd => encodeCop 0x10 0x01 rt rd
  | .mtc0 rt rd => encodeCop 0x10 0x04 rt rd
  | .dmtc0 rt rd => encodeCop 0x10 0x05 rt rd
  | .tlbr => encodeCop0Function 0x01
  | .tlbwi => encodeCop0Function 0x02
  | .tlbwr => encodeCop0Function 0x06
  | .tlbp => encodeCop0Function 0x08
  | .eret => encodeCop0Function 0x18
  | .cop1 bits => encodeJ 0x11 bits
  | .mfc2 rt rd => encodeCop 0x12 0x00 rt rd
  | .dmfc2 rt rd => encodeCop 0x12 0x01 rt rd
  | .cfc2 rt rd => encodeCop 0x12 0x02 rt rd
  | .dcfc2 rt rd => encodeCop 0x12 0x03 rt rd
  | .mtc2 rt rd => encodeCop 0x12 0x04 rt rd
  | .dmtc2 rt rd => encodeCop 0x12 0x05 rt rd
  | .ctc2 rt rd => encodeCop 0x12 0x06 rt rd
  | .dctc2 rt rd => encodeCop 0x12 0x07 rt rd

/-- The mask and match of `i`'s row of opcode_table.json (R192): the bits that select it, and their values. -/
def tableRow : Instr → BitVec 32 × BitVec 32
  | .sll .. => (0xFC00003F#32, 0x00000000#32)
  | .srl .. => (0xFC00003F#32, 0x00000002#32)
  | .sra .. => (0xFC00003F#32, 0x00000003#32)
  | .sllv .. => (0xFC00003F#32, 0x00000004#32)
  | .srlv .. => (0xFC00003F#32, 0x00000006#32)
  | .srav .. => (0xFC00003F#32, 0x00000007#32)
  | .jr .. => (0xFC00003F#32, 0x00000008#32)
  | .jalr .. => (0xFC00003F#32, 0x00000009#32)
  | .syscall .. => (0xFC00003F#32, 0x0000000C#32)
  | .brk .. => (0xFC00003F#32, 0x0000000D#32)
  | .sync => (0xFC00003F#32, 0x0000000F#32)
  | .mfhi .. => (0xFC00003F#32, 0x00000010#32)
  | .mthi .. => (0xFC00003F#32, 0x00000011#32)
  | .mflo .. => (0xFC00003F#32, 0x00000012#32)
  | .mtlo .. => (0xFC00003F#32, 0x00000013#32)
  | .dsllv .. => (0xFC00003F#32, 0x00000014#32)
  | .dsrlv .. => (0xFC00003F#32, 0x00000016#32)
  | .dsrav .. => (0xFC00003F#32, 0x00000017#32)
  | .mult .. => (0xFC00003F#32, 0x00000018#32)
  | .multu .. => (0xFC00003F#32, 0x00000019#32)
  | .div .. => (0xFC00003F#32, 0x0000001A#32)
  | .divu .. => (0xFC00003F#32, 0x0000001B#32)
  | .dmult .. => (0xFC00003F#32, 0x0000001C#32)
  | .dmultu .. => (0xFC00003F#32, 0x0000001D#32)
  | .ddiv .. => (0xFC00003F#32, 0x0000001E#32)
  | .ddivu .. => (0xFC00003F#32, 0x0000001F#32)
  | .add .. => (0xFC00003F#32, 0x00000020#32)
  | .addu .. => (0xFC00003F#32, 0x00000021#32)
  | .sub .. => (0xFC00003F#32, 0x00000022#32)
  | .subu .. => (0xFC00003F#32, 0x00000023#32)
  | .and .. => (0xFC00003F#32, 0x00000024#32)
  | .or .. => (0xFC00003F#32, 0x00000025#32)
  | .xor .. => (0xFC00003F#32, 0x00000026#32)
  | .nor .. => (0xFC00003F#32, 0x00000027#32)
  | .slt .. => (0xFC00003F#32, 0x0000002A#32)
  | .sltu .. => (0xFC00003F#32, 0x0000002B#32)
  | .dadd .. => (0xFC00003F#32, 0x0000002C#32)
  | .daddu .. => (0xFC00003F#32, 0x0000002D#32)
  | .dsub .. => (0xFC00003F#32, 0x0000002E#32)
  | .dsubu .. => (0xFC00003F#32, 0x0000002F#32)
  | .tge .. => (0xFC00003F#32, 0x00000030#32)
  | .tgeu .. => (0xFC00003F#32, 0x00000031#32)
  | .tlt .. => (0xFC00003F#32, 0x00000032#32)
  | .tltu .. => (0xFC00003F#32, 0x00000033#32)
  | .teq .. => (0xFC00003F#32, 0x00000034#32)
  | .tne .. => (0xFC00003F#32, 0x00000036#32)
  | .dsll .. => (0xFC00003F#32, 0x00000038#32)
  | .dsrl .. => (0xFC00003F#32, 0x0000003A#32)
  | .dsra .. => (0xFC00003F#32, 0x0000003B#32)
  | .dsll32 .. => (0xFC00003F#32, 0x0000003C#32)
  | .dsrl32 .. => (0xFC00003F#32, 0x0000003E#32)
  | .dsra32 .. => (0xFC00003F#32, 0x0000003F#32)
  | .bltz .. => (0xFC1F0000#32, 0x04000000#32)
  | .bgez .. => (0xFC1F0000#32, 0x04010000#32)
  | .bltzl .. => (0xFC1F0000#32, 0x04020000#32)
  | .bgezl .. => (0xFC1F0000#32, 0x04030000#32)
  | .tgei .. => (0xFC1F0000#32, 0x04080000#32)
  | .tgeiu .. => (0xFC1F0000#32, 0x04090000#32)
  | .tlti .. => (0xFC1F0000#32, 0x040A0000#32)
  | .tltiu .. => (0xFC1F0000#32, 0x040B0000#32)
  | .teqi .. => (0xFC1F0000#32, 0x040C0000#32)
  | .tnei .. => (0xFC1F0000#32, 0x040E0000#32)
  | .bltzal .. => (0xFC1F0000#32, 0x04100000#32)
  | .bgezal .. => (0xFC1F0000#32, 0x04110000#32)
  | .bltzall .. => (0xFC1F0000#32, 0x04120000#32)
  | .bgezall .. => (0xFC1F0000#32, 0x04130000#32)
  | .j .. => (0xFC000000#32, 0x08000000#32)
  | .jal .. => (0xFC000000#32, 0x0C000000#32)
  | .beq .. => (0xFC000000#32, 0x10000000#32)
  | .bne .. => (0xFC000000#32, 0x14000000#32)
  | .blez .. => (0xFC000000#32, 0x18000000#32)
  | .bgtz .. => (0xFC000000#32, 0x1C000000#32)
  | .addi .. => (0xFC000000#32, 0x20000000#32)
  | .addiu .. => (0xFC000000#32, 0x24000000#32)
  | .slti .. => (0xFC000000#32, 0x28000000#32)
  | .sltiu .. => (0xFC000000#32, 0x2C000000#32)
  | .andi .. => (0xFC000000#32, 0x30000000#32)
  | .ori .. => (0xFC000000#32, 0x34000000#32)
  | .xori .. => (0xFC000000#32, 0x38000000#32)
  | .lui .. => (0xFC000000#32, 0x3C000000#32)
  | .beql .. => (0xFC000000#32, 0x50000000#32)
  | .bnel .. => (0xFC000000#32, 0x54000000#32)
  | .blezl .. => (0xFC000000#32, 0x58000000#32)
  | .bgtzl .. => (0xFC000000#32, 0x5C000000#32)
  | .daddi .. => (0xFC000000#32, 0x60000000#32)
  | .daddiu .. => (0xFC000000#32, 0x64000000#32)
  | .ldl .. => (0xFC000000#32, 0x68000000#32)
  | .ldr .. => (0xFC000000#32, 0x6C000000#32)
  | .lb .. => (0xFC000000#32, 0x80000000#32)
  | .lh .. => (0xFC000000#32, 0x84000000#32)
  | .lwl .. => (0xFC000000#32, 0x88000000#32)
  | .lw .. => (0xFC000000#32, 0x8C000000#32)
  | .lbu .. => (0xFC000000#32, 0x90000000#32)
  | .lhu .. => (0xFC000000#32, 0x94000000#32)
  | .lwr .. => (0xFC000000#32, 0x98000000#32)
  | .lwu .. => (0xFC000000#32, 0x9C000000#32)
  | .sb .. => (0xFC000000#32, 0xA0000000#32)
  | .sh .. => (0xFC000000#32, 0xA4000000#32)
  | .swl .. => (0xFC000000#32, 0xA8000000#32)
  | .sw .. => (0xFC000000#32, 0xAC000000#32)
  | .sdl .. => (0xFC000000#32, 0xB0000000#32)
  | .sdr .. => (0xFC000000#32, 0xB4000000#32)
  | .swr .. => (0xFC000000#32, 0xB8000000#32)
  | .cache .. => (0xFC000000#32, 0xBC000000#32)
  | .ll .. => (0xFC000000#32, 0xC0000000#32)
  | .lwc1 .. => (0xFC000000#32, 0xC4000000#32)
  | .lwc2 .. => (0xFC000000#32, 0xC8000000#32)
  | .lld .. => (0xFC000000#32, 0xD0000000#32)
  | .ldc1 .. => (0xFC000000#32, 0xD4000000#32)
  | .ldc2 .. => (0xFC000000#32, 0xD8000000#32)
  | .ld .. => (0xFC000000#32, 0xDC000000#32)
  | .sc .. => (0xFC000000#32, 0xE0000000#32)
  | .swc1 .. => (0xFC000000#32, 0xE4000000#32)
  | .swc2 .. => (0xFC000000#32, 0xE8000000#32)
  | .scd .. => (0xFC000000#32, 0xF0000000#32)
  | .sdc1 .. => (0xFC000000#32, 0xF4000000#32)
  | .sdc2 .. => (0xFC000000#32, 0xF8000000#32)
  | .sd .. => (0xFC000000#32, 0xFC000000#32)
  | .mfc0 .. => (0xFFE00000#32, 0x40000000#32)
  | .dmfc0 .. => (0xFFE00000#32, 0x40200000#32)
  | .mtc0 .. => (0xFFE00000#32, 0x40800000#32)
  | .dmtc0 .. => (0xFFE00000#32, 0x40A00000#32)
  | .tlbr => (0xFE00003F#32, 0x42000001#32)
  | .tlbwi => (0xFE00003F#32, 0x42000002#32)
  | .tlbwr => (0xFE00003F#32, 0x42000006#32)
  | .tlbp => (0xFE00003F#32, 0x42000008#32)
  | .eret => (0xFE00003F#32, 0x42000018#32)
  | .cop1 .. => (0xFC000000#32, 0x44000000#32)
  | .mfc2 .. => (0xFFE00000#32, 0x48000000#32)
  | .dmfc2 .. => (0xFFE00000#32, 0x48200000#32)
  | .cfc2 .. => (0xFFE00000#32, 0x48400000#32)
  | .dcfc2 .. => (0xFFE00000#32, 0x48600000#32)
  | .mtc2 .. => (0xFFE00000#32, 0x48800000#32)
  | .dmtc2 .. => (0xFFE00000#32, 0x48A00000#32)
  | .ctc2 .. => (0xFFE00000#32, 0x48C00000#32)
  | .dctc2 .. => (0xFFE00000#32, 0x48E00000#32)

end Sys2Proof
end

