-- ==== Sys2Proof/Machine/Operands.lean ====
section
/-! DEFINITION. Operand forms (30_encoding.md rule R183) and the extension notation of 00_scope.md rule R12. -/

namespace Sys2Proof.Machine

/-- `sext_32(v)` of a 32-bit value. -/
def sext32 (v : BitVec 32) : Word := v.signExtend 64
/-- `zext_32(v)` of a 32-bit value. -/
def zext32 (v : BitVec 32) : Word := v.setWidth 64
/-- `v[31:0]`. -/
def lo32 (v : Word) : BitVec 32 := v.setWidth 32
/-- `sext_16(imm)` (`simm`, R183). -/
def simm (imm : Imm16) : Word := imm.signExtend 64
/-- `zext_16(imm)` (`zimm`, R183). -/
def zimm (imm : Imm16) : Word := imm.setWidth 64
/-- `sext_32(imm ++ 0x0000)` (`luimm`, R183). -/
def luimm (imm : Imm16) : Word := sext32 (imm ++ 0#16)
/-- `sext_16(imm) << 2`, the byte offset of a branch (R183). -/
def branchOffset (imm : Imm16) : Word := simm imm <<< 2
/-- The target of J and JAL from the delay slot's address: its upper 36 bits and `target << 2` (R183, R297). -/
def jumpTarget (slot : Word) (target : BitVec 26) : Word :=
  (slot &&& 0xFFFFFFFFF0000000) ||| (target.setWidth 64 <<< 2)
/-- `sa`, 0..31 (R183). -/
def shamt (sa : BitVec 5) : Nat := sa.toNat
/-- `sa + 32`, 32..63 (R183). -/
def shamt32 (sa : BitVec 5) : Nat := sa.toNat + 32
/-- `x[rs][4:0]` (R183). -/
def varShamt32 (v : Word) : Nat := (v.extractLsb' 0 5).toNat
/-- `x[rs][5:0]` (R183). -/
def varShamt64 (v : Word) : Nat := (v.extractLsb' 0 6).toNat

/-- How a loaded value is widened to a register: `sext_8`, `sext_16`, `sext_32`, or as it stands (R342–R348). -/
inductive LoadExt where
  | s8
  | s16
  | s32
  | zero
deriving DecidableEq, Repr

/-- The widened value; a read's value comes zero-extended to a doubleword. -/
def LoadExt.apply : LoadExt → Word → Word
  | .s8, v => (v.setWidth 8).signExtend 64
  | .s16, v => (v.setWidth 16).signExtend 64
  | .s32, v => (v.setWidth 32).signExtend 64
  | .zero, v => v

/-! The merges of the partial loads and stores (R349–R352, R357–R360); `k` is the byte offset of the
address in its aligned unit. -/

/-- LWL's merged word. -/
def lwlMerge (k : Nat) (w old : BitVec 32) : BitVec 32 :=
  (w <<< (8 * k)) ||| (old &&& ((1#32 <<< (8 * k)) - 1#32))
/-- LWR's merged word. -/
def lwrMerge (k : Nat) (w old : BitVec 32) : BitVec 32 :=
  (old &&& ~~~(0xFFFFFFFF#32 >>> (8 * (3 - k)))) ||| (w >>> (8 * (3 - k)))
/-- LDL's merged doubleword. -/
def ldlMerge (k : Nat) (d old : Word) : Word :=
  (d <<< (8 * k)) ||| (old &&& ((1#64 <<< (8 * k)) - 1#64))
/-- LDR's merged doubleword. -/
def ldrMerge (k : Nat) (d old : Word) : Word :=
  (old &&& ~~~(0xFFFFFFFFFFFFFFFF#64 >>> (8 * (7 - k)))) ||| (d >>> (8 * (7 - k)))
/-- SWL's value and mask. -/
def swlBits (k : Nat) (v : BitVec 32) : BitVec 32 × BitVec 32 := (v >>> (8 * k), 0xFFFFFFFF#32 >>> (8 * k))
/-- SWR's value and mask. -/
def swrBits (k : Nat) (v : BitVec 32) : BitVec 32 × BitVec 32 :=
  (v <<< (8 * (3 - k)), 0xFFFFFFFF#32 <<< (8 * (3 - k)))
/-- SDL's value and mask. -/
def sdlBits (k : Nat) (v : Word) : Word × Word := (v >>> (8 * k), 0xFFFFFFFFFFFFFFFF#64 >>> (8 * k))
/-- SDR's value and mask. -/
def sdrBits (k : Nat) (v : Word) : Word × Word :=
  (v <<< (8 * (7 - k)), 0xFFFFFFFFFFFFFFFF#64 <<< (8 * (7 - k)))

end Sys2Proof.Machine
end

