-- ==== Sys2Proof/Config.lean ====
section
/-! DEFINITION. What one launch of the hardware fixes (00_scope.md rule R10) and the free values of the spec. -/

namespace Sys2Proof

/-- The OPEN parameter `RDRAM_SIZE` (R10, decision D5): 4 MiB or 8 MiB. -/
inductive RdramSize where
  | mib4
  | mib8
deriving DecidableEq, Repr

/-- `RDRAM_SIZE` in bytes (R10). -/
def RdramSize.bytes : RdramSize → Nat
  | .mib4 => 0x400000
  | .mib8 => 0x800000

/-- The six division results MIPS III leaves unpredictable (41_muldiv.md rule R273). -/
inductive DivCase where
  | divByZeroW
  | divOverflowW
  | divuByZeroW
  | divByZeroD
  | divOverflowD
  | divuByZeroD
deriving DecidableEq, Repr

/-- The configuration `DIV_CORNER` (R273): the spec's default table, or the abstract field of which
nothing is known but that it is a function of the dividend. See notes/assumptions/7.md. -/
inductive DivCorner where
  | vr4300
  | unpredictable
deriving DecidableEq, Repr

/-- The launch parameters the step relation reads (R10, R30): the RAM size, the halting address and the
division corner results. No step changes them. See notes/assumptions/6.md. -/
structure Params where
  rdramSize : RdramSize
  haltPc : Option Word
  divCorner : DivCorner
deriving DecidableEq, Repr

namespace Config

/-- FREE VALUE: the pair (LO, HI) of an unpredictable division, a function of the case and the dividend
as a doubleword (R273; U5 of 93_implementation_defined.md). Nothing is known of it. -/
opaque divCorner : DivCase → Word → Word × Word

/-- FREE VALUE: the draws of the spec, "any 32-bit value" read from an unrecognised MI or PI offset, a PI
length register or a stale PI address register (20_memory.md rule R141, 60_exceptions.md rule R504).
Its argument is the number of draws taken before. Nothing is known of it. -/
opaque freeWord : Nat → BitVec 32

end Config

end Sys2Proof
end

