-- ==== Sys2Proof/Machine/State.lean ====
section
/-! DEFINITION. The machine's state as plain data (10_state.md rule R30), the reasons a step can stop, and
the state after reset (70_reset_and_hazards.md rules R540, R541). -/

namespace Sys2Proof.Machine

/-- A byte store: (address, byte) pairs, addresses strictly rising, no byte 0 listed; an unlisted address
reads as 0 (notes/assumptions/5.md). Its operations are in Machine/Memory.lean. -/
abbrev Memory := List Host.Cell

/-- A read-only image of `size` bytes: the cartridge ROM (20_memory.md rule R101) or the boot ROM (R102). -/
structure Image where
  size : Nat
  cells : Memory
deriving DecidableEq, Repr

/-- A pending jump: the target and the instructions remaining before it takes effect
(10_state.md rule R38; notes/assumptions/10.md). -/
structure PendingJump where
  target : Word
  remaining : Fin 2
deriving DecidableEq, Repr

/-- The stored fields of Cause (10_state.md rule R43); IP2..IP6 are not stored but read from their inputs. -/
structure Cause where
  ip0 : Bool
  ip1 : Bool
  ip7 : Bool
  excCode : BitVec 5
  ce : BitVec 2
  bd : Bool
deriving DecidableEq, Repr

/-- The CP0 registers with storage (10_state.md rules R40–R55). PRId is a constant. -/
structure Cp0 where
  badVAddr : Word
  count : BitVec 32
  compare : BitVec 32
  status : BitVec 32
  cause : Cause
  epc : Word
  /-- The last value MTC0 wrote to Config (R49). -/
  cfgW : BitVec 32
  llAddr : BitVec 32
  watchLo : BitVec 32
  watchHi : BitVec 4
  tagLo : BitVec 32
  tagHi : BitVec 32
  errorEpc : Word
deriving DecidableEq, Repr

/-- The interrupt controller (60_exceptions.md rule R500). -/
structure MiRegs where
  flags : BitVec 6
  mask : BitVec 6
  mode : BitVec 14
deriving DecidableEq, Repr

/-- The external interrupt inputs, read as Cause.IP3..IP6 (60_exceptions.md rule R505). -/
structure ExtInputs where
  ext3 : Bool
  ext4 : Bool
  ext5 : Bool
  ext6 : Bool
deriving DecidableEq, Repr

/-- The peripheral interface (20_memory.md rule R140). -/
structure PiRegs where
  dramAddr : BitVec 24
  cartAddr : BitVec 32
  busy : Bool
  completed : Bool
  addrKnown : Bool
deriving DecidableEq, Repr

/-- The interrupt sources outside the block: every one but PI (60_exceptions.md rules R500, R505). -/
inductive EnvSource where
  | sp
  | si
  | ai
  | vi
  | dp
deriving DecidableEq, Repr

/-- The external input lines (60_exceptions.md rule R505). -/
inductive ExtLine where
  | ext3
  | ext4
  | ext5
  | ext6
deriving DecidableEq, Repr

/-- One action of the environment (60_exceptions.md rule R505). -/
inductive EnvAction where
  | setFlag (source : EnvSource)
  | clearFlag (source : EnvSource)
  | setInput (line : ExtLine) (level : Bool)
deriving DecidableEq, Repr

/-- Whose step comes next (60_exceptions.md rule R530). -/
inductive Turn where
  | cpu
  | dma
  | env (action : EnvAction)
deriving DecidableEq, Repr

/-- Why a step stops with a fault. -/
inductive Fault where
  /-- SAFE. Raised by a step whose turn falls to the CPU when it is halted with no DMA in flight: the run has
  ended successfully and no agent but the environment has a step (70_reset_and_hazards.md rule R550). -/
  | halted
deriving DecidableEq, Repr

/-- Why a step has no meaning: the spec's refusals (60_exceptions.md rule R536), each SAFE: the spec itself
gives the step no successor state there (00_scope.md rule R15), so nothing can be proved past it. -/
inductive Refusal where
  /-- SAFE. An instruction whose meaning is not written: raised only by an arm of `exec`. -/
  | notModelled (mnemonic : String)
  /-- SAFE. `TLB_MAPPED_SEGMENT`: translation of kuseg with ERL = 0, ksseg or kseg3 (R111). -/
  | tlbMappedSegment
  /-- SAFE. `UNMAPPED_PHYSICAL_ADDRESS`: an access outside every range of R120 (R125). -/
  | unmappedPhysicalAddress
  /-- SAFE. `ROM_READ_BEYOND_IMAGE`: a read past the cartridge image (R122). -/
  | romReadBeyondImage
  /-- SAFE. `BOOT_ROM_READ_BEYOND_IMAGE`: a read past the boot ROM's image (R122). -/
  | bootRomReadBeyondImage
  /-- SAFE. `BOOT_ROM_ABSENT`: a boot-ROM-range read with no boot ROM (R122). -/
  | bootRomAbsent
  /-- SAFE. `MMIO_ACCESS_FORM_NOT_MODELLED`: an access to MI or PI by another form than LW, LWU or SW (R123). -/
  | mmioAccessFormNotModelled
  /-- SAFE. `FETCH_FROM_MMIO`: an instruction fetch from MI or PI (R133). -/
  | fetchFromMmio
  /-- SAFE. `PI_DMA_WHILE_BUSY`: a PI length write with a transfer in flight (R145, R146). -/
  | piDmaWhileBusy
  /-- SAFE. `CP0_REG_NOT_MODELLED`: a CP0 move naming a register outside R40's table (R401–R404). -/
  | cp0RegNotModelled
  /-- SAFE. `CP0_DOUBLE_ACCESS_NOT_MODELLED`: DMFC0 or DMTC0 of a 32-bit register (R403, R404). -/
  | cp0DoubleAccessNotModelled
  /-- SAFE. `WATCH_NOT_MODELLED`: MTC0 WatchLo arming a watchpoint (R55, R406). -/
  | watchNotModelled
  /-- SAFE. `TLB_NOT_MODELLED`: TLBR, TLBWI, TLBWR, TLBP past the CP0 check (R407–R410). -/
  | tlbNotModelled
  /-- SAFE. `TRAP_NOT_MODELLED`: a trap instruction whose condition holds (R420). -/
  | trapNotModelled
  /-- SAFE. `FPU_NOT_MODELLED`: a COP1 instruction with CU1 = 1 (R440). -/
  | fpuNotModelled
  /-- SAFE. `BRANCH_IN_DELAY_SLOT`: a branch, jump or ERET in a delay slot (R294, R411). -/
  | branchInDelaySlot
  /-- SAFE. `JALR_RD_EQUALS_RS`: JALR linking to its source (R303). -/
  | jalrRdEqualsRs
  /-- SAFE. `BEV_VECTORS_NOT_MODELLED`: exception entry with Status.BEV = 1 (R480). -/
  | bevVectorsNotModelled
  /-- SAFE. `SUPERVISOR_MODE_NOT_MODELLED`: a CPU step with KSU 01 or 11 and EXL = ERL = 0 (R520). -/
  | supervisorModeNotModelled
  /-- SAFE. `KX_64BIT_ADDRESSING_NOT_MODELLED`: a kernel-mode CPU step with KX = 1 (R520). -/
  | kx64BitAddressingNotModelled
  /-- SAFE. `UX_64BIT_ADDRESSING_NOT_MODELLED`: a user-mode CPU step with UX = 1 (R520). -/
  | ux64BitAddressingNotModelled
  /-- SAFE. `REVERSE_ENDIAN_NOT_MODELLED`: a user-mode CPU step with RE = 1 (R520). -/
  | reverseEndianNotModelled
deriving DecidableEq, Repr


/-- The machine state (10_state.md rule R30). The refusal mark is the outcome `refused`
(notes/assumptions/2.md); `schedule` and `draws` are the model's own (notes/assumptions/1.md, 8.md). -/
structure State where
  /-- `x[0]`..`x[31]` (R31); entry 0 is never read (Machine/Ops.lean). -/
  regs : Vector Word 32
  hi : Word
  lo : Word
  pc : Word
  pending : Option PendingJump
  llBit : Bool
  cop2Latch : Word
  cp0 : Cp0
  mi : MiRegs
  ext : ExtInputs
  pi : PiRegs
  dmaInflight : Bool
  /-- RAM by offset 0..RDRAM_SIZE−1 (20_memory.md rule R100). -/
  ram : Memory
  /-- The cartridge ROM (R101). -/
  rom : Image
  /-- The boot ROM, or none (R102). -/
  bootRom : Option Image
  /-- The launch parameters the step reads (00_scope.md rule R10). -/
  params : Params
  /-- The coming turns of the agents, oldest first; when empty, the default turn (notes/assumptions/1.md). -/
  schedule : List Turn
  /-- How many free values have been drawn (notes/assumptions/8.md). -/
  draws : Nat
deriving DecidableEq, Repr

/-- Cause with every stored field 0 (R540). -/
def Cause.reset : Cause := ⟨false, false, false, 0, 0, false⟩

/-- The CP0 registers after reset (R540). -/
def Cp0.reset : Cp0 where
  badVAddr := 0
  count := 0
  compare := 0
  status := 0
  cause := Cause.reset
  epc := 0
  cfgW := 0
  llAddr := 0
  watchLo := 0
  watchHi := 0
  tagLo := 0
  tagHi := 0
  errorEpc := 0

/-- The MIPS reset vector: the boot ROM's first byte through kseg1 (R541). -/
def resetVector : Word := 0xFFFFFFFFBFC00000

/-- The machine right after a low-level power-on (R540, R541): every register 0, the pc at the reset vector.
The launch parameters are those of notes/assumptions/4.md: RAM, the cartridge ROM (0 bytes) and the boot
ROM (0x7C0 bytes) with nothing listed, 4 MiB of RAM, no HALT_PC, the spec's default division corners. -/
def State.reset : State where
  regs := Vector.replicate 32 0
  hi := 0
  lo := 0
  pc := resetVector
  pending := none
  llBit := false
  cop2Latch := 0
  cp0 := Cp0.reset
  mi := ⟨0, 0, 0⟩
  ext := ⟨false, false, false, false⟩
  pi := ⟨0, 0, false, false, true⟩
  dmaInflight := false
  ram := []
  rom := ⟨0, []⟩
  bootRom := some ⟨0x7C0, []⟩
  params := ⟨.mib4, none, .vr4300⟩
  schedule := []
  draws := 0

end Sys2Proof.Machine
end

