-- ==== Sys2Proof/Machine/Flags.lean ====
section
/-! DEFINITION. The general registers have no condition codes (10_state.md rule R39); the flags are the Status
and Cause fields, the mode and the interrupt condition computed from them, and signed overflow. -/

namespace Sys2Proof.Machine

/-! The Status fields with an effect (10_state.md rule R41). -/

/-- Status.IE. -/
def State.ie (s : State) : Bool := s.cp0.status.getLsbD 0
/-- Status.EXL. -/
def State.exl (s : State) : Bool := s.cp0.status.getLsbD 1
/-- Status.ERL. -/
def State.erl (s : State) : Bool := s.cp0.status.getLsbD 2
/-- Status.KSU. -/
def State.ksu (s : State) : BitVec 2 := s.cp0.status.extractLsb' 3 2
/-- Status.UX. -/
def State.ux (s : State) : Bool := s.cp0.status.getLsbD 5
/-- Status.KX. -/
def State.kx (s : State) : Bool := s.cp0.status.getLsbD 7
/-- Status.IM7..IM0. -/
def State.im (s : State) : BitVec 8 := s.cp0.status.extractLsb' 8 8
/-- Status.BEV. -/
def State.bev (s : State) : Bool := s.cp0.status.getLsbD 22
/-- Status.RE. -/
def State.re (s : State) : Bool := s.cp0.status.getLsbD 25
/-- Status.CU0. -/
def State.cu0 (s : State) : Bool := s.cp0.status.getLsbD 28
/-- Status.CU1. -/
def State.cu1 (s : State) : Bool := s.cp0.status.getLsbD 29
/-- Status.CU2. -/
def State.cu2 (s : State) : Bool := s.cp0.status.getLsbD 30

/-- Status with EXL set. -/
def setExl (status : BitVec 32) : BitVec 32 := status ||| 0x2#32
/-- Status with EXL cleared. -/
def clearExl (status : BitVec 32) : BitVec 32 := status &&& ~~~0x2#32
/-- Status with ERL cleared. -/
def clearErl (status : BitVec 32) : BitVec 32 := status &&& ~~~0x4#32

/-- The modes (10_state.md rule R42); `unmodelled` is KSU 01 or 11 with EXL = ERL = 0. -/
inductive Mode where
  | kernel
  | user
  | unmodelled
deriving DecidableEq, Repr

/-- The current mode, computed from Status (R42). -/
def State.mode (s : State) : Mode :=
  if s.exl || s.erl || s.ksu == 0#2 then .kernel
  else if s.ksu == 2#2 then .user
  else .unmodelled

/-- The interrupt controller's line, `(MI.flags & MI.mask) != 0` (60_exceptions.md rule R503). -/
def MiRegs.line (m : MiRegs) : Bool := (m.flags &&& m.mask) != 0

/-- Cause.IP7..IP0 (10_state.md rule R43). -/
def State.ip (s : State) : BitVec 8 :=
  BitVec.ofBool s.cp0.cause.ip7 ++ BitVec.ofBool s.ext.ext6 ++ BitVec.ofBool s.ext.ext5
    ++ BitVec.ofBool s.ext.ext4 ++ BitVec.ofBool s.ext.ext3 ++ BitVec.ofBool s.mi.line
    ++ BitVec.ofBool s.cp0.cause.ip1 ++ BitVec.ofBool s.cp0.cause.ip0

/-- The 32-bit read value of Cause (R43, 44_system.md rule R405). -/
def State.causeWord (s : State) : BitVec 32 :=
  BitVec.ofBool s.cp0.cause.bd ++ 0#1 ++ s.cp0.cause.ce ++ 0#12 ++ s.ip ++ 0#1 ++ s.cp0.cause.excCode ++ 0#2

/-- `InterruptPending()` (60_exceptions.md rule R471). -/
def State.interruptPending (s : State) : Bool :=
  s.ie && !s.exl && !s.erl && ((s.ip &&& s.im) != 0)

/-- The exact result `v` is outside the signed range of `n` bits (40_alu.md rule R200). -/
def overflows (n : Nat) (v : Int) : Bool := decide (v < -2 ^ (n - 1)) || decide (v > 2 ^ (n - 1) - 1)

end Sys2Proof.Machine
end

