-- ==== Sys2Proof/Machine/Memory.lean ====
section
/-! DEFINITION. Byte stores: what an unlisted byte reads as, reading, writing, big-endian wide accesses and the
block copy (20_memory.md rules R100–R104, R147). -/

namespace Sys2Proof.Machine

/-- What a byte that nothing has written reads as (notes/assumptions/5.md). -/
def unlistedByte : Byte := 0

/-- The byte at `a`. -/
def Memory.read : Memory → Nat → Byte
  | [], _ => unlistedByte
  | (k, v) :: m, a => if a = k then v else Memory.read m a

/-- The store with `b` at `a`, in canonical form. -/
def Memory.write : Memory → Nat → Byte → Memory
  | [], a, b => if b = unlistedByte then [] else [(a, b)]
  | (k, v) :: m, a, b =>
    if a < k then (if b = unlistedByte then (k, v) :: m else (a, b) :: (k, v) :: m)
    else if a = k then (if b = unlistedByte then m else (a, b) :: m)
    else (k, v) :: Memory.write m a b

/-- Every listed address is at least `lo`, they rise strictly, and no listed byte is the unlisted one. -/
def Memory.wfFrom : Nat → Memory → Bool
  | _, [] => true
  | lo, (k, v) :: m => decide (lo ≤ k) && (v != unlistedByte) && Memory.wfFrom (k + 1) m

/-- The canonical form. -/
def Memory.wf (m : Memory) : Bool := Memory.wfFrom 0 m

/-- Every listed address is below `size`. -/
def Memory.below (m : Memory) (size : Nat) : Bool := m.all fun c => decide (c.1 < size)

/-- The `n` bytes at `addr 0 .. addr (n-1)`, the first most significant, as a doubleword zero-extended
(`BE_n`, R103, R104). -/
def Memory.readBE (m : Memory) (addr : Nat → Nat) : Nat → Word
  | 0 => 0
  | n + 1 => (Memory.readBE m addr n <<< 8) ||| (m.read (addr n)).setWidth 64

/-- The low `n` bytes of `v` written at `addr 0 .. addr (n-1)`, the most significant first (`BYTES_n`, R104). -/
def Memory.writeBE (m : Memory) (addr : Nat → Nat) : Nat → Word → Memory
  | 0, _ => m
  | n + 1, v => (Memory.writeBE m addr n (v >>> 8)).write (addr n) (v.setWidth 8)

/-- The store with bytes `dst .. dst+n-1` copied from `src .. src+n-1` of another (`Transfer`, R147). -/
def Memory.copyFrom (source : Memory) (src : Nat) (dest : Memory) (dst n : Nat) : Memory :=
  dest.filter (fun c => decide (c.1 < dst))
    ++ ((source.filter fun c => decide (src ≤ c.1 ∧ c.1 < src + n)).map fun c => (c.1 - src + dst, c.2))
    ++ dest.filter (fun c => decide (dst + n ≤ c.1))

end Sys2Proof.Machine
end

