-- ==== Sys2Proof/Machine/Ops.lean ====
section
/-! DEFINITION. The named operations on registers, the exceptions and how an instruction ends, taking an
exception and returning from one, the pending jump, the timer and the interrupt flags. -/

namespace Sys2Proof.Machine

/-! ### General registers (10_state.md rule R31) -/

/-- `x[r]`: register 0 reads as 0. -/
def State.gpr (s : State) (r : RegIdx) : Word :=
  if r = 0#5 then 0#64 else s.regs[r.toNat]'r.isLt

/-- `x[r] <- v`: a write of register 0 is discarded. -/
def State.setGpr (s : State) (r : RegIdx) (v : Word) : State :=
  if r = 0#5 then s else { s with regs := s.regs.set r.toNat v r.isLt }

/-- `HI <- hi; LO <- lo` (R34). -/
def State.setHiLo (s : State) (hi lo : Word) : State := { s with hi := hi, lo := lo }

/-! ### Exceptions and stops -/

/-- The exceptions with what each reports (60_exceptions.md rule R472). -/
inductive Exc where
  | interrupt
  | addressErrorLoad (va : Word)
  | addressErrorStore (va : Word)
  | systemCall
  | breakpoint
  | reservedInstruction
  | coprocessorUnusable (unit : BitVec 2)
  | integerOverflow
deriving DecidableEq, Repr

/-- The ExcCode (R472). -/
def Exc.code : Exc → BitVec 5
  | .interrupt => 0
  | .addressErrorLoad _ => 4
  | .addressErrorStore _ => 5
  | .systemCall => 8
  | .breakpoint => 9
  | .reservedInstruction => 10
  | .coprocessorUnusable _ => 11
  | .integerOverflow => 12

/-- What ends an instruction early: `raise E(info)` or `refuse NAME` (00_scope.md rule R15). -/
inductive Stop where
  | raise (e : Exc)
  | refuse (r : Refusal)
deriving DecidableEq, Repr

/-- An operation's result: a value, or an early end before any write (R15). -/
abbrev Result (α : Type) := Except Stop α

/-- `raise e`. -/
def raise {α : Type} (e : Exc) : Result α := .error (.raise e)
/-- `refuse r`. -/
def refuse {α : Type} (r : Refusal) : Result α := .error (.refuse r)

/-- The vector of every exception (60_exceptions.md rule R480). -/
def exceptionVector : Word := 0xFFFFFFFF80000180

/-- BadVAddr after exception `e` (R480, R481). -/
def Exc.badVAddr (e : Exc) (old : Word) : Word :=
  match e with
  | .addressErrorLoad va => va
  | .addressErrorStore va => va
  | .interrupt | .systemCall | .breakpoint | .reservedInstruction | .coprocessorUnusable _
  | .integerOverflow => old

/-- Cause.CE after exception `e` (R480). -/
def Exc.causeCe (e : Exc) (old : BitVec 2) : BitVec 2 :=
  match e with
  | .coprocessorUnusable unit => unit
  | .interrupt | .addressErrorLoad _ | .addressErrorStore _ | .systemCall | .breakpoint
  | .reservedInstruction | .integerOverflow => old

/-- The CP0 registers after exception entry (R480): EPC and BD only when EXL was 0, then ExcCode, CE,
BadVAddr and EXL. -/
def Cp0.enter (c : Cp0) (e : Exc) (a : Word) (bd exl : Bool) : Cp0 :=
  { c with
    epc := if exl then c.epc else if bd then a - 4 else a
    badVAddr := e.badVAddr c.badVAddr
    status := setExl c.status
    cause := { c.cause with
      bd := if exl then c.cause.bd else bd
      excCode := e.code
      ce := e.causeCe c.cause.ce } }

/-- The state after entry of `e`, raised at `a`, in a delay slot iff `bd` (R480). -/
def State.enter (s : State) (e : Exc) (a : Word) (bd : Bool) : State :=
  { s with cp0 := s.cp0.enter e a bd s.exl, pending := none, pc := exceptionVector }

/-- `TakeException(E, a, bd)` (R480): the one way an exception is taken. -/
def State.takeException (s : State) (e : Exc) (a : Word) (bd : Bool) : Host.Outcome State Fault Refusal :=
  if s.bev then .refused .bevVectorsNotModelled else .next (s.enter e a bd)

/-- The return of ERET (44_system.md rule R411): to ErrorEPC clearing ERL, or to EPC clearing EXL;
LLbit and the pending jump are cleared. -/
def State.exceptionReturn (s : State) : State :=
  if s.erl then
    { s with pc := s.cp0.errorEpc, cp0 := { s.cp0 with status := clearErl s.cp0.status }
             llBit := false, pending := none }
  else
    { s with pc := s.cp0.epc, cp0 := { s.cp0 with status := clearExl s.cp0.status }
             llBit := false, pending := none }

/-! ### The executing instruction (42_control.md rule R290; notes/assumptions/9.md) -/

/-- `cur` during the execute phase, where `pc = cur + 4` (R35). -/
def State.cur (s : State) : Word := s.pc - 4

/-- `in_delay` after phase 1: a jump is pending with 0 instructions remaining (R290). -/
def State.inDelay (s : State) : Bool :=
  match s.pending with
  | some p => p.remaining == 0
  | none => false

/-- An early end at `a` turned into an outcome: an exception is taken, a refusal refuses (R15, R290). -/
def State.stopAt (s : State) (a : Word) (bd : Bool) : Stop → Host.Outcome State Fault Refusal
  | .raise e => s.takeException e a bd
  | .refuse r => .refused r

/-- How an instruction executed in `s` ends (R290 phase 4). -/
def State.complete (s : State) : Result State → Host.Outcome State Fault Refusal
  | .ok t => .next t
  | .error x => s.stopAt s.cur s.inDelay x

/-! ### Jumps -/

/-- `ScheduleJump(t)` (42_control.md rule R291). -/
def State.scheduleJump (s : State) (target : Word) : State :=
  { s with pending := some ⟨target, 1⟩ }

/-- `NextInstruction()` (42_control.md rule R292). -/
def State.nextInstruction (s : State) : Word × Bool :=
  match s.pending with
  | none => (s.pc, false)
  | some p => if p.remaining = 0 then (p.target, false) else (s.pc, true)

/-- Phase 1 of the CPU step (R290): redirect to a jump that is due, or count it down. -/
def State.advancePending (s : State) : State :=
  match s.pending with
  | none => s
  | some p => if p.remaining = 0 then { s with pc := p.target, pending := none }
              else { s with pending := some ⟨p.target, 0⟩ }

/-- Refuse a branch, jump or ERET in a delay slot (42_control.md rule R294). -/
def State.notInDelaySlot (s : State) : Result Unit :=
  if s.inDelay then refuse .branchInDelaySlot else .ok ()

/-! ### Checks that precede an instruction's effect -/

/-- `CP0UsableCheck()` (44_system.md rule R400). -/
def State.cp0UsableCheck (s : State) : Result Unit :=
  if s.mode = .kernel ∨ s.cu0 = true then .ok () else raise (.coprocessorUnusable 0)

/-- `CP1UsableCheck()` (45_coprocessors.md rule R440). -/
def State.cp1UsableCheck (s : State) : Result Unit :=
  if s.cu1 then refuse .fpuNotModelled else raise (.coprocessorUnusable 1)

/-- `CP2UsableCheck()` (45_coprocessors.md rule R450). -/
def State.cp2UsableCheck (s : State) : Result Unit :=
  if s.cu2 then .ok () else raise (.coprocessorUnusable 2)

/-- A doubleword instruction raises ReservedInstruction in user mode (40_alu.md rule R245). -/
def State.doublewordCheck (s : State) : Result Unit :=
  if s.mode = .user then raise .reservedInstruction else .ok ()

/-! ### The timer, the interrupt flags, the environment and the draws -/

/-- `TimerTick()` (60_exceptions.md rule R510). -/
def State.tick (s : State) : State :=
  { s with cp0 := { s.cp0 with
      count := s.cp0.count - 1
      cause := { s.cp0.cause with ip7 := s.cp0.cause.ip7 || s.cp0.count == 0 } } }

/-- The source numbers of the interrupt controller (R500): 0 SP, 1 SI, 2 AI, 3 VI, 5 DP. -/
def EnvSource.bit : EnvSource → Nat
  | .sp => 0
  | .si => 1
  | .ai => 2
  | .vi => 3
  | .dp => 5

/-- The PI source's number (R500). -/
def piSource : Nat := 4

/-- `SetFlag(i)` on the raw flags (R501). -/
def setFlagBit (flags : BitVec 6) (i : Nat) : BitVec 6 := flags ||| (1#6 <<< i)
/-- `ClearFlag(i)` on the raw flags (R501). -/
def clearFlagBit (flags : BitVec 6) (i : Nat) : BitVec 6 := flags &&& ~~~(1#6 <<< i)

/-- `SetFlag(i)` (R501). -/
def State.setFlag (s : State) (i : Nat) : State := { s with mi := { s.mi with flags := setFlagBit s.mi.flags i } }
/-- `ClearFlag(i)` (R501). -/
def State.clearFlag (s : State) (i : Nat) : State :=
  { s with mi := { s.mi with flags := clearFlagBit s.mi.flags i } }

/-- One external input driven (R505). -/
def ExtInputs.drive (x : ExtInputs) (line : ExtLine) (level : Bool) : ExtInputs :=
  match line with
  | .ext3 => { x with ext3 := level }
  | .ext4 => { x with ext4 := level }
  | .ext5 => { x with ext5 := level }
  | .ext6 => { x with ext6 := level }

/-- The environment agent's step (R505). -/
def State.environment (s : State) : EnvAction → State
  | .setFlag src => s.setFlag src.bit
  | .clearFlag src => s.clearFlag src.bit
  | .setInput line level => { s with ext := s.ext.drive line level }

/-- The DMA engine's step: completion (20_memory.md rule R148). -/
def State.dmaCompletion (s : State) : State :=
  { (s.setFlag piSource) with pi := { s.pi with busy := false, completed := true }, dmaInflight := false }

/-- A draw: any 32-bit value, a fresh one each time (20_memory.md rule R141; notes/assumptions/8.md). -/
def State.draw (s : State) : BitVec 32 × State := (Config.freeWord s.draws, { s with draws := s.draws + 1 })

/-- `StepStartChecks()` (60_exceptions.md rule R520): the refusal of an unmodelled configuration, if any. -/
def State.startRefusal (s : State) : Option Refusal :=
  match s.mode with
  | .unmodelled => some .supervisorModeNotModelled
  | .kernel => if s.kx then some .kx64BitAddressingNotModelled else none
  | .user =>
    if s.ux then some .ux64BitAddressingNotModelled
    else if s.re then some .reverseEndianNotModelled
    else none

/-- `Halted()` (70_reset_and_hazards.md rule R550). -/
def State.halted (s : State) : Bool :=
  match s.params.haltPc with
  | none => false
  | some a => s.nextInstruction == (a, false)

end Sys2Proof.Machine
end

