-- ==== Sys2Proof/Machine/Bus.lean ====
section
/-! DEFINITION. Address translation, the physical map, the MI and PI registers, the DMA engine's copy and the
access primitives (20_memory.md, 60_exceptions.md section 3). -/

namespace Sys2Proof.Machine

/-! ### Translation (20_memory.md rules R110–R114) -/

/-- The kinds of access (R111). -/
inductive AccessKind where
  | fetch
  | load
  | store
deriving DecidableEq, Repr

/-- `AddrErr(kind, va)` (R114). -/
def AccessKind.addressError (kind : AccessKind) (va : Word) : Exc :=
  match kind with
  | .fetch => .addressErrorLoad va
  | .load => .addressErrorLoad va
  | .store => .addressErrorStore va

/-- `Translate(va, kind)` (R111): a physical address, an address error, or a refused mapped segment. -/
def State.translate (s : State) (kind : AccessKind) (va : Word) : Result (BitVec 32) :=
  if va ≠ sext32 (lo32 va) then raise (kind.addressError va)
  else if s.mode = .user ∧ (lo32 va).msb = true then raise (kind.addressError va)
  else if 0x80000000#32 ≤ lo32 va ∧ lo32 va ≤ 0x9FFFFFFF#32 then .ok (lo32 va - 0x80000000#32)
  else if 0xA0000000#32 ≤ lo32 va ∧ lo32 va ≤ 0xBFFFFFFF#32 then .ok (lo32 va - 0xA0000000#32)
  else if lo32 va ≤ 0x7FFFFFFF#32 ∧ s.erl = true then .ok (lo32 va)
  else refuse .tlbMappedSegment

/-- The alignment check, then translation (R130, R131, R340): `n` is the width in bytes. -/
def State.alignedAddress (s : State) (kind : AccessKind) (n : Nat) (va : Word) : Result (BitVec 32) :=
  if va.toNat % n ≠ 0 then raise (kind.addressError va) else s.translate kind va

/-! ### The physical map (20_memory.md rules R120–R125) -/

/-- The regions, each with the address's offset in it. -/
inductive Region where
  | ram (offset : Nat)
  | mi (offset : Nat)
  | pi (offset : Nat)
  | rom (offset : Nat)
  | bootRom (offset : Nat)
  | unmapped
deriving DecidableEq, Repr

/-- The region of a physical address (R120). -/
def regionOf (p : Nat) : Region :=
  if p ≤ 0x03EFFFFF then .ram p
  else if 0x04300000 ≤ p ∧ p ≤ 0x043FFFFF then .mi (p - 0x04300000)
  else if 0x04600000 ≤ p ∧ p ≤ 0x046FFFFF then .pi (p - 0x04600000)
  else if 0x10000000 ≤ p ∧ p ≤ 0x1FBFFFFF then .rom (p - 0x10000000)
  else if 0x1FC00000 ≤ p ∧ p ≤ 0x1FC007BF then .bootRom (p - 0x1FC00000)
  else .unmapped

/-- `RDRAM_SIZE`. -/
def State.ramSize (s : State) : Nat := s.params.rdramSize.bytes

/-- The RAM byte that RAM address `p + i` reaches: it wraps modulo the size (R100, R121). -/
def State.ramByte (s : State) (p i : Nat) : Nat := (p + i) % s.ramSize

/-- The `n` bytes of RAM at offset `p` (R121). -/
def State.readRam (s : State) (p n : Nat) : Word := s.ram.readBE (s.ramByte p) n

/-- RAM with the low `n` bytes of `v` at offset `p` (R121). -/
def State.writeRam (s : State) (p n : Nat) (v : Word) : State :=
  { s with ram := s.ram.writeBE (s.ramByte p) n v }

/-- The `n` bytes of an image at `o`, if they lie inside it (R122). -/
def Image.readBE (m : Image) (o n : Nat) (beyond : Refusal) : Result Word :=
  if o + n ≤ m.size then .ok (m.cells.readBE (fun i => o + i) n) else refuse beyond

/-- One byte as memory holds it at a physical address: RAM or an image's byte, nothing elsewhere. -/
def State.byteAt (s : State) (p : Nat) : Option Byte :=
  match regionOf p with
  | .ram o => some (s.ram.read (o % s.ramSize))
  | .rom o => if o < s.rom.size then some (s.rom.cells.read o) else none
  | .bootRom o =>
    match s.bootRom with
    | some m => if o < m.size then some (m.cells.read o) else none
    | none => none
  | .mi _ | .pi _ | .unmapped => none

/-! ### The interrupt controller's registers (60_exceptions.md rules R502, R504) -/

/-- The mask after a write of `v` to MI_INTR_MASK: for each source clear is checked first (R502). -/
def writeMask (mask : BitVec 6) (v : BitVec 32) : BitVec 6 :=
  let bit (i : Nat) : BitVec 1 := BitVec.ofBool (!v.getLsbD (2 * i) && (v.getLsbD (2 * i + 1) || mask.getLsbD i))
  bit 5 ++ bit 4 ++ bit 3 ++ bit 2 ++ bit 1 ++ bit 0

/-- A mode bit after a write with a clear bit and a set bit, clear checked first (R504). -/
def clearSet (clear set old : Bool) : Bool := !clear && (set || old)

/-- MI.mode after a write of `v` to MI_MODE (R504). -/
def writeMode (mode : BitVec 14) (v : BitVec 32) : BitVec 14 :=
  mode.extractLsb' 10 4
    ++ BitVec.ofBool (clearSet (v.getLsbD 12) (v.getLsbD 13) (mode.getLsbD 9))
    ++ BitVec.ofBool (clearSet (v.getLsbD 9) (v.getLsbD 10) (mode.getLsbD 8))
    ++ BitVec.ofBool (clearSet (v.getLsbD 7) (v.getLsbD 8) (mode.getLsbD 7))
    ++ v.extractLsb' 0 7

/-- MI_VERSION (R504). -/
def miVersion : BitVec 32 := 0x02020102

/-- A word read of an MI register (R504); an unrecognised offset gives a draw. -/
def State.readMi (s : State) (offset : Nat) : BitVec 32 × State :=
  match offset with
  | 0x0 => ((s.mi.mode.extractLsb' 0 10).setWidth 32, s)
  | 0x4 => (miVersion, s)
  | 0x8 => (s.mi.flags.setWidth 32, s)
  | 0xC => (s.mi.mask.setWidth 32, s)
  | _ => s.draw

/-- A word write of an MI register (R502, R504). -/
def State.writeMi (s : State) (offset : Nat) (v : BitVec 32) : State :=
  match offset with
  | 0x0 =>
    { s with mi := { s.mi with
        mode := writeMode s.mi.mode v
        flags := if v.getLsbD 11 then clearFlagBit s.mi.flags EnvSource.dp.bit else s.mi.flags } }
  | 0xC => { s with mi := { s.mi with mask := writeMask s.mi.mask v } }
  | _ => s

/-! ### The peripheral interface and the DMA engine (20_memory.md rules R140–R152) -/

/-- PI_STATUS's read value (R142). -/
def PiRegs.status (p : PiRegs) : BitVec 32 :=
  0#28 ++ BitVec.ofBool p.completed ++ 0#2 ++ BitVec.ofBool p.busy

/-- A word read of a PI register (R141, R142, R150). -/
def State.readPi (s : State) (offset : Nat) : BitVec 32 × State :=
  match offset with
  | 0x00 => if s.pi.addrKnown then (s.pi.dramAddr.setWidth 32, s) else s.draw
  | 0x04 => if s.pi.addrKnown then (s.pi.cartAddr, s) else s.draw
  | 0x10 => (s.pi.status, s)
  | _ => s.draw

/-- `cart_offset(c)` (R145); `none` is `NO_REGION`. -/
def cartOffset (c : BitVec 32) : Option Nat :=
  if 0x10000000 ≤ c.toNat ∧ c.toNat ≤ 0x1FBFFFFF then some (c.toNat - 0x10000000) else none

/-- How many bytes a cartridge→RAM transfer of `len` bytes copies (R147, R152). -/
def transferBytes (len romSize srcOffset ramSize dstOffset : Nat) : Nat :=
  min len (min (romSize - srcOffset) (ramSize - dstOffset % ramSize))

/-- `Transfer(ROM, RAM, len, cart_offset(cart), dram)` (R147). -/
def State.transferToRam (s : State) (len : Nat) (cart : BitVec 32) (dram : BitVec 24) : State :=
  match cartOffset cart with
  | none => s
  | some o =>
    { s with ram := Memory.copyFrom s.rom.cells o s.ram (dram.toNat % s.ramSize)
               (transferBytes len s.rom.size o s.ramSize dram.toNat) }

/-- What every transfer trigger does to the status and the flag (R145, R146). -/
def State.startDma (s : State) : State :=
  { (s.clearFlag piSource) with
      pi := { s.pi with busy := true, completed := false, addrKnown := false }
      dmaInflight := true }

/-- A write of `v` to PI_WR_LEN (R145). -/
def State.writeWrLen (s : State) (v : BitVec 32) : Result State :=
  if s.dmaInflight then refuse .piDmaWhileBusy
  else .ok (s.transferToRam ((v.extractLsb' 0 24).toNat + 1) s.pi.cartAddr s.pi.dramAddr).startDma

/-- A write to PI_RD_LEN (R146): no bytes are copied. -/
def State.writeRdLen (s : State) : Result State :=
  if s.dmaInflight then refuse .piDmaWhileBusy else .ok s.startDma

/-- A write of `v` to PI_STATUS (R149): the reset bit wins over the clear-interrupt bit. -/
def State.writePiStatus (s : State) (v : BitVec 32) : State :=
  if v.getLsbD 0 then
    { (s.clearFlag piSource) with pi := { s.pi with busy := false, completed := false }, dmaInflight := false }
  else if v.getLsbD 1 then
    { (s.clearFlag piSource) with pi := { s.pi with completed := false } }
  else s

/-- A word write of a PI register (R143–R150). -/
def State.writePi (s : State) (offset : Nat) (v : BitVec 32) : Result State :=
  match offset with
  | 0x00 => .ok { s with pi := { s.pi with dramAddr := v.extractLsb' 0 24, addrKnown := true } }
  | 0x04 => .ok { s with pi := { s.pi with cartAddr := v, addrKnown := true } }
  | 0x08 => s.writeRdLen
  | 0x0C => s.writeWrLen v
  | 0x10 => .ok (s.writePiStatus v)
  | _ => .ok s

/-! ### Physical accesses (20_memory.md rules R121–R125) -/

/-- The forms of access the MI and PI ranges tell apart (R123): LW, LWU and SW, or any other. -/
inductive AccessForm where
  | word
  | other
deriving DecidableEq, Repr

/-- `PhysRead(p, n)`: the value zero-extended, and the state, changed only by a draw (R136). -/
def State.physRead (s : State) (form : AccessForm) (p n : Nat) : Result (Word × State) :=
  match regionOf p with
  | .ram o => .ok (s.readRam o n, s)
  | .mi o =>
    match form with
    | .word => .ok (zext32 (s.readMi o).1, (s.readMi o).2)
    | .other => refuse .mmioAccessFormNotModelled
  | .pi o =>
    match form with
    | .word => .ok (zext32 (s.readPi o).1, (s.readPi o).2)
    | .other => refuse .mmioAccessFormNotModelled
  | .rom o => (s.rom.readBE o n .romReadBeyondImage).map fun v => (v, s)
  | .bootRom o =>
    match s.bootRom with
    | none => refuse .bootRomAbsent
    | some m => (m.readBE o n .bootRomReadBeyondImage).map fun v => (v, s)
  | .unmapped => refuse .unmappedPhysicalAddress

/-- `PhysWrite(p, n, v)`: a write to either ROM is ignored (R124). -/
def State.physWrite (s : State) (form : AccessForm) (p n : Nat) (v : Word) : Result State :=
  match regionOf p with
  | .ram o => .ok (s.writeRam o n v)
  | .mi o =>
    match form with
    | .word => .ok (s.writeMi o (lo32 v))
    | .other => refuse .mmioAccessFormNotModelled
  | .pi o =>
    match form with
    | .word => s.writePi o (lo32 v)
    | .other => refuse .mmioAccessFormNotModelled
  | .rom _ => .ok s
  | .bootRom _ => .ok s
  | .unmapped => refuse .unmappedPhysicalAddress

/-- The masked write of an aligned unit (R132): RAM bytes are merged, a ROM write is ignored unread
(notes/assumptions/13.md). -/
def State.physWriteMasked (s : State) (p n : Nat) (v mask : Word) : Result State :=
  match regionOf p with
  | .ram o => .ok (s.writeRam o n ((s.readRam o n &&& ~~~mask) ||| (v &&& mask)))
  | .mi _ => refuse .mmioAccessFormNotModelled
  | .pi _ => refuse .mmioAccessFormNotModelled
  | .rom _ => .ok s
  | .bootRom _ => .ok s
  | .unmapped => refuse .unmappedPhysicalAddress

/-! ### Access primitives (20_memory.md rules R130–R133) -/

/-- `MemRead(va, n)` (R130). -/
def State.memRead (s : State) (form : AccessForm) (n : Nat) (va : Word) : Result (Word × State) :=
  (s.alignedAddress .load n va).bind fun p => s.physRead form p.toNat n

/-- `MemWrite(va, n, v)` (R131). -/
def State.memWrite (s : State) (form : AccessForm) (n : Nat) (va v : Word) : Result State :=
  (s.alignedAddress .store n va).bind fun p => s.physWrite form p.toNat n v

/-- The physical address of the aligned unit of `n` bytes that `p` lies in. -/
def unitAddress (p : BitVec 32) (n : Nat) : Nat := p.toNat - p.toNat % n

/-- The read of the aligned unit around `va` (R349–R352); an address error reports `va` itself (R481). -/
def State.unitRead (s : State) (n : Nat) (va : Word) : Result (Word × State) :=
  (s.translate .load va).bind fun p => s.physRead .other (unitAddress p n) n

/-- `MemWriteMasked` of the aligned unit around `va` (R132, R357–R360); an address error reports `va` (R481). -/
def State.memWriteMasked (s : State) (n : Nat) (va v mask : Word) : Result State :=
  (s.translate .store va).bind fun p => s.physWriteMasked (unitAddress p n) n v mask

/-- `Fetch(va)` (R133; the refusal's name: notes/assumptions/12.md). -/
def State.fetch (s : State) (va : Word) : Result (BitVec 32) :=
  (s.alignedAddress .fetch 4 va).bind fun p =>
    match regionOf p.toNat with
    | .mi _ => refuse .fetchFromMmio
    | .pi _ => refuse .fetchFromMmio
    | .ram _ | .rom _ | .bootRom _ | .unmapped => (s.physRead .other p.toNat 4).map fun r => lo32 r.1

/-- The state with the word `w` stored where `Fetch(va)` finds it, an image grown to hold it; unchanged
where no fetch of `va` completes. -/
def State.placeWord (s : State) (va : Word) (w : BitVec 32) : State :=
  match s.translate .fetch va with
  | .error _ => s
  | .ok p =>
    match regionOf p.toNat with
    | .ram o => s.writeRam o 4 (zext32 w)
    | .rom o =>
      { s with rom := ⟨max s.rom.size (o + 4), s.rom.cells.writeBE (fun i => o + i) 4 (zext32 w)⟩ }
    | .bootRom o =>
      match s.bootRom with
      | none => { s with bootRom := some ⟨o + 4, Memory.writeBE [] (fun i => o + i) 4 (zext32 w)⟩ }
      | some m => { s with bootRom := some ⟨max m.size (o + 4), m.cells.writeBE (fun i => o + i) 4 (zext32 w)⟩ }
    | .mi _ | .pi _ | .unmapped => s

end Sys2Proof.Machine
end

