-- ==== Sys2Proof/Machine/Alu.lean ====
section
/-! DEFINITION. Arithmetic, compare and logical instructions (40_alu.md rules R200–R227). -/

namespace Sys2Proof.Machine

/-- `x[rd] <- v` and the instruction ends. -/
def State.finishGpr (s : State) (rd : RegIdx) (v : Word) : Host.Outcome State Fault Refusal :=
  s.complete (.ok (s.setGpr rd v))

/-- As `finishGpr`, for a doubleword instruction (R245). -/
def State.finishGprDouble (s : State) (rd : RegIdx) (v : Word) : Host.Outcome State Fault Refusal :=
  s.complete (s.doublewordCheck.bind fun _ => .ok (s.setGpr rd v))

/-- The exact result `v` of a trapping word operation (R200): IntegerOverflow, or its sign-extended word. -/
def State.trappingWord (s : State) (rd : RegIdx) (v : Int) : Host.Outcome State Fault Refusal :=
  s.complete (if overflows 32 v then raise .integerOverflow else .ok (s.setGpr rd (sext32 (BitVec.ofInt 32 v))))

/-- The exact result `v` of a trapping doubleword operation (R200, R245). -/
def State.trappingDouble (s : State) (rd : RegIdx) (v : Int) : Host.Outcome State Fault Refusal :=
  s.complete (s.doublewordCheck.bind fun _ =>
    if overflows 64 v then raise .integerOverflow else .ok (s.setGpr rd (BitVec.ofInt 64 v)))

/-- 1 if the condition holds, else 0 (R215). -/
def boolWord (c : Bool) : Word := if c then 1 else 0

/-- ADD (R201). -/
def execAdd (rd rs rt : RegIdx) (s : State) : Host.Outcome State Fault Refusal :=
  s.trappingWord rd ((lo32 (s.gpr rs)).toInt + (lo32 (s.gpr rt)).toInt)

/-- ADDU (R202). -/
def execAddu (rd rs rt : RegIdx) (s : State) : Host.Outcome State Fault Refusal :=
  s.finishGpr rd (sext32 (lo32 (s.gpr rs) + lo32 (s.gpr rt)))

/-- SUB (R203). -/
def execSub (rd rs rt : RegIdx) (s : State) : Host.Outcome State Fault Refusal :=
  s.trappingWord rd ((lo32 (s.gpr rs)).toInt - (lo32 (s.gpr rt)).toInt)

/-- SUBU (R204). -/
def execSubu (rd rs rt : RegIdx) (s : State) : Host.Outcome State Fault Refusal :=
  s.finishGpr rd (sext32 (lo32 (s.gpr rs) - lo32 (s.gpr rt)))

/-- DADD (R205). -/
def execDadd (rd rs rt : RegIdx) (s : State) : Host.Outcome State Fault Refusal :=
  s.trappingDouble rd ((s.gpr rs).toInt + (s.gpr rt).toInt)

/-- DADDU (R206). -/
def execDaddu (rd rs rt : RegIdx) (s : State) : Host.Outcome State Fault Refusal :=
  s.finishGprDouble rd (s.gpr rs + s.gpr rt)

/-- DSUB (R207). -/
def execDsub (rd rs rt : RegIdx) (s : State) : Host.Outcome State Fault Refusal :=
  s.trappingDouble rd ((s.gpr rs).toInt - (s.gpr rt).toInt)

/-- DSUBU (R208). -/
def execDsubu (rd rs rt : RegIdx) (s : State) : Host.Outcome State Fault Refusal :=
  s.finishGprDouble rd (s.gpr rs - s.gpr rt)

/-- ADDI (R210). -/
def execAddi (rt rs : RegIdx) (imm : Imm16) (s : State) : Host.Outcome State Fault Refusal :=
  s.trappingWord rt ((lo32 (s.gpr rs)).toInt + (lo32 (simm imm)).toInt)

/-- ADDIU (R211). -/
def execAddiu (rt rs : RegIdx) (imm : Imm16) (s : State) : Host.Outcome State Fault Refusal :=
  s.finishGpr rt (sext32 (lo32 (s.gpr rs) + lo32 (simm imm)))

/-- DADDI (R212). -/
def execDaddi (rt rs : RegIdx) (imm : Imm16) (s : State) : Host.Outcome State Fault Refusal :=
  s.trappingDouble rt ((s.gpr rs).toInt + (simm imm).toInt)

/-- DADDIU (R213). -/
def execDaddiu (rt rs : RegIdx) (imm : Imm16) (s : State) : Host.Outcome State Fault Refusal :=
  s.finishGprDouble rt (s.gpr rs + simm imm)

/-- SLT (R215). -/
def execSlt (rd rs rt : RegIdx) (s : State) : Host.Outcome State Fault Refusal :=
  s.finishGpr rd (boolWord ((s.gpr rs).slt (s.gpr rt)))

/-- SLTU (R216). -/
def execSltu (rd rs rt : RegIdx) (s : State) : Host.Outcome State Fault Refusal :=
  s.finishGpr rd (boolWord ((s.gpr rs).ult (s.gpr rt)))

/-- SLTI (R217). -/
def execSlti (rt rs : RegIdx) (imm : Imm16) (s : State) : Host.Outcome State Fault Refusal :=
  s.finishGpr rt (boolWord ((s.gpr rs).slt (simm imm)))

/-- SLTIU (R218): the immediate is sign-extended, then compared unsigned. -/
def execSltiu (rt rs : RegIdx) (imm : Imm16) (s : State) : Host.Outcome State Fault Refusal :=
  s.finishGpr rt (boolWord ((s.gpr rs).ult (simm imm)))

/-- AND (R220). -/
def execAnd (rd rs rt : RegIdx) (s : State) : Host.Outcome State Fault Refusal :=
  s.finishGpr rd (s.gpr rs &&& s.gpr rt)

/-- OR (R221). -/
def execOr (rd rs rt : RegIdx) (s : State) : Host.Outcome State Fault Refusal :=
  s.finishGpr rd (s.gpr rs ||| s.gpr rt)

/-- XOR (R222). -/
def execXor (rd rs rt : RegIdx) (s : State) : Host.Outcome State Fault Refusal :=
  s.finishGpr rd (s.gpr rs ^^^ s.gpr rt)

/-- NOR (R223). -/
def execNor (rd rs rt : RegIdx) (s : State) : Host.Outcome State Fault Refusal :=
  s.finishGpr rd (~~~(s.gpr rs ||| s.gpr rt))

/-- ANDI (R224). -/
def execAndi (rt rs : RegIdx) (imm : Imm16) (s : State) : Host.Outcome State Fault Refusal :=
  s.finishGpr rt (s.gpr rs &&& zimm imm)

/-- ORI (R225). -/
def execOri (rt rs : RegIdx) (imm : Imm16) (s : State) : Host.Outcome State Fault Refusal :=
  s.finishGpr rt (s.gpr rs ||| zimm imm)

/-- XORI (R226). -/
def execXori (rt rs : RegIdx) (imm : Imm16) (s : State) : Host.Outcome State Fault Refusal :=
  s.finishGpr rt (s.gpr rs ^^^ zimm imm)

/-- LUI (R227). -/
def execLui (rt : RegIdx) (imm : Imm16) (s : State) : Host.Outcome State Fault Refusal :=
  s.finishGpr rt (luimm imm)

end Sys2Proof.Machine
end

