-- ==== Sys2Proof/Machine/Control.lean ====
section
/-! DEFINITION. Jumps and branches (42_control.md rules R294–R319). -/

namespace Sys2Proof.Machine

/-- The target of a PC-relative branch, from the delay slot's address `pc` (R297). -/
def State.branchTarget (s : State) (imm : Imm16) : Word := s.pc + branchOffset imm

/-- The link value, the address after the delay slot (R296). -/
def State.linkValue (s : State) : Word := s.pc + 4

/-- A jump to `t` if the condition holds (R304). -/
def State.jumpIf (s : State) (taken : Bool) (t : Word) : State := if taken then s.scheduleJump t else s

/-- As `jumpIf`; not taken, the delay slot is nullified (R295). -/
def State.jumpLikely (s : State) (taken : Bool) (t : Word) : State :=
  if taken then s.scheduleJump t else { s with pc := s.pc + 4 }

/-- A plain branch (R294, R304–R309). -/
def State.branch (s : State) (taken : Bool) (imm : Imm16) : Host.Outcome State Fault Refusal :=
  s.complete (s.notInDelaySlot.bind fun _ => .ok (s.jumpIf taken (s.branchTarget imm)))

/-- A branch-likely (R294, R312–R317). -/
def State.branchLikely (s : State) (taken : Bool) (imm : Imm16) : Host.Outcome State Fault Refusal :=
  s.complete (s.notInDelaySlot.bind fun _ => .ok (s.jumpLikely taken (s.branchTarget imm)))

/-- A linking branch: register 31 is written whether or not it is taken (R296, R310, R311). -/
def State.branchLink (s : State) (taken : Bool) (imm : Imm16) : Host.Outcome State Fault Refusal :=
  s.complete (s.notInDelaySlot.bind fun _ =>
    .ok ((s.setGpr 31 s.linkValue).jumpIf taken (s.branchTarget imm)))

/-- A linking branch-likely (R318, R319). -/
def State.branchLinkLikely (s : State) (taken : Bool) (imm : Imm16) : Host.Outcome State Fault Refusal :=
  s.complete (s.notInDelaySlot.bind fun _ =>
    .ok ((s.setGpr 31 s.linkValue).jumpLikely taken (s.branchTarget imm)))

/-! The branch conditions on `x[rs]` as a signed number. -/

/-- `signed(v) <= 0`. -/
def lez (v : Word) : Bool := decide (v.toInt ≤ 0)
/-- `signed(v) > 0`. -/
def gtz (v : Word) : Bool := decide (0 < v.toInt)
/-- `signed(v) < 0`. -/
def ltz (v : Word) : Bool := decide (v.toInt < 0)
/-- `signed(v) >= 0`. -/
def gez (v : Word) : Bool := decide (0 ≤ v.toInt)

/-- J (R300). -/
def execJ (target : BitVec 26) (s : State) : Host.Outcome State Fault Refusal :=
  s.complete (s.notInDelaySlot.bind fun _ => .ok (s.scheduleJump (jumpTarget s.pc target)))

/-- JAL (R301). -/
def execJal (target : BitVec 26) (s : State) : Host.Outcome State Fault Refusal :=
  s.complete (s.notInDelaySlot.bind fun _ =>
    .ok ((s.setGpr 31 s.linkValue).scheduleJump (jumpTarget s.pc target)))

/-- JR (R302). -/
def execJr (rs : RegIdx) (s : State) : Host.Outcome State Fault Refusal :=
  s.complete (s.notInDelaySlot.bind fun _ => .ok (s.scheduleJump (s.gpr rs)))

/-- JALR (R303): linking to the source is refused; `rd` = 0 jumps without linking. -/
def execJalr (rd rs : RegIdx) (s : State) : Host.Outcome State Fault Refusal :=
  s.complete (s.notInDelaySlot.bind fun _ =>
    if rd = rs ∧ rd ≠ 0 then refuse .jalrRdEqualsRs
    else .ok ((s.setGpr rd s.linkValue).scheduleJump (s.gpr rs)))

/-- BEQ (R304). -/
def execBeq (rs rt : RegIdx) (imm : Imm16) (s : State) : Host.Outcome State Fault Refusal :=
  s.branch (s.gpr rs == s.gpr rt) imm

/-- BNE (R305). -/
def execBne (rs rt : RegIdx) (imm : Imm16) (s : State) : Host.Outcome State Fault Refusal :=
  s.branch (s.gpr rs != s.gpr rt) imm

/-- BLEZ (R306). -/
def execBlez (rs : RegIdx) (imm : Imm16) (s : State) : Host.Outcome State Fault Refusal :=
  s.branch (lez (s.gpr rs)) imm

/-- BGTZ (R307). -/
def execBgtz (rs : RegIdx) (imm : Imm16) (s : State) : Host.Outcome State Fault Refusal :=
  s.branch (gtz (s.gpr rs)) imm

/-- BLTZ (R308). -/
def execBltz (rs : RegIdx) (imm : Imm16) (s : State) : Host.Outcome State Fault Refusal :=
  s.branch (ltz (s.gpr rs)) imm

/-- BGEZ (R309). -/
def execBgez (rs : RegIdx) (imm : Imm16) (s : State) : Host.Outcome State Fault Refusal :=
  s.branch (gez (s.gpr rs)) imm

/-- BLTZAL (R310): the condition reads `x[rs]` before the link. -/
def execBltzal (rs : RegIdx) (imm : Imm16) (s : State) : Host.Outcome State Fault Refusal :=
  s.branchLink (ltz (s.gpr rs)) imm

/-- BGEZAL (R311): the condition reads `x[rs]` before the link. -/
def execBgezal (rs : RegIdx) (imm : Imm16) (s : State) : Host.Outcome State Fault Refusal :=
  s.branchLink (gez (s.gpr rs)) imm

/-- BEQL (R312). -/
def execBeql (rs rt : RegIdx) (imm : Imm16) (s : State) : Host.Outcome State Fault Refusal :=
  s.branchLikely (s.gpr rs == s.gpr rt) imm

/-- BNEL (R313). -/
def execBnel (rs rt : RegIdx) (imm : Imm16) (s : State) : Host.Outcome State Fault Refusal :=
  s.branchLikely (s.gpr rs != s.gpr rt) imm

/-- BLEZL (R314). -/
def execBlezl (rs : RegIdx) (imm : Imm16) (s : State) : Host.Outcome State Fault Refusal :=
  s.branchLikely (lez (s.gpr rs)) imm

/-- BGTZL (R315). -/
def execBgtzl (rs : RegIdx) (imm : Imm16) (s : State) : Host.Outcome State Fault Refusal :=
  s.branchLikely (gtz (s.gpr rs)) imm

/-- BLTZL (R316). -/
def execBltzl (rs : RegIdx) (imm : Imm16) (s : State) : Host.Outcome State Fault Refusal :=
  s.branchLikely (ltz (s.gpr rs)) imm

/-- BGEZL (R317). -/
def execBgezl (rs : RegIdx) (imm : Imm16) (s : State) : Host.Outcome State Fault Refusal :=
  s.branchLikely (gez (s.gpr rs)) imm

/-- BLTZALL (R318). -/
def execBltzall (rs : RegIdx) (imm : Imm16) (s : State) : Host.Outcome State Fault Refusal :=
  s.branchLinkLikely (ltz (s.gpr rs)) imm

/-- BGEZALL (R319). -/
def execBgezall (rs : RegIdx) (imm : Imm16) (s : State) : Host.Outcome State Fault Refusal :=
  s.branchLinkLikely (gez (s.gpr rs)) imm

end Sys2Proof.Machine
end

