-- ==== Sys2Proof/Machine/Coproc.lean ====
section
/-! DEFINITION. Coprocessor 1's usability, the coprocessor-2 move unit and the reserved words (45_coprocessors.md). -/

namespace Sys2Proof.Machine

/-- A coprocessor-1 instruction: the usability check and nothing past it (R440). -/
def State.cop1Instruction (s : State) : Host.Outcome State Fault Refusal :=
  s.complete (s.cp1UsableCheck.bind fun _ => .ok s)

/-- A move from the latch (R451–R453). -/
def State.moveFromCop2 (s : State) (rt : RegIdx) (v : Word) : Host.Outcome State Fault Refusal :=
  s.complete (s.cp2UsableCheck.bind fun _ => .ok (s.setGpr rt v))

/-- A move to the latch: all 64 bits (R454–R456). -/
def State.moveToCop2 (s : State) (rt : RegIdx) : Host.Outcome State Fault Refusal :=
  s.complete (s.cp2UsableCheck.bind fun _ => .ok { s with cop2Latch := s.gpr rt })

/-- The CU2 check, then ReservedInstruction (R457–R463). -/
def State.cop2Reserved (s : State) : Host.Outcome State Fault Refusal :=
  s.complete (s.cp2UsableCheck.bind fun _ => raise .reservedInstruction)

/-- A word of no table row (30_encoding.md rules R188–R190): the checks of its space, then
ReservedInstruction. -/
def execReserved (r : Reserved) (s : State) : Host.Outcome State Fault Refusal :=
  match r with
  | .general => s.complete (raise .reservedInstruction)
  | .cop0 => s.complete (s.cp0UsableCheck.bind fun _ => raise .reservedInstruction)
  | .cop2 => s.cop2Reserved
  | .notAWord => s.complete (raise .reservedInstruction)

/-- COP1 (R441). -/
def execCop1 (_bits : BitVec 26) (s : State) : Host.Outcome State Fault Refusal :=
  s.cop1Instruction

/-- LWC1 (R442): the address is not computed. -/
def execLwc1 (_ft _base : RegIdx) (_offset : Imm16) (s : State) : Host.Outcome State Fault Refusal :=
  s.cop1Instruction

/-- LDC1 (R443): the address is not computed. -/
def execLdc1 (_ft _base : RegIdx) (_offset : Imm16) (s : State) : Host.Outcome State Fault Refusal :=
  s.cop1Instruction

/-- SWC1 (R444): the address is not computed. -/
def execSwc1 (_ft _base : RegIdx) (_offset : Imm16) (s : State) : Host.Outcome State Fault Refusal :=
  s.cop1Instruction

/-- SDC1 (R445): the address is not computed. -/
def execSdc1 (_ft _base : RegIdx) (_offset : Imm16) (s : State) : Host.Outcome State Fault Refusal :=
  s.cop1Instruction

/-- MFC2 (R451): every `rd` reads the one latch. -/
def execMfc2 (rt _rd : RegIdx) (s : State) : Host.Outcome State Fault Refusal :=
  s.moveFromCop2 rt (sext32 (lo32 s.cop2Latch))

/-- DMFC2 (R452). -/
def execDmfc2 (rt _rd : RegIdx) (s : State) : Host.Outcome State Fault Refusal :=
  s.moveFromCop2 rt s.cop2Latch

/-- CFC2 (R453). -/
def execCfc2 (rt _rd : RegIdx) (s : State) : Host.Outcome State Fault Refusal :=
  s.moveFromCop2 rt (sext32 (lo32 s.cop2Latch))

/-- MTC2 (R454). -/
def execMtc2 (rt _rd : RegIdx) (s : State) : Host.Outcome State Fault Refusal :=
  s.moveToCop2 rt

/-- DMTC2 (R455). -/
def execDmtc2 (rt _rd : RegIdx) (s : State) : Host.Outcome State Fault Refusal :=
  s.moveToCop2 rt

/-- CTC2 (R456). -/
def execCtc2 (rt _rd : RegIdx) (s : State) : Host.Outcome State Fault Refusal :=
  s.moveToCop2 rt

/-- DCFC2 (R457). -/
def execDcfc2 (_rt _rd : RegIdx) (s : State) : Host.Outcome State Fault Refusal :=
  s.cop2Reserved

/-- DCTC2 (R458). -/
def execDctc2 (_rt _rd : RegIdx) (s : State) : Host.Outcome State Fault Refusal :=
  s.cop2Reserved

/-- LWC2 (R460): no memory access. -/
def execLwc2 (_rt _base : RegIdx) (_offset : Imm16) (s : State) : Host.Outcome State Fault Refusal :=
  s.cop2Reserved

/-- LDC2 (R461): no memory access. -/
def execLdc2 (_rt _base : RegIdx) (_offset : Imm16) (s : State) : Host.Outcome State Fault Refusal :=
  s.cop2Reserved

/-- SWC2 (R462): no memory access. -/
def execSwc2 (_rt _base : RegIdx) (_offset : Imm16) (s : State) : Host.Outcome State Fault Refusal :=
  s.cop2Reserved

/-- SDC2 (R463): no memory access. -/
def execSdc2 (_rt _base : RegIdx) (_offset : Imm16) (s : State) : Host.Outcome State Fault Refusal :=
  s.cop2Reserved

end Sys2Proof.Machine
end

