-- ==== Sys2Proof/Machine/LoadStore.lean ====
section
/-! DEFINITION. Loads and stores (43_loadstore.md rules R340–R364). -/

namespace Sys2Proof.Machine

/-- The effective address (R340). -/
def State.ea (s : State) (base : RegIdx) (offset : Imm16) : Word := s.gpr base + simm offset

/-- The byte offset of an address in its aligned unit of `n` bytes (R349, R351). -/
def unitOffset (va : Word) (n : Nat) : Nat := va.toNat % n

/-- An aligned load: the read, then the destination (R340, R342–R348). -/
def State.load (s : State) (form : AccessForm) (n : Nat) (ext : LoadExt) (rt : RegIdx) (va : Word) : Result State :=
  (s.memRead form n va).bind fun r => .ok (r.2.setGpr rt (ext.apply r.1))

/-- A partial word load: the unit is read and merged with the old low word (R349, R350). -/
def State.loadPartialWord (s : State) (merge : Nat → BitVec 32 → BitVec 32 → BitVec 32) (rt : RegIdx) (va : Word) :
    Result State :=
  (s.unitRead 4 va).bind fun r =>
    .ok (r.2.setGpr rt (sext32 (merge (unitOffset va 4) (lo32 r.1) (lo32 (s.gpr rt)))))

/-- A partial doubleword load (R351, R352). -/
def State.loadPartialDouble (s : State) (merge : Nat → Word → Word → Word) (rt : RegIdx) (va : Word) :
    Result State :=
  (s.unitRead 8 va).bind fun r => .ok (r.2.setGpr rt (merge (unitOffset va 8) r.1 (s.gpr rt)))

/-- A partial word store: value and mask from the byte offset and the low word (R357, R358). -/
def State.storePartialWord (s : State) (bits : Nat → BitVec 32 → BitVec 32 × BitVec 32) (rt : RegIdx) (va : Word) :
    Result State :=
  s.memWriteMasked 4 va (zext32 (bits (unitOffset va 4) (lo32 (s.gpr rt))).1)
    (zext32 (bits (unitOffset va 4) (lo32 (s.gpr rt))).2)

/-- A partial doubleword store (R359, R360). -/
def State.storePartialDouble (s : State) (bits : Nat → Word → Word × Word) (rt : RegIdx) (va : Word) : Result State :=
  s.memWriteMasked 8 va (bits (unitOffset va 8) (s.gpr rt)).1 (bits (unitOffset va 8) (s.gpr rt)).2

/-- A load-linked: the load, LLbit set, LLAddr the physical address shifted right by 4 (R361, R364). -/
def State.loadLinked (s : State) (n : Nat) (ext : LoadExt) (rt : RegIdx) (va : Word) : Result State :=
  (s.alignedAddress .load n va).bind fun p =>
    (s.physRead .other p.toNat n).bind fun r =>
      .ok { r.2.setGpr rt (ext.apply r.1) with llBit := true, cp0 := { s.cp0 with llAddr := p >>> 4 } }

/-- A store-conditional: with LLbit set the store and 1, else 0 and no access (R362, R363). -/
def State.storeConditional (s : State) (n : Nat) (rt : RegIdx) (va : Word) : Result State :=
  (s.alignedAddress .store n va).bind fun p =>
    if s.llBit then (s.physWrite .other p.toNat n (s.gpr rt)).bind fun t => .ok (t.setGpr rt 1)
    else .ok (s.setGpr rt 0)

/-- LB (R342). -/
def execLb (rt base : RegIdx) (offset : Imm16) (s : State) : Host.Outcome State Fault Refusal :=
  s.complete (s.load .other 1 .s8 rt (s.ea base offset))

/-- LBU (R343). -/
def execLbu (rt base : RegIdx) (offset : Imm16) (s : State) : Host.Outcome State Fault Refusal :=
  s.complete (s.load .other 1 .zero rt (s.ea base offset))

/-- LH (R344). -/
def execLh (rt base : RegIdx) (offset : Imm16) (s : State) : Host.Outcome State Fault Refusal :=
  s.complete (s.load .other 2 .s16 rt (s.ea base offset))

/-- LHU (R345). -/
def execLhu (rt base : RegIdx) (offset : Imm16) (s : State) : Host.Outcome State Fault Refusal :=
  s.complete (s.load .other 2 .zero rt (s.ea base offset))

/-- LW (R346). -/
def execLw (rt base : RegIdx) (offset : Imm16) (s : State) : Host.Outcome State Fault Refusal :=
  s.complete (s.load .word 4 .s32 rt (s.ea base offset))

/-- LWU (R347). -/
def execLwu (rt base : RegIdx) (offset : Imm16) (s : State) : Host.Outcome State Fault Refusal :=
  s.complete (s.load .word 4 .zero rt (s.ea base offset))

/-- LD (R348). -/
def execLd (rt base : RegIdx) (offset : Imm16) (s : State) : Host.Outcome State Fault Refusal :=
  s.complete (s.doublewordCheck.bind fun _ => s.load .other 8 .zero rt (s.ea base offset))

/-- LWL (R349). -/
def execLwl (rt base : RegIdx) (offset : Imm16) (s : State) : Host.Outcome State Fault Refusal :=
  s.complete (s.loadPartialWord lwlMerge rt (s.ea base offset))

/-- LWR (R350). -/
def execLwr (rt base : RegIdx) (offset : Imm16) (s : State) : Host.Outcome State Fault Refusal :=
  s.complete (s.loadPartialWord lwrMerge rt (s.ea base offset))

/-- LDL (R351). -/
def execLdl (rt base : RegIdx) (offset : Imm16) (s : State) : Host.Outcome State Fault Refusal :=
  s.complete (s.doublewordCheck.bind fun _ => s.loadPartialDouble ldlMerge rt (s.ea base offset))

/-- LDR (R352). -/
def execLdr (rt base : RegIdx) (offset : Imm16) (s : State) : Host.Outcome State Fault Refusal :=
  s.complete (s.doublewordCheck.bind fun _ => s.loadPartialDouble ldrMerge rt (s.ea base offset))

/-- SB (R353). -/
def execSb (rt base : RegIdx) (offset : Imm16) (s : State) : Host.Outcome State Fault Refusal :=
  s.complete (s.memWrite .other 1 (s.ea base offset) (s.gpr rt))

/-- SH (R354). -/
def execSh (rt base : RegIdx) (offset : Imm16) (s : State) : Host.Outcome State Fault Refusal :=
  s.complete (s.memWrite .other 2 (s.ea base offset) (s.gpr rt))

/-- SW (R355). -/
def execSw (rt base : RegIdx) (offset : Imm16) (s : State) : Host.Outcome State Fault Refusal :=
  s.complete (s.memWrite .word 4 (s.ea base offset) (s.gpr rt))

/-- SD (R356). -/
def execSd (rt base : RegIdx) (offset : Imm16) (s : State) : Host.Outcome State Fault Refusal :=
  s.complete (s.doublewordCheck.bind fun _ => s.memWrite .other 8 (s.ea base offset) (s.gpr rt))

/-- SWL (R357). -/
def execSwl (rt base : RegIdx) (offset : Imm16) (s : State) : Host.Outcome State Fault Refusal :=
  s.complete (s.storePartialWord swlBits rt (s.ea base offset))

/-- SWR (R358). -/
def execSwr (rt base : RegIdx) (offset : Imm16) (s : State) : Host.Outcome State Fault Refusal :=
  s.complete (s.storePartialWord swrBits rt (s.ea base offset))

/-- SDL (R359). -/
def execSdl (rt base : RegIdx) (offset : Imm16) (s : State) : Host.Outcome State Fault Refusal :=
  s.complete (s.doublewordCheck.bind fun _ => s.storePartialDouble sdlBits rt (s.ea base offset))

/-- SDR (R360). -/
def execSdr (rt base : RegIdx) (offset : Imm16) (s : State) : Host.Outcome State Fault Refusal :=
  s.complete (s.doublewordCheck.bind fun _ => s.storePartialDouble sdrBits rt (s.ea base offset))

/-- LL (R361). -/
def execLl (rt base : RegIdx) (offset : Imm16) (s : State) : Host.Outcome State Fault Refusal :=
  s.complete (s.loadLinked 4 .s32 rt (s.ea base offset))

/-- SC (R362). -/
def execSc (rt base : RegIdx) (offset : Imm16) (s : State) : Host.Outcome State Fault Refusal :=
  s.complete (s.storeConditional 4 rt (s.ea base offset))

/-- SCD (R363). -/
def execScd (rt base : RegIdx) (offset : Imm16) (s : State) : Host.Outcome State Fault Refusal :=
  s.complete (s.doublewordCheck.bind fun _ => s.storeConditional 8 rt (s.ea base offset))

/-- LLD (R364). -/
def execLld (rt base : RegIdx) (offset : Imm16) (s : State) : Host.Outcome State Fault Refusal :=
  s.complete (s.doublewordCheck.bind fun _ => s.loadLinked 8 .zero rt (s.ea base offset))

end Sys2Proof.Machine
end

