-- ==== Sys2Proof/Machine/MulDiv.lean ====
section
/-! DEFINITION. Multiply, divide and the HI/LO moves (41_muldiv.md rules R260–R273). -/

namespace Sys2Proof.Machine

/-- The default `DIV_CORNER` (R273): the pair (LO, HI) for dividend `n`, a word case's dividend being its
sign-extended word. -/
def vr4300DivCorner (c : DivCase) (n : Word) : Word × Word :=
  match c with
  | .divByZeroW | .divByZeroD => (if n.msb then 1 else 0xFFFFFFFFFFFFFFFF, n)
  | .divuByZeroW | .divuByZeroD => (0xFFFFFFFFFFFFFFFF, n)
  | .divOverflowW => (0xFFFFFFFF80000000, 0)
  | .divOverflowD => (0x8000000000000000, 0)

/-- `DIV_CORNER` as this launch configures it (R273; notes/assumptions/7.md). -/
def State.divCorner (s : State) (c : DivCase) (n : Word) : Word × Word :=
  match s.params.divCorner with
  | .vr4300 => vr4300DivCorner c n
  | .unpredictable => Config.divCorner c n

/-- `(LO, HI) <- p`. -/
def State.setLoHi (s : State) (p : Word × Word) : State := s.setHiLo p.2 p.1

/-- The word halves of a product, each sign-extended (R265, R266). -/
def State.setProductWord (s : State) (p : BitVec 64) : State :=
  s.setHiLo (sext32 (p.extractLsb' 32 32)) (sext32 (p.extractLsb' 0 32))

/-- The doubleword halves of a product (R267, R268). -/
def State.setProductDouble (s : State) (p : BitVec 128) : State :=
  s.setHiLo (p.extractLsb' 64 64) (p.extractLsb' 0 64)

/-- (LO, HI) of a signed word division (R269). -/
def State.divWord (s : State) (n d : BitVec 32) : Word × Word :=
  if d = 0 then s.divCorner .divByZeroW (sext32 n)
  else if n.toInt = -2 ^ 31 ∧ d.toInt = -1 then s.divCorner .divOverflowW (sext32 n)
  else (sext32 (BitVec.ofInt 32 (n.toInt.tdiv d.toInt)),
        sext32 (BitVec.ofInt 32 (n.toInt - n.toInt.tdiv d.toInt * d.toInt)))

/-- (LO, HI) of an unsigned word division (R270). -/
def State.divuWord (s : State) (n d : BitVec 32) : Word × Word :=
  if d = 0 then s.divCorner .divuByZeroW (sext32 n)
  else (sext32 (BitVec.ofNat 32 (n.toNat / d.toNat)), sext32 (BitVec.ofNat 32 (n.toNat % d.toNat)))

/-- (LO, HI) of a signed doubleword division (R271). -/
def State.divDouble (s : State) (n d : Word) : Word × Word :=
  if d = 0 then s.divCorner .divByZeroD n
  else if n.toInt = -2 ^ 63 ∧ d.toInt = -1 then s.divCorner .divOverflowD n
  else (BitVec.ofInt 64 (n.toInt.tdiv d.toInt), BitVec.ofInt 64 (n.toInt - n.toInt.tdiv d.toInt * d.toInt))

/-- (LO, HI) of an unsigned doubleword division (R272). -/
def State.divuDouble (s : State) (n d : Word) : Word × Word :=
  if d = 0 then s.divCorner .divuByZeroD n
  else (BitVec.ofNat 64 (n.toNat / d.toNat), BitVec.ofNat 64 (n.toNat % d.toNat))

/-- MFHI (R261). -/
def execMfhi (rd : RegIdx) (s : State) : Host.Outcome State Fault Refusal :=
  s.finishGpr rd s.hi

/-- MTHI (R262). -/
def execMthi (rs : RegIdx) (s : State) : Host.Outcome State Fault Refusal :=
  s.complete (.ok { s with hi := s.gpr rs })

/-- MFLO (R263). -/
def execMflo (rd : RegIdx) (s : State) : Host.Outcome State Fault Refusal :=
  s.finishGpr rd s.lo

/-- MTLO (R264). -/
def execMtlo (rs : RegIdx) (s : State) : Host.Outcome State Fault Refusal :=
  s.complete (.ok { s with lo := s.gpr rs })

/-- MULT (R265). -/
def execMult (rs rt : RegIdx) (s : State) : Host.Outcome State Fault Refusal :=
  s.complete (.ok (s.setProductWord
    (BitVec.ofInt 64 ((lo32 (s.gpr rs)).toInt * (lo32 (s.gpr rt)).toInt))))

/-- MULTU (R266). -/
def execMultu (rs rt : RegIdx) (s : State) : Host.Outcome State Fault Refusal :=
  s.complete (.ok (s.setProductWord
    (BitVec.ofNat 64 ((lo32 (s.gpr rs)).toNat * (lo32 (s.gpr rt)).toNat))))

/-- DMULT (R267). -/
def execDmult (rs rt : RegIdx) (s : State) : Host.Outcome State Fault Refusal :=
  s.complete (s.doublewordCheck.bind fun _ => .ok (s.setProductDouble
    (BitVec.ofInt 128 ((s.gpr rs).toInt * (s.gpr rt).toInt))))

/-- DMULTU (R268). -/
def execDmultu (rs rt : RegIdx) (s : State) : Host.Outcome State Fault Refusal :=
  s.complete (s.doublewordCheck.bind fun _ => .ok (s.setProductDouble
    (BitVec.ofNat 128 ((s.gpr rs).toNat * (s.gpr rt).toNat))))

/-- DIV (R269). -/
def execDiv (rs rt : RegIdx) (s : State) : Host.Outcome State Fault Refusal :=
  s.complete (.ok (s.setLoHi (s.divWord (lo32 (s.gpr rs)) (lo32 (s.gpr rt)))))

/-- DIVU (R270). -/
def execDivu (rs rt : RegIdx) (s : State) : Host.Outcome State Fault Refusal :=
  s.complete (.ok (s.setLoHi (s.divuWord (lo32 (s.gpr rs)) (lo32 (s.gpr rt)))))

/-- DDIV (R271). -/
def execDdiv (rs rt : RegIdx) (s : State) : Host.Outcome State Fault Refusal :=
  s.complete (s.doublewordCheck.bind fun _ => .ok (s.setLoHi (s.divDouble (s.gpr rs) (s.gpr rt))))

/-- DDIVU (R272). -/
def execDdivu (rs rt : RegIdx) (s : State) : Host.Outcome State Fault Refusal :=
  s.complete (s.doublewordCheck.bind fun _ => .ok (s.setLoHi (s.divuDouble (s.gpr rs) (s.gpr rt))))

end Sys2Proof.Machine
end

