-- ==== Sys2Proof/Machine/Shift.lean ====
section
/-! DEFINITION. Shifts (40_alu.md rules R230–R244). -/

namespace Sys2Proof.Machine

/-- SLL's result on the low word for a shift of `n` (R230, R233). -/
def sllWord (v : Word) (n : Nat) : Word := sext32 (lo32 v <<< n)
/-- SRL's result on the low word for a shift of `n` (R231, R234). -/
def srlWord (v : Word) (n : Nat) : Word := sext32 (lo32 v >>> n)
/-- SRA's result: the whole register is shifted, then its low word sign-extended (R232, R235). -/
def sraWord (v : Word) (n : Nat) : Word := sext32 (lo32 (v.sshiftRight n))

/-- SLL (R230). -/
def execSll (rd rt : RegIdx) (sa : BitVec 5) (s : State) : Host.Outcome State Fault Refusal :=
  s.finishGpr rd (sllWord (s.gpr rt) (shamt sa))

/-- SRL (R231). -/
def execSrl (rd rt : RegIdx) (sa : BitVec 5) (s : State) : Host.Outcome State Fault Refusal :=
  s.finishGpr rd (srlWord (s.gpr rt) (shamt sa))

/-- SRA (R232). -/
def execSra (rd rt : RegIdx) (sa : BitVec 5) (s : State) : Host.Outcome State Fault Refusal :=
  s.finishGpr rd (sraWord (s.gpr rt) (shamt sa))

/-- SLLV (R233). -/
def execSllv (rd rt rs : RegIdx) (s : State) : Host.Outcome State Fault Refusal :=
  s.finishGpr rd (sllWord (s.gpr rt) (varShamt32 (s.gpr rs)))

/-- SRLV (R234). -/
def execSrlv (rd rt rs : RegIdx) (s : State) : Host.Outcome State Fault Refusal :=
  s.finishGpr rd (srlWord (s.gpr rt) (varShamt32 (s.gpr rs)))

/-- SRAV (R235). -/
def execSrav (rd rt rs : RegIdx) (s : State) : Host.Outcome State Fault Refusal :=
  s.finishGpr rd (sraWord (s.gpr rt) (varShamt32 (s.gpr rs)))

/-- DSLL (R236). -/
def execDsll (rd rt : RegIdx) (sa : BitVec 5) (s : State) : Host.Outcome State Fault Refusal :=
  s.finishGprDouble rd (s.gpr rt <<< shamt sa)

/-- DSRL (R237). -/
def execDsrl (rd rt : RegIdx) (sa : BitVec 5) (s : State) : Host.Outcome State Fault Refusal :=
  s.finishGprDouble rd (s.gpr rt >>> shamt sa)

/-- DSRA (R238). -/
def execDsra (rd rt : RegIdx) (sa : BitVec 5) (s : State) : Host.Outcome State Fault Refusal :=
  s.finishGprDouble rd ((s.gpr rt).sshiftRight (shamt sa))

/-- DSLL32 (R239). -/
def execDsll32 (rd rt : RegIdx) (sa : BitVec 5) (s : State) : Host.Outcome State Fault Refusal :=
  s.finishGprDouble rd (s.gpr rt <<< shamt32 sa)

/-- DSRL32 (R240). -/
def execDsrl32 (rd rt : RegIdx) (sa : BitVec 5) (s : State) : Host.Outcome State Fault Refusal :=
  s.finishGprDouble rd (s.gpr rt >>> shamt32 sa)

/-- DSRA32 (R241). -/
def execDsra32 (rd rt : RegIdx) (sa : BitVec 5) (s : State) : Host.Outcome State Fault Refusal :=
  s.finishGprDouble rd ((s.gpr rt).sshiftRight (shamt32 sa))

/-- DSLLV (R242). -/
def execDsllv (rd rt rs : RegIdx) (s : State) : Host.Outcome State Fault Refusal :=
  s.finishGprDouble rd (s.gpr rt <<< varShamt64 (s.gpr rs))

/-- DSRLV (R243). -/
def execDsrlv (rd rt rs : RegIdx) (s : State) : Host.Outcome State Fault Refusal :=
  s.finishGprDouble rd (s.gpr rt >>> varShamt64 (s.gpr rs))

/-- DSRAV (R244). -/
def execDsrav (rd rt rs : RegIdx) (s : State) : Host.Outcome State Fault Refusal :=
  s.finishGprDouble rd ((s.gpr rt).sshiftRight (varShamt64 (s.gpr rs)))

end Sys2Proof.Machine
end

