-- ==== Sys2Proof/Machine/System.lean ====
section
/-! DEFINITION. System calls, CACHE, SYNC, the CP0 moves, the TLB instructions, ERET and the traps (44_system.md). -/

namespace Sys2Proof.Machine

/-- PRId (10_state.md rule R48). -/
def prId : BitVec 32 := 0x00000B22

/-- Config's read value (10_state.md rule R49). -/
def Cp0.config (c : Cp0) : BitVec 32 := 0x7006E460#32 ||| (c.cfgW &&& 0x0F00000F#32)

/-- `CP0Read(n)` (R405), 64 bits; a number outside the table is refused (R401). -/
def State.cp0Read (s : State) (n : RegIdx) : Result Word :=
  match n with
  | 8#5 => .ok s.cp0.badVAddr
  | 9#5 => .ok (zext32 s.cp0.count)
  | 11#5 => .ok (zext32 s.cp0.compare)
  | 12#5 => .ok (zext32 s.cp0.status)
  | 13#5 => .ok (zext32 s.causeWord)
  | 14#5 => .ok s.cp0.epc
  | 15#5 => .ok (zext32 prId)
  | 16#5 => .ok (zext32 s.cp0.config)
  | 17#5 => .ok (zext32 s.cp0.llAddr)
  | 18#5 => .ok (zext32 s.cp0.watchLo)
  | 19#5 => .ok (s.cp0.watchHi.setWidth 64)
  | 28#5 => .ok (zext32 s.cp0.tagLo)
  | 29#5 => .ok (zext32 s.cp0.tagHi)
  | 30#5 => .ok s.cp0.errorEpc
  | _ => refuse .cp0RegNotModelled

/-- `CP0Write32(n, v)` (R406) on the CP0 registers. -/
def Cp0.write32 (c : Cp0) (n : RegIdx) (v : Word) : Result Cp0 :=
  match n with
  | 8#5 => .ok c
  | 9#5 => .ok { c with count := lo32 v }
  | 11#5 => .ok { c with compare := lo32 v, cause := { c.cause with ip7 := false } }
  | 12#5 => .ok { c with status := lo32 v }
  | 13#5 => .ok { c with cause := { c.cause with ip0 := v.getLsbD 8, ip1 := v.getLsbD 9 } }
  | 14#5 => .ok { c with epc := sext32 (lo32 v) }
  | 15#5 => .ok c
  | 16#5 => .ok { c with cfgW := lo32 v }
  | 17#5 => .ok { c with llAddr := lo32 v }
  | 18#5 =>
    if v.getLsbD 1 || v.getLsbD 0 then refuse .watchNotModelled
    else .ok { c with watchLo := lo32 v &&& 0xFFFFFFF8#32 }
  | 19#5 => .ok { c with watchHi := v.extractLsb' 0 4 }
  | 28#5 => .ok { c with tagLo := lo32 v }
  | 29#5 => .ok { c with tagHi := lo32 v }
  | 30#5 => .ok { c with errorEpc := sext32 (lo32 v) }
  | _ => refuse .cp0RegNotModelled

/-- The registers a doubleword CP0 move admits: 8, 14, 30 (R54, R403). -/
def cp0DoubleCheck (n : RegIdx) : Result Unit :=
  match n with
  | 8#5 | 14#5 | 30#5 => .ok ()
  | 9#5 | 11#5 | 12#5 | 13#5 | 15#5 | 16#5 | 17#5 | 18#5 | 19#5 | 28#5 | 29#5 =>
    refuse .cp0DoubleAccessNotModelled
  | _ => refuse .cp0RegNotModelled

/-- The doubleword write of a 64-bit CP0 register (R404): BadVAddr ignores it. -/
def Cp0.write64 (c : Cp0) (n : RegIdx) (v : Word) : Cp0 :=
  match n with
  | 14#5 => { c with epc := v }
  | 30#5 => { c with errorEpc := v }
  | _ => c

/-- The CP0 check, then a TLB instruction: no TLB is modelled (R407–R410). -/
def State.tlbInstruction (s : State) : Host.Outcome State Fault Refusal :=
  s.complete (s.cp0UsableCheck.bind fun _ => refuse .tlbNotModelled)

/-- A trap instruction: nothing, or refused when its condition holds (R420). -/
def State.trapIf (s : State) (c : Bool) : Host.Outcome State Fault Refusal :=
  s.complete (if c then refuse .trapNotModelled else .ok s)

/-- SYSCALL (R391): the code is ignored. -/
def execSyscall (_code : BitVec 20) (s : State) : Host.Outcome State Fault Refusal :=
  s.complete (raise .systemCall)

/-- BREAK (R392): the code is ignored. -/
def execBrk (_code : BitVec 20) (s : State) : Host.Outcome State Fault Refusal :=
  s.complete (raise .breakpoint)

/-- CACHE (R393): the CP0 check, then nothing; no address is computed. -/
def execCache (_op _base : RegIdx) (_offset : Imm16) (s : State) : Host.Outcome State Fault Refusal :=
  s.complete (s.cp0UsableCheck.bind fun _ => .ok s)

/-- SYNC (R394): nothing. -/
def execSync (s : State) : Host.Outcome State Fault Refusal :=
  s.complete (.ok s)

/-- MFC0 (R401). -/
def execMfc0 (rt rd : RegIdx) (s : State) : Host.Outcome State Fault Refusal :=
  s.complete (s.cp0UsableCheck.bind fun _ =>
    (s.cp0Read rd).bind fun v => .ok (s.setGpr rt (sext32 (lo32 v))))

/-- MTC0 (R402). -/
def execMtc0 (rt rd : RegIdx) (s : State) : Host.Outcome State Fault Refusal :=
  s.complete (s.cp0UsableCheck.bind fun _ =>
    (s.cp0.write32 rd (s.gpr rt)).bind fun c => .ok { s with cp0 := c })

/-- DMFC0 (R403). -/
def execDmfc0 (rt rd : RegIdx) (s : State) : Host.Outcome State Fault Refusal :=
  s.complete (s.cp0UsableCheck.bind fun _ =>
    (cp0DoubleCheck rd).bind fun _ => (s.cp0Read rd).bind fun v => .ok (s.setGpr rt v))

/-- DMTC0 (R404). -/
def execDmtc0 (rt rd : RegIdx) (s : State) : Host.Outcome State Fault Refusal :=
  s.complete (s.cp0UsableCheck.bind fun _ =>
    (cp0DoubleCheck rd).bind fun _ => .ok { s with cp0 := s.cp0.write64 rd (s.gpr rt) })

/-- TLBR (R407). -/
def execTlbr (s : State) : Host.Outcome State Fault Refusal :=
  s.tlbInstruction

/-- TLBWI (R408). -/
def execTlbwi (s : State) : Host.Outcome State Fault Refusal :=
  s.tlbInstruction

/-- TLBWR (R409). -/
def execTlbwr (s : State) : Host.Outcome State Fault Refusal :=
  s.tlbInstruction

/-- TLBP (R410). -/
def execTlbp (s : State) : Host.Outcome State Fault Refusal :=
  s.tlbInstruction

/-- ERET (R411). -/
def execEret (s : State) : Host.Outcome State Fault Refusal :=
  s.complete (s.notInDelaySlot.bind fun _ => s.cp0UsableCheck.bind fun _ => .ok s.exceptionReturn)

/-- TGE (R421). -/
def execTge (rs rt : RegIdx) (_code : BitVec 10) (s : State) : Host.Outcome State Fault Refusal :=
  s.trapIf (!(s.gpr rs).slt (s.gpr rt))

/-- TGEU (R422). -/
def execTgeu (rs rt : RegIdx) (_code : BitVec 10) (s : State) : Host.Outcome State Fault Refusal :=
  s.trapIf (!(s.gpr rs).ult (s.gpr rt))

/-- TLT (R423). -/
def execTlt (rs rt : RegIdx) (_code : BitVec 10) (s : State) : Host.Outcome State Fault Refusal :=
  s.trapIf ((s.gpr rs).slt (s.gpr rt))

/-- TLTU (R424). -/
def execTltu (rs rt : RegIdx) (_code : BitVec 10) (s : State) : Host.Outcome State Fault Refusal :=
  s.trapIf ((s.gpr rs).ult (s.gpr rt))

/-- TEQ (R425). -/
def execTeq (rs rt : RegIdx) (_code : BitVec 10) (s : State) : Host.Outcome State Fault Refusal :=
  s.trapIf (s.gpr rs == s.gpr rt)

/-- TNE (R426). -/
def execTne (rs rt : RegIdx) (_code : BitVec 10) (s : State) : Host.Outcome State Fault Refusal :=
  s.trapIf (s.gpr rs != s.gpr rt)

/-- TGEI (R427). -/
def execTgei (rs : RegIdx) (imm : Imm16) (s : State) : Host.Outcome State Fault Refusal :=
  s.trapIf (!(s.gpr rs).slt (simm imm))

/-- TGEIU (R428). -/
def execTgeiu (rs : RegIdx) (imm : Imm16) (s : State) : Host.Outcome State Fault Refusal :=
  s.trapIf (!(s.gpr rs).ult (simm imm))

/-- TLTI (R429). -/
def execTlti (rs : RegIdx) (imm : Imm16) (s : State) : Host.Outcome State Fault Refusal :=
  s.trapIf ((s.gpr rs).slt (simm imm))

/-- TLTIU (R430). -/
def execTltiu (rs : RegIdx) (imm : Imm16) (s : State) : Host.Outcome State Fault Refusal :=
  s.trapIf ((s.gpr rs).ult (simm imm))

/-- TEQI (R431). -/
def execTeqi (rs : RegIdx) (imm : Imm16) (s : State) : Host.Outcome State Fault Refusal :=
  s.trapIf (s.gpr rs == simm imm)

/-- TNEI (R432). -/
def execTnei (rs : RegIdx) (imm : Imm16) (s : State) : Host.Outcome State Fault Refusal :=
  s.trapIf (s.gpr rs != simm imm)

end Sys2Proof.Machine
end

