-- ==== Sys2Proof/Machine/Cycle.lean ====
section
/-! DEFINITION. The CPU step around the execute phase (42_control.md rule R290), the agents' turns
(60_exceptions.md rule R530), and where a host places the next instruction word. -/

namespace Sys2Proof.Machine

/-- The timer tick after a step's outcome (R290 phase 5); a step that stops has none (R510). -/
def tickOutcome : Host.Outcome State Fault Refusal → Host.Outcome State Fault Refusal
  | .next t => .next t.tick
  | .fault f => .fault f
  | .refused r => .refused r

/-- Phase 4: a fetched word is executed as its instruction, or as a reserved word (R190, R290). -/
def State.executeWord (s : State) (w : BitVec 32) : Host.Outcome State Fault Refusal :=
  match decode w with
  | .ok i => exec i s
  | .error r => execReserved r s

/-- Phases 2 to 4: fetch at the pc, advance it by 4, execute (R290). -/
def State.fetchExecute (s : State) : Host.Outcome State Fault Refusal :=
  match s.fetch s.pc with
  | .error x => s.stopAt s.pc s.inDelay x
  | .ok w => State.executeWord { s with pc := s.pc + 4 } w

/-- `CpuStep` of a core that is not halted (R290). -/
def State.cpuStep (s : State) : Host.Outcome State Fault Refusal :=
  match s.startRefusal with
  | some r => .refused r
  | none =>
    if s.interruptPending then
      tickOutcome (s.takeException .interrupt s.nextInstruction.1 s.nextInstruction.2)
    else tickOutcome s.advancePending.fetchExecute

/-- The turn when `schedule` names none that is enabled: the DMA engine if a transfer is in flight, else the
CPU, which has no step when halted (60_exceptions.md rules R530, R531; notes/assumptions/1.md, 3.md). -/
def State.defaultTurn (s : State) : Host.Outcome State Fault Refusal :=
  if s.dmaInflight then .next s.dmaCompletion
  else if s.halted then .fault .halted
  else s.cpuStep

/-- One step of the machine: one step of the agent whose turn it is (R530). -/
def State.takeTurn (s : State) : Host.Outcome State Fault Refusal :=
  match s.schedule with
  | [] => s.defaultTurn
  | .cpu :: rest =>
    if s.halted then State.defaultTurn { s with schedule := rest } else State.cpuStep { s with schedule := rest }
  | .dma :: rest => State.defaultTurn { s with schedule := rest }
  | .env a :: rest => .next (State.environment { s with schedule := rest } a)

/-- The state with `w` stored where the CPU fetches next, and the CPU's turn next (notes/assumptions/4.md). -/
def State.placeNextInstruction (s : State) (w : BitVec 32) : State :=
  let t := s.placeWord s.nextInstruction.1 w
  match s.schedule with
  | [] => if s.dmaInflight then { t with schedule := [.cpu] } else t
  | _ :: _ => { t with schedule := .cpu :: s.schedule }

end Sys2Proof.Machine
end

