-- ==== Sys2Proof/Machine/Step.lean ====
section
/-! DEFINITION. The step of the machine and the host's way of placing the next instruction. -/

namespace Sys2Proof.Machine

/-- One step of the machine (60_exceptions.md rule R530, 42_control.md rule R290). -/
def step (s : State) : Host.Outcome State Fault Refusal := s.takeTurn

/-- `s` with the instruction word of a table row's `nbits` low bits `w` (the bits above them 0) stored where
`step` fetches its next instruction; from reset that is the boot ROM's first word. -/
def State.withFetchWord (s : State) (nbits w : Nat) : State :=
  s.placeNextInstruction (BitVec.ofNat 32 (w % 2 ^ nbits))

end Sys2Proof.Machine
end

