-- ==== Sys2Proof/Machine/Boot.lean ====
section
/-! DEFINITION. Launching the hardware: the power-on state of any launch, for both boots
(70_reset_and_hazards.md rules R540–R542). -/

namespace Sys2Proof.Machine

/-- A register a high-level boot may set (R541; notes/assumptions/15.md). -/
inductive InitReg where
  | gpr (r : RegIdx)
  | cp0 (n : RegIdx)
deriving DecidableEq, Repr

/-- The launch parameters (00_scope.md rule R10). -/
structure Launch where
  params : Params
  /-- The cartridge ROM; `none` is a failed load (R542). -/
  rom : Option Image
  bootRom : Option Image
  /-- `INIT_RAM`, by RAM offset. -/
  initRam : Memory
  hleInitRegs : List (InitReg × Word)
deriving DecidableEq, Repr

/-- The cartridge header's entry point (R541). -/
def entryPoint (rom : Image) : Word := sext32 (lo32 (rom.cells.readBE (fun i => 8 + i) 4))

/-- `(entry & 0x1FFF_FFFF) mod RDRAM_SIZE`, where the high-level boot copies to (R541). -/
def entryRamOffset (rom : Image) (ramSize : Nat) : Nat := (entryPoint rom &&& 0x1FFFFFFF).toNat % ramSize

/-- How many bytes the high-level boot copies (R541). -/
def hleCopyBytes (rom : Image) (ramSize : Nat) : Nat :=
  min 0x100000 (min (rom.size - 0x1000) (ramSize - entryRamOffset rom ramSize))

/-- One entry of `HLE_INIT_REGS` applied (R541; notes/assumptions/15.md). -/
def State.setInitReg (s : State) (r : InitReg) (v : Word) : Result State :=
  match r with
  | .gpr i => .ok (s.setGpr i v)
  | .cp0 n =>
    if n = 14 ∨ n = 30 then .ok { s with cp0 := s.cp0.write64 n v }
    else (s.cp0.write32 n v).bind fun c => .ok { s with cp0 := c }

/-- The entries of `HLE_INIT_REGS` applied in order. -/
def State.setInitRegs (s : State) : List (InitReg × Word) → Result State
  | [] => .ok s
  | (r, v) :: rest => (s.setInitReg r v).bind fun t => t.setInitRegs rest

/-- The power-on registers and RAM of a launch before the boot decides the pc (R540). -/
def Launch.powerOn (l : Launch) (rom : Image) : State :=
  { State.reset with ram := l.initRam, rom := rom, bootRom := l.bootRom, params := l.params }

/-- The high-level boot (R541): the entry's bytes copied, the pc at the entry, `HLE_INIT_REGS` applied. -/
def Launch.highLevel (l : Launch) (rom : Image) : Result State :=
  let ramSize := l.params.rdramSize.bytes
  State.setInitRegs
    { l.powerOn rom with
        pc := entryPoint rom
        ram := Memory.copyFrom rom.cells 0x1000 l.initRam (entryRamOffset rom ramSize) (hleCopyBytes rom ramSize) }
    l.hleInitRegs

/-- The state a launch starts in, or none where there is no run (R541, R542): no cartridge, a boot ROM larger
than 0x7C0 bytes, or a high-level boot of a cartridge below 0x1000 bytes. -/
def Launch.start (l : Launch) : Option State :=
  match l.rom, l.bootRom with
  | none, _ => none
  | some rom, some boot => if boot.size ≤ 0x7C0 then some (l.powerOn rom) else none
  | some rom, none =>
    if 0x1000 ≤ rom.size then (l.highLevel rom).toOption else none

end Sys2Proof.Machine
end

