-- ==== Sys2Proof/WellFormed.lean ====
section
/-! DEFINITION. The static operand rules of the spec. Every operand's width is a fact of its type; what is
left to check is that the operands are ones to which the spec gives a meaning. See notes/assumptions/18.md. -/

namespace Sys2Proof

/-- The CP0 register numbers the spec models (10_state.md rule R40). -/
def cp0Modelled (n : RegIdx) : Bool :=
  n ∈ ([8, 9, 11, 12, 13, 14, 15, 16, 17, 18, 19, 28, 29, 30] : List RegIdx)

/-- The 64-bit CP0 registers, the only ones DMFC0 and DMTC0 admit (10_state.md rule R54). -/
def cp0Double (n : RegIdx) : Bool :=
  n ∈ ([8, 14, 30] : List RegIdx)

/-- The operands of `i` are ones the spec gives a meaning to: JALR does not link to its source (R303),
and a CP0 move names a modelled register of an admitted width (R40, R54). -/
def WellFormed : Instr → Bool
  | .jalr rd rs => rd != rs || rd == 0
  | .mfc0 _ rd | .mtc0 _ rd => cp0Modelled rd
  | .dmfc0 _ rd | .dmtc0 _ rd => cp0Double rd
  | .sll .. | .srl .. | .sra .. | .sllv .. | .srlv .. | .srav .. | .jr .. | .syscall .. | .brk .. | .sync
  | .mfhi .. | .mthi .. | .mflo .. | .mtlo .. | .dsllv .. | .dsrlv .. | .dsrav .. | .mult .. | .multu ..
  | .div .. | .divu .. | .dmult .. | .dmultu .. | .ddiv .. | .ddivu .. | .add .. | .addu .. | .sub ..
  | .subu .. | .and .. | .or .. | .xor .. | .nor .. | .slt .. | .sltu .. | .dadd .. | .daddu .. | .dsub ..
  | .dsubu .. | .tge .. | .tgeu .. | .tlt .. | .tltu .. | .teq .. | .tne .. | .dsll .. | .dsrl .. | .dsra ..
  | .dsll32 .. | .dsrl32 .. | .dsra32 .. | .bltz .. | .bgez .. | .bltzl .. | .bgezl .. | .tgei ..
  | .tgeiu .. | .tlti .. | .tltiu .. | .teqi .. | .tnei .. | .bltzal .. | .bgezal .. | .bltzall ..
  | .bgezall .. | .j .. | .jal .. | .beq .. | .bne .. | .blez .. | .bgtz .. | .addi .. | .addiu ..
  | .slti .. | .sltiu .. | .andi .. | .ori .. | .xori .. | .lui .. | .beql .. | .bnel .. | .blezl ..
  | .bgtzl .. | .daddi .. | .daddiu .. | .ldl .. | .ldr .. | .lb .. | .lh .. | .lwl .. | .lw .. | .lbu ..
  | .lhu .. | .lwr .. | .lwu .. | .sb .. | .sh .. | .swl .. | .sw .. | .sdl .. | .sdr .. | .swr ..
  | .cache .. | .ll .. | .lwc1 .. | .lwc2 .. | .lld .. | .ldc1 .. | .ldc2 .. | .ld .. | .sc .. | .swc1 ..
  | .swc2 .. | .scd .. | .sdc1 .. | .sdc2 .. | .sd .. | .tlbr | .tlbwi | .tlbwr | .tlbp | .eret | .cop1 ..
  | .mfc2 .. | .dmfc2 .. | .cfc2 .. | .dcfc2 .. | .mtc2 .. | .dmtc2 .. | .ctc2 .. | .dctc2 .. => true

end Sys2Proof
end

