-- ==== Sys2Proof/Safety.lean ====
section
/-! DEFINITION. The terms claims about the machine use: the machine's invariant, what an outcome of an
instruction leaves changed and unchanged, the spec's numbers for register contents, addresses and bytes, and
which instructions the spec's rules name together. They are written from the spec, not from the meanings. -/

namespace Sys2Proof.Machine

/-! ### The invariant -/

/-- A read-only image in canonical form, listing nothing past its size. -/
def Image.Wf (m : Image) : Prop := m.cells.wf = true ∧ m.cells.below m.size = true

/-- What every state of a run satisfies: memory in canonical form and inside its region (R100–R102), register
0's storage at 0 (R31), the bits no rule writes at 0 (R55, R504; notes/assumptions/21.md), and the status of the
peripheral interface agreeing with the transfer in flight and the interrupt flag (R145–R149). -/
structure State.Inv (s : State) : Prop where
  ramForm : s.ram.wf = true
  ramBounds : s.ram.below s.ramSize = true
  romForm : s.rom.Wf
  bootRomForm : ∀ m, s.bootRom = some m → m.Wf
  registerZero : s.regs[0] = 0#64
  miModeHigh : s.mi.mode.extractLsb' 10 4 = 0#4
  watchLoLow : s.cp0.watchLo.extractLsb' 0 3 = 0#3
  busyIffInflight : s.pi.busy = s.dmaInflight
  flagIffCompleted : s.mi.flags.getLsbD 4 = s.pi.completed
  notBusyAndCompleted : (s.pi.busy && s.pi.completed) = false

/-! ### Register contents as numbers (00_scope.md rule R12) -/

/-- `signed(v[31:0])`. -/
def signedWord (v : Word) : Int := v.toInt.bmod (2 ^ 32)

/-- `unsigned(v[31:0])`. -/
def unsignedWord (v : Word) : Nat := v.toNat % 2 ^ 32

/-- `v` is `sext_32` of the low 32 bits of the number `n`. -/
def IsWord (v : Word) (n : Int) : Prop := v.toInt = n.bmod (2 ^ 32)

/-- `v` is the low 64 bits of the number `n`. -/
def IsDouble (v : Word) (n : Int) : Prop := v.toInt = n.bmod (2 ^ 64)

/-- The number a list of bytes writes, the first most significant (20_memory.md rule R104). -/
def bigEndian (bytes : List Byte) : Nat := bytes.foldl (fun n b => 256 * n + b.toNat) 0

/-- Byte `j` of the low `n` bytes of `v`, byte 0 the most significant (20_memory.md rule R104). -/
def byteOf (n j : Nat) (v : Word) : Byte := v.extractLsb' (8 * (n - 1 - j)) 8

/-! ### What an instruction leaves -/

/-- `t` is `s` but for register `rd`, which reads `v`, or nothing at all when `rd` is register 0 (R31). -/
def State.WritesGpr (s t : State) (rd : RegIdx) (v : Word) : Prop :=
  (∀ r, t.gpr r = if r = rd ∧ rd ≠ 0#5 then v else s.gpr r)
    ∧ t = { s with regs := t.regs }
    ∧ ∀ p, t.byteAt p = s.byteAt p

/-- `i` completes in `s` having written exactly `rd`, with a value that satisfies `P`. -/
def CompletesGpr (i : Instr) (s : State) (rd : RegIdx) (P : Word → Prop) : Prop :=
  ∃ t v, exec i s = .next t ∧ P v ∧ s.WritesGpr t rd v

/-- `i` completes in `s` having written exactly HI and LO, with values that satisfy `P`. -/
def CompletesHiLo (i : Instr) (s : State) (P : Word → Word → Prop) : Prop :=
  ∃ hi lo, exec i s = .next { s with hi := hi, lo := lo } ∧ P hi lo

/-- Exception entry from `s` to `t` (60_exceptions.md rule R480) of the exception with this code, at address
`a`, in a delay slot iff `bd`; `badVAddr` and `ce` are what it reports there, if anything. Nothing else
changes: no general register, no HI or LO, no memory, no LLbit, no latch. -/
structure State.EntersException (s t : State) (code : BitVec 5) (badVAddr : Option Word) (ce : Option (BitVec 2))
    (a : Word) (bd : Bool) : Prop where
  epc : t.cp0.epc = if s.exl then s.cp0.epc else if bd then a - 4 else a
  bdBit : t.cp0.cause.bd = if s.exl then s.cp0.cause.bd else bd
  excCode : t.cp0.cause.excCode = code
  causeCe : t.cp0.cause.ce = ce.getD s.cp0.cause.ce
  badVAddr : t.cp0.badVAddr = badVAddr.getD s.cp0.badVAddr
  status : t.cp0.status = s.cp0.status ||| 2#32
  pending : t.pending = none
  pc : t.pc = 0xFFFFFFFF80000180#64
  cp0Rest : t.cp0 = { s.cp0 with
    epc := t.cp0.epc, badVAddr := t.cp0.badVAddr, status := t.cp0.status
    cause := { s.cp0.cause with
      bd := t.cp0.cause.bd, excCode := t.cp0.cause.excCode, ce := t.cp0.cause.ce } }
  rest : t = { s with cp0 := t.cp0, pending := t.pending, pc := t.pc }

/-- The outcome `o` of an instruction that raises in `s`: exception entry at the instruction's address, or the
refusal of R480 with Status.BEV = 1. During the execute phase the pc is that address plus 4 (R290). -/
def State.Raises (s : State) (o : Host.Outcome State Fault Refusal) (code : BitVec 5) (badVAddr : Option Word)
    (ce : Option (BitVec 2)) : Prop :=
  (s.bev = false → ∃ t, o = .next t ∧ s.EntersException t code badVAddr ce (s.pc - 4) s.inDelay)
    ∧ (s.bev = true → o = .refused .bevVectorsNotModelled)

/-- A trapping operation of this width whose exact result is `n` (40_alu.md rule R200): in the signed range the
destination gets `n`, outside it IntegerOverflow is raised before any write. -/
def TrapsOnOverflow (width : Nat) (i : Instr) (s : State) (rd : RegIdx) (n : Int) : Prop :=
  (-2 ^ (width - 1) ≤ n ∧ n ≤ 2 ^ (width - 1) - 1 → CompletesGpr i s rd fun v => v.toInt = n)
    ∧ (n < -2 ^ (width - 1) ∨ 2 ^ (width - 1) - 1 < n → s.Raises (exec i s) 12 none none)

/-- `i` completes in `s` with the pc at `pc` and, where `target` is given, a jump there pending after one further
instruction; the register of `link`, if any, receives the address after the delay slot (42_control.md rules R291,
R296). Nothing else changes. -/
def CompletesJump (i : Instr) (s : State) (link : Option RegIdx) (target : Option Word) (pc : Word) : Prop :=
  ∃ t, exec i s = .next t
    ∧ (∀ r, t.gpr r = if link = some r ∧ r ≠ 0#5 then s.pc + 4 else s.gpr r)
    ∧ t = { s with regs := t.regs, pc := pc, pending := match target with
        | some a => some ⟨a, 1⟩
        | none => s.pending }

/-- A plain branch to `imm` words from its delay slot, taken iff `c` (42_control.md rules R297, R304). -/
def CompletesBranch (i : Instr) (s : State) (link : Option RegIdx) (c : Bool) (imm : Imm16) : Prop :=
  CompletesJump i s link (if c then some (s.pc + BitVec.ofInt 64 (4 * imm.toInt)) else none) s.pc

/-- A branch-likely: not taken, it skips its delay slot (42_control.md rule R295). -/
def CompletesLikely (i : Instr) (s : State) (link : Option RegIdx) (c : Bool) (imm : Imm16) : Prop :=
  CompletesJump i s link (if c then some (s.pc + BitVec.ofInt 64 (4 * imm.toInt)) else none)
    (if c then s.pc else s.pc + 4)

/-! ### Encodings (30_encoding.md rules R181, R184–R189): a row's words, whatever their ignored fields hold -/

/-- Every SPECIAL word with this `funct` is `mk rs rt rd sa`. -/
def DecodesSpecial (funct : BitVec 6) (mk : RegIdx → RegIdx → RegIdx → BitVec 5 → Instr) : Prop :=
  ∀ w : BitVec 32, w.extractLsb' 26 6 = 0#6 → w.extractLsb' 0 6 = funct →
    decode w = .ok (mk (w.extractLsb' 21 5) (w.extractLsb' 16 5) (w.extractLsb' 11 5) (w.extractLsb' 6 5))

/-- Every SPECIAL word with this `funct` is the trap `mk rs rt code`. -/
def DecodesTrap (funct : BitVec 6) (mk : RegIdx → RegIdx → BitVec 10 → Instr) : Prop :=
  ∀ w : BitVec 32, w.extractLsb' 26 6 = 0#6 → w.extractLsb' 0 6 = funct →
    decode w = .ok (mk (w.extractLsb' 21 5) (w.extractLsb' 16 5) (w.extractLsb' 6 10))

/-- Every word with this `op` is `mk rs rt imm`. -/
def DecodesImmediate (op : BitVec 6) (mk : RegIdx → RegIdx → Imm16 → Instr) : Prop :=
  ∀ w : BitVec 32, w.extractLsb' 26 6 = op →
    decode w = .ok (mk (w.extractLsb' 21 5) (w.extractLsb' 16 5) (w.extractLsb' 0 16))

/-- Every REGIMM word with this `rt` is `mk rs imm`. -/
def DecodesRegimm (sub : BitVec 5) (mk : RegIdx → Imm16 → Instr) : Prop :=
  ∀ w : BitVec 32, w.extractLsb' 26 6 = 1#6 → w.extractLsb' 16 5 = sub →
    decode w = .ok (mk (w.extractLsb' 21 5) (w.extractLsb' 0 16))

/-- Every word with this `op` is the load or store `mk rt base offset`. -/
def DecodesAccess (op : BitVec 6) (mk : RegIdx → RegIdx → Imm16 → Instr) : Prop :=
  DecodesImmediate op fun base rt offset => mk rt base offset

/-- Every word with this `op` is `mk target`. -/
def DecodesJump (op : BitVec 6) (mk : BitVec 26 → Instr) : Prop :=
  ∀ w : BitVec 32, w.extractLsb' 26 6 = op → decode w = .ok (mk (w.extractLsb' 0 26))

/-- Every word with this `op` and this `rs` is the coprocessor move `mk rt rd`. -/
def DecodesMove (op : BitVec 6) (sub : BitVec 5) (mk : RegIdx → RegIdx → Instr) : Prop :=
  ∀ w : BitVec 32, w.extractLsb' 26 6 = op → w.extractLsb' 21 5 = sub →
    decode w = .ok (mk (w.extractLsb' 16 5) (w.extractLsb' 11 5))

/-- Every COP0 word with `CO` = 1 and this `funct` is `i`. -/
def DecodesCop0Function (funct : BitVec 6) (i : Instr) : Prop :=
  ∀ w : BitVec 32, w.extractLsb' 26 6 = 0x10#6 → w.getLsbD 25 = true → w.extractLsb' 0 6 = funct →
    decode w = .ok i

/-! ### Addresses (20_memory.md rules R110–R121, 43_loadstore.md rule R340) -/

/-- The effective address `EA`. -/
def State.effectiveAddress (s : State) (base : RegIdx) (offset : Imm16) : Word := s.gpr base + offset.signExtend 64

/-- `va` reaches physical address `p` (R111): kseg0 and kseg1 outside user mode, kuseg with Status.ERL = 1. -/
def State.MapsTo (s : State) (va : Word) (p : Nat) : Prop :=
  (s.mode ≠ .user ∧ p < 0x20000000 ∧ (va.toNat = 0xFFFFFFFF80000000 + p ∨ va.toNat = 0xFFFFFFFFA0000000 + p))
    ∨ (s.erl = true ∧ p < 0x80000000 ∧ va.toNat = p)

/-- `va` raises an address error (R111): it is not a sign-extended 32-bit address, or it has bit 31 set in user
mode. -/
def State.BadAddress (s : State) (va : Word) : Prop :=
  (0x80000000 ≤ va.toNat ∧ va.toNat < 0xFFFFFFFF80000000) ∨ (s.mode = .user ∧ 0x80000000 ≤ va.toNat)

/-- `va` lies in a segment only the TLB maps (R111): kuseg with ERL = 0, ksseg and kseg3 outside user mode. -/
def State.TlbMapped (s : State) (va : Word) : Prop :=
  (s.erl = false ∧ va.toNat < 0x80000000) ∨ (s.mode ≠ .user ∧ 0xFFFFFFFFC0000000 ≤ va.toNat)

/-- Memory holds these bytes from physical address `p` on: RAM, cartridge ROM or boot ROM (R120). -/
def State.HoldsBytes (s : State) (p : Nat) (bytes : List Byte) : Prop :=
  ∀ j, (h : j < bytes.length) → s.byteAt (p + j) = some bytes[j]

/-- Physical address `p` is a RAM address (R120). -/
abbrev IsRam (p : Nat) : Prop := p ≤ 0x03EFFFFF

/-- Physical address `p` is a cartridge-ROM or boot-ROM address (R120). -/
abbrev IsRom (p : Nat) : Prop := (0x10000000 ≤ p ∧ p ≤ 0x1FBFFFFF) ∨ (0x1FC00000 ≤ p ∧ p ≤ 0x1FC007BF)

/-- Physical address `p` is the MI register at `offset` (R120). -/
abbrev IsMi (p offset : Nat) : Prop := p = 0x04300000 + offset ∧ offset ≤ 0xFFFFF

/-- Physical address `p` is the PI register at `offset` (R120). -/
abbrev IsPi (p offset : Nat) : Prop := p = 0x04600000 + offset ∧ offset ≤ 0xFFFFF

/-- Physical address `p` is in no range of R120. -/
abbrev IsUnmapped (p : Nat) : Prop :=
  (0x03EFFFFF < p ∧ p < 0x04300000) ∨ (0x043FFFFF < p ∧ p < 0x04600000) ∨ (0x046FFFFF < p ∧ p < 0x10000000)
    ∨ 0x1FC007BF < p

/-- `t` is `s` but for the RAM bytes that `n` addresses from `p` reach (each modulo the RAM size, R121), where
address `p + j` now holds `byte j`; every other byte of memory is as it was. -/
def State.StoresBytes (s t : State) (p n : Nat) (byte : Nat → Byte) : Prop :=
  t = { s with ram := t.ram }
    ∧ (∀ j < n, ∀ q, IsRam q → q % s.ramSize = (p + j) % s.ramSize → t.byteAt q = some (byte j))
    ∧ ∀ q, (∀ j < n, IsRam q → q % s.ramSize ≠ (p + j) % s.ramSize) → t.byteAt q = s.byteAt q

/-! ### Groups of instructions -/

/-- The doubleword instructions (40_alu.md rule R245). -/
def isDoubleword : Instr → Bool
  | .dadd .. | .daddu .. | .dsub .. | .dsubu .. | .daddi .. | .daddiu .. | .dsll .. | .dsrl .. | .dsra ..
  | .dsll32 .. | .dsrl32 .. | .dsra32 .. | .dsllv .. | .dsrlv .. | .dsrav .. | .dmult .. | .dmultu ..
  | .ddiv .. | .ddivu .. | .ld .. | .ldl .. | .ldr .. | .lld .. | .sd .. | .sdl .. | .sdr .. | .scd .. => true
  | _ => false

/-- The branches and jumps of 42_control.md, and ERET (R294). -/
def isControlTransfer : Instr → Bool
  | .j .. | .jal .. | .jr .. | .jalr .. | .beq .. | .bne .. | .blez .. | .bgtz .. | .bltz .. | .bgez ..
  | .bltzal .. | .bgezal .. | .beql .. | .bnel .. | .blezl .. | .bgtzl .. | .bltzl .. | .bgezl ..
  | .bltzall .. | .bgezall .. | .eret => true
  | _ => false

/-- The COP0-space instructions and CACHE (44_system.md rule R400). -/
def isCp0Instruction : Instr → Bool
  | .mfc0 .. | .mtc0 .. | .dmfc0 .. | .dmtc0 .. | .tlbr | .tlbwi | .tlbwr | .tlbp | .eret | .cache .. => true
  | _ => false

/-- The coprocessor-1 instructions (45_coprocessors.md rule R440). -/
def isCop1Instruction : Instr → Bool
  | .cop1 .. | .lwc1 .. | .ldc1 .. | .swc1 .. | .sdc1 .. => true
  | _ => false

/-- The coprocessor-2 moves (45_coprocessors.md rules R451–R456). -/
def isCop2Move : Instr → Bool
  | .mfc2 .. | .dmfc2 .. | .cfc2 .. | .mtc2 .. | .dmtc2 .. | .ctc2 .. => true
  | _ => false

/-- The coprocessor-2 instructions that always end in ReservedInstruction when usable (R457–R463). -/
def isCop2Reserved : Instr → Bool
  | .dcfc2 .. | .dctc2 .. | .lwc2 .. | .ldc2 .. | .swc2 .. | .sdc2 .. => true
  | _ => false

/-- A load or a store (43_loadstore.md rule R340): whether it stores, how many bytes of memory it moves or, for a
partial access, merges, the width of its alignment check (1 where it has none), whether it is LW, LWU or SW, and its
base and offset. -/
structure MemoryAccess where
  stores : Bool
  width : Nat
  align : Nat
  wordForm : Bool
  base : RegIdx
  offset : Imm16
deriving DecidableEq, Repr

/-- The loads and stores (20_memory.md rule R134, 43_loadstore.md). -/
def memoryAccess : Instr → Option MemoryAccess
  | .lb _ b o | .lbu _ b o => some ⟨false, 1, 1, false, b, o⟩
  | .lh _ b o | .lhu _ b o => some ⟨false, 2, 2, false, b, o⟩
  | .lw _ b o | .lwu _ b o => some ⟨false, 4, 4, true, b, o⟩
  | .ll _ b o => some ⟨false, 4, 4, false, b, o⟩
  | .ld _ b o | .lld _ b o => some ⟨false, 8, 8, false, b, o⟩
  | .lwl _ b o | .lwr _ b o => some ⟨false, 4, 1, false, b, o⟩
  | .ldl _ b o | .ldr _ b o => some ⟨false, 8, 1, false, b, o⟩
  | .sb _ b o => some ⟨true, 1, 1, false, b, o⟩
  | .sh _ b o => some ⟨true, 2, 2, false, b, o⟩
  | .sw _ b o => some ⟨true, 4, 4, true, b, o⟩
  | .sc _ b o => some ⟨true, 4, 4, false, b, o⟩
  | .sd _ b o | .scd _ b o => some ⟨true, 8, 8, false, b, o⟩
  | .swl _ b o | .swr _ b o => some ⟨true, 4, 1, false, b, o⟩
  | .sdl _ b o | .sdr _ b o => some ⟨true, 8, 1, false, b, o⟩
  | _ => none

/-- The general registers an instruction may write: its destination field, or register 31 for the links
(10_state.md rule R32); none for every other instruction. -/
def destination : Instr → Option RegIdx
  | .sll rd .. | .srl rd .. | .sra rd .. | .sllv rd .. | .srlv rd .. | .srav rd .. | .jalr rd .. | .mfhi rd
  | .mflo rd | .dsllv rd .. | .dsrlv rd .. | .dsrav rd .. | .add rd .. | .addu rd .. | .sub rd ..
  | .subu rd .. | .and rd .. | .or rd .. | .xor rd .. | .nor rd .. | .slt rd .. | .sltu rd .. | .dadd rd ..
  | .daddu rd .. | .dsub rd .. | .dsubu rd .. | .dsll rd .. | .dsrl rd .. | .dsra rd .. | .dsll32 rd ..
  | .dsrl32 rd .. | .dsra32 rd .. => some rd
  | .addi rt .. | .addiu rt .. | .slti rt .. | .sltiu rt .. | .andi rt .. | .ori rt .. | .xori rt .. | .lui rt ..
  | .daddi rt .. | .daddiu rt .. | .ldl rt .. | .ldr rt .. | .lb rt .. | .lh rt .. | .lwl rt .. | .lw rt ..
  | .lbu rt .. | .lhu rt .. | .lwr rt .. | .lwu rt .. | .ll rt .. | .lld rt .. | .ld rt .. | .sc rt ..
  | .scd rt .. | .mfc0 rt .. | .dmfc0 rt .. | .mfc2 rt .. | .dmfc2 rt .. | .cfc2 rt .. => some rt
  | .jal .. | .bltzal .. | .bgezal .. | .bltzall .. | .bgezall .. => some 31#5
  | .jr .. | .syscall .. | .brk .. | .sync | .mthi .. | .mtlo .. | .mult .. | .multu .. | .div .. | .divu ..
  | .dmult .. | .dmultu .. | .ddiv .. | .ddivu .. | .tge .. | .tgeu .. | .tlt .. | .tltu .. | .teq ..
  | .tne .. | .bltz .. | .bgez .. | .bltzl .. | .bgezl .. | .tgei .. | .tgeiu .. | .tlti .. | .tltiu ..
  | .teqi .. | .tnei .. | .j .. | .beq .. | .bne .. | .blez .. | .bgtz .. | .beql .. | .bnel .. | .blezl ..
  | .bgtzl .. | .sb .. | .sh .. | .swl .. | .sw .. | .sdl .. | .sdr .. | .swr .. | .cache .. | .lwc1 ..
  | .lwc2 .. | .ldc1 .. | .ldc2 .. | .swc1 .. | .swc2 .. | .sdc1 .. | .sdc2 .. | .sd .. | .mtc0 ..
  | .dmtc0 .. | .tlbr | .tlbwi | .tlbwr | .tlbp | .eret | .cop1 .. | .dcfc2 .. | .mtc2 .. | .dmtc2 ..
  | .ctc2 .. | .dctc2 .. => none

/-- Whether an instruction may write HI, and LO (10_state.md rule R34). -/
def writesHiLo : Instr → Bool × Bool
  | .mult .. | .multu .. | .div .. | .divu .. | .dmult .. | .dmultu .. | .ddiv .. | .ddivu .. => (true, true)
  | .mthi .. => (true, false)
  | .mtlo .. => (false, true)
  | _ => (false, false)

/-! ### The step (42_control.md rule R290, 60_exceptions.md rules R471, R510, R530) -/

/-- The next instruction of `s` is at `c`, in a delay slot iff `d` (42_control.md rule R292). -/
def State.NextIs (s : State) (c : Word) (d : Bool) : Prop :=
  match s.pending with
  | none => c = s.pc ∧ d = false
  | some p => if p.remaining = 0 then c = p.target ∧ d = false else c = s.pc ∧ d = true

/-- The pending jump during the execute phase (R290 phase 1). -/
def State.pendingInExecute (s : State) : Option PendingJump :=
  match s.pending with
  | none => none
  | some p => if p.remaining = 0 then none else some ⟨p.target, 0⟩

/-- The next step is the CPU's (R530): its turn is scheduled, or nothing is and no transfer is in flight; and it
is not halted (70_reset_and_hazards.md rule R550). -/
def State.CpuRuns (s : State) : Prop :=
  ((s.schedule = [] ∧ s.dmaInflight = false) ∨ s.schedule.head? = some .cpu)
    ∧ ∀ a, s.params.haltPc = some a → ¬ s.NextIs a false

/-- `s` once its turn is taken off the schedule. -/
def State.turnTaken (s : State) : State := { s with schedule := s.schedule.tail }

/-- Status admits the step (60_exceptions.md rule R520). -/
def State.Modelled (s : State) : Prop :=
  (s.mode = .kernel ∧ s.kx = false) ∨ (s.mode = .user ∧ s.ux = false ∧ s.re = false)

/-- The interrupt controller's line (60_exceptions.md rule R503): some source's flag and mask are both 1. -/
def State.MiLine (s : State) : Prop := ∃ j < 6, s.mi.flags.getLsbD j = true ∧ s.mi.mask.getLsbD j = true

/-- Cause.IP`j` is 1 (10_state.md rule R43). -/
def State.IpSet (s : State) (j : Nat) : Prop :=
  (j = 0 ∧ s.cp0.cause.ip0 = true) ∨ (j = 1 ∧ s.cp0.cause.ip1 = true) ∨ (j = 2 ∧ s.MiLine)
    ∨ (j = 3 ∧ s.ext.ext3 = true) ∨ (j = 4 ∧ s.ext.ext4 = true) ∨ (j = 5 ∧ s.ext.ext5 = true)
    ∨ (j = 6 ∧ s.ext.ext6 = true) ∨ (j = 7 ∧ s.cp0.cause.ip7 = true)

/-- An interrupt is pending and enabled (60_exceptions.md rule R471): IE = 1, EXL = ERL = 0, and some Cause.IP bit
and its Status.IM bit are both 1. -/
def State.InterruptDue (s : State) : Prop :=
  s.cp0.status.getLsbD 0 = true ∧ s.cp0.status.getLsbD 1 = false ∧ s.cp0.status.getLsbD 2 = false
    ∧ ∃ j, s.IpSet j ∧ s.cp0.status.getLsbD (8 + j) = true

/-- `t` is `s` after the timer tick (60_exceptions.md rule R510). -/
def State.Ticks (s t : State) : Prop :=
  t = { s with cp0 := { s.cp0 with
    count := s.cp0.count - 1
    cause := { s.cp0.cause with ip7 := if s.cp0.count = 0 then true else s.cp0.cause.ip7 } } }

end Sys2Proof.Machine
end

