-- ==== Sys2Proof/Certificates/Slice0/Obligations.lean ====
section
/-! DEFINITION. The statements for the provers, each from the spec's numbered rules. Addresses of instructions are
written from the execute phase, where the pc is the instruction's address plus 4 (42_control.md rule R290). -/

open Sys2Proof Sys2Proof.Machine

/-! ### Encoding -/

/-- 30_encoding.md rules R185–R189: words written out bit by bit from the maps decode to the instruction. -/
def Obligations.DecodeSampleWords : Prop :=
  decode 0b000000_00001_00010_00011_00000_100000#32 = .ok (.add 3 1 2)
    ∧ decode 0b000000_00000_00010_00011_11111_000000#32 = .ok (.sll 3 2 31)
    ∧ decode 0b000000_00001_00010_00000_00000_011010#32 = .ok (.div 1 2)
    ∧ decode 0b000000_00000_00000_00100_00000_010000#32 = .ok (.mfhi 4)
    ∧ decode 0b000000_11001_00000_11111_00000_001001#32 = .ok (.jalr 31 25)
    ∧ decode 0b000000_00001_00010_0000000111_110100#32 = .ok (.teq 1 2 7)
    ∧ decode 0b000000_00000000001111111111_001101#32 = .ok (.brk 1023)
    ∧ decode 0b000001_00001_10011_0000000000000010#32 = .ok (.bgezall 1 2)
    ∧ decode 0b000011_00000000000000001000000000#32 = .ok (.jal 512)
    ∧ decode 0b010100_00001_00010_0000000000000010#32 = .ok (.beql 1 2 2)
    ∧ decode 0b011000_00001_00011_1000000000000000#32 = .ok (.daddi 3 1 0x8000)
    ∧ decode 0b100011_00001_00010_0000000000001000#32 = .ok (.lw 2 1 8)
    ∧ decode 0b101100_00001_00010_0000000000000010#32 = .ok (.sdl 2 1 2)
    ∧ decode 0b111000_00001_00010_0000000000000000#32 = .ok (.sc 2 1 0)
    ∧ decode 0b101111_00100_10000_0000000000000000#32 = .ok (.cache 16 4 0)
    ∧ decode 0b010000_00100_00010_01100_00000_000000#32 = .ok (.mtc0 2 12)
    ∧ decode 0b010000_1_0000000000000000000_011000#32 = .ok .eret
    ∧ decode 0b010001_00100000000001000000000000#32 = .ok (.cop1 0x801000)
    ∧ decode 0b010010_00100_00010_00000_00000000000#32 = .ok (.mtc2 2 0)
    ∧ decode 0b010011_00000_00000_0000000000000000#32 = .error .general

/-- 30_encoding.md rules R181–R189: decoding an encoded instruction gives it back, with every operand at every
value its field admits. The encoder's zeros in the ignored fields are the model's choice (log entry 17). -/
def Obligations.DecodeEncode : Prop :=
  ∀ i : Instr, decode (encode i) = .ok i ∧ decodeTableWord 32 (encode i).toNat = some i

/-- R192: a word carries a row's match under its mask exactly when it decodes to an instruction of that row, so
rows never overlap and a word of no row is rejected. -/
def Obligations.DecodeMatchesTable : Prop :=
  (∀ (w : BitVec 32) (j : Instr),
      w &&& (tableRow j).1 = (tableRow j).2 ↔ ∃ i, decode w = .ok i ∧ tableRow i = tableRow j)
    ∧ (∀ (w : BitVec 32) (j k : Instr),
      w &&& (tableRow j).1 = (tableRow j).2 → w &&& (tableRow k).1 = (tableRow k).2 → tableRow j = tableRow k)
    ∧ ∀ w : BitVec 32, (∀ j : Instr, w &&& (tableRow j).1 ≠ (tableRow j).2) → ∃ r, decode w = .error r

/-- R190, R188, R459: a word of no row raises ReservedInstruction, in the COP0 and COP2 spaces only after the
usability check of the space. -/
def Obligations.ReservedWords : Prop :=
  ∀ (s : State) (w : BitVec 32), (∀ j : Instr, w &&& (tableRow j).1 ≠ (tableRow j).2) →
    (w.extractLsb' 26 6 ≠ 0x10#6 → w.extractLsb' 26 6 ≠ 0x12#6 → s.Raises (s.executeWord w) 10 none none)
    ∧ (w.extractLsb' 26 6 = 0x10#6 → (s.mode = .kernel ∨ s.cu0 = true) → s.Raises (s.executeWord w) 10 none none)
    ∧ (w.extractLsb' 26 6 = 0x10#6 → ¬ (s.mode = .kernel ∨ s.cu0 = true) →
        s.Raises (s.executeWord w) 11 none (some 0))
    ∧ (w.extractLsb' 26 6 = 0x12#6 → s.cu2 = true → s.Raises (s.executeWord w) 10 none none)
    ∧ (w.extractLsb' 26 6 = 0x12#6 → s.cu2 = false → s.Raises (s.executeWord w) 11 none (some 2))

/-! ### Reset and launch -/

/-- R540, R541 for the launch of log entry 4 (a boot ROM present, nothing listed in RAM or either ROM: the
model's choice): every register 0, kernel mode, interrupts off, the pc at the reset vector. -/
def Obligations.ResetState : Prop :=
  (∀ r, State.reset.gpr r = 0) ∧ State.reset.hi = 0 ∧ State.reset.lo = 0
    ∧ State.reset.pc = 0xFFFFFFFFBFC00000 ∧ State.reset.pending = none ∧ State.reset.llBit = false
    ∧ State.reset.cop2Latch = 0 ∧ State.reset.cp0 = ⟨0, 0, 0, 0, ⟨false, false, false, 0, 0, false⟩, 0, 0, 0, 0, 0, 0, 0, 0⟩
    ∧ State.reset.causeWord = 0 ∧ State.reset.mi = ⟨0, 0, 0⟩ ∧ State.reset.ext = ⟨false, false, false, false⟩
    ∧ State.reset.pi = ⟨0, 0, false, false, true⟩ ∧ State.reset.dmaInflight = false
    ∧ State.reset.mode = .kernel ∧ ¬ State.reset.InterruptDue ∧ State.reset.Modelled
    ∧ (∀ rt, CompletesGpr (.mfc0 rt 16) State.reset rt fun v => v = 0x7006E460)
    ∧ ∀ rt, CompletesGpr (.mfc0 rt 15) State.reset rt fun v => v = 0xB22

/-- The state after reset satisfies the machine's invariant. -/
def Obligations.ResetInvariant : Prop := State.reset.Inv

/-- R541, R542: which launches start, where the pc is, and what the high-level boot copies, byte for byte; and a
launch whose images are well formed starts in the invariant. `HLE_INIT_REGS` has its default, empty. -/
def Obligations.LaunchStart : Prop :=
  (∀ l : Launch, l.rom = none → l.start = none)
    ∧ (∀ (l : Launch) (rom boot : Image), l.rom = some rom → l.bootRom = some boot → boot.size ≤ 0x7C0 →
        l.start = some { State.reset with
          ram := l.initRam, rom := rom, bootRom := some boot, params := l.params })
    ∧ (∀ (l : Launch) (rom boot : Image), l.rom = some rom → l.bootRom = some boot → 0x7C0 < boot.size →
        l.start = none)
    ∧ (∀ (l : Launch) (rom : Image), l.rom = some rom → l.bootRom = none → rom.size < 0x1000 → l.start = none)
    ∧ (∀ (l : Launch) (rom : Image) (entry : List Byte), l.rom = some rom → l.bootRom = none →
        0x1000 ≤ rom.size → l.hleInitRegs = [] →
        entry.length = 4 → (∀ j, (h : j < entry.length) → rom.cells.read (8 + j) = entry[j]) →
        ∃ t, l.start = some t ∧ IsWord t.pc (bigEndian entry)
          ∧ t = { State.reset with
              pc := t.pc, ram := t.ram, rom := rom, bootRom := none, params := l.params }
          ∧ ∀ a < t.ramSize, t.ram.read a =
              let first := (bigEndian entry % 2 ^ 29) % t.ramSize
              if first ≤ a ∧ a - first < min 0x100000 (min (rom.size - 0x1000) (t.ramSize - first))
              then rom.cells.read (0x1000 + (a - first)) else l.initRam.read a)
    ∧ ∀ (l : Launch) (t : State), l.start = some t → l.initRam.wf = true →
        l.initRam.below l.params.rdramSize.bytes = true → (∀ m, l.rom = some m → m.Wf) →
        (∀ m, l.bootRom = some m → m.Wf) → t.Inv

/-! ### The invariant -/

/-- R31, R55, R100–R102, R145–R149, R504: every step of the machine keeps the invariant, from every state. That no
step writes MI_MODE's bits 13:10 is the model's inference (log entry 21). -/
def Obligations.StepKeepsInvariant : Prop :=
  ∀ s t : State, s.Inv → step s = .next t → t.Inv

/-! ### General registers -/

/-- R31: register 0 reads 0 and discards writes; every other register holds what was last written; all are 0
after reset. -/
def Obligations.RegisterZero : Prop :=
  (∀ s : State, s.gpr 0 = 0) ∧ (∀ (s : State) (v : Word), s.setGpr 0 v = s)
    ∧ (∀ (s : State) (r q : RegIdx) (v : Word), r ≠ 0 → (s.setGpr r v).gpr q = if q = r then v else s.gpr q)
    ∧ ∀ r, State.reset.gpr r = 0

/-! ### Arithmetic, compare, logical, shift (40_alu.md). Writing register 0 is part of `CompletesGpr`. -/

/-- R202, R204, R211, R227: the word operations without trap, sign-extended from bit 31. -/
def Obligations.WordArithmetic : Prop :=
  DecodesSpecial 0x21 (fun rs rt rd _ => .addu rd rs rt)
    ∧ DecodesSpecial 0x23 (fun rs rt rd _ => .subu rd rs rt)
    ∧ DecodesImmediate 0x09 (fun rs rt imm => .addiu rt rs imm)
    ∧ DecodesImmediate 0x0F (fun _ rt imm => .lui rt imm)
    ∧ ∀ (s : State) (d rs rt : RegIdx) (imm : Imm16),
      CompletesGpr (.addu d rs rt) s d (fun v => IsWord v (signedWord (s.gpr rs) + signedWord (s.gpr rt)))
      ∧ CompletesGpr (.subu d rs rt) s d (fun v => IsWord v (signedWord (s.gpr rs) - signedWord (s.gpr rt)))
      ∧ CompletesGpr (.addiu d rs imm) s d (fun v => IsWord v (signedWord (s.gpr rs) + imm.toInt))
      ∧ CompletesGpr (.lui d imm) s d (fun v => IsWord v (imm.toNat * 65536))

/-- R201, R203, R210: the trapping word operations. -/
def Obligations.TrappingWordArithmetic : Prop :=
  DecodesSpecial 0x20 (fun rs rt rd _ => .add rd rs rt)
    ∧ DecodesSpecial 0x22 (fun rs rt rd _ => .sub rd rs rt)
    ∧ DecodesImmediate 0x08 (fun rs rt imm => .addi rt rs imm)
    ∧ ∀ (s : State) (d rs rt : RegIdx) (imm : Imm16),
      TrapsOnOverflow 32 (.add d rs rt) s d (signedWord (s.gpr rs) + signedWord (s.gpr rt))
      ∧ TrapsOnOverflow 32 (.sub d rs rt) s d (signedWord (s.gpr rs) - signedWord (s.gpr rt))
      ∧ TrapsOnOverflow 32 (.addi d rs imm) s d (signedWord (s.gpr rs) + imm.toInt)

/-- R206, R208, R213: the doubleword operations without trap, outside user mode. -/
def Obligations.DoublewordArithmetic : Prop :=
  DecodesSpecial 0x2D (fun rs rt rd _ => .daddu rd rs rt)
    ∧ DecodesSpecial 0x2F (fun rs rt rd _ => .dsubu rd rs rt)
    ∧ DecodesImmediate 0x19 (fun rs rt imm => .daddiu rt rs imm)
    ∧ ∀ (s : State) (d rs rt : RegIdx) (imm : Imm16), s.mode ≠ .user →
      CompletesGpr (.daddu d rs rt) s d (fun v => IsDouble v ((s.gpr rs).toInt + (s.gpr rt).toInt))
      ∧ CompletesGpr (.dsubu d rs rt) s d (fun v => IsDouble v ((s.gpr rs).toInt - (s.gpr rt).toInt))
      ∧ CompletesGpr (.daddiu d rs imm) s d (fun v => IsDouble v ((s.gpr rs).toInt + imm.toInt))

/-- R205, R207, R212: the trapping doubleword operations, outside user mode. -/
def Obligations.TrappingDoublewordArithmetic : Prop :=
  DecodesSpecial 0x2C (fun rs rt rd _ => .dadd rd rs rt)
    ∧ DecodesSpecial 0x2E (fun rs rt rd _ => .dsub rd rs rt)
    ∧ DecodesImmediate 0x18 (fun rs rt imm => .daddi rt rs imm)
    ∧ ∀ (s : State) (d rs rt : RegIdx) (imm : Imm16), s.mode ≠ .user →
      TrapsOnOverflow 64 (.dadd d rs rt) s d ((s.gpr rs).toInt + (s.gpr rt).toInt)
      ∧ TrapsOnOverflow 64 (.dsub d rs rt) s d ((s.gpr rs).toInt - (s.gpr rt).toInt)
      ∧ TrapsOnOverflow 64 (.daddi d rs imm) s d ((s.gpr rs).toInt + imm.toInt)

/-- R215–R218: set on less than, signed and unsigned, on all 64 bits. -/
def Obligations.SetOnLessThan : Prop :=
  DecodesSpecial 0x2A (fun rs rt rd _ => .slt rd rs rt)
    ∧ DecodesSpecial 0x2B (fun rs rt rd _ => .sltu rd rs rt)
    ∧ DecodesImmediate 0x0A (fun rs rt imm => .slti rt rs imm)
    ∧ DecodesImmediate 0x0B (fun rs rt imm => .sltiu rt rs imm)
    ∧ ∀ (s : State) (d rs rt : RegIdx) (imm : Imm16),
      CompletesGpr (.slt d rs rt) s d (fun v => v = if (s.gpr rs).toInt < (s.gpr rt).toInt then 1 else 0)
      ∧ CompletesGpr (.sltu d rs rt) s d (fun v => v = if (s.gpr rs).toNat < (s.gpr rt).toNat then 1 else 0)
      ∧ CompletesGpr (.slti d rs imm) s d (fun v => v = if (s.gpr rs).toInt < imm.toInt then 1 else 0)
      ∧ CompletesGpr (.sltiu d rs imm) s d
          (fun v => v = if (s.gpr rs).toNat < (imm.toInt % 2 ^ 64).toNat then 1 else 0)

/-- R220–R226: the bitwise operations, bit by bit; the immediate is zero-extended. -/
def Obligations.BitwiseLogical : Prop :=
  DecodesSpecial 0x24 (fun rs rt rd _ => .and rd rs rt)
    ∧ DecodesSpecial 0x25 (fun rs rt rd _ => .or rd rs rt)
    ∧ DecodesSpecial 0x26 (fun rs rt rd _ => .xor rd rs rt)
    ∧ DecodesSpecial 0x27 (fun rs rt rd _ => .nor rd rs rt)
    ∧ DecodesImmediate 0x0C (fun rs rt imm => .andi rt rs imm)
    ∧ DecodesImmediate 0x0D (fun rs rt imm => .ori rt rs imm)
    ∧ DecodesImmediate 0x0E (fun rs rt imm => .xori rt rs imm)
    ∧ ∀ (s : State) (d rs rt : RegIdx) (imm : Imm16),
      CompletesGpr (.and d rs rt) s d
        (fun v => ∀ j < 64, v.getLsbD j = ((s.gpr rs).getLsbD j && (s.gpr rt).getLsbD j))
      ∧ CompletesGpr (.or d rs rt) s d
        (fun v => ∀ j < 64, v.getLsbD j = ((s.gpr rs).getLsbD j || (s.gpr rt).getLsbD j))
      ∧ CompletesGpr (.xor d rs rt) s d
        (fun v => ∀ j < 64, v.getLsbD j = ((s.gpr rs).getLsbD j != (s.gpr rt).getLsbD j))
      ∧ CompletesGpr (.nor d rs rt) s d
        (fun v => ∀ j < 64, v.getLsbD j = !((s.gpr rs).getLsbD j || (s.gpr rt).getLsbD j))
      ∧ CompletesGpr (.andi d rs imm) s d
        (fun v => ∀ j < 64, v.getLsbD j = ((s.gpr rs).getLsbD j && (decide (j < 16) && imm.getLsbD j)))
      ∧ CompletesGpr (.ori d rs imm) s d
        (fun v => ∀ j < 64, v.getLsbD j = ((s.gpr rs).getLsbD j || (decide (j < 16) && imm.getLsbD j)))
      ∧ CompletesGpr (.xori d rs imm) s d
        (fun v => ∀ j < 64, v.getLsbD j = ((s.gpr rs).getLsbD j != (decide (j < 16) && imm.getLsbD j)))

/-- R230–R235: the word shifts; SRA and SRAV shift the whole register and keep its low word. -/
def Obligations.WordShifts : Prop :=
  DecodesSpecial 0x00 (fun _ rt rd sa => .sll rd rt sa)
    ∧ DecodesSpecial 0x02 (fun _ rt rd sa => .srl rd rt sa)
    ∧ DecodesSpecial 0x03 (fun _ rt rd sa => .sra rd rt sa)
    ∧ DecodesSpecial 0x04 (fun rs rt rd _ => .sllv rd rt rs)
    ∧ DecodesSpecial 0x06 (fun rs rt rd _ => .srlv rd rt rs)
    ∧ DecodesSpecial 0x07 (fun rs rt rd _ => .srav rd rt rs)
    ∧ ∀ (s : State) (d rt rs : RegIdx) (sa : BitVec 5),
      CompletesGpr (.sll d rt sa) s d (fun v => IsWord v ((unsignedWord (s.gpr rt) * 2 ^ sa.toNat : Nat)))
      ∧ CompletesGpr (.srl d rt sa) s d (fun v => IsWord v ((unsignedWord (s.gpr rt) / 2 ^ sa.toNat : Nat)))
      ∧ CompletesGpr (.sra d rt sa) s d (fun v => IsWord v ((s.gpr rt).toInt / 2 ^ sa.toNat))
      ∧ CompletesGpr (.sllv d rt rs) s d
          (fun v => IsWord v ((unsignedWord (s.gpr rt) * 2 ^ ((s.gpr rs).toNat % 32) : Nat)))
      ∧ CompletesGpr (.srlv d rt rs) s d
          (fun v => IsWord v ((unsignedWord (s.gpr rt) / 2 ^ ((s.gpr rs).toNat % 32) : Nat)))
      ∧ CompletesGpr (.srav d rt rs) s d
          (fun v => IsWord v ((s.gpr rt).toInt / 2 ^ ((s.gpr rs).toNat % 32)))

/-- R236–R244: the doubleword shifts, outside user mode. -/
def Obligations.DoublewordShifts : Prop :=
  DecodesSpecial 0x38 (fun _ rt rd sa => .dsll rd rt sa)
    ∧ DecodesSpecial 0x3A (fun _ rt rd sa => .dsrl rd rt sa)
    ∧ DecodesSpecial 0x3B (fun _ rt rd sa => .dsra rd rt sa)
    ∧ DecodesSpecial 0x3C (fun _ rt rd sa => .dsll32 rd rt sa)
    ∧ DecodesSpecial 0x3E (fun _ rt rd sa => .dsrl32 rd rt sa)
    ∧ DecodesSpecial 0x3F (fun _ rt rd sa => .dsra32 rd rt sa)
    ∧ DecodesSpecial 0x14 (fun rs rt rd _ => .dsllv rd rt rs)
    ∧ DecodesSpecial 0x16 (fun rs rt rd _ => .dsrlv rd rt rs)
    ∧ DecodesSpecial 0x17 (fun rs rt rd _ => .dsrav rd rt rs)
    ∧ ∀ (s : State) (d rt rs : RegIdx) (sa : BitVec 5), s.mode ≠ .user →
      CompletesGpr (.dsll d rt sa) s d (fun v => v.toNat = (s.gpr rt).toNat * 2 ^ sa.toNat % 2 ^ 64)
      ∧ CompletesGpr (.dsrl d rt sa) s d (fun v => v.toNat = (s.gpr rt).toNat / 2 ^ sa.toNat)
      ∧ CompletesGpr (.dsra d rt sa) s d (fun v => v.toInt = (s.gpr rt).toInt / 2 ^ sa.toNat)
      ∧ CompletesGpr (.dsll32 d rt sa) s d (fun v => v.toNat = (s.gpr rt).toNat * 2 ^ (sa.toNat + 32) % 2 ^ 64)
      ∧ CompletesGpr (.dsrl32 d rt sa) s d (fun v => v.toNat = (s.gpr rt).toNat / 2 ^ (sa.toNat + 32))
      ∧ CompletesGpr (.dsra32 d rt sa) s d (fun v => v.toInt = (s.gpr rt).toInt / 2 ^ (sa.toNat + 32))
      ∧ CompletesGpr (.dsllv d rt rs) s d
          (fun v => v.toNat = (s.gpr rt).toNat * 2 ^ ((s.gpr rs).toNat % 64) % 2 ^ 64)
      ∧ CompletesGpr (.dsrlv d rt rs) s d
          (fun v => v.toNat = (s.gpr rt).toNat / 2 ^ ((s.gpr rs).toNat % 64))
      ∧ CompletesGpr (.dsrav d rt rs) s d
          (fun v => v.toInt = (s.gpr rt).toInt / 2 ^ ((s.gpr rs).toNat % 64))

/-- R245: in user mode every doubleword instruction raises ReservedInstruction and writes nothing. -/
def Obligations.DoublewordInUserMode : Prop :=
  ∀ (i : Instr) (s : State), isDoubleword i = true → s.mode = .user → s.Raises (exec i s) 10 none none

/-! ### HI and LO, multiply, divide (41_muldiv.md) -/

/-- R261–R264: the moves to and from HI and LO. -/
def Obligations.HiLoMoves : Prop :=
  DecodesSpecial 0x10 (fun _ _ rd _ => .mfhi rd)
    ∧ DecodesSpecial 0x11 (fun rs _ _ _ => .mthi rs)
    ∧ DecodesSpecial 0x12 (fun _ _ rd _ => .mflo rd)
    ∧ DecodesSpecial 0x13 (fun rs _ _ _ => .mtlo rs)
    ∧ ∀ (s : State) (r : RegIdx),
      CompletesGpr (.mfhi r) s r (fun v => v = s.hi)
      ∧ CompletesGpr (.mflo r) s r (fun v => v = s.lo)
      ∧ CompletesHiLo (.mthi r) s (fun hi lo => hi = s.gpr r ∧ lo = s.lo)
      ∧ CompletesHiLo (.mtlo r) s (fun hi lo => hi = s.hi ∧ lo = s.gpr r)

/-- R265–R268: HI and LO hold the halves of the exact product, sign-extended for the word forms. -/
def Obligations.Multiply : Prop :=
  DecodesSpecial 0x18 (fun rs rt _ _ => .mult rs rt)
    ∧ DecodesSpecial 0x19 (fun rs rt _ _ => .multu rs rt)
    ∧ DecodesSpecial 0x1C (fun rs rt _ _ => .dmult rs rt)
    ∧ DecodesSpecial 0x1D (fun rs rt _ _ => .dmultu rs rt)
    ∧ (∀ (s : State) (rs rt : RegIdx),
      CompletesHiLo (.mult rs rt) s (fun hi lo =>
        IsWord lo (signedWord (s.gpr rs) * signedWord (s.gpr rt))
        ∧ IsWord hi (signedWord (s.gpr rs) * signedWord (s.gpr rt) / 2 ^ 32))
      ∧ CompletesHiLo (.multu rs rt) s (fun hi lo =>
        IsWord lo ((unsignedWord (s.gpr rs) * unsignedWord (s.gpr rt) : Nat))
        ∧ IsWord hi ((unsignedWord (s.gpr rs) * unsignedWord (s.gpr rt) / 2 ^ 32 : Nat))))
    ∧ ∀ (s : State) (rs rt : RegIdx), s.mode ≠ .user →
      CompletesHiLo (.dmult rs rt) s (fun hi lo =>
        IsDouble lo ((s.gpr rs).toInt * (s.gpr rt).toInt)
        ∧ IsDouble hi ((s.gpr rs).toInt * (s.gpr rt).toInt / 2 ^ 64))
      ∧ CompletesHiLo (.dmultu rs rt) s (fun hi lo =>
        lo.toNat = (s.gpr rs).toNat * (s.gpr rt).toNat % 2 ^ 64
        ∧ hi.toNat = (s.gpr rs).toNat * (s.gpr rt).toNat / 2 ^ 64)

/-- R269–R272 away from their corners: LO the quotient truncated toward zero, HI the remainder, with the sign of
the dividend. -/
def Obligations.Divide : Prop :=
  DecodesSpecial 0x1A (fun rs rt _ _ => .div rs rt)
    ∧ DecodesSpecial 0x1B (fun rs rt _ _ => .divu rs rt)
    ∧ DecodesSpecial 0x1E (fun rs rt _ _ => .ddiv rs rt)
    ∧ DecodesSpecial 0x1F (fun rs rt _ _ => .ddivu rs rt)
    ∧ (∀ (s : State) (rs rt : RegIdx), signedWord (s.gpr rt) ≠ 0 →
      ¬ (signedWord (s.gpr rs) = -2 ^ 31 ∧ signedWord (s.gpr rt) = -1) →
      CompletesHiLo (.div rs rt) s (fun hi lo =>
        signedWord (s.gpr rs) = lo.toInt * signedWord (s.gpr rt) + hi.toInt
        ∧ hi.toInt.natAbs < (signedWord (s.gpr rt)).natAbs
        ∧ (hi.toInt ≠ 0 → (hi.toInt < 0 ↔ signedWord (s.gpr rs) < 0))))
    ∧ (∀ (s : State) (rs rt : RegIdx), unsignedWord (s.gpr rt) ≠ 0 →
      CompletesHiLo (.divu rs rt) s (fun hi lo =>
        IsWord lo ((unsignedWord (s.gpr rs) / unsignedWord (s.gpr rt) : Nat))
        ∧ IsWord hi ((unsignedWord (s.gpr rs) % unsignedWord (s.gpr rt) : Nat))))
    ∧ (∀ (s : State) (rs rt : RegIdx), s.mode ≠ .user → s.gpr rt ≠ 0 →
      ¬ ((s.gpr rs).toInt = -2 ^ 63 ∧ (s.gpr rt).toInt = -1) →
      CompletesHiLo (.ddiv rs rt) s (fun hi lo =>
        (s.gpr rs).toInt = lo.toInt * (s.gpr rt).toInt + hi.toInt
        ∧ hi.toInt.natAbs < (s.gpr rt).toInt.natAbs
        ∧ (hi.toInt ≠ 0 → (hi.toInt < 0 ↔ (s.gpr rs).toInt < 0))))
    ∧ ∀ (s : State) (rs rt : RegIdx), s.mode ≠ .user → s.gpr rt ≠ 0 →
      CompletesHiLo (.ddivu rs rt) s (fun hi lo =>
        (s.gpr rs).toNat = lo.toNat * (s.gpr rt).toNat + hi.toNat ∧ hi.toNat < (s.gpr rt).toNat)

/-- R273: the default results of the division corners; and, where the configuration leaves them opaque, the two
results are a function of the case and the dividend alone. -/
def Obligations.DivisionCorners : Prop :=
  (∀ (s : State) (rs rt : RegIdx), s.params.divCorner = .vr4300 →
      (signedWord (s.gpr rt) = 0 → CompletesHiLo (.div rs rt) s (fun hi lo =>
        lo.toInt = (if 0 ≤ signedWord (s.gpr rs) then -1 else 1) ∧ hi.toInt = signedWord (s.gpr rs)))
      ∧ (signedWord (s.gpr rs) = -2 ^ 31 → signedWord (s.gpr rt) = -1 →
        CompletesHiLo (.div rs rt) s (fun hi lo => lo = 0xFFFFFFFF80000000 ∧ hi = 0))
      ∧ (signedWord (s.gpr rt) = 0 → CompletesHiLo (.divu rs rt) s (fun hi lo =>
        lo = 0xFFFFFFFFFFFFFFFF ∧ hi.toInt = signedWord (s.gpr rs)))
      ∧ (s.mode ≠ .user → s.gpr rt = 0 → CompletesHiLo (.ddiv rs rt) s (fun hi lo =>
        lo.toInt = (if 0 ≤ (s.gpr rs).toInt then -1 else 1) ∧ hi = s.gpr rs))
      ∧ (s.mode ≠ .user → (s.gpr rs).toInt = -2 ^ 63 → (s.gpr rt).toInt = -1 →
        CompletesHiLo (.ddiv rs rt) s (fun hi lo => lo = 0x8000000000000000 ∧ hi = 0))
      ∧ (s.mode ≠ .user → s.gpr rt = 0 → CompletesHiLo (.ddivu rs rt) s (fun hi lo =>
        lo = 0xFFFFFFFFFFFFFFFF ∧ hi = s.gpr rs)))
    ∧ ∀ (s s' : State) (rs rt : RegIdx),
      s.params.divCorner = .unpredictable → s'.params.divCorner = .unpredictable →
      (signedWord (s.gpr rs) = signedWord (s'.gpr rs) → signedWord (s.gpr rt) = signedWord (s'.gpr rt) →
        ∃ hi lo hi' lo', exec (.div rs rt) s = .next { s with hi := hi, lo := lo }
          ∧ exec (.div rs rt) s' = .next { s' with hi := hi, lo := lo }
          ∧ exec (.divu rs rt) s = .next { s with hi := hi', lo := lo' }
          ∧ exec (.divu rs rt) s' = .next { s' with hi := hi', lo := lo' })
      ∧ (s.mode ≠ .user → s'.mode ≠ .user → s.gpr rs = s'.gpr rs → s.gpr rt = s'.gpr rt →
        ∃ hi lo hi' lo', exec (.ddiv rs rt) s = .next { s with hi := hi, lo := lo }
          ∧ exec (.ddiv rs rt) s' = .next { s' with hi := hi, lo := lo }
          ∧ exec (.ddivu rs rt) s = .next { s with hi := hi', lo := lo' }
          ∧ exec (.ddivu rs rt) s' = .next { s' with hi := hi', lo := lo' })

/-! ### Jumps and branches (42_control.md), outside a delay slot -/

/-- R300–R303: J, JAL, JR and JALR. -/
def Obligations.Jumps : Prop :=
  DecodesJump 0x02 .j ∧ DecodesJump 0x03 .jal ∧ DecodesSpecial 0x08 (fun rs _ _ _ => .jr rs)
    ∧ DecodesSpecial 0x09 (fun rs _ rd _ => .jalr rd rs)
    ∧ ∀ (s : State), s.inDelay = false →
      (∀ target, CompletesJump (.j target) s none (some (s.pc.extractLsb' 28 36 ++ target ++ 0#2)) s.pc)
      ∧ (∀ target, CompletesJump (.jal target) s (some 31) (some (s.pc.extractLsb' 28 36 ++ target ++ 0#2)) s.pc)
      ∧ (∀ rs, CompletesJump (.jr rs) s none (some (s.gpr rs)) s.pc)
      ∧ (∀ rd rs, rd ≠ rs ∨ rd = 0 → CompletesJump (.jalr rd rs) s (some rd) (some (s.gpr rs)) s.pc)
      ∧ ∀ rd, rd ≠ 0 → exec (.jalr rd rd) s = .refused .jalrRdEqualsRs

/-- R304–R311: the plain branches; BLTZAL and BGEZAL link whether or not they are taken and test the old
register 31. -/
def Obligations.Branches : Prop :=
  DecodesImmediate 0x04 .beq ∧ DecodesImmediate 0x05 .bne
    ∧ DecodesImmediate 0x06 (fun rs _ imm => .blez rs imm) ∧ DecodesImmediate 0x07 (fun rs _ imm => .bgtz rs imm)
    ∧ DecodesRegimm 0x00 .bltz ∧ DecodesRegimm 0x01 .bgez ∧ DecodesRegimm 0x10 .bltzal ∧ DecodesRegimm 0x11 .bgezal
    ∧ ∀ (s : State) (rs rt : RegIdx) (imm : Imm16), s.inDelay = false →
      CompletesBranch (.beq rs rt imm) s none (s.gpr rs = s.gpr rt) imm
      ∧ CompletesBranch (.bne rs rt imm) s none (s.gpr rs ≠ s.gpr rt) imm
      ∧ CompletesBranch (.blez rs imm) s none ((s.gpr rs).toInt ≤ 0) imm
      ∧ CompletesBranch (.bgtz rs imm) s none (0 < (s.gpr rs).toInt) imm
      ∧ CompletesBranch (.bltz rs imm) s none ((s.gpr rs).toInt < 0) imm
      ∧ CompletesBranch (.bgez rs imm) s none (0 ≤ (s.gpr rs).toInt) imm
      ∧ CompletesBranch (.bltzal rs imm) s (some 31) ((s.gpr rs).toInt < 0) imm
      ∧ CompletesBranch (.bgezal rs imm) s (some 31) (0 ≤ (s.gpr rs).toInt) imm

/-- R312–R319: the branch-likely forms; not taken, they skip their delay slot. -/
def Obligations.LikelyBranches : Prop :=
  DecodesImmediate 0x14 .beql ∧ DecodesImmediate 0x15 .bnel
    ∧ DecodesImmediate 0x16 (fun rs _ imm => .blezl rs imm) ∧ DecodesImmediate 0x17 (fun rs _ imm => .bgtzl rs imm)
    ∧ DecodesRegimm 0x02 .bltzl ∧ DecodesRegimm 0x03 .bgezl
    ∧ DecodesRegimm 0x12 .bltzall ∧ DecodesRegimm 0x13 .bgezall
    ∧ ∀ (s : State) (rs rt : RegIdx) (imm : Imm16), s.inDelay = false →
      CompletesLikely (.beql rs rt imm) s none (s.gpr rs = s.gpr rt) imm
      ∧ CompletesLikely (.bnel rs rt imm) s none (s.gpr rs ≠ s.gpr rt) imm
      ∧ CompletesLikely (.blezl rs imm) s none ((s.gpr rs).toInt ≤ 0) imm
      ∧ CompletesLikely (.bgtzl rs imm) s none (0 < (s.gpr rs).toInt) imm
      ∧ CompletesLikely (.bltzl rs imm) s none ((s.gpr rs).toInt < 0) imm
      ∧ CompletesLikely (.bgezl rs imm) s none (0 ≤ (s.gpr rs).toInt) imm
      ∧ CompletesLikely (.bltzall rs imm) s (some 31) ((s.gpr rs).toInt < 0) imm
      ∧ CompletesLikely (.bgezall rs imm) s (some 31) (0 ≤ (s.gpr rs).toInt) imm

/-- R294, R411: in a delay slot every jump and branch, taken or not, and ERET is refused before anything else. -/
def Obligations.BranchInDelaySlot : Prop :=
  ∀ (i : Instr) (s : State), isControlTransfer i = true → s.inDelay = true →
    exec i s = .refused .branchInDelaySlot

/-! ### Memory (20_memory.md, 43_loadstore.md) -/

/-- R111, R114: translation is total on its three outcomes and gives each where the segment map says. -/
def Obligations.Translation : Prop :=
  ∀ (s : State) (kind : AccessKind) (va : Word),
    (∀ p, s.MapsTo va p → s.translate kind va = .ok (BitVec.ofNat 32 p))
    ∧ (s.BadAddress va → s.translate kind va = raise (match kind with
        | .fetch => .addressErrorLoad va
        | .load => .addressErrorLoad va
        | .store => .addressErrorStore va))
    ∧ (¬ s.BadAddress va → s.TlbMapped va → s.translate kind va = refuse .tlbMappedSegment)
    ∧ ((∃ p, s.MapsTo va p) ∨ s.BadAddress va ∨ s.TlbMapped va)
    ∧ (s.mode = .user → ∀ p, ¬ s.MapsTo va p)

/-- R342–R348 on RAM, cartridge ROM and boot ROM: an aligned load gives the big-endian value of the bytes there,
extended as the instruction says, and changes nothing else. -/
def Obligations.AlignedLoads : Prop :=
  DecodesAccess 0x20 .lb
    ∧ DecodesAccess 0x24 .lbu
    ∧ DecodesAccess 0x21 .lh
    ∧ DecodesAccess 0x25 .lhu
    ∧ DecodesAccess 0x23 .lw
    ∧ DecodesAccess 0x27 .lwu
    ∧ DecodesAccess 0x37 .ld
    ∧ ∀ (s : State) (rt base : RegIdx) (offset : Imm16) (p : Nat) (bytes : List Byte),
    s.MapsTo (s.effectiveAddress base offset) p → s.HoldsBytes p bytes →
    (bytes.length = 1 →
      CompletesGpr (.lb rt base offset) s rt (fun v => v.toInt = (bigEndian bytes : Int).bmod (2 ^ 8))
      ∧ CompletesGpr (.lbu rt base offset) s rt (fun v => v.toNat = bigEndian bytes))
    ∧ (bytes.length = 2 → p % 2 = 0 →
      CompletesGpr (.lh rt base offset) s rt (fun v => v.toInt = (bigEndian bytes : Int).bmod (2 ^ 16))
      ∧ CompletesGpr (.lhu rt base offset) s rt (fun v => v.toNat = bigEndian bytes))
    ∧ (bytes.length = 4 → p % 4 = 0 →
      CompletesGpr (.lw rt base offset) s rt (fun v => v.toInt = (bigEndian bytes : Int).bmod (2 ^ 32))
      ∧ CompletesGpr (.lwu rt base offset) s rt (fun v => v.toNat = bigEndian bytes))
    ∧ (bytes.length = 8 → p % 8 = 0 → s.mode ≠ .user →
      CompletesGpr (.ld rt base offset) s rt (fun v => v.toNat = bigEndian bytes))

/-- R349–R352: LWL and LDL take the bytes from the address to the end of its unit into the register's left end,
LWR and LDR those from the unit's start up to the address into its right end; the other bytes of the register
stay, and the word forms sign-extend the merged word. -/
def Obligations.PartialLoads : Prop :=
  DecodesAccess 0x22 .lwl
    ∧ DecodesAccess 0x26 .lwr
    ∧ DecodesAccess 0x1A .ldl
    ∧ DecodesAccess 0x1B .ldr
    ∧ ∀ (s : State) (rt base : RegIdx) (offset : Imm16) (p : Nat) (bytes : List Byte),
    s.MapsTo (s.effectiveAddress base offset) p →
    (bytes.length = 4 → s.HoldsBytes (p - p % 4) bytes →
      CompletesGpr (.lwl rt base offset) s rt (fun v => v.toInt = signedWord v ∧ ∀ j < 4,
        byteOf 4 j v = if p % 4 + j < 4 then bytes.getD (p % 4 + j) 0 else byteOf 4 j (s.gpr rt))
      ∧ CompletesGpr (.lwr rt base offset) s rt (fun v => v.toInt = signedWord v ∧ ∀ j < 4,
        byteOf 4 j v = if 3 ≤ p % 4 + j then bytes.getD (p % 4 + j - 3) 0 else byteOf 4 j (s.gpr rt)))
    ∧ (bytes.length = 8 → s.HoldsBytes (p - p % 8) bytes → s.mode ≠ .user →
      CompletesGpr (.ldl rt base offset) s rt (fun v => ∀ j < 8,
        byteOf 8 j v = if p % 8 + j < 8 then bytes.getD (p % 8 + j) 0 else byteOf 8 j (s.gpr rt))
      ∧ CompletesGpr (.ldr rt base offset) s rt (fun v => ∀ j < 8,
        byteOf 8 j v = if 7 ≤ p % 8 + j then bytes.getD (p % 8 + j - 7) 0 else byteOf 8 j (s.gpr rt)))

/-- R361, R364: LL and LLD load, set LLbit, and set LLAddr to the physical address divided by 16; no other CP0
register changes. -/
def Obligations.LinkedLoads : Prop :=
  DecodesAccess 0x30 .ll
    ∧ DecodesAccess 0x34 .lld
    ∧ ∀ (s : State) (rt base : RegIdx) (offset : Imm16) (p : Nat) (bytes : List Byte),
    s.MapsTo (s.effectiveAddress base offset) p → s.HoldsBytes p bytes →
    (bytes.length = 4 → p % 4 = 0 → ∃ t v, exec (.ll rt base offset) s = .next t
      ∧ v.toInt = (bigEndian bytes : Int).bmod (2 ^ 32) ∧ (∀ r, t.gpr r = if r = rt ∧ rt ≠ 0#5 then v else s.gpr r)
      ∧ t = { s with regs := t.regs, llBit := true, cp0 := { s.cp0 with llAddr := BitVec.ofNat 32 (p / 16) } }
      ∧ ∀ q, t.byteAt q = s.byteAt q)
    ∧ (bytes.length = 8 → p % 8 = 0 → s.mode ≠ .user → ∃ t v, exec (.lld rt base offset) s = .next t
      ∧ v.toNat = bigEndian bytes ∧ (∀ r, t.gpr r = if r = rt ∧ rt ≠ 0#5 then v else s.gpr r)
      ∧ t = { s with regs := t.regs, llBit := true, cp0 := { s.cp0 with llAddr := BitVec.ofNat 32 (p / 16) } }
      ∧ ∀ q, t.byteAt q = s.byteAt q)

/-- R353–R356 on memory: an aligned store to RAM writes exactly its bytes, the most significant first, and a store
to either ROM changes nothing (R124). -/
def Obligations.AlignedStores : Prop :=
  DecodesAccess 0x28 .sb
    ∧ DecodesAccess 0x29 .sh
    ∧ DecodesAccess 0x2B .sw
    ∧ DecodesAccess 0x3F .sd
    ∧ ∀ (s : State) (rt base : RegIdx) (offset : Imm16) (p : Nat),
    s.ram.wf = true → s.MapsTo (s.effectiveAddress base offset) p →
    (IsRam p →
      (∃ t, exec (.sb rt base offset) s = .next t ∧ s.StoresBytes t p 1 (fun j => byteOf 1 j (s.gpr rt)))
      ∧ (p % 2 = 0 → ∃ t, exec (.sh rt base offset) s = .next t
        ∧ s.StoresBytes t p 2 (fun j => byteOf 2 j (s.gpr rt)))
      ∧ (p % 4 = 0 → ∃ t, exec (.sw rt base offset) s = .next t
        ∧ s.StoresBytes t p 4 (fun j => byteOf 4 j (s.gpr rt)))
      ∧ (p % 8 = 0 → s.mode ≠ .user → ∃ t, exec (.sd rt base offset) s = .next t
        ∧ s.StoresBytes t p 8 (fun j => byteOf 8 j (s.gpr rt))))
    ∧ (IsRom p →
      exec (.sb rt base offset) s = .next s
      ∧ (p % 2 = 0 → exec (.sh rt base offset) s = .next s)
      ∧ (p % 4 = 0 → exec (.sw rt base offset) s = .next s)
      ∧ (p % 8 = 0 → s.mode ≠ .user → exec (.sd rt base offset) s = .next s))

/-- R357–R360, R124: SWL and SDL store the register's left bytes from the address to the end of its unit, SWR and
SDR its right bytes from the unit's start up to the address, and no other byte changes; a ROM ignores them. -/
def Obligations.PartialStores : Prop :=
  DecodesAccess 0x2A .swl
    ∧ DecodesAccess 0x2E .swr
    ∧ DecodesAccess 0x2C .sdl
    ∧ DecodesAccess 0x2D .sdr
    ∧ ∀ (s : State) (rt base : RegIdx) (offset : Imm16) (p : Nat),
    s.ram.wf = true → s.MapsTo (s.effectiveAddress base offset) p →
    (IsRam p →
      (∃ t, exec (.swl rt base offset) s = .next t
        ∧ s.StoresBytes t p (4 - p % 4) (fun j => byteOf 4 j (s.gpr rt)))
      ∧ (∃ t, exec (.swr rt base offset) s = .next t
        ∧ s.StoresBytes t (p - p % 4) (p % 4 + 1) (fun j => byteOf 4 (3 - p % 4 + j) (s.gpr rt)))
      ∧ (s.mode ≠ .user → ∃ t, exec (.sdl rt base offset) s = .next t
        ∧ s.StoresBytes t p (8 - p % 8) (fun j => byteOf 8 j (s.gpr rt)))
      ∧ (s.mode ≠ .user → ∃ t, exec (.sdr rt base offset) s = .next t
        ∧ s.StoresBytes t (p - p % 8) (p % 8 + 1) (fun j => byteOf 8 (7 - p % 8 + j) (s.gpr rt))))
    ∧ (IsRom p →
      exec (.swl rt base offset) s = .next s ∧ exec (.swr rt base offset) s = .next s
      ∧ (s.mode ≠ .user → exec (.sdl rt base offset) s = .next s ∧ exec (.sdr rt base offset) s = .next s))

/-- R362, R363: with LLbit set SC and SCD store and write 1, on either ROM they write 1 and store nothing; with
LLbit clear they write 0 and touch no memory, wherever the address maps. LLbit stays as it is. -/
def Obligations.StoreConditional : Prop :=
  DecodesAccess 0x38 .sc
    ∧ DecodesAccess 0x3C .scd
    ∧ ∀ (s : State) (rt base : RegIdx) (offset : Imm16) (p : Nat),
    s.ram.wf = true → s.MapsTo (s.effectiveAddress base offset) p →
    (p % 4 = 0 →
      (s.llBit = true → IsRam p → ∃ t, exec (.sc rt base offset) s = .next t
        ∧ (∀ r, t.gpr r = if r = rt ∧ rt ≠ 0#5 then 1 else s.gpr r)
        ∧ s.StoresBytes { t with regs := s.regs } p 4 (fun j => byteOf 4 j (s.gpr rt)))
      ∧ (s.llBit = true → IsRom p → CompletesGpr (.sc rt base offset) s rt (fun v => v = 1))
      ∧ (s.llBit = false → CompletesGpr (.sc rt base offset) s rt (fun v => v = 0)))
    ∧ (p % 8 = 0 → s.mode ≠ .user →
      (s.llBit = true → IsRam p → ∃ t, exec (.scd rt base offset) s = .next t
        ∧ (∀ r, t.gpr r = if r = rt ∧ rt ≠ 0#5 then 1 else s.gpr r)
        ∧ s.StoresBytes { t with regs := s.regs } p 8 (fun j => byteOf 8 j (s.gpr rt)))
      ∧ (s.llBit = true → IsRom p → CompletesGpr (.scd rt base offset) s rt (fun v => v = 1))
      ∧ (s.llBit = false → CompletesGpr (.scd rt base offset) s rt (fun v => v = 0)))

/-- R164: a word stored to RAM and loaded back from the same address is the word stored. -/
def Obligations.StoreLoadRoundTrip : Prop :=
  ∀ (s t : State) (rt base rt' base' : RegIdx) (offset offset' : Imm16) (p : Nat),
    s.ram.wf = true → s.MapsTo (s.effectiveAddress base offset) p → IsRam p → p % 4 = 0 →
    exec (.sw rt base offset) s = .next t → t.effectiveAddress base' offset' = s.effectiveAddress base offset →
    CompletesGpr (.lw rt' base' offset') t rt' (fun v => IsWord v (signedWord (s.gpr rt)))

/-- R340, R481: a misaligned, invalid or user-forbidden effective address raises the address error of the access
with BadVAddr = EA, unaligned as computed, and writes nothing; an aligned one in a TLB-mapped segment is refused. -/
def Obligations.AccessAddressErrors : Prop :=
  ∀ (i : Instr) (m : MemoryAccess) (s : State), memoryAccess i = some m →
    ¬ (isDoubleword i = true ∧ s.mode = .user) →
    let ea := s.effectiveAddress m.base m.offset
    (ea.toNat % m.align ≠ 0 ∨ s.BadAddress ea → s.Raises (exec i s) (if m.stores then 5 else 4) (some ea) none)
    ∧ (ea.toNat % m.align = 0 → ¬ s.BadAddress ea → s.TlbMapped ea → exec i s = .refused .tlbMappedSegment)

/-- R122, R123, R125: an aligned access to an unmapped address, to the MI or PI range by another instruction than
LW, LWU or SW, or a load past the end of either ROM, is refused by name. An SC or SCD with LLbit clear makes no
access (R362). -/
def Obligations.AccessRefusals : Prop :=
  ∀ (i : Instr) (m : MemoryAccess) (s : State) (p : Nat), memoryAccess i = some m →
    ¬ (isDoubleword i = true ∧ s.mode = .user) → s.MapsTo (s.effectiveAddress m.base m.offset) p →
    p % m.align = 0 → ((∀ rt b o, i ≠ .sc rt b o ∧ i ≠ .scd rt b o) ∨ s.llBit = true) →
    (IsUnmapped p → exec i s = .refused .unmappedPhysicalAddress)
    ∧ (m.wordForm = false → (∃ o, IsMi p o ∨ IsPi p o) → exec i s = .refused .mmioAccessFormNotModelled)
    ∧ (m.stores = false → 0x10000000 ≤ p → p ≤ 0x1FBFFFFF →
        s.rom.size < p - p % m.width - 0x10000000 + m.width → exec i s = .refused .romReadBeyondImage)
    ∧ (m.stores = false → 0x1FC00000 ≤ p → p ≤ 0x1FC007BF → s.bootRom = none →
        exec i s = .refused .bootRomAbsent)
    ∧ ∀ boot, m.stores = false → 0x1FC00000 ≤ p → p ≤ 0x1FC007BF → s.bootRom = some boot →
        boot.size < p - p % m.width - 0x1FC00000 + m.width → exec i s = .refused .bootRomReadBeyondImage

/-! ### The interrupt controller and the peripheral interface -/

/-- R141, R142, R504: what LW and LWU read from every MI and PI register; where the spec lets a read return any
32-bit value, some value is read and nothing but the destination and the count of draws changes. -/
def Obligations.DeviceReads : Prop :=
  ∀ (s : State) (rt base : RegIdx) (offset : Imm16) (p o : Nat),
    s.MapsTo (s.effectiveAddress base offset) p → o % 4 = 0 →
    let reads (n : Nat) : Prop :=
      CompletesGpr (.lw rt base offset) s rt (fun v => IsWord v n)
      ∧ CompletesGpr (.lwu rt base offset) s rt (fun v => v.toNat = n)
    let draws : Prop :=
      ∃ w : BitVec 32,
        (∃ t, exec (.lw rt base offset) s = .next t
          ∧ (∀ r, t.gpr r = if r = rt ∧ rt ≠ 0#5 then w.signExtend 64 else s.gpr r)
          ∧ t = { s with regs := t.regs, draws := s.draws + 1 })
        ∧ ∃ t, exec (.lwu rt base offset) s = .next t
          ∧ (∀ r, t.gpr r = if r = rt ∧ rt ≠ 0#5 then w.setWidth 64 else s.gpr r)
          ∧ t = { s with regs := t.regs, draws := s.draws + 1 }
    (IsMi p o →
      (o = 0 → reads (s.mi.mode.toNat % 2 ^ 10)) ∧ (o = 4 → reads 0x02020102) ∧ (o = 8 → reads s.mi.flags.toNat)
      ∧ (o = 12 → reads s.mi.mask.toNat) ∧ (12 < o → draws))
    ∧ (IsPi p o →
      (o = 0 → s.pi.addrKnown = true → reads s.pi.dramAddr.toNat)
      ∧ (o = 4 → s.pi.addrKnown = true → reads s.pi.cartAddr.toNat)
      ∧ (o = 16 → reads ((if s.pi.busy then 1 else 0) + if s.pi.completed then 8 else 0))
      ∧ (o = 0 ∨ o = 4 → s.pi.addrKnown = false → draws) ∧ (o = 8 ∨ o = 12 ∨ 16 < o → draws))

/-- R502, R504, R501: SW to MI_INTR_MASK clears and sets each source's mask bit, the clear bit checked first; SW to
MI_MODE writes the init length, the three mode bits by their clear and set pairs, and clears the DP flag on bit 11;
SW to any other MI offset changes nothing. That MI_MODE keeps bits 13:10, which no rule writes, is the model's
inference (log entry 21). -/
def Obligations.InterruptControllerWrites : Prop :=
  ∀ (s : State) (rt base : RegIdx) (offset : Imm16) (p o : Nat),
    s.MapsTo (s.effectiveAddress base offset) p → IsMi p o → o % 4 = 0 →
    let v := s.gpr rt
    let pair (clear set : Nat) (old : Bool) : Bool :=
      if v.getLsbD clear then false else if v.getLsbD set then true else old
    (o = 12 → ∃ mask, exec (.sw rt base offset) s = .next { s with mi := { s.mi with mask := mask } }
      ∧ ∀ j < 6, mask.getLsbD j = pair (2 * j) (2 * j + 1) (s.mi.mask.getLsbD j))
    ∧ (o = 0 → ∃ mode flags,
      exec (.sw rt base offset) s = .next { s with mi := { s.mi with mode := mode, flags := flags } }
      ∧ (∀ j < 7, mode.getLsbD j = v.getLsbD j)
      ∧ mode.getLsbD 7 = pair 7 8 (s.mi.mode.getLsbD 7) ∧ mode.getLsbD 8 = pair 9 10 (s.mi.mode.getLsbD 8)
      ∧ mode.getLsbD 9 = pair 12 13 (s.mi.mode.getLsbD 9)
      ∧ (∀ j < 14, 10 ≤ j → mode.getLsbD j = s.mi.mode.getLsbD j)
      ∧ ∀ j < 6, flags.getLsbD j = if j = 5 ∧ v.getLsbD 11 = true then false else s.mi.flags.getLsbD j)
    ∧ (o ≠ 12 → o ≠ 0 → exec (.sw rt base offset) s = .next s)

/-- R143, R144, R149, R150: SW to the PI address registers, to PI_STATUS (the reset bit wins over the
clear-interrupt bit, neither bit set changes nothing), and to an unrecognised PI offset. -/
def Obligations.PeripheralWrites : Prop :=
  ∀ (s : State) (rt base : RegIdx) (offset : Imm16) (p o : Nat),
    s.MapsTo (s.effectiveAddress base offset) p → IsPi p o → o % 4 = 0 →
    let v := s.gpr rt
    let cleared (flags : BitVec 6) : Prop :=
      ∀ j < 6, flags.getLsbD j = if j = 4 then false else s.mi.flags.getLsbD j
    (o = 0 → exec (.sw rt base offset) s =
      .next { s with pi := { s.pi with dramAddr := v.extractLsb' 0 24, addrKnown := true } })
    ∧ (o = 4 → exec (.sw rt base offset) s =
      .next { s with pi := { s.pi with cartAddr := v.extractLsb' 0 32, addrKnown := true } })
    ∧ (o = 16 → v.getLsbD 0 = true → ∃ flags, cleared flags ∧ exec (.sw rt base offset) s =
      .next { s with
        pi := { s.pi with busy := false, completed := false }, mi := { s.mi with flags := flags }
        dmaInflight := false })
    ∧ (o = 16 → v.getLsbD 0 = false → v.getLsbD 1 = true → ∃ flags, cleared flags ∧
      exec (.sw rt base offset) s =
        .next { s with pi := { s.pi with completed := false }, mi := { s.mi with flags := flags } })
    ∧ (o = 16 → v.getLsbD 0 = false → v.getLsbD 1 = false → exec (.sw rt base offset) s = .next s)
    ∧ (16 < o → exec (.sw rt base offset) s = .next s)

/-- R145, R146, R147, R152: SW to PI_WR_LEN copies the cartridge's bytes into RAM, as many as the length and both
regions' ends admit, and SW to PI_RD_LEN copies none; both set busy, clear completed and the PI flag, forget the
addresses and put a transfer in flight; with one already in flight both are refused. -/
def Obligations.DmaTransfer : Prop :=
  ∀ (s : State) (rt base : RegIdx) (offset : Imm16) (p : Nat),
    s.MapsTo (s.effectiveAddress base offset) p →
    let started (t : State) : Prop :=
      (∀ j < 6, t.mi.flags.getLsbD j = if j = 4 then false else s.mi.flags.getLsbD j)
      ∧ t = { s with
          ram := t.ram, mi := { s.mi with flags := t.mi.flags }, dmaInflight := true
          pi := { s.pi with busy := true, completed := false, addrKnown := false } }
    (s.dmaInflight = true → IsPi p 8 ∨ IsPi p 12 → exec (.sw rt base offset) s = .refused .piDmaWhileBusy)
    ∧ (s.dmaInflight = false → IsPi p 8 →
      ∃ t, exec (.sw rt base offset) s = .next t ∧ started t ∧ t.ram = s.ram)
    ∧ (s.dmaInflight = false → IsPi p 12 →
      let length := (s.gpr rt).toNat % 2 ^ 24 + 1
      let first := s.pi.dramAddr.toNat % s.ramSize
      let source := s.pi.cartAddr.toNat - 0x10000000
      let count := if 0x10000000 ≤ s.pi.cartAddr.toNat ∧ s.pi.cartAddr.toNat ≤ 0x1FBFFFFF
        then min length (min (s.rom.size - source) (s.ramSize - first)) else 0
      ∃ t, exec (.sw rt base offset) s = .next t ∧ started t
        ∧ ∀ q, t.byteAt q =
          if IsRam q ∧ first ≤ q % s.ramSize ∧ q % s.ramSize < first + count
          then some (s.rom.cells.read (source + (q % s.ramSize - first))) else s.byteAt q)

/-! ### System instructions (44_system.md) -/

/-- R391, R392: SYSCALL and BREAK raise their exceptions in every mode, whatever their code. -/
def Obligations.SyscallBreak : Prop :=
  (∀ w : BitVec 32, w.extractLsb' 26 6 = 0#6 → w.extractLsb' 0 6 = 0x0C#6 →
      decode w = .ok (.syscall (w.extractLsb' 6 20)))
    ∧ (∀ w : BitVec 32, w.extractLsb' 26 6 = 0#6 → w.extractLsb' 0 6 = 0x0D#6 →
      decode w = .ok (.brk (w.extractLsb' 6 20)))
    ∧ ∀ (s : State) (code : BitVec 20),
      s.Raises (exec (.syscall code) s) 8 none none ∧ s.Raises (exec (.brk code) s) 9 none none

/-- R393, R394: CACHE, where CP0 is usable, and SYNC change nothing, whatever the operation, base and offset. -/
def Obligations.CacheSync : Prop :=
  DecodesImmediate 0x2F (fun base op offset => .cache op base offset)
    ∧ DecodesSpecial 0x0F (fun _ _ _ _ => .sync)
    ∧ ∀ (s : State) (op base : RegIdx) (offset : Imm16),
      (s.mode = .kernel ∨ s.cu0 = true → exec (.cache op base offset) s = .next s)
      ∧ (¬ (s.mode = .kernel ∨ s.cu0 = true) → s.Raises (exec (.cache op base offset) s) 11 none (some 0))
      ∧ exec .sync s = .next s

/-- R400, R407–R410: where CP0 is not usable every COP0-space instruction and CACHE raise CoprocessorUnusable with
CE = 0; where it is, the TLB instructions are refused. -/
def Obligations.Cp0UsabilityAndTlb : Prop :=
  DecodesCop0Function 0x01 .tlbr ∧ DecodesCop0Function 0x02 .tlbwi ∧ DecodesCop0Function 0x06 .tlbwr
    ∧ DecodesCop0Function 0x08 .tlbp
    ∧ (∀ (i : Instr) (s : State), isCp0Instruction i = true → ¬ (s.mode = .kernel ∨ s.cu0 = true) →
      ¬ (i = .eret ∧ s.inDelay = true) → s.Raises (exec i s) 11 none (some 0))
    ∧ ∀ s : State, s.mode = .kernel ∨ s.cu0 = true →
      exec .tlbr s = .refused .tlbNotModelled ∧ exec .tlbwi s = .refused .tlbNotModelled
      ∧ exec .tlbwr s = .refused .tlbNotModelled ∧ exec .tlbp s = .refused .tlbNotModelled

/-- R401, R403, R405 and 10_state.md rule R43: what MFC0 and DMFC0 read from every modelled CP0 register, and the
refusals for the others. -/
def Obligations.Cp0Reads : Prop :=
  DecodesMove 0x10 0x00 (fun rt rd => .mfc0 rt rd) ∧ DecodesMove 0x10 0x01 (fun rt rd => .dmfc0 rt rd)
    ∧ (∀ (s : State) (rt n : RegIdx), ¬ (s.mode = .kernel ∨ s.cu0 = true) →
      s.Raises (exec (.mfc0 rt n) s) 11 none (some 0) ∧ s.Raises (exec (.dmfc0 rt n) s) 11 none (some 0))
    ∧ ∀ (s : State) (rt : RegIdx), s.mode = .kernel ∨ s.cu0 = true →
      let reads (n : RegIdx) (k : Nat) : Prop := CompletesGpr (.mfc0 rt n) s rt (fun v => IsWord v k)
      let readsDouble (n : RegIdx) (value : Word) : Prop := CompletesGpr (.dmfc0 rt n) s rt (fun v => v = value)
      reads 8 s.cp0.badVAddr.toNat ∧ reads 9 s.cp0.count.toNat ∧ reads 11 s.cp0.compare.toNat
      ∧ reads 12 s.cp0.status.toNat ∧ reads 14 s.cp0.epc.toNat ∧ reads 15 0xB22
      ∧ CompletesGpr (.mfc0 rt 16) s rt (fun v => v.toInt = signedWord v ∧ ∀ j < 32, v.getLsbD j =
          if j < 4 ∨ (24 ≤ j ∧ j < 28) then s.cp0.cfgW.getLsbD j else Nat.testBit 0x7006E460 j)
      ∧ reads 17 s.cp0.llAddr.toNat ∧ reads 18 s.cp0.watchLo.toNat ∧ reads 19 s.cp0.watchHi.toNat
      ∧ reads 28 s.cp0.tagLo.toNat ∧ reads 29 s.cp0.tagHi.toNat ∧ reads 30 s.cp0.errorEpc.toNat
      ∧ CompletesGpr (.mfc0 rt 13) s rt (fun v => v.toInt = signedWord v
        ∧ v.getLsbD 31 = s.cp0.cause.bd ∧ v.extractLsb' 28 2 = s.cp0.cause.ce
        ∧ (∀ j < 8, v.getLsbD (8 + j) = true ↔ s.IpSet j)
        ∧ v.extractLsb' 2 5 = s.cp0.cause.excCode
        ∧ v.getLsbD 30 = false ∧ v.extractLsb' 16 12 = 0#12 ∧ v.getLsbD 7 = false ∧ v.extractLsb' 0 2 = 0#2)
      ∧ readsDouble 8 s.cp0.badVAddr ∧ readsDouble 14 s.cp0.epc ∧ readsDouble 30 s.cp0.errorEpc
      ∧ (∀ n, cp0Modelled n = false → exec (.mfc0 rt n) s = .refused .cp0RegNotModelled
          ∧ exec (.dmfc0 rt n) s = .refused .cp0RegNotModelled)
      ∧ ∀ n, cp0Modelled n = true → cp0Double n = false →
          exec (.dmfc0 rt n) s = .refused .cp0DoubleAccessNotModelled

/-- R402, R404, R406: what MTC0 and DMTC0 write to every modelled CP0 register, and the refusals. -/
def Obligations.Cp0Writes : Prop :=
  DecodesMove 0x10 0x04 (fun rt rd => .mtc0 rt rd) ∧ DecodesMove 0x10 0x05 (fun rt rd => .dmtc0 rt rd)
    ∧ (∀ (s : State) (rt n : RegIdx), ¬ (s.mode = .kernel ∨ s.cu0 = true) →
      s.Raises (exec (.mtc0 rt n) s) 11 none (some 0) ∧ s.Raises (exec (.dmtc0 rt n) s) 11 none (some 0))
    ∧ ∀ (s : State) (rt : RegIdx), s.mode = .kernel ∨ s.cu0 = true →
      let v := s.gpr rt
      let low := v.extractLsb' 0 32
      let writes (n : RegIdx) (c : Cp0) : Prop := exec (.mtc0 rt n) s = .next { s with cp0 := c }
      let writesDouble (n : RegIdx) (c : Cp0) : Prop := exec (.dmtc0 rt n) s = .next { s with cp0 := c }
      writes 8 s.cp0 ∧ writes 15 s.cp0 ∧ writes 9 { s.cp0 with count := low }
      ∧ writes 11 { s.cp0 with compare := low, cause := { s.cp0.cause with ip7 := false } }
      ∧ writes 12 { s.cp0 with status := low }
      ∧ writes 13 { s.cp0 with cause := { s.cp0.cause with ip0 := v.getLsbD 8, ip1 := v.getLsbD 9 } }
      ∧ (∃ epc, writes 14 { s.cp0 with epc := epc } ∧ epc.toInt = signedWord v)
      ∧ writes 16 { s.cp0 with cfgW := low } ∧ writes 17 { s.cp0 with llAddr := low }
      ∧ (v.getLsbD 0 = false → v.getLsbD 1 = false → ∃ watchLo, writes 18 { s.cp0 with watchLo := watchLo }
          ∧ ∀ j < 32, watchLo.getLsbD j = (decide (3 ≤ j) && v.getLsbD j))
      ∧ (v.getLsbD 0 = true ∨ v.getLsbD 1 = true → exec (.mtc0 rt 18) s = .refused .watchNotModelled)
      ∧ writes 19 { s.cp0 with watchHi := v.extractLsb' 0 4 }
      ∧ writes 28 { s.cp0 with tagLo := low } ∧ writes 29 { s.cp0 with tagHi := low }
      ∧ (∃ errorEpc, writes 30 { s.cp0 with errorEpc := errorEpc } ∧ errorEpc.toInt = signedWord v)
      ∧ writesDouble 8 s.cp0 ∧ writesDouble 14 { s.cp0 with epc := v }
      ∧ writesDouble 30 { s.cp0 with errorEpc := v }
      ∧ (∀ n, cp0Modelled n = false → exec (.mtc0 rt n) s = .refused .cp0RegNotModelled
          ∧ exec (.dmtc0 rt n) s = .refused .cp0RegNotModelled)
      ∧ ∀ n, cp0Modelled n = true → cp0Double n = false →
          exec (.dmtc0 rt n) s = .refused .cp0DoubleAccessNotModelled

/-- R411: ERET is refused in a delay slot, raises CoprocessorUnusable where CP0 is not usable, and else returns. -/
def Obligations.ExceptionReturn : Prop :=
  DecodesCop0Function 0x18 .eret
    ∧ (∀ s : State, s.inDelay = true → exec .eret s = .refused .branchInDelaySlot)
    ∧ (∀ s : State, s.inDelay = false → ¬ (s.mode = .kernel ∨ s.cu0 = true) →
      s.Raises (exec .eret s) 11 none (some 0))
    ∧ ∀ s : State, s.inDelay = false → s.mode = .kernel ∨ s.cu0 = true →
      ∃ status, exec .eret s = .next { s with
          pc := if s.erl then s.cp0.errorEpc else s.cp0.epc
          cp0 := { s.cp0 with status := status }
          llBit := false
          pending := none }
        ∧ ∀ j < 32, status.getLsbD j =
          if j = (if s.erl then 2 else 1) then false else s.cp0.status.getLsbD j

/-- R421–R432: a trap instruction whose condition does not hold changes nothing; one whose condition holds is
refused. -/
def Obligations.Traps : Prop :=
  DecodesTrap 0x30 .tge
    ∧ DecodesTrap 0x31 .tgeu
    ∧ DecodesTrap 0x32 .tlt
    ∧ DecodesTrap 0x33 .tltu
    ∧ DecodesTrap 0x34 .teq
    ∧ DecodesTrap 0x36 .tne
    ∧ DecodesRegimm 0x08 .tgei
    ∧ DecodesRegimm 0x09 .tgeiu
    ∧ DecodesRegimm 0x0A .tlti
    ∧ DecodesRegimm 0x0B .tltiu
    ∧ DecodesRegimm 0x0C .teqi
    ∧ DecodesRegimm 0x0E .tnei
    ∧ ∀ (s : State) (rs rt : RegIdx) (code : BitVec 10) (imm : Imm16),
    let traps (i : Instr) (c : Prop) : Prop :=
      (¬ c → exec i s = .next s) ∧ (c → exec i s = .refused .trapNotModelled)
    traps (.tge rs rt code) ((s.gpr rt).toInt ≤ (s.gpr rs).toInt)
    ∧ traps (.tgeu rs rt code) ((s.gpr rt).toNat ≤ (s.gpr rs).toNat)
    ∧ traps (.tlt rs rt code) ((s.gpr rs).toInt < (s.gpr rt).toInt)
    ∧ traps (.tltu rs rt code) ((s.gpr rs).toNat < (s.gpr rt).toNat)
    ∧ traps (.teq rs rt code) (s.gpr rs = s.gpr rt)
    ∧ traps (.tne rs rt code) (s.gpr rs ≠ s.gpr rt)
    ∧ traps (.tgei rs imm) (imm.toInt ≤ (s.gpr rs).toInt)
    ∧ traps (.tgeiu rs imm) ((imm.toInt % 2 ^ 64).toNat ≤ (s.gpr rs).toNat)
    ∧ traps (.tlti rs imm) ((s.gpr rs).toInt < imm.toInt)
    ∧ traps (.tltiu rs imm) ((s.gpr rs).toNat < (imm.toInt % 2 ^ 64).toNat)
    ∧ traps (.teqi rs imm) ((s.gpr rs).toInt = imm.toInt)
    ∧ traps (.tnei rs imm) ((s.gpr rs).toInt ≠ imm.toInt)

/-! ### Coprocessors 1 and 2 (45_coprocessors.md) -/

/-- R440–R445: a coprocessor-1 instruction raises CoprocessorUnusable with CE = 1 while CU1 = 0, in every mode and
with no address computed, and is refused while CU1 = 1. -/
def Obligations.Coprocessor1 : Prop :=
  DecodesJump 0x11 .cop1
    ∧ DecodesImmediate 0x31 (fun base ft offset => .lwc1 ft base offset)
    ∧ DecodesImmediate 0x35 (fun base ft offset => .ldc1 ft base offset)
    ∧ DecodesImmediate 0x39 (fun base ft offset => .swc1 ft base offset)
    ∧ DecodesImmediate 0x3D (fun base ft offset => .sdc1 ft base offset)
    ∧ ∀ (i : Instr) (s : State), isCop1Instruction i = true →
      (s.cu1 = false → s.Raises (exec i s) 11 none (some 1))
      ∧ (s.cu1 = true → exec i s = .refused .fpuNotModelled)

/-- R450–R456: the moves between a general register and the coprocessor-2 latch, whatever `rd` names; with CU2 = 0
each raises CoprocessorUnusable with CE = 2 and changes no register and no latch bit, in every mode. -/
def Obligations.Coprocessor2Moves : Prop :=
  DecodesMove 0x12 0x00 (fun rt rd => .mfc2 rt rd) ∧ DecodesMove 0x12 0x01 (fun rt rd => .dmfc2 rt rd)
    ∧ DecodesMove 0x12 0x02 (fun rt rd => .cfc2 rt rd) ∧ DecodesMove 0x12 0x04 (fun rt rd => .mtc2 rt rd)
    ∧ DecodesMove 0x12 0x05 (fun rt rd => .dmtc2 rt rd) ∧ DecodesMove 0x12 0x06 (fun rt rd => .ctc2 rt rd)
    ∧ (∀ (s : State) (rt rd : RegIdx), s.cu2 = true →
      CompletesGpr (.mfc2 rt rd) s rt (fun v => IsWord v s.cop2Latch.toNat)
      ∧ CompletesGpr (.dmfc2 rt rd) s rt (fun v => v = s.cop2Latch)
      ∧ CompletesGpr (.cfc2 rt rd) s rt (fun v => IsWord v s.cop2Latch.toNat)
      ∧ exec (.mtc2 rt rd) s = .next { s with cop2Latch := s.gpr rt }
      ∧ exec (.dmtc2 rt rd) s = .next { s with cop2Latch := s.gpr rt }
      ∧ exec (.ctc2 rt rd) s = .next { s with cop2Latch := s.gpr rt })
    ∧ ∀ (i : Instr) (s : State), isCop2Move i = true → s.cu2 = false → s.Raises (exec i s) 11 none (some 2)

/-- R457, R458, R460–R463: the double control moves and the coprocessor-2 loads and stores raise
CoprocessorUnusable with CE = 2 while CU2 = 0 and ReservedInstruction while CU2 = 1, and touch no memory. -/
def Obligations.Coprocessor2Reserved : Prop :=
  DecodesMove 0x12 0x03 (fun rt rd => .dcfc2 rt rd) ∧ DecodesMove 0x12 0x07 (fun rt rd => .dctc2 rt rd)
    ∧ DecodesImmediate 0x32 (fun base rt offset => .lwc2 rt base offset)
    ∧ DecodesImmediate 0x36 (fun base rt offset => .ldc2 rt base offset)
    ∧ DecodesImmediate 0x3A (fun base rt offset => .swc2 rt base offset)
    ∧ DecodesImmediate 0x3E (fun base rt offset => .sdc2 rt base offset)
    ∧ ∀ (i : Instr) (s : State), isCop2Reserved i = true →
      (s.cu2 = false → s.Raises (exec i s) 11 none (some 2))
      ∧ (s.cu2 = true → s.Raises (exec i s) 10 none none)

/-! ### The step -/

/-- R290, R292, R510: a step of a core that runs, with no interrupt due, executes the instruction its four bytes
decode to, at the next instruction's address `c`, with the pc at `c + 4`, the pending jump counted down and
`in_delay` as R292 gives it, and then ticks the timer; a fault or refusal of the instruction is the step's. Bytes of
no row (R190) are executed as that word, whose outcome `ReservedWords` gives. -/
def Obligations.StepRunsInstruction : Prop :=
  ∀ (s : State) (c : Word) (d : Bool) (p : Nat) (b0 b1 b2 b3 : Byte),
    s.CpuRuns → s.Modelled → ¬ s.InterruptDue → s.NextIs c d →
    s.MapsTo c p → p % 4 = 0 → s.HoldsBytes p [b0, b1, b2, b3] →
    let u : State := { s.turnTaken with pc := c + 4, pending := s.pendingInExecute }
    let ends (o : Host.Outcome State Fault Refusal) : Prop :=
      (∀ t, o = .next t → ∃ t', step s = .next t' ∧ t.Ticks t')
      ∧ (∀ r, o = .refused r → step s = .refused r) ∧ ∀ f, o = .fault f → step s = .fault f
    u.inDelay = d
    ∧ (∀ i, decodeBytes [b0, b1, b2, b3] = .ok i → ends (exec i u))
    ∧ ∀ r, decodeBytes [b0, b1, b2, b3] = .error r → ends (u.executeWord (b0 ++ b1 ++ b2 ++ b3))

/-- R470, R471, R480, R482: with an interrupt due, the step takes it instead of an instruction: EPC and BD name the
next instruction, or its branch when it is a delay slot; then the timer ticks. -/
def Obligations.InterruptTaken : Prop :=
  ∀ (s : State) (c : Word) (d : Bool), s.CpuRuns → s.Modelled → s.InterruptDue → s.NextIs c d →
    (s.bev = false → ∃ t t', step s = .next t' ∧ s.turnTaken.EntersException t 0 none none c d ∧ t.Ticks t')
    ∧ (s.bev = true → step s = .refused .bevVectorsNotModelled)

/-- R520: the configurations the step refuses before anything else. -/
def Obligations.StepStartRefusals : Prop :=
  ∀ s : State, s.CpuRuns →
    (s.exl = false → s.erl = false → s.ksu = 1 ∨ s.ksu = 3 → step s = .refused .supervisorModeNotModelled)
    ∧ (s.exl = true ∨ s.erl = true ∨ s.ksu = 0 → s.kx = true → step s = .refused .kx64BitAddressingNotModelled)
    ∧ (s.exl = false → s.erl = false → s.ksu = 2 → s.ux = true →
        step s = .refused .ux64BitAddressingNotModelled)
    ∧ (s.exl = false → s.erl = false → s.ksu = 2 → s.ux = false → s.re = true →
        step s = .refused .reverseEndianNotModelled)

/-- R133, R298, R481, R122: a fetch at a misaligned or invalid address, of a jump's target too, raises
AddressErrorLoad with BadVAddr that address and BD = 0 unless it is a delay slot; a fetch from a TLB-mapped segment,
the MI or PI range, an unmapped address, past the end of either ROM or from an absent boot ROM is refused. -/
def Obligations.FetchErrors : Prop :=
  ∀ (s : State) (c : Word) (d : Bool), s.CpuRuns → s.Modelled → ¬ s.InterruptDue → s.NextIs c d →
    (c.toNat % 4 ≠ 0 ∨ s.BadAddress c →
      (s.bev = false → ∃ t t', step s = .next t' ∧ s.turnTaken.EntersException t 4 (some c) none c d ∧ t.Ticks t')
      ∧ (s.bev = true → step s = .refused .bevVectorsNotModelled))
    ∧ (c.toNat % 4 = 0 → ¬ s.BadAddress c → s.TlbMapped c → step s = .refused .tlbMappedSegment)
    ∧ ∀ p, c.toNat % 4 = 0 → s.MapsTo c p →
      ((∃ o, IsMi p o ∨ IsPi p o) → step s = .refused .fetchFromMmio)
      ∧ (IsUnmapped p → step s = .refused .unmappedPhysicalAddress)
      ∧ (0x10000000 ≤ p → p ≤ 0x1FBFFFFF → s.rom.size < p - 0x10000000 + 4 →
          step s = .refused .romReadBeyondImage)
      ∧ (0x1FC00000 ≤ p → p ≤ 0x1FC007BF → s.bootRom = none → step s = .refused .bootRomAbsent)
      ∧ ∀ boot, 0x1FC00000 ≤ p → p ≤ 0x1FC007BF → s.bootRom = some boot → boot.size < p - 0x1FC00000 + 4 →
          step s = .refused .bootRomReadBeyondImage

/-- R291, R293, R294, R480: after a taken branch or jump to `a`, the next step of the core either ends in exception
entry, which forgets the jump, or leaves `a` as the next instruction: exactly one further instruction runs. -/
def Obligations.DelaySlotThenTarget : Prop :=
  ∀ (s t : State) (a : Word), s.CpuRuns → s.pending = some ⟨a, 1⟩ → step s = .next t →
    (t.NextIs a false ∧ t.pending = some ⟨a, 0⟩) ∨ (t.pending = none ∧ t.pc = 0xFFFFFFFF80000180 ∧ t.exl = true)

/-- R148, R505, R550, R530: the DMA engine's completion, the environment's actions, and the end of a run. That the
order of turns is read from `schedule`, and the fault at the end of a run, are the model's choice (log entries 1
and 3). -/
def Obligations.AgentTurns : Prop :=
  (∀ s : State, s.dmaInflight = true → s.schedule = [] ∨ s.schedule.head? = some .dma →
      ∃ flags, step s = .next { s.turnTaken with
          pi := { s.pi with busy := false, completed := true }, dmaInflight := false
          mi := { s.mi with flags := flags } }
        ∧ ∀ j < 6, flags.getLsbD j = if j = 4 then true else s.mi.flags.getLsbD j)
    ∧ (∀ (s : State) (source : EnvSource) (level : Bool),
      s.schedule.head? = some (.env (if level then .setFlag source else .clearFlag source)) →
      ∃ flags, step s = .next { s.turnTaken with mi := { s.mi with flags := flags } }
        ∧ ∀ j < 6, flags.getLsbD j =
          if j = (match source with | .sp => 0 | .si => 1 | .ai => 2 | .vi => 3 | .dp => 5) then level
          else s.mi.flags.getLsbD j)
    ∧ (∀ (s : State) (line : ExtLine) (level : Bool), s.schedule.head? = some (.env (.setInput line level)) →
      step s = .next { s.turnTaken with ext := match line with
        | .ext3 => { s.ext with ext3 := level }
        | .ext4 => { s.ext with ext4 := level }
        | .ext5 => { s.ext with ext5 := level }
        | .ext6 => { s.ext with ext6 := level } })
    ∧ ∀ (s : State) (a : Word), s.params.haltPc = some a → s.NextIs a false → s.dmaInflight = false →
      s.schedule = [] ∨ s.schedule.head? = some .cpu ∨ s.schedule.head? = some .dma → step s = .fault .halted

/-! ### Frames of every instruction -/

/-- R32, R34, R36, R37: when an instruction gives a next state, no general register but its destination changes;
HI and LO only under the multiply, divide and HI/LO moves; the latch only under the moves to it; LLbit only under
LL, LLD (which set it) and ERET. -/
def Obligations.RegisterFrame : Prop :=
  ∀ (i : Instr) (s t : State), exec i s = .next t →
    (∀ r, destination i ≠ some r → t.gpr r = s.gpr r)
    ∧ ((writesHiLo i).1 = false → t.hi = s.hi) ∧ ((writesHiLo i).2 = false → t.lo = s.lo)
    ∧ ((∀ rt rd, i ≠ .mtc2 rt rd ∧ i ≠ .dmtc2 rt rd ∧ i ≠ .ctc2 rt rd) → t.cop2Latch = s.cop2Latch)
    ∧ ((∀ rt b o, i ≠ .ll rt b o ∧ i ≠ .lld rt b o) → i ≠ .eret → t.llBit = s.llBit)

/-- R35, R43–R55, R136: when an instruction gives a next state, either it entered an exception, at its own address,
or the CP0 registers are unchanged but for MTC0, DMTC0, ERET, LL and LLD, and the pc and the pending jump but for the
control transfers; the MI and PI registers and the transfer record change only under SW, the draws only under LW and
LWU, and the inputs, both ROMs, the launch parameters and the schedule never. -/
def Obligations.SystemFrame : Prop :=
  ∀ (i : Instr) (s t : State), exec i s = .next t →
    ((∃ code badVAddr ce, s.EntersException t code badVAddr ce (s.pc - 4) s.inDelay)
      ∨ (((∀ rt rd, i ≠ .mtc0 rt rd ∧ i ≠ .dmtc0 rt rd) → (∀ rt b o, i ≠ .ll rt b o ∧ i ≠ .lld rt b o) →
          i ≠ .eret → t.cp0 = s.cp0)
        ∧ (isControlTransfer i = false → t.pc = s.pc ∧ t.pending = s.pending)))
    ∧ ((∀ rt b o, i ≠ .sw rt b o) → t.mi = s.mi ∧ t.pi = s.pi ∧ t.dmaInflight = s.dmaInflight)
    ∧ ((∀ rt b o, i ≠ .lw rt b o ∧ i ≠ .lwu rt b o) → t.draws = s.draws)
    ∧ t.ext = s.ext ∧ t.rom = s.rom ∧ t.bootRom = s.bootRom ∧ t.params = s.params ∧ t.schedule = s.schedule

/-- R32, R104, R121, R124, R132: when an instruction gives a next state, memory is unchanged unless it is a store,
and a store changes only RAM bytes of the aligned unit its effective address lies in, each modulo the RAM size; a
store that reaches PI_WR_LEN is `DmaTransfer`'s. -/
def Obligations.MemoryFrame : Prop :=
  ∀ (i : Instr) (s t : State), s.ram.wf = true → exec i s = .next t →
    ((∀ m, memoryAccess i = some m → m.stores = false) → ∀ q, t.byteAt q = s.byteAt q)
    ∧ ∀ m, memoryAccess i = some m → m.stores = true →
      ((∀ p, ¬ s.MapsTo (s.effectiveAddress m.base m.offset) p) → ∀ q, t.byteAt q = s.byteAt q)
      ∧ ∀ p, s.MapsTo (s.effectiveAddress m.base m.offset) p → ¬ IsPi p 12 →
        ∀ q, (∀ j < m.width, IsRam p → IsRam q → q % s.ramSize ≠ (p - p % m.width + j) % s.ramSize) →
          t.byteAt q = s.byteAt q
end

