-- ==== Sys2Proof/Laws/Memory.lean ====
section
/-! SUPPORT. The laws of byte stores: read after write, the canonical form kept by every operation, equal
reads from equal stores, wide accesses and the block copy. -/

namespace Sys2Proof.Machine

@[simp] theorem Memory.read_nil (a : Nat) : Memory.read [] a = unlistedByte := rfl

/-- Below every listed address nothing is listed. -/
theorem Memory.read_of_wfFrom {lo : Nat} {m : Memory} (h : m.wfFrom lo = true) {a : Nat} (ha : a < lo) :
    m.read a = unlistedByte := by
  induction m generalizing lo with
  | nil => rfl
  | cons c m ih =>
    obtain ⟨k, v⟩ := c
    simp only [Memory.wfFrom, Bool.and_eq_true, decide_eq_true_eq] at h
    have : a ≠ k := by omega
    simp only [Memory.read, this, if_false]
    exact ih h.2 (by omega)

/-- A canonical form from one bound is one from any lower bound. -/
theorem Memory.wfFrom_mono {lo lo' : Nat} {m : Memory} (hle : lo' ≤ lo) (h : m.wfFrom lo = true) :
    m.wfFrom lo' = true := by
  cases m with
  | nil => rfl
  | cons c m =>
    simp only [Memory.wfFrom, Bool.and_eq_true, decide_eq_true_eq] at h ⊢
    exact ⟨⟨by omega, h.1.2⟩, h.2⟩

/-- Read after write: the byte written, and every other byte as it was. -/
theorem Memory.read_write {lo : Nat} {m : Memory} (h : m.wfFrom lo = true) (a x : Nat) (b : Byte) :
    (m.write a b).read x = if x = a then b else m.read x := by
  induction m generalizing lo with
  | nil =>
    by_cases hb : b = unlistedByte
    · simp [Memory.write, hb]
    · simp [Memory.write, hb, Memory.read]
  | cons c m ih =>
    obtain ⟨k, v⟩ := c
    simp only [Memory.wfFrom, Bool.and_eq_true, decide_eq_true_eq] at h
    by_cases h1 : a < k
    · have hread : Memory.read ((k, v) :: m) a = unlistedByte := by
        have : a ≠ k := by omega
        simp only [Memory.read, this, if_false]
        exact Memory.read_of_wfFrom h.2 (by omega)
      by_cases hb : b = unlistedByte
      · simp only [Memory.write, h1, if_true, hb]
        by_cases hx : x = a
        · simp [hx, hread]
        · simp [hx]
      · simp only [Memory.write, h1, if_true, hb, if_false]
        by_cases hx : x = a <;> simp [Memory.read, hx]
    · by_cases h2 : a = k
      · subst h2
        by_cases hb : b = unlistedByte
        · simp only [Memory.write, Nat.lt_irrefl, if_false, if_true, hb]
          by_cases hx : x = a
          · subst hx
            simp [Memory.read_of_wfFrom h.2 (Nat.lt_succ_self x)]
          · simp [Memory.read, hx]
        · simp only [Memory.write, Nat.lt_irrefl, if_false, if_true, hb]
          by_cases hx : x = a <;> simp [Memory.read, hx]
      · simp only [Memory.write, h1, h2, if_false, Memory.read]
        rw [ih h.2]
        by_cases hx : x = k
        · have : ¬ k = a := fun e => h2 e.symm
          simp [hx, this]
        · simp [hx]

/-- A write keeps the canonical form. -/
theorem Memory.wfFrom_write {lo : Nat} {m : Memory} (h : m.wfFrom lo = true) {a : Nat} (ha : lo ≤ a) (b : Byte) :
    (m.write a b).wfFrom lo = true := by
  induction m generalizing lo with
  | nil => by_cases hb : b = unlistedByte <;> simp [Memory.write, hb, Memory.wfFrom, ha]
  | cons c m ih =>
    obtain ⟨k, v⟩ := c
    simp only [Memory.wfFrom, Bool.and_eq_true, decide_eq_true_eq] at h
    obtain ⟨⟨hk, hv⟩, hm⟩ := h
    by_cases h1 : a < k
    · by_cases hb : b = unlistedByte
      · simp [Memory.write, h1, hb, Memory.wfFrom, hk, hm, bne_iff_ne.mp hv]
      · have : a + 1 ≤ k := h1
        simp [Memory.write, h1, hb, Memory.wfFrom, ha, this, hm, bne_iff_ne.mp hv]
    · by_cases h2 : a = k
      · subst h2
        by_cases hb : b = unlistedByte
        · simpa [Memory.write, hb] using Memory.wfFrom_mono (by omega) hm
        · simp [Memory.write, hb, Memory.wfFrom, hk, hm]
      · have := ih hm (by omega : k + 1 ≤ a)
        simp [Memory.write, h1, h2, Memory.wfFrom, hk, this, bne_iff_ne.mp hv]

/-- A write below the size keeps every listed address below it. -/
theorem Memory.below_write {m : Memory} {size : Nat} (h : m.below size = true) {a : Nat} (ha : a < size) (b : Byte) :
    (m.write a b).below size = true := by
  induction m with
  | nil => by_cases hb : b = unlistedByte <;> simp [Memory.write, hb, Memory.below, ha]
  | cons c m ih =>
    obtain ⟨k, v⟩ := c
    simp only [Memory.below, List.all_cons, Bool.and_eq_true, decide_eq_true_eq] at h
    obtain ⟨hk, hm⟩ := h
    by_cases h1 : a < k
    · by_cases hb : b = unlistedByte
      · simp only [Memory.write, h1, if_true, hb]; simp only [Memory.below, List.all_cons, hm, hk]; simp
      · simp only [Memory.write, h1, if_true, hb, if_false]
        simp only [Memory.below, List.all_cons, hm, hk, ha]; simp
    · by_cases h2 : a = k
      · subst h2
        by_cases hb : b = unlistedByte
        · simp only [Memory.write, Nat.lt_irrefl, if_false, if_true, hb]; exact hm
        · simp only [Memory.write, Nat.lt_irrefl, if_false, if_true, hb]
          simp only [Memory.below, List.all_cons, hm, hk]; simp
      · have := ih hm
        simp only [Memory.below] at this
        simp only [Memory.write, h1, h2, if_false, Memory.below, List.all_cons, this, hk]; simp

/-- Two canonical stores that read alike everywhere are the same list. -/
theorem Memory.ext {lo : Nat} {m m' : Memory} (h : m.wfFrom lo = true) (h' : m'.wfFrom lo = true)
    (hr : ∀ a, m.read a = m'.read a) : m = m' := by
  induction m generalizing lo m' with
  | nil =>
    cases m' with
    | nil => rfl
    | cons c m' =>
      obtain ⟨k, v⟩ := c
      simp only [Memory.wfFrom, Bool.and_eq_true, bne_iff_ne] at h'
      exact absurd (by simpa [Memory.read] using (hr k).symm) h'.1.2
  | cons c m ih =>
    obtain ⟨k, v⟩ := c
    simp only [Memory.wfFrom, Bool.and_eq_true, bne_iff_ne, decide_eq_true_eq] at h
    cases m' with
    | nil => exact absurd (by simpa [Memory.read] using hr k) h.1.2
    | cons c' m' =>
      obtain ⟨k', v'⟩ := c'
      simp only [Memory.wfFrom, Bool.and_eq_true, bne_iff_ne, decide_eq_true_eq] at h'
      have hk : k = k' := by
        rcases Nat.lt_trichotomy k k' with hlt | heq | hgt
        · have h0 := hr k
          have hne : k ≠ k' := by omega
          simp only [Memory.read, if_true, hne, if_false] at h0
          rw [Memory.read_of_wfFrom h'.2 (by omega)] at h0
          exact absurd h0 h.1.2
        · exact heq
        · have h0 := hr k'
          have hne : k' ≠ k := by omega
          simp only [Memory.read, if_true, hne, if_false] at h0
          rw [Memory.read_of_wfFrom h.2 (by omega)] at h0
          exact absurd h0.symm h'.1.2
      subst hk
      have hv : v = v' := by simpa [Memory.read] using hr k
      subst hv
      refine congrArg _ (ih h.2 h'.2 fun a => ?_)
      by_cases ha : a = k
      · subst ha
        rw [Memory.read_of_wfFrom h.2 (Nat.lt_succ_self a), Memory.read_of_wfFrom h'.2 (Nat.lt_succ_self a)]
      · simpa [Memory.read, ha] using hr a

/-! Wide accesses -/

/-- A wide read depends on the bytes it reads only. -/
theorem Memory.readBE_congr {m m' : Memory} {f g : Nat → Nat} {n : Nat}
    (h : ∀ i < n, m.read (f i) = m'.read (g i)) : m.readBE f n = m'.readBE g n := by
  induction n with
  | zero => rfl
  | succ n ih =>
    simp only [Memory.readBE]
    rw [ih fun i hi => h i (by omega), h n (by omega)]

/-- A wide write keeps the canonical form. -/
theorem Memory.wf_writeBE {m : Memory} (h : m.wfFrom 0 = true) (f : Nat → Nat) (n : Nat) (v : Word) :
    (m.writeBE f n v).wfFrom 0 = true := by
  induction n generalizing v with
  | zero => exact h
  | succ n ih => exact Memory.wfFrom_write (ih _) (Nat.zero_le _) _

/-- A wide write below the size keeps every listed address below it. -/
theorem Memory.below_writeBE {m : Memory} {size : Nat} (h : m.below size = true) {f : Nat → Nat} {n : Nat}
    (hf : ∀ i < n, f i < size) (v : Word) : (m.writeBE f n v).below size = true := by
  induction n generalizing v with
  | zero => exact h
  | succ n ih => exact Memory.below_write (ih (fun i hi => hf i (by omega)) _) (hf n (by omega)) _

/-- A wide write leaves every address it does not name. -/
theorem Memory.read_writeBE_of_ne {m : Memory} (h : m.wfFrom 0 = true) {f : Nat → Nat} {n : Nat} {x : Nat}
    (hx : ∀ i < n, x ≠ f i) (v : Word) : (m.writeBE f n v).read x = m.read x := by
  induction n generalizing v with
  | zero => rfl
  | succ n ih =>
    rw [Memory.writeBE, Memory.read_write (Memory.wf_writeBE h f n _), if_neg (hx n (by omega))]
    exact ih (fun i hi => hx i (by omega)) _

/-- The byte a wide write stores at its `i`-th address: the most significant first (R104). -/
theorem Memory.read_writeBE {m : Memory} (h : m.wfFrom 0 = true) {f : Nat → Nat} {n i : Nat} (hi : i < n)
    (hf : ∀ j < n, f j = f i → j = i) (v : Word) :
    (m.writeBE f n v).read (f i) = (v >>> (8 * (n - 1 - i))).setWidth 8 := by
  induction n generalizing v with
  | zero => omega
  | succ n ih =>
    rw [Memory.writeBE, Memory.read_write (Memory.wf_writeBE h f n _)]
    by_cases hin : i = n
    · subst hin; simp
    · have hne : f i ≠ f n := fun e => hin (hf n (by omega) e.symm).symm
      rw [if_neg hne, ih (by omega) (fun j hj => hf j (by omega))]
      have : 8 * (n + 1 - 1 - i) = 8 + 8 * (n - 1 - i) := by omega
      rw [this, BitVec.shiftRight_add]

/-- Bit `j` of a wide read is bit `j % 8` of the byte it comes from, the last byte least significant (R104). -/
theorem Memory.getLsbD_readBE (m : Memory) (f : Nat → Nat) (n j : Nat) (hn : n ≤ 8) :
    (m.readBE f n).getLsbD j = (decide (j < 8 * n) && (m.read (f (n - 1 - j / 8))).getLsbD (j % 8)) := by
  induction n generalizing j with
  | zero => simp [Memory.readBE]
  | succ n ih =>
    simp only [Memory.readBE, BitVec.getLsbD_or, BitVec.getLsbD_shiftLeft, BitVec.getLsbD_setWidth]
    by_cases hj : j < 8
    · have h0 : j / 8 = 0 := by omega
      have h1 : j % 8 = j := by omega
      have h2 : j < 64 := by omega
      have h3 : j < 8 * (n + 1) := by omega
      simp [hj, h0, h1, h2, h3]
    · rw [ih (j - 8) (by omega)]
      have h0 : n + 1 - 1 - j / 8 = n - 1 - (j - 8) / 8 := by omega
      have h1 : j % 8 = (j - 8) % 8 := by omega
      have h3 : (m.read (f n)).getLsbD j = false := BitVec.getLsbD_of_ge _ _ (by omega)
      rw [h0, h1, h3]
      by_cases hlt : j < 8 * (n + 1)
      · have h4 : j - 8 < 8 * n := by omega
        have h5 : j < 64 := by omega
        simp [hj, hlt, h4, h5]
      · have h4 : ¬ j - 8 < 8 * n := by omega
        simp [hlt, h4]

/-- A wide read after a wide write of the same bytes gives the low `8n` bits written (R164). -/
theorem Memory.readBE_writeBE {m : Memory} (h : m.wfFrom 0 = true) {f : Nat → Nat} {n : Nat}
    (hf : ∀ i < n, ∀ j < n, f j = f i → j = i) (hn : n ≤ 8) (v : Word) (j : Nat) :
    ((m.writeBE f n v).readBE f n).getLsbD j = (decide (j < 8 * n) && v.getLsbD j) := by
  rw [Memory.getLsbD_readBE _ _ _ _ hn]
  by_cases hj : j < 8 * n
  · have hi : n - 1 - j / 8 < n := by omega
    rw [Memory.read_writeBE h hi (hf _ hi), BitVec.getLsbD_setWidth, BitVec.getLsbD_ushiftRight]
    have h0 : j % 8 < 8 := by omega
    have h1 : 8 * (n - 1 - (n - 1 - j / 8)) + j % 8 = j := by omega
    simp [h0, h1]
  · simp [hj]

/-! The block copy -/

/-- A list of cells all of whose addresses differ from `a` adds nothing to a read of `a`. -/
theorem Memory.read_append_of_ne {p q : Memory} {a : Nat} (h : ∀ c ∈ p, c.1 ≠ a) :
    Memory.read (p ++ q) a = Memory.read q a := by
  induction p with
  | nil => rfl
  | cons c p ih =>
    obtain ⟨k, v⟩ := c
    have hk : a ≠ k := fun e => h (k, v) (by simp) e.symm
    simp only [List.cons_append, Memory.read, hk, if_false]
    exact ih fun c hc => h c (by simp [hc])

/-- A read of an address that no cell of the second part names. -/
theorem Memory.read_append_left {p q : Memory} {a : Nat} (h : ∀ c ∈ q, c.1 ≠ a) :
    Memory.read (p ++ q) a = Memory.read p a := by
  induction p with
  | nil => simpa using Memory.read_append_of_ne (q := []) h
  | cons c p ih =>
    obtain ⟨k, v⟩ := c
    simp only [List.cons_append, Memory.read, ih]

/-- A filter on addresses keeps the reads of the addresses it keeps. -/
theorem Memory.read_filter {m : Memory} {P : Nat → Bool} {a : Nat} (h : P a = true) :
    Memory.read (m.filter fun c => P c.1) a = m.read a := by
  induction m with
  | nil => rfl
  | cons c m ih =>
    obtain ⟨k, v⟩ := c
    by_cases hk : a = k
    · subst hk; simp [h, Memory.read]
    · by_cases hp : P k = true
      · simp only [List.filter_cons, hp, if_true, Memory.read, hk, if_false]; exact ih
      · simp only [List.filter_cons, hp, Memory.read, hk, if_false]; exact ih

/-- A shifted list of cells reads at the shifted address what the list read. -/
theorem Memory.read_map_shift {m : Memory} {src dst a : Nat} (hm : ∀ c ∈ m, src ≤ c.1) (ha : dst ≤ a) :
    Memory.read (m.map fun c => (c.1 - src + dst, c.2)) a = m.read (src + (a - dst)) := by
  induction m with
  | nil => rfl
  | cons c m ih =>
    obtain ⟨k, v⟩ := c
    have hk : src ≤ k := hm (k, v) (by simp)
    have hiff : a = k - src + dst ↔ src + (a - dst) = k := by omega
    simp only [List.map_cons, Memory.read, hiff, ih fun c hc => hm c (by simp [hc])]

/-- What the block copy leaves: the source's bytes in the destination range, the old bytes outside (R147). -/
theorem Memory.read_copyFrom (source dest : Memory) (src dst n a : Nat) :
    (Memory.copyFrom source src dest dst n).read a =
      if dst ≤ a ∧ a < dst + n then source.read (src + (a - dst)) else dest.read a := by
  unfold Memory.copyFrom
  by_cases h1 : a < dst
  · have hn : ¬ (dst ≤ a ∧ a < dst + n) := by omega
    rw [if_neg hn, List.append_assoc, Memory.read_append_left]
    · exact Memory.read_filter (P := fun k => decide (k < dst)) (by simp [h1])
    · intro c hc
      simp only [List.mem_append, List.mem_map, List.mem_filter, decide_eq_true_eq] at hc
      rcases hc with ⟨d, _, rfl⟩ | ⟨_, h⟩ <;> (try dsimp only) <;> omega
  · rw [List.append_assoc, Memory.read_append_of_ne]
    · by_cases h2 : a < dst + n
      · rw [if_pos (by omega), Memory.read_append_left, Memory.read_map_shift _ (by omega)]
        · exact Memory.read_filter (P := fun k => decide (src ≤ k ∧ k < src + n)) (by simp; omega)
        · intro c hc
          simp only [List.mem_filter, decide_eq_true_eq] at hc
          exact hc.2.1
        · intro c hc
          simp only [List.mem_filter, decide_eq_true_eq] at hc
          omega
      · rw [if_neg (by omega), Memory.read_append_of_ne]
        · exact Memory.read_filter (P := fun k => decide (dst + n ≤ k)) (by simp; omega)
        · intro c hc
          simp only [List.mem_map, List.mem_filter, decide_eq_true_eq] at hc
          obtain ⟨d, hd, rfl⟩ := hc
          dsimp only; omega
    · intro c hc
      simp only [List.mem_filter, decide_eq_true_eq] at hc
      omega

/-- The canonical form as a statement on the list: addresses rise strictly from `lo`, no unlisted byte. -/
theorem Memory.wfFrom_iff (lo : Nat) (m : Memory) :
    m.wfFrom lo = true ↔ m.Pairwise (fun c d => c.1 < d.1) ∧ ∀ c ∈ m, lo ≤ c.1 ∧ c.2 ≠ unlistedByte := by
  induction m generalizing lo with
  | nil => simp [Memory.wfFrom]
  | cons c m ih =>
    obtain ⟨k, v⟩ := c
    simp only [Memory.wfFrom, Bool.and_eq_true, decide_eq_true_eq, bne_iff_ne, ih, List.pairwise_cons,
      List.mem_cons, forall_eq_or_imp]
    constructor
    · rintro ⟨⟨h1, h2⟩, h3, h4⟩
      exact ⟨⟨fun c hc => by have := (h4 c hc).1; omega, h3⟩, ⟨h1, h2⟩,
        fun c hc => ⟨by have := (h4 c hc).1; omega, (h4 c hc).2⟩⟩
    · rintro ⟨⟨h1, h2⟩, ⟨h3, h4⟩, h5⟩
      exact ⟨⟨h3, h4⟩, h2, fun c hc => ⟨h1 c hc, (h5 c hc).2⟩⟩

/-- The block copy keeps the canonical form. -/
theorem Memory.wf_copyFrom {source dest : Memory} (hs : source.wfFrom 0 = true) (hd : dest.wfFrom 0 = true)
    (src dst n : Nat) : (Memory.copyFrom source src dest dst n).wfFrom 0 = true := by
  rw [Memory.wfFrom_iff] at *
  obtain ⟨hs1, hs2⟩ := hs
  obtain ⟨hd1, hd2⟩ := hd
  unfold Memory.copyFrom
  refine ⟨?_, ?_⟩
  · rw [List.pairwise_append, List.pairwise_append]
    refine ⟨⟨hd1.filter _, ?_, ?_⟩, hd1.filter _, ?_⟩
    · rw [List.pairwise_map]
      refine (hs1.filter _).imp_of_mem ?_
      intro a b ha hb hab
      simp only [List.mem_filter, decide_eq_true_eq] at ha hb
      dsimp only; omega
    · intro a ha b hb
      simp only [List.mem_map, List.mem_filter, decide_eq_true_eq] at ha hb
      obtain ⟨c, hc, rfl⟩ := hb
      dsimp only; omega
    · intro a ha b hb
      simp only [List.mem_append, List.mem_map, List.mem_filter, decide_eq_true_eq] at ha hb
      rcases ha with ha | ⟨c, hc, rfl⟩
      · omega
      · dsimp only; omega
  · intro c hc
    simp only [List.mem_append, List.mem_map, List.mem_filter, decide_eq_true_eq] at hc
    rcases hc with (hc | ⟨d, hd, rfl⟩) | hc
    · exact hd2 c hc.1
    · exact ⟨Nat.zero_le _, (hs2 d hd.1).2⟩
    · exact hd2 c hc.1

/-- The block copy into a range below the size keeps every listed address below it. -/
theorem Memory.below_copyFrom {source dest : Memory} {size : Nat} (hd : dest.below size = true)
    {src dst n : Nat} (h : dst + n ≤ size) : (Memory.copyFrom source src dest dst n).below size = true := by
  simp only [Memory.below, List.all_eq_true, decide_eq_true_eq] at *
  intro c hc
  simp only [Memory.copyFrom, List.mem_append, List.mem_map, List.mem_filter, decide_eq_true_eq] at hc
  rcases hc with (hc | ⟨e, he, rfl⟩) | hc
  · exact hd c hc.1
  · dsimp only; omega
  · exact hd c hc.1

end Sys2Proof.Machine
end

