-- ==== Sys2Proof/Laws/Numbers.lean ====
section
/-! SUPPORT. The model's fields and extensions as the numbers claims are written in (00_scope.md rule R12). -/

namespace Sys2Proof.Machine

theorem ofInt_sub (n : Nat) (a b : Int) : BitVec.ofInt n (a - b) = BitVec.ofInt n a - BitVec.ofInt n b := by
  apply BitVec.eq_of_toInt_eq
  rw [BitVec.toInt_sub, BitVec.toInt_ofInt, BitVec.toInt_ofInt, BitVec.toInt_ofInt]
  simp

theorem lo32_toInt (v : Word) : (lo32 v).toInt = signedWord v := by
  unfold lo32 signedWord
  rw [BitVec.toInt_setWidth, BitVec.toInt_eq_toNat_bmod, Int.bmod_bmod_of_dvd (by norm_num)]

theorem lo32_toNat (v : Word) : (lo32 v).toNat = unsignedWord v := by
  unfold lo32 unsignedWord
  rw [BitVec.toNat_setWidth]

theorem sext32_toInt (x : BitVec 32) : (sext32 x).toInt = x.toInt :=
  BitVec.toInt_signExtend_of_le (by norm_num)

/-- A sign-extended word is the word of any number its low 32 bits write. -/
theorem isWord_sext32 {x : BitVec 32} {n : Int} (h : x = BitVec.ofInt 32 n) : IsWord (sext32 x) n := by
  unfold IsWord
  rw [sext32_toInt, h, BitVec.toInt_ofInt]

theorem isWord_sext32_ofNat {x : BitVec 32} {n : Nat} (h : x = BitVec.ofNat 32 n) : IsWord (sext32 x) n :=
  isWord_sext32 (by rw [h]; simp)

theorem isDouble_iff {v : Word} {n : Int} : IsDouble v n ↔ v = BitVec.ofInt 64 n := by
  unfold IsDouble
  constructor
  · intro h; exact BitVec.eq_of_toInt_eq (by rw [h, BitVec.toInt_ofInt])
  · intro h; rw [h, BitVec.toInt_ofInt]

theorem ofInt_signedWord (v : Word) : BitVec.ofInt 32 (signedWord v) = lo32 v := by
  rw [← lo32_toInt, BitVec.ofInt_toInt]

theorem ofNat_unsignedWord (v : Word) : BitVec.ofNat 32 (unsignedWord v) = lo32 v := by
  rw [← lo32_toNat]; simp

theorem simm_toInt (imm : Imm16) : (simm imm).toInt = imm.toInt :=
  BitVec.toInt_signExtend_of_le (by norm_num)

theorem simm_eq_ofInt (imm : Imm16) : simm imm = BitVec.ofInt 64 imm.toInt := by
  rw [← simm_toInt, BitVec.ofInt_toInt]

theorem simm_toNat (imm : Imm16) : (simm imm).toNat = (imm.toInt % 2 ^ 64).toNat := by
  rw [simm_eq_ofInt, BitVec.toNat_ofInt]; rfl

theorem signedWord_simm (imm : Imm16) : signedWord (simm imm) = imm.toInt := by
  unfold signedWord
  rw [simm_toInt]
  have h1 := BitVec.two_mul_toInt_lt (x := imm)
  have h2 := BitVec.le_two_mul_toInt (x := imm)
  exact Int.bmod_eq_of_le (by omega) (by omega)

theorem overflows_iff (n : Nat) (v : Int) : overflows n v = true ↔ v < -2 ^ (n - 1) ∨ 2 ^ (n - 1) - 1 < v := by
  simp [overflows]

theorem overflows_false {n : Nat} {v : Int} (h1 : -2 ^ (n - 1) ≤ v) (h2 : v ≤ 2 ^ (n - 1) - 1) :
    overflows n v = false := by
  simp only [overflows, Bool.or_eq_false_iff, decide_eq_false_iff_not]
  omega

theorem signedWord_bounds (v : Word) : -2 ^ 31 ≤ signedWord v ∧ signedWord v < 2 ^ 31 := by
  rw [← lo32_toInt]
  have h1 := BitVec.two_mul_toInt_lt (x := lo32 v)
  have h2 := BitVec.le_two_mul_toInt (x := lo32 v)
  omega

/-- The low 32 bits of a doubleword written as a number. -/
theorem lo32_eq_ofInt (v : Word) : lo32 v = BitVec.ofInt 32 v.toInt := by
  apply BitVec.eq_of_toInt_eq
  rw [lo32_toInt, BitVec.toInt_ofInt]; rfl

theorem lo32_shl (v : Word) (n : Nat) : lo32 v <<< n = BitVec.ofNat 32 (unsignedWord v * 2 ^ n) := by
  apply BitVec.eq_of_toNat_eq
  rw [BitVec.toNat_shiftLeft, lo32_toNat, BitVec.toNat_ofNat, Nat.shiftLeft_eq]

theorem lo32_shr (v : Word) (n : Nat) : lo32 v >>> n = BitVec.ofNat 32 (unsignedWord v / 2 ^ n) := by
  apply BitVec.eq_of_toNat_eq
  rw [BitVec.toNat_ushiftRight, lo32_toNat, BitVec.toNat_ofNat, Nat.shiftRight_eq_div_pow]
  refine (Nat.mod_eq_of_lt (Nat.lt_of_le_of_lt (Nat.div_le_self ..) ?_)).symm
  exact Nat.mod_lt _ (by norm_num)

theorem sshiftRight_toInt (v : Word) (n : Nat) : (v.sshiftRight n).toInt = v.toInt / 2 ^ n := by
  rw [BitVec.toInt_sshiftRight, Int.shiftRight_eq_div_pow]; norm_cast

theorem varShamt32_eq (v : Word) : varShamt32 v = v.toNat % 32 := by simp [varShamt32]
theorem varShamt64_eq (v : Word) : varShamt64 v = v.toNat % 64 := by simp [varShamt64]

theorem imm_getLsbD (imm : Imm16) (j : Nat) : imm.getLsbD j = (decide (j < 16) && imm.getLsbD j) := by
  by_cases h : j < 16
  · simp [h]
  · simp [h, BitVec.getLsbD_of_ge imm j (by omega)]

/-! The halves of an exact product. -/

theorem product_low (n : Int) : (BitVec.ofInt 64 n).extractLsb' 0 32 = BitVec.ofInt 32 n := by
  apply BitVec.eq_of_toNat_eq
  simp only [BitVec.extractLsb'_toNat, BitVec.toNat_ofInt, Nat.shiftRight_zero]
  omega

theorem product_high (n : Int) : (BitVec.ofInt 64 n).extractLsb' 32 32 = BitVec.ofInt 32 (n / 2 ^ 32) := by
  apply BitVec.eq_of_toNat_eq
  simp only [BitVec.extractLsb'_toNat, BitVec.toNat_ofInt, Nat.shiftRight_eq_div_pow]
  omega

theorem wide_product_low (n : Int) : (BitVec.ofInt 128 n).extractLsb' 0 64 = BitVec.ofInt 64 n := by
  apply BitVec.eq_of_toNat_eq
  simp only [BitVec.extractLsb'_toNat, BitVec.toNat_ofInt, Nat.shiftRight_zero]
  omega

theorem wide_product_high (n : Int) : (BitVec.ofInt 128 n).extractLsb' 64 64 = BitVec.ofInt 64 (n / 2 ^ 64) := by
  apply BitVec.eq_of_toNat_eq
  simp only [BitVec.extractLsb'_toNat, BitVec.toNat_ofInt, Nat.shiftRight_eq_div_pow]
  omega

end Sys2Proof.Machine
end

