-- ==== Sys2Proof/Laws/State.lean ====
section
/-! SUPPORT. What each update of the state does to each field: one lemma per field per update, so that no
proof unfolds a record update. -/

namespace Sys2Proof.Machine

/-! `setGpr` -/

@[simp] theorem State.setGpr_hi (s : State) (r : RegIdx) (v : Word) :
    (s.setGpr r v).hi = s.hi := by unfold State.setGpr; split <;> rfl
@[simp] theorem State.setGpr_lo (s : State) (r : RegIdx) (v : Word) :
    (s.setGpr r v).lo = s.lo := by unfold State.setGpr; split <;> rfl
@[simp] theorem State.setGpr_pc (s : State) (r : RegIdx) (v : Word) :
    (s.setGpr r v).pc = s.pc := by unfold State.setGpr; split <;> rfl
@[simp] theorem State.setGpr_pending (s : State) (r : RegIdx) (v : Word) :
    (s.setGpr r v).pending = s.pending := by unfold State.setGpr; split <;> rfl
@[simp] theorem State.setGpr_llBit (s : State) (r : RegIdx) (v : Word) :
    (s.setGpr r v).llBit = s.llBit := by unfold State.setGpr; split <;> rfl
@[simp] theorem State.setGpr_cop2Latch (s : State) (r : RegIdx) (v : Word) :
    (s.setGpr r v).cop2Latch = s.cop2Latch := by unfold State.setGpr; split <;> rfl
@[simp] theorem State.setGpr_cp0 (s : State) (r : RegIdx) (v : Word) :
    (s.setGpr r v).cp0 = s.cp0 := by unfold State.setGpr; split <;> rfl
@[simp] theorem State.setGpr_mi (s : State) (r : RegIdx) (v : Word) :
    (s.setGpr r v).mi = s.mi := by unfold State.setGpr; split <;> rfl
@[simp] theorem State.setGpr_ext (s : State) (r : RegIdx) (v : Word) :
    (s.setGpr r v).ext = s.ext := by unfold State.setGpr; split <;> rfl
@[simp] theorem State.setGpr_pi (s : State) (r : RegIdx) (v : Word) :
    (s.setGpr r v).pi = s.pi := by unfold State.setGpr; split <;> rfl
@[simp] theorem State.setGpr_dmaInflight (s : State) (r : RegIdx) (v : Word) :
    (s.setGpr r v).dmaInflight = s.dmaInflight := by unfold State.setGpr; split <;> rfl
@[simp] theorem State.setGpr_ram (s : State) (r : RegIdx) (v : Word) :
    (s.setGpr r v).ram = s.ram := by unfold State.setGpr; split <;> rfl
@[simp] theorem State.setGpr_rom (s : State) (r : RegIdx) (v : Word) :
    (s.setGpr r v).rom = s.rom := by unfold State.setGpr; split <;> rfl
@[simp] theorem State.setGpr_bootRom (s : State) (r : RegIdx) (v : Word) :
    (s.setGpr r v).bootRom = s.bootRom := by unfold State.setGpr; split <;> rfl
@[simp] theorem State.setGpr_params (s : State) (r : RegIdx) (v : Word) :
    (s.setGpr r v).params = s.params := by unfold State.setGpr; split <;> rfl
@[simp] theorem State.setGpr_schedule (s : State) (r : RegIdx) (v : Word) :
    (s.setGpr r v).schedule = s.schedule := by unfold State.setGpr; split <;> rfl
@[simp] theorem State.setGpr_draws (s : State) (r : RegIdx) (v : Word) :
    (s.setGpr r v).draws = s.draws := by unfold State.setGpr; split <;> rfl

/-! `setHiLo` -/

@[simp] theorem State.setHiLo_regs (s : State) (h l : Word) :
    (s.setHiLo h l).regs = s.regs := rfl
@[simp] theorem State.setHiLo_hi (s : State) (h l : Word) :
    (s.setHiLo h l).hi = h := rfl
@[simp] theorem State.setHiLo_lo (s : State) (h l : Word) :
    (s.setHiLo h l).lo = l := rfl
@[simp] theorem State.setHiLo_pc (s : State) (h l : Word) :
    (s.setHiLo h l).pc = s.pc := rfl
@[simp] theorem State.setHiLo_pending (s : State) (h l : Word) :
    (s.setHiLo h l).pending = s.pending := rfl
@[simp] theorem State.setHiLo_llBit (s : State) (h l : Word) :
    (s.setHiLo h l).llBit = s.llBit := rfl
@[simp] theorem State.setHiLo_cop2Latch (s : State) (h l : Word) :
    (s.setHiLo h l).cop2Latch = s.cop2Latch := rfl
@[simp] theorem State.setHiLo_cp0 (s : State) (h l : Word) :
    (s.setHiLo h l).cp0 = s.cp0 := rfl
@[simp] theorem State.setHiLo_mi (s : State) (h l : Word) :
    (s.setHiLo h l).mi = s.mi := rfl
@[simp] theorem State.setHiLo_ext (s : State) (h l : Word) :
    (s.setHiLo h l).ext = s.ext := rfl
@[simp] theorem State.setHiLo_pi (s : State) (h l : Word) :
    (s.setHiLo h l).pi = s.pi := rfl
@[simp] theorem State.setHiLo_dmaInflight (s : State) (h l : Word) :
    (s.setHiLo h l).dmaInflight = s.dmaInflight := rfl
@[simp] theorem State.setHiLo_ram (s : State) (h l : Word) :
    (s.setHiLo h l).ram = s.ram := rfl
@[simp] theorem State.setHiLo_rom (s : State) (h l : Word) :
    (s.setHiLo h l).rom = s.rom := rfl
@[simp] theorem State.setHiLo_bootRom (s : State) (h l : Word) :
    (s.setHiLo h l).bootRom = s.bootRom := rfl
@[simp] theorem State.setHiLo_params (s : State) (h l : Word) :
    (s.setHiLo h l).params = s.params := rfl
@[simp] theorem State.setHiLo_schedule (s : State) (h l : Word) :
    (s.setHiLo h l).schedule = s.schedule := rfl
@[simp] theorem State.setHiLo_draws (s : State) (h l : Word) :
    (s.setHiLo h l).draws = s.draws := rfl

/-! `setLoHi` -/

@[simp] theorem State.setLoHi_regs (s : State) (p : Word × Word) :
    (s.setLoHi p).regs = s.regs := rfl
@[simp] theorem State.setLoHi_hi (s : State) (p : Word × Word) :
    (s.setLoHi p).hi = p.2 := rfl
@[simp] theorem State.setLoHi_lo (s : State) (p : Word × Word) :
    (s.setLoHi p).lo = p.1 := rfl
@[simp] theorem State.setLoHi_pc (s : State) (p : Word × Word) :
    (s.setLoHi p).pc = s.pc := rfl
@[simp] theorem State.setLoHi_pending (s : State) (p : Word × Word) :
    (s.setLoHi p).pending = s.pending := rfl
@[simp] theorem State.setLoHi_llBit (s : State) (p : Word × Word) :
    (s.setLoHi p).llBit = s.llBit := rfl
@[simp] theorem State.setLoHi_cop2Latch (s : State) (p : Word × Word) :
    (s.setLoHi p).cop2Latch = s.cop2Latch := rfl
@[simp] theorem State.setLoHi_cp0 (s : State) (p : Word × Word) :
    (s.setLoHi p).cp0 = s.cp0 := rfl
@[simp] theorem State.setLoHi_mi (s : State) (p : Word × Word) :
    (s.setLoHi p).mi = s.mi := rfl
@[simp] theorem State.setLoHi_ext (s : State) (p : Word × Word) :
    (s.setLoHi p).ext = s.ext := rfl
@[simp] theorem State.setLoHi_pi (s : State) (p : Word × Word) :
    (s.setLoHi p).pi = s.pi := rfl
@[simp] theorem State.setLoHi_dmaInflight (s : State) (p : Word × Word) :
    (s.setLoHi p).dmaInflight = s.dmaInflight := rfl
@[simp] theorem State.setLoHi_ram (s : State) (p : Word × Word) :
    (s.setLoHi p).ram = s.ram := rfl
@[simp] theorem State.setLoHi_rom (s : State) (p : Word × Word) :
    (s.setLoHi p).rom = s.rom := rfl
@[simp] theorem State.setLoHi_bootRom (s : State) (p : Word × Word) :
    (s.setLoHi p).bootRom = s.bootRom := rfl
@[simp] theorem State.setLoHi_params (s : State) (p : Word × Word) :
    (s.setLoHi p).params = s.params := rfl
@[simp] theorem State.setLoHi_schedule (s : State) (p : Word × Word) :
    (s.setLoHi p).schedule = s.schedule := rfl
@[simp] theorem State.setLoHi_draws (s : State) (p : Word × Word) :
    (s.setLoHi p).draws = s.draws := rfl

/-! `enter` -/

@[simp] theorem State.enter_regs (s : State) (e : Exc) (a : Word) (bd : Bool) :
    (s.enter e a bd).regs = s.regs := rfl
@[simp] theorem State.enter_hi (s : State) (e : Exc) (a : Word) (bd : Bool) :
    (s.enter e a bd).hi = s.hi := rfl
@[simp] theorem State.enter_lo (s : State) (e : Exc) (a : Word) (bd : Bool) :
    (s.enter e a bd).lo = s.lo := rfl
@[simp] theorem State.enter_pc (s : State) (e : Exc) (a : Word) (bd : Bool) :
    (s.enter e a bd).pc = exceptionVector := rfl
@[simp] theorem State.enter_pending (s : State) (e : Exc) (a : Word) (bd : Bool) :
    (s.enter e a bd).pending = none := rfl
@[simp] theorem State.enter_llBit (s : State) (e : Exc) (a : Word) (bd : Bool) :
    (s.enter e a bd).llBit = s.llBit := rfl
@[simp] theorem State.enter_cop2Latch (s : State) (e : Exc) (a : Word) (bd : Bool) :
    (s.enter e a bd).cop2Latch = s.cop2Latch := rfl
@[simp] theorem State.enter_cp0 (s : State) (e : Exc) (a : Word) (bd : Bool) :
    (s.enter e a bd).cp0 = s.cp0.enter e a bd s.exl := rfl
@[simp] theorem State.enter_mi (s : State) (e : Exc) (a : Word) (bd : Bool) :
    (s.enter e a bd).mi = s.mi := rfl
@[simp] theorem State.enter_ext (s : State) (e : Exc) (a : Word) (bd : Bool) :
    (s.enter e a bd).ext = s.ext := rfl
@[simp] theorem State.enter_pi (s : State) (e : Exc) (a : Word) (bd : Bool) :
    (s.enter e a bd).pi = s.pi := rfl
@[simp] theorem State.enter_dmaInflight (s : State) (e : Exc) (a : Word) (bd : Bool) :
    (s.enter e a bd).dmaInflight = s.dmaInflight := rfl
@[simp] theorem State.enter_ram (s : State) (e : Exc) (a : Word) (bd : Bool) :
    (s.enter e a bd).ram = s.ram := rfl
@[simp] theorem State.enter_rom (s : State) (e : Exc) (a : Word) (bd : Bool) :
    (s.enter e a bd).rom = s.rom := rfl
@[simp] theorem State.enter_bootRom (s : State) (e : Exc) (a : Word) (bd : Bool) :
    (s.enter e a bd).bootRom = s.bootRom := rfl
@[simp] theorem State.enter_params (s : State) (e : Exc) (a : Word) (bd : Bool) :
    (s.enter e a bd).params = s.params := rfl
@[simp] theorem State.enter_schedule (s : State) (e : Exc) (a : Word) (bd : Bool) :
    (s.enter e a bd).schedule = s.schedule := rfl
@[simp] theorem State.enter_draws (s : State) (e : Exc) (a : Word) (bd : Bool) :
    (s.enter e a bd).draws = s.draws := rfl

/-! `exceptionReturn` -/

@[simp] theorem State.exceptionReturn_regs (s : State) :
    s.exceptionReturn.regs = s.regs := by unfold State.exceptionReturn; split <;> simp_all
@[simp] theorem State.exceptionReturn_hi (s : State) :
    s.exceptionReturn.hi = s.hi := by unfold State.exceptionReturn; split <;> simp_all
@[simp] theorem State.exceptionReturn_lo (s : State) :
    s.exceptionReturn.lo = s.lo := by unfold State.exceptionReturn; split <;> simp_all
@[simp] theorem State.exceptionReturn_pc (s : State) :
    s.exceptionReturn.pc = if s.erl then s.cp0.errorEpc else s.cp0.epc := by unfold State.exceptionReturn; split <;> simp_all
@[simp] theorem State.exceptionReturn_pending (s : State) :
    s.exceptionReturn.pending = none := by unfold State.exceptionReturn; split <;> simp_all
@[simp] theorem State.exceptionReturn_llBit (s : State) :
    s.exceptionReturn.llBit = false := by unfold State.exceptionReturn; split <;> simp_all
@[simp] theorem State.exceptionReturn_cop2Latch (s : State) :
    s.exceptionReturn.cop2Latch = s.cop2Latch := by unfold State.exceptionReturn; split <;> simp_all
@[simp] theorem State.exceptionReturn_cp0 (s : State) :
    s.exceptionReturn.cp0 = { s.cp0 with status := if s.erl then clearErl s.cp0.status else clearExl s.cp0.status } := by unfold State.exceptionReturn; split <;> simp_all
@[simp] theorem State.exceptionReturn_mi (s : State) :
    s.exceptionReturn.mi = s.mi := by unfold State.exceptionReturn; split <;> simp_all
@[simp] theorem State.exceptionReturn_ext (s : State) :
    s.exceptionReturn.ext = s.ext := by unfold State.exceptionReturn; split <;> simp_all
@[simp] theorem State.exceptionReturn_pi (s : State) :
    s.exceptionReturn.pi = s.pi := by unfold State.exceptionReturn; split <;> simp_all
@[simp] theorem State.exceptionReturn_dmaInflight (s : State) :
    s.exceptionReturn.dmaInflight = s.dmaInflight := by unfold State.exceptionReturn; split <;> simp_all
@[simp] theorem State.exceptionReturn_ram (s : State) :
    s.exceptionReturn.ram = s.ram := by unfold State.exceptionReturn; split <;> simp_all
@[simp] theorem State.exceptionReturn_rom (s : State) :
    s.exceptionReturn.rom = s.rom := by unfold State.exceptionReturn; split <;> simp_all
@[simp] theorem State.exceptionReturn_bootRom (s : State) :
    s.exceptionReturn.bootRom = s.bootRom := by unfold State.exceptionReturn; split <;> simp_all
@[simp] theorem State.exceptionReturn_params (s : State) :
    s.exceptionReturn.params = s.params := by unfold State.exceptionReturn; split <;> simp_all
@[simp] theorem State.exceptionReturn_schedule (s : State) :
    s.exceptionReturn.schedule = s.schedule := by unfold State.exceptionReturn; split <;> simp_all
@[simp] theorem State.exceptionReturn_draws (s : State) :
    s.exceptionReturn.draws = s.draws := by unfold State.exceptionReturn; split <;> simp_all

/-! `scheduleJump` -/

@[simp] theorem State.scheduleJump_regs (s : State) (t : Word) :
    (s.scheduleJump t).regs = s.regs := rfl
@[simp] theorem State.scheduleJump_hi (s : State) (t : Word) :
    (s.scheduleJump t).hi = s.hi := rfl
@[simp] theorem State.scheduleJump_lo (s : State) (t : Word) :
    (s.scheduleJump t).lo = s.lo := rfl
@[simp] theorem State.scheduleJump_pc (s : State) (t : Word) :
    (s.scheduleJump t).pc = s.pc := rfl
@[simp] theorem State.scheduleJump_pending (s : State) (t : Word) :
    (s.scheduleJump t).pending = some ⟨t, 1⟩ := rfl
@[simp] theorem State.scheduleJump_llBit (s : State) (t : Word) :
    (s.scheduleJump t).llBit = s.llBit := rfl
@[simp] theorem State.scheduleJump_cop2Latch (s : State) (t : Word) :
    (s.scheduleJump t).cop2Latch = s.cop2Latch := rfl
@[simp] theorem State.scheduleJump_cp0 (s : State) (t : Word) :
    (s.scheduleJump t).cp0 = s.cp0 := rfl
@[simp] theorem State.scheduleJump_mi (s : State) (t : Word) :
    (s.scheduleJump t).mi = s.mi := rfl
@[simp] theorem State.scheduleJump_ext (s : State) (t : Word) :
    (s.scheduleJump t).ext = s.ext := rfl
@[simp] theorem State.scheduleJump_pi (s : State) (t : Word) :
    (s.scheduleJump t).pi = s.pi := rfl
@[simp] theorem State.scheduleJump_dmaInflight (s : State) (t : Word) :
    (s.scheduleJump t).dmaInflight = s.dmaInflight := rfl
@[simp] theorem State.scheduleJump_ram (s : State) (t : Word) :
    (s.scheduleJump t).ram = s.ram := rfl
@[simp] theorem State.scheduleJump_rom (s : State) (t : Word) :
    (s.scheduleJump t).rom = s.rom := rfl
@[simp] theorem State.scheduleJump_bootRom (s : State) (t : Word) :
    (s.scheduleJump t).bootRom = s.bootRom := rfl
@[simp] theorem State.scheduleJump_params (s : State) (t : Word) :
    (s.scheduleJump t).params = s.params := rfl
@[simp] theorem State.scheduleJump_schedule (s : State) (t : Word) :
    (s.scheduleJump t).schedule = s.schedule := rfl
@[simp] theorem State.scheduleJump_draws (s : State) (t : Word) :
    (s.scheduleJump t).draws = s.draws := rfl

/-! `jumpIf` -/

@[simp] theorem State.jumpIf_regs (s : State) (c : Bool) (t : Word) :
    (s.jumpIf c t).regs = s.regs := by cases c <;> rfl
@[simp] theorem State.jumpIf_hi (s : State) (c : Bool) (t : Word) :
    (s.jumpIf c t).hi = s.hi := by cases c <;> rfl
@[simp] theorem State.jumpIf_lo (s : State) (c : Bool) (t : Word) :
    (s.jumpIf c t).lo = s.lo := by cases c <;> rfl
@[simp] theorem State.jumpIf_pc (s : State) (c : Bool) (t : Word) :
    (s.jumpIf c t).pc = s.pc := by cases c <;> rfl
@[simp] theorem State.jumpIf_pending (s : State) (c : Bool) (t : Word) :
    (s.jumpIf c t).pending = if c then some ⟨t, 1⟩ else s.pending := by cases c <;> rfl
@[simp] theorem State.jumpIf_llBit (s : State) (c : Bool) (t : Word) :
    (s.jumpIf c t).llBit = s.llBit := by cases c <;> rfl
@[simp] theorem State.jumpIf_cop2Latch (s : State) (c : Bool) (t : Word) :
    (s.jumpIf c t).cop2Latch = s.cop2Latch := by cases c <;> rfl
@[simp] theorem State.jumpIf_cp0 (s : State) (c : Bool) (t : Word) :
    (s.jumpIf c t).cp0 = s.cp0 := by cases c <;> rfl
@[simp] theorem State.jumpIf_mi (s : State) (c : Bool) (t : Word) :
    (s.jumpIf c t).mi = s.mi := by cases c <;> rfl
@[simp] theorem State.jumpIf_ext (s : State) (c : Bool) (t : Word) :
    (s.jumpIf c t).ext = s.ext := by cases c <;> rfl
@[simp] theorem State.jumpIf_pi (s : State) (c : Bool) (t : Word) :
    (s.jumpIf c t).pi = s.pi := by cases c <;> rfl
@[simp] theorem State.jumpIf_dmaInflight (s : State) (c : Bool) (t : Word) :
    (s.jumpIf c t).dmaInflight = s.dmaInflight := by cases c <;> rfl
@[simp] theorem State.jumpIf_ram (s : State) (c : Bool) (t : Word) :
    (s.jumpIf c t).ram = s.ram := by cases c <;> rfl
@[simp] theorem State.jumpIf_rom (s : State) (c : Bool) (t : Word) :
    (s.jumpIf c t).rom = s.rom := by cases c <;> rfl
@[simp] theorem State.jumpIf_bootRom (s : State) (c : Bool) (t : Word) :
    (s.jumpIf c t).bootRom = s.bootRom := by cases c <;> rfl
@[simp] theorem State.jumpIf_params (s : State) (c : Bool) (t : Word) :
    (s.jumpIf c t).params = s.params := by cases c <;> rfl
@[simp] theorem State.jumpIf_schedule (s : State) (c : Bool) (t : Word) :
    (s.jumpIf c t).schedule = s.schedule := by cases c <;> rfl
@[simp] theorem State.jumpIf_draws (s : State) (c : Bool) (t : Word) :
    (s.jumpIf c t).draws = s.draws := by cases c <;> rfl

/-! `jumpLikely` -/

@[simp] theorem State.jumpLikely_regs (s : State) (c : Bool) (t : Word) :
    (s.jumpLikely c t).regs = s.regs := by cases c <;> rfl
@[simp] theorem State.jumpLikely_hi (s : State) (c : Bool) (t : Word) :
    (s.jumpLikely c t).hi = s.hi := by cases c <;> rfl
@[simp] theorem State.jumpLikely_lo (s : State) (c : Bool) (t : Word) :
    (s.jumpLikely c t).lo = s.lo := by cases c <;> rfl
@[simp] theorem State.jumpLikely_pc (s : State) (c : Bool) (t : Word) :
    (s.jumpLikely c t).pc = if c then s.pc else s.pc + 4 := by cases c <;> rfl
@[simp] theorem State.jumpLikely_pending (s : State) (c : Bool) (t : Word) :
    (s.jumpLikely c t).pending = if c then some ⟨t, 1⟩ else s.pending := by cases c <;> rfl
@[simp] theorem State.jumpLikely_llBit (s : State) (c : Bool) (t : Word) :
    (s.jumpLikely c t).llBit = s.llBit := by cases c <;> rfl
@[simp] theorem State.jumpLikely_cop2Latch (s : State) (c : Bool) (t : Word) :
    (s.jumpLikely c t).cop2Latch = s.cop2Latch := by cases c <;> rfl
@[simp] theorem State.jumpLikely_cp0 (s : State) (c : Bool) (t : Word) :
    (s.jumpLikely c t).cp0 = s.cp0 := by cases c <;> rfl
@[simp] theorem State.jumpLikely_mi (s : State) (c : Bool) (t : Word) :
    (s.jumpLikely c t).mi = s.mi := by cases c <;> rfl
@[simp] theorem State.jumpLikely_ext (s : State) (c : Bool) (t : Word) :
    (s.jumpLikely c t).ext = s.ext := by cases c <;> rfl
@[simp] theorem State.jumpLikely_pi (s : State) (c : Bool) (t : Word) :
    (s.jumpLikely c t).pi = s.pi := by cases c <;> rfl
@[simp] theorem State.jumpLikely_dmaInflight (s : State) (c : Bool) (t : Word) :
    (s.jumpLikely c t).dmaInflight = s.dmaInflight := by cases c <;> rfl
@[simp] theorem State.jumpLikely_ram (s : State) (c : Bool) (t : Word) :
    (s.jumpLikely c t).ram = s.ram := by cases c <;> rfl
@[simp] theorem State.jumpLikely_rom (s : State) (c : Bool) (t : Word) :
    (s.jumpLikely c t).rom = s.rom := by cases c <;> rfl
@[simp] theorem State.jumpLikely_bootRom (s : State) (c : Bool) (t : Word) :
    (s.jumpLikely c t).bootRom = s.bootRom := by cases c <;> rfl
@[simp] theorem State.jumpLikely_params (s : State) (c : Bool) (t : Word) :
    (s.jumpLikely c t).params = s.params := by cases c <;> rfl
@[simp] theorem State.jumpLikely_schedule (s : State) (c : Bool) (t : Word) :
    (s.jumpLikely c t).schedule = s.schedule := by cases c <;> rfl
@[simp] theorem State.jumpLikely_draws (s : State) (c : Bool) (t : Word) :
    (s.jumpLikely c t).draws = s.draws := by cases c <;> rfl

/-! `tick` -/

@[simp] theorem State.tick_regs (s : State) :
    s.tick.regs = s.regs := rfl
@[simp] theorem State.tick_hi (s : State) :
    s.tick.hi = s.hi := rfl
@[simp] theorem State.tick_lo (s : State) :
    s.tick.lo = s.lo := rfl
@[simp] theorem State.tick_pc (s : State) :
    s.tick.pc = s.pc := rfl
@[simp] theorem State.tick_pending (s : State) :
    s.tick.pending = s.pending := rfl
@[simp] theorem State.tick_llBit (s : State) :
    s.tick.llBit = s.llBit := rfl
@[simp] theorem State.tick_cop2Latch (s : State) :
    s.tick.cop2Latch = s.cop2Latch := rfl
@[simp] theorem State.tick_cp0 (s : State) :
    s.tick.cp0 = { s.cp0 with count := s.cp0.count - 1, cause := { s.cp0.cause with ip7 := s.cp0.cause.ip7 || s.cp0.count == 0 } } := rfl
@[simp] theorem State.tick_mi (s : State) :
    s.tick.mi = s.mi := rfl
@[simp] theorem State.tick_ext (s : State) :
    s.tick.ext = s.ext := rfl
@[simp] theorem State.tick_pi (s : State) :
    s.tick.pi = s.pi := rfl
@[simp] theorem State.tick_dmaInflight (s : State) :
    s.tick.dmaInflight = s.dmaInflight := rfl
@[simp] theorem State.tick_ram (s : State) :
    s.tick.ram = s.ram := rfl
@[simp] theorem State.tick_rom (s : State) :
    s.tick.rom = s.rom := rfl
@[simp] theorem State.tick_bootRom (s : State) :
    s.tick.bootRom = s.bootRom := rfl
@[simp] theorem State.tick_params (s : State) :
    s.tick.params = s.params := rfl
@[simp] theorem State.tick_schedule (s : State) :
    s.tick.schedule = s.schedule := rfl
@[simp] theorem State.tick_draws (s : State) :
    s.tick.draws = s.draws := rfl

/-! `setFlag` -/

@[simp] theorem State.setFlag_regs (s : State) (i : Nat) :
    (s.setFlag i).regs = s.regs := rfl
@[simp] theorem State.setFlag_hi (s : State) (i : Nat) :
    (s.setFlag i).hi = s.hi := rfl
@[simp] theorem State.setFlag_lo (s : State) (i : Nat) :
    (s.setFlag i).lo = s.lo := rfl
@[simp] theorem State.setFlag_pc (s : State) (i : Nat) :
    (s.setFlag i).pc = s.pc := rfl
@[simp] theorem State.setFlag_pending (s : State) (i : Nat) :
    (s.setFlag i).pending = s.pending := rfl
@[simp] theorem State.setFlag_llBit (s : State) (i : Nat) :
    (s.setFlag i).llBit = s.llBit := rfl
@[simp] theorem State.setFlag_cop2Latch (s : State) (i : Nat) :
    (s.setFlag i).cop2Latch = s.cop2Latch := rfl
@[simp] theorem State.setFlag_cp0 (s : State) (i : Nat) :
    (s.setFlag i).cp0 = s.cp0 := rfl
@[simp] theorem State.setFlag_mi (s : State) (i : Nat) :
    (s.setFlag i).mi = { s.mi with flags := setFlagBit s.mi.flags i } := rfl
@[simp] theorem State.setFlag_ext (s : State) (i : Nat) :
    (s.setFlag i).ext = s.ext := rfl
@[simp] theorem State.setFlag_pi (s : State) (i : Nat) :
    (s.setFlag i).pi = s.pi := rfl
@[simp] theorem State.setFlag_dmaInflight (s : State) (i : Nat) :
    (s.setFlag i).dmaInflight = s.dmaInflight := rfl
@[simp] theorem State.setFlag_ram (s : State) (i : Nat) :
    (s.setFlag i).ram = s.ram := rfl
@[simp] theorem State.setFlag_rom (s : State) (i : Nat) :
    (s.setFlag i).rom = s.rom := rfl
@[simp] theorem State.setFlag_bootRom (s : State) (i : Nat) :
    (s.setFlag i).bootRom = s.bootRom := rfl
@[simp] theorem State.setFlag_params (s : State) (i : Nat) :
    (s.setFlag i).params = s.params := rfl
@[simp] theorem State.setFlag_schedule (s : State) (i : Nat) :
    (s.setFlag i).schedule = s.schedule := rfl
@[simp] theorem State.setFlag_draws (s : State) (i : Nat) :
    (s.setFlag i).draws = s.draws := rfl

/-! `clearFlag` -/

@[simp] theorem State.clearFlag_regs (s : State) (i : Nat) :
    (s.clearFlag i).regs = s.regs := rfl
@[simp] theorem State.clearFlag_hi (s : State) (i : Nat) :
    (s.clearFlag i).hi = s.hi := rfl
@[simp] theorem State.clearFlag_lo (s : State) (i : Nat) :
    (s.clearFlag i).lo = s.lo := rfl
@[simp] theorem State.clearFlag_pc (s : State) (i : Nat) :
    (s.clearFlag i).pc = s.pc := rfl
@[simp] theorem State.clearFlag_pending (s : State) (i : Nat) :
    (s.clearFlag i).pending = s.pending := rfl
@[simp] theorem State.clearFlag_llBit (s : State) (i : Nat) :
    (s.clearFlag i).llBit = s.llBit := rfl
@[simp] theorem State.clearFlag_cop2Latch (s : State) (i : Nat) :
    (s.clearFlag i).cop2Latch = s.cop2Latch := rfl
@[simp] theorem State.clearFlag_cp0 (s : State) (i : Nat) :
    (s.clearFlag i).cp0 = s.cp0 := rfl
@[simp] theorem State.clearFlag_mi (s : State) (i : Nat) :
    (s.clearFlag i).mi = { s.mi with flags := clearFlagBit s.mi.flags i } := rfl
@[simp] theorem State.clearFlag_ext (s : State) (i : Nat) :
    (s.clearFlag i).ext = s.ext := rfl
@[simp] theorem State.clearFlag_pi (s : State) (i : Nat) :
    (s.clearFlag i).pi = s.pi := rfl
@[simp] theorem State.clearFlag_dmaInflight (s : State) (i : Nat) :
    (s.clearFlag i).dmaInflight = s.dmaInflight := rfl
@[simp] theorem State.clearFlag_ram (s : State) (i : Nat) :
    (s.clearFlag i).ram = s.ram := rfl
@[simp] theorem State.clearFlag_rom (s : State) (i : Nat) :
    (s.clearFlag i).rom = s.rom := rfl
@[simp] theorem State.clearFlag_bootRom (s : State) (i : Nat) :
    (s.clearFlag i).bootRom = s.bootRom := rfl
@[simp] theorem State.clearFlag_params (s : State) (i : Nat) :
    (s.clearFlag i).params = s.params := rfl
@[simp] theorem State.clearFlag_schedule (s : State) (i : Nat) :
    (s.clearFlag i).schedule = s.schedule := rfl
@[simp] theorem State.clearFlag_draws (s : State) (i : Nat) :
    (s.clearFlag i).draws = s.draws := rfl

/-! `environment` -/

@[simp] theorem State.environment_regs (s : State) (a : EnvAction) :
    (s.environment a).regs = s.regs := by cases a <;> rfl
@[simp] theorem State.environment_hi (s : State) (a : EnvAction) :
    (s.environment a).hi = s.hi := by cases a <;> rfl
@[simp] theorem State.environment_lo (s : State) (a : EnvAction) :
    (s.environment a).lo = s.lo := by cases a <;> rfl
@[simp] theorem State.environment_pc (s : State) (a : EnvAction) :
    (s.environment a).pc = s.pc := by cases a <;> rfl
@[simp] theorem State.environment_pending (s : State) (a : EnvAction) :
    (s.environment a).pending = s.pending := by cases a <;> rfl
@[simp] theorem State.environment_llBit (s : State) (a : EnvAction) :
    (s.environment a).llBit = s.llBit := by cases a <;> rfl
@[simp] theorem State.environment_cop2Latch (s : State) (a : EnvAction) :
    (s.environment a).cop2Latch = s.cop2Latch := by cases a <;> rfl
@[simp] theorem State.environment_cp0 (s : State) (a : EnvAction) :
    (s.environment a).cp0 = s.cp0 := by cases a <;> rfl
@[simp] theorem State.environment_pi (s : State) (a : EnvAction) :
    (s.environment a).pi = s.pi := by cases a <;> rfl
@[simp] theorem State.environment_dmaInflight (s : State) (a : EnvAction) :
    (s.environment a).dmaInflight = s.dmaInflight := by cases a <;> rfl
@[simp] theorem State.environment_ram (s : State) (a : EnvAction) :
    (s.environment a).ram = s.ram := by cases a <;> rfl
@[simp] theorem State.environment_rom (s : State) (a : EnvAction) :
    (s.environment a).rom = s.rom := by cases a <;> rfl
@[simp] theorem State.environment_bootRom (s : State) (a : EnvAction) :
    (s.environment a).bootRom = s.bootRom := by cases a <;> rfl
@[simp] theorem State.environment_params (s : State) (a : EnvAction) :
    (s.environment a).params = s.params := by cases a <;> rfl
@[simp] theorem State.environment_schedule (s : State) (a : EnvAction) :
    (s.environment a).schedule = s.schedule := by cases a <;> rfl
@[simp] theorem State.environment_draws (s : State) (a : EnvAction) :
    (s.environment a).draws = s.draws := by cases a <;> rfl

/-! `dmaCompletion` -/

@[simp] theorem State.dmaCompletion_regs (s : State) :
    s.dmaCompletion.regs = s.regs := rfl
@[simp] theorem State.dmaCompletion_hi (s : State) :
    s.dmaCompletion.hi = s.hi := rfl
@[simp] theorem State.dmaCompletion_lo (s : State) :
    s.dmaCompletion.lo = s.lo := rfl
@[simp] theorem State.dmaCompletion_pc (s : State) :
    s.dmaCompletion.pc = s.pc := rfl
@[simp] theorem State.dmaCompletion_pending (s : State) :
    s.dmaCompletion.pending = s.pending := rfl
@[simp] theorem State.dmaCompletion_llBit (s : State) :
    s.dmaCompletion.llBit = s.llBit := rfl
@[simp] theorem State.dmaCompletion_cop2Latch (s : State) :
    s.dmaCompletion.cop2Latch = s.cop2Latch := rfl
@[simp] theorem State.dmaCompletion_cp0 (s : State) :
    s.dmaCompletion.cp0 = s.cp0 := rfl
@[simp] theorem State.dmaCompletion_mi (s : State) :
    s.dmaCompletion.mi = { s.mi with flags := setFlagBit s.mi.flags piSource } := rfl
@[simp] theorem State.dmaCompletion_ext (s : State) :
    s.dmaCompletion.ext = s.ext := rfl
@[simp] theorem State.dmaCompletion_pi (s : State) :
    s.dmaCompletion.pi = { s.pi with busy := false, completed := true } := rfl
@[simp] theorem State.dmaCompletion_dmaInflight (s : State) :
    s.dmaCompletion.dmaInflight = false := rfl
@[simp] theorem State.dmaCompletion_ram (s : State) :
    s.dmaCompletion.ram = s.ram := rfl
@[simp] theorem State.dmaCompletion_rom (s : State) :
    s.dmaCompletion.rom = s.rom := rfl
@[simp] theorem State.dmaCompletion_bootRom (s : State) :
    s.dmaCompletion.bootRom = s.bootRom := rfl
@[simp] theorem State.dmaCompletion_params (s : State) :
    s.dmaCompletion.params = s.params := rfl
@[simp] theorem State.dmaCompletion_schedule (s : State) :
    s.dmaCompletion.schedule = s.schedule := rfl
@[simp] theorem State.dmaCompletion_draws (s : State) :
    s.dmaCompletion.draws = s.draws := rfl

/-! `draw` -/

@[simp] theorem State.draw_regs (s : State) :
    s.draw.2.regs = s.regs := rfl
@[simp] theorem State.draw_hi (s : State) :
    s.draw.2.hi = s.hi := rfl
@[simp] theorem State.draw_lo (s : State) :
    s.draw.2.lo = s.lo := rfl
@[simp] theorem State.draw_pc (s : State) :
    s.draw.2.pc = s.pc := rfl
@[simp] theorem State.draw_pending (s : State) :
    s.draw.2.pending = s.pending := rfl
@[simp] theorem State.draw_llBit (s : State) :
    s.draw.2.llBit = s.llBit := rfl
@[simp] theorem State.draw_cop2Latch (s : State) :
    s.draw.2.cop2Latch = s.cop2Latch := rfl
@[simp] theorem State.draw_cp0 (s : State) :
    s.draw.2.cp0 = s.cp0 := rfl
@[simp] theorem State.draw_mi (s : State) :
    s.draw.2.mi = s.mi := rfl
@[simp] theorem State.draw_ext (s : State) :
    s.draw.2.ext = s.ext := rfl
@[simp] theorem State.draw_pi (s : State) :
    s.draw.2.pi = s.pi := rfl
@[simp] theorem State.draw_dmaInflight (s : State) :
    s.draw.2.dmaInflight = s.dmaInflight := rfl
@[simp] theorem State.draw_ram (s : State) :
    s.draw.2.ram = s.ram := rfl
@[simp] theorem State.draw_rom (s : State) :
    s.draw.2.rom = s.rom := rfl
@[simp] theorem State.draw_bootRom (s : State) :
    s.draw.2.bootRom = s.bootRom := rfl
@[simp] theorem State.draw_params (s : State) :
    s.draw.2.params = s.params := rfl
@[simp] theorem State.draw_schedule (s : State) :
    s.draw.2.schedule = s.schedule := rfl
@[simp] theorem State.draw_draws (s : State) :
    s.draw.2.draws = s.draws + 1 := rfl

/-! `advancePending` -/

@[simp] theorem State.advancePending_regs (s : State) :
    s.advancePending.regs = s.regs := by unfold State.advancePending; split <;> (try split) <;> rfl
@[simp] theorem State.advancePending_hi (s : State) :
    s.advancePending.hi = s.hi := by unfold State.advancePending; split <;> (try split) <;> rfl
@[simp] theorem State.advancePending_lo (s : State) :
    s.advancePending.lo = s.lo := by unfold State.advancePending; split <;> (try split) <;> rfl
@[simp] theorem State.advancePending_llBit (s : State) :
    s.advancePending.llBit = s.llBit := by unfold State.advancePending; split <;> (try split) <;> rfl
@[simp] theorem State.advancePending_cop2Latch (s : State) :
    s.advancePending.cop2Latch = s.cop2Latch := by unfold State.advancePending; split <;> (try split) <;> rfl
@[simp] theorem State.advancePending_cp0 (s : State) :
    s.advancePending.cp0 = s.cp0 := by unfold State.advancePending; split <;> (try split) <;> rfl
@[simp] theorem State.advancePending_mi (s : State) :
    s.advancePending.mi = s.mi := by unfold State.advancePending; split <;> (try split) <;> rfl
@[simp] theorem State.advancePending_ext (s : State) :
    s.advancePending.ext = s.ext := by unfold State.advancePending; split <;> (try split) <;> rfl
@[simp] theorem State.advancePending_pi (s : State) :
    s.advancePending.pi = s.pi := by unfold State.advancePending; split <;> (try split) <;> rfl
@[simp] theorem State.advancePending_dmaInflight (s : State) :
    s.advancePending.dmaInflight = s.dmaInflight := by unfold State.advancePending; split <;> (try split) <;> rfl
@[simp] theorem State.advancePending_ram (s : State) :
    s.advancePending.ram = s.ram := by unfold State.advancePending; split <;> (try split) <;> rfl
@[simp] theorem State.advancePending_rom (s : State) :
    s.advancePending.rom = s.rom := by unfold State.advancePending; split <;> (try split) <;> rfl
@[simp] theorem State.advancePending_bootRom (s : State) :
    s.advancePending.bootRom = s.bootRom := by unfold State.advancePending; split <;> (try split) <;> rfl
@[simp] theorem State.advancePending_params (s : State) :
    s.advancePending.params = s.params := by unfold State.advancePending; split <;> (try split) <;> rfl
@[simp] theorem State.advancePending_schedule (s : State) :
    s.advancePending.schedule = s.schedule := by unfold State.advancePending; split <;> (try split) <;> rfl
@[simp] theorem State.advancePending_draws (s : State) :
    s.advancePending.draws = s.draws := by unfold State.advancePending; split <;> (try split) <;> rfl

/-! `writeRam` -/

@[simp] theorem State.writeRam_regs (s : State) (p n : Nat) (v : Word) :
    (s.writeRam p n v).regs = s.regs := rfl
@[simp] theorem State.writeRam_hi (s : State) (p n : Nat) (v : Word) :
    (s.writeRam p n v).hi = s.hi := rfl
@[simp] theorem State.writeRam_lo (s : State) (p n : Nat) (v : Word) :
    (s.writeRam p n v).lo = s.lo := rfl
@[simp] theorem State.writeRam_pc (s : State) (p n : Nat) (v : Word) :
    (s.writeRam p n v).pc = s.pc := rfl
@[simp] theorem State.writeRam_pending (s : State) (p n : Nat) (v : Word) :
    (s.writeRam p n v).pending = s.pending := rfl
@[simp] theorem State.writeRam_llBit (s : State) (p n : Nat) (v : Word) :
    (s.writeRam p n v).llBit = s.llBit := rfl
@[simp] theorem State.writeRam_cop2Latch (s : State) (p n : Nat) (v : Word) :
    (s.writeRam p n v).cop2Latch = s.cop2Latch := rfl
@[simp] theorem State.writeRam_cp0 (s : State) (p n : Nat) (v : Word) :
    (s.writeRam p n v).cp0 = s.cp0 := rfl
@[simp] theorem State.writeRam_mi (s : State) (p n : Nat) (v : Word) :
    (s.writeRam p n v).mi = s.mi := rfl
@[simp] theorem State.writeRam_ext (s : State) (p n : Nat) (v : Word) :
    (s.writeRam p n v).ext = s.ext := rfl
@[simp] theorem State.writeRam_pi (s : State) (p n : Nat) (v : Word) :
    (s.writeRam p n v).pi = s.pi := rfl
@[simp] theorem State.writeRam_dmaInflight (s : State) (p n : Nat) (v : Word) :
    (s.writeRam p n v).dmaInflight = s.dmaInflight := rfl
@[simp] theorem State.writeRam_ram (s : State) (p n : Nat) (v : Word) :
    (s.writeRam p n v).ram = s.ram.writeBE (s.ramByte p) n v := rfl
@[simp] theorem State.writeRam_rom (s : State) (p n : Nat) (v : Word) :
    (s.writeRam p n v).rom = s.rom := rfl
@[simp] theorem State.writeRam_bootRom (s : State) (p n : Nat) (v : Word) :
    (s.writeRam p n v).bootRom = s.bootRom := rfl
@[simp] theorem State.writeRam_params (s : State) (p n : Nat) (v : Word) :
    (s.writeRam p n v).params = s.params := rfl
@[simp] theorem State.writeRam_schedule (s : State) (p n : Nat) (v : Word) :
    (s.writeRam p n v).schedule = s.schedule := rfl
@[simp] theorem State.writeRam_draws (s : State) (p n : Nat) (v : Word) :
    (s.writeRam p n v).draws = s.draws := rfl

/-! `startDma` -/

@[simp] theorem State.startDma_regs (s : State) :
    s.startDma.regs = s.regs := rfl
@[simp] theorem State.startDma_hi (s : State) :
    s.startDma.hi = s.hi := rfl
@[simp] theorem State.startDma_lo (s : State) :
    s.startDma.lo = s.lo := rfl
@[simp] theorem State.startDma_pc (s : State) :
    s.startDma.pc = s.pc := rfl
@[simp] theorem State.startDma_pending (s : State) :
    s.startDma.pending = s.pending := rfl
@[simp] theorem State.startDma_llBit (s : State) :
    s.startDma.llBit = s.llBit := rfl
@[simp] theorem State.startDma_cop2Latch (s : State) :
    s.startDma.cop2Latch = s.cop2Latch := rfl
@[simp] theorem State.startDma_cp0 (s : State) :
    s.startDma.cp0 = s.cp0 := rfl
@[simp] theorem State.startDma_mi (s : State) :
    s.startDma.mi = { s.mi with flags := clearFlagBit s.mi.flags piSource } := rfl
@[simp] theorem State.startDma_ext (s : State) :
    s.startDma.ext = s.ext := rfl
@[simp] theorem State.startDma_pi (s : State) :
    s.startDma.pi = { s.pi with busy := true, completed := false, addrKnown := false } := rfl
@[simp] theorem State.startDma_dmaInflight (s : State) :
    s.startDma.dmaInflight = true := rfl
@[simp] theorem State.startDma_ram (s : State) :
    s.startDma.ram = s.ram := rfl
@[simp] theorem State.startDma_rom (s : State) :
    s.startDma.rom = s.rom := rfl
@[simp] theorem State.startDma_bootRom (s : State) :
    s.startDma.bootRom = s.bootRom := rfl
@[simp] theorem State.startDma_params (s : State) :
    s.startDma.params = s.params := rfl
@[simp] theorem State.startDma_schedule (s : State) :
    s.startDma.schedule = s.schedule := rfl
@[simp] theorem State.startDma_draws (s : State) :
    s.startDma.draws = s.draws := rfl

/-! `transferToRam` -/

@[simp] theorem State.transferToRam_regs (s : State) (len : Nat) (c : BitVec 32) (d : BitVec 24) :
    (s.transferToRam len c d).regs = s.regs := by unfold State.transferToRam; split <;> rfl
@[simp] theorem State.transferToRam_hi (s : State) (len : Nat) (c : BitVec 32) (d : BitVec 24) :
    (s.transferToRam len c d).hi = s.hi := by unfold State.transferToRam; split <;> rfl
@[simp] theorem State.transferToRam_lo (s : State) (len : Nat) (c : BitVec 32) (d : BitVec 24) :
    (s.transferToRam len c d).lo = s.lo := by unfold State.transferToRam; split <;> rfl
@[simp] theorem State.transferToRam_pc (s : State) (len : Nat) (c : BitVec 32) (d : BitVec 24) :
    (s.transferToRam len c d).pc = s.pc := by unfold State.transferToRam; split <;> rfl
@[simp] theorem State.transferToRam_pending (s : State) (len : Nat) (c : BitVec 32) (d : BitVec 24) :
    (s.transferToRam len c d).pending = s.pending := by unfold State.transferToRam; split <;> rfl
@[simp] theorem State.transferToRam_llBit (s : State) (len : Nat) (c : BitVec 32) (d : BitVec 24) :
    (s.transferToRam len c d).llBit = s.llBit := by unfold State.transferToRam; split <;> rfl
@[simp] theorem State.transferToRam_cop2Latch (s : State) (len : Nat) (c : BitVec 32) (d : BitVec 24) :
    (s.transferToRam len c d).cop2Latch = s.cop2Latch := by unfold State.transferToRam; split <;> rfl
@[simp] theorem State.transferToRam_cp0 (s : State) (len : Nat) (c : BitVec 32) (d : BitVec 24) :
    (s.transferToRam len c d).cp0 = s.cp0 := by unfold State.transferToRam; split <;> rfl
@[simp] theorem State.transferToRam_mi (s : State) (len : Nat) (c : BitVec 32) (d : BitVec 24) :
    (s.transferToRam len c d).mi = s.mi := by unfold State.transferToRam; split <;> rfl
@[simp] theorem State.transferToRam_ext (s : State) (len : Nat) (c : BitVec 32) (d : BitVec 24) :
    (s.transferToRam len c d).ext = s.ext := by unfold State.transferToRam; split <;> rfl
@[simp] theorem State.transferToRam_pi (s : State) (len : Nat) (c : BitVec 32) (d : BitVec 24) :
    (s.transferToRam len c d).pi = s.pi := by unfold State.transferToRam; split <;> rfl
@[simp] theorem State.transferToRam_dmaInflight (s : State) (len : Nat) (c : BitVec 32) (d : BitVec 24) :
    (s.transferToRam len c d).dmaInflight = s.dmaInflight := by unfold State.transferToRam; split <;> rfl
@[simp] theorem State.transferToRam_rom (s : State) (len : Nat) (c : BitVec 32) (d : BitVec 24) :
    (s.transferToRam len c d).rom = s.rom := by unfold State.transferToRam; split <;> rfl
@[simp] theorem State.transferToRam_bootRom (s : State) (len : Nat) (c : BitVec 32) (d : BitVec 24) :
    (s.transferToRam len c d).bootRom = s.bootRom := by unfold State.transferToRam; split <;> rfl
@[simp] theorem State.transferToRam_params (s : State) (len : Nat) (c : BitVec 32) (d : BitVec 24) :
    (s.transferToRam len c d).params = s.params := by unfold State.transferToRam; split <;> rfl
@[simp] theorem State.transferToRam_schedule (s : State) (len : Nat) (c : BitVec 32) (d : BitVec 24) :
    (s.transferToRam len c d).schedule = s.schedule := by unfold State.transferToRam; split <;> rfl
@[simp] theorem State.transferToRam_draws (s : State) (len : Nat) (c : BitVec 32) (d : BitVec 24) :
    (s.transferToRam len c d).draws = s.draws := by unfold State.transferToRam; split <;> rfl

/-! `writePiStatus` -/

@[simp] theorem State.writePiStatus_regs (s : State) (v : BitVec 32) :
    (s.writePiStatus v).regs = s.regs := by unfold State.writePiStatus; split <;> (try split) <;> rfl
@[simp] theorem State.writePiStatus_hi (s : State) (v : BitVec 32) :
    (s.writePiStatus v).hi = s.hi := by unfold State.writePiStatus; split <;> (try split) <;> rfl
@[simp] theorem State.writePiStatus_lo (s : State) (v : BitVec 32) :
    (s.writePiStatus v).lo = s.lo := by unfold State.writePiStatus; split <;> (try split) <;> rfl
@[simp] theorem State.writePiStatus_pc (s : State) (v : BitVec 32) :
    (s.writePiStatus v).pc = s.pc := by unfold State.writePiStatus; split <;> (try split) <;> rfl
@[simp] theorem State.writePiStatus_pending (s : State) (v : BitVec 32) :
    (s.writePiStatus v).pending = s.pending := by unfold State.writePiStatus; split <;> (try split) <;> rfl
@[simp] theorem State.writePiStatus_llBit (s : State) (v : BitVec 32) :
    (s.writePiStatus v).llBit = s.llBit := by unfold State.writePiStatus; split <;> (try split) <;> rfl
@[simp] theorem State.writePiStatus_cop2Latch (s : State) (v : BitVec 32) :
    (s.writePiStatus v).cop2Latch = s.cop2Latch := by unfold State.writePiStatus; split <;> (try split) <;> rfl
@[simp] theorem State.writePiStatus_cp0 (s : State) (v : BitVec 32) :
    (s.writePiStatus v).cp0 = s.cp0 := by unfold State.writePiStatus; split <;> (try split) <;> rfl
@[simp] theorem State.writePiStatus_ext (s : State) (v : BitVec 32) :
    (s.writePiStatus v).ext = s.ext := by unfold State.writePiStatus; split <;> (try split) <;> rfl
@[simp] theorem State.writePiStatus_ram (s : State) (v : BitVec 32) :
    (s.writePiStatus v).ram = s.ram := by unfold State.writePiStatus; split <;> (try split) <;> rfl
@[simp] theorem State.writePiStatus_rom (s : State) (v : BitVec 32) :
    (s.writePiStatus v).rom = s.rom := by unfold State.writePiStatus; split <;> (try split) <;> rfl
@[simp] theorem State.writePiStatus_bootRom (s : State) (v : BitVec 32) :
    (s.writePiStatus v).bootRom = s.bootRom := by unfold State.writePiStatus; split <;> (try split) <;> rfl
@[simp] theorem State.writePiStatus_params (s : State) (v : BitVec 32) :
    (s.writePiStatus v).params = s.params := by unfold State.writePiStatus; split <;> (try split) <;> rfl
@[simp] theorem State.writePiStatus_schedule (s : State) (v : BitVec 32) :
    (s.writePiStatus v).schedule = s.schedule := by unfold State.writePiStatus; split <;> (try split) <;> rfl
@[simp] theorem State.writePiStatus_draws (s : State) (v : BitVec 32) :
    (s.writePiStatus v).draws = s.draws := by unfold State.writePiStatus; split <;> (try split) <;> rfl

/-! `writeMi` -/

@[simp] theorem State.writeMi_regs (s : State) (o : Nat) (v : BitVec 32) :
    (s.writeMi o v).regs = s.regs := by unfold State.writeMi; split <;> rfl
@[simp] theorem State.writeMi_hi (s : State) (o : Nat) (v : BitVec 32) :
    (s.writeMi o v).hi = s.hi := by unfold State.writeMi; split <;> rfl
@[simp] theorem State.writeMi_lo (s : State) (o : Nat) (v : BitVec 32) :
    (s.writeMi o v).lo = s.lo := by unfold State.writeMi; split <;> rfl
@[simp] theorem State.writeMi_pc (s : State) (o : Nat) (v : BitVec 32) :
    (s.writeMi o v).pc = s.pc := by unfold State.writeMi; split <;> rfl
@[simp] theorem State.writeMi_pending (s : State) (o : Nat) (v : BitVec 32) :
    (s.writeMi o v).pending = s.pending := by unfold State.writeMi; split <;> rfl
@[simp] theorem State.writeMi_llBit (s : State) (o : Nat) (v : BitVec 32) :
    (s.writeMi o v).llBit = s.llBit := by unfold State.writeMi; split <;> rfl
@[simp] theorem State.writeMi_cop2Latch (s : State) (o : Nat) (v : BitVec 32) :
    (s.writeMi o v).cop2Latch = s.cop2Latch := by unfold State.writeMi; split <;> rfl
@[simp] theorem State.writeMi_cp0 (s : State) (o : Nat) (v : BitVec 32) :
    (s.writeMi o v).cp0 = s.cp0 := by unfold State.writeMi; split <;> rfl
@[simp] theorem State.writeMi_ext (s : State) (o : Nat) (v : BitVec 32) :
    (s.writeMi o v).ext = s.ext := by unfold State.writeMi; split <;> rfl
@[simp] theorem State.writeMi_pi (s : State) (o : Nat) (v : BitVec 32) :
    (s.writeMi o v).pi = s.pi := by unfold State.writeMi; split <;> rfl
@[simp] theorem State.writeMi_dmaInflight (s : State) (o : Nat) (v : BitVec 32) :
    (s.writeMi o v).dmaInflight = s.dmaInflight := by unfold State.writeMi; split <;> rfl
@[simp] theorem State.writeMi_ram (s : State) (o : Nat) (v : BitVec 32) :
    (s.writeMi o v).ram = s.ram := by unfold State.writeMi; split <;> rfl
@[simp] theorem State.writeMi_rom (s : State) (o : Nat) (v : BitVec 32) :
    (s.writeMi o v).rom = s.rom := by unfold State.writeMi; split <;> rfl
@[simp] theorem State.writeMi_bootRom (s : State) (o : Nat) (v : BitVec 32) :
    (s.writeMi o v).bootRom = s.bootRom := by unfold State.writeMi; split <;> rfl
@[simp] theorem State.writeMi_params (s : State) (o : Nat) (v : BitVec 32) :
    (s.writeMi o v).params = s.params := by unfold State.writeMi; split <;> rfl
@[simp] theorem State.writeMi_schedule (s : State) (o : Nat) (v : BitVec 32) :
    (s.writeMi o v).schedule = s.schedule := by unfold State.writeMi; split <;> rfl
@[simp] theorem State.writeMi_draws (s : State) (o : Nat) (v : BitVec 32) :
    (s.writeMi o v).draws = s.draws := by unfold State.writeMi; split <;> rfl

/-! `readMi` -/

@[simp] theorem State.readMi_regs (s : State) (o : Nat) :
    (s.readMi o).2.regs = s.regs := by unfold State.readMi; split <;> rfl
@[simp] theorem State.readMi_hi (s : State) (o : Nat) :
    (s.readMi o).2.hi = s.hi := by unfold State.readMi; split <;> rfl
@[simp] theorem State.readMi_lo (s : State) (o : Nat) :
    (s.readMi o).2.lo = s.lo := by unfold State.readMi; split <;> rfl
@[simp] theorem State.readMi_pc (s : State) (o : Nat) :
    (s.readMi o).2.pc = s.pc := by unfold State.readMi; split <;> rfl
@[simp] theorem State.readMi_pending (s : State) (o : Nat) :
    (s.readMi o).2.pending = s.pending := by unfold State.readMi; split <;> rfl
@[simp] theorem State.readMi_llBit (s : State) (o : Nat) :
    (s.readMi o).2.llBit = s.llBit := by unfold State.readMi; split <;> rfl
@[simp] theorem State.readMi_cop2Latch (s : State) (o : Nat) :
    (s.readMi o).2.cop2Latch = s.cop2Latch := by unfold State.readMi; split <;> rfl
@[simp] theorem State.readMi_cp0 (s : State) (o : Nat) :
    (s.readMi o).2.cp0 = s.cp0 := by unfold State.readMi; split <;> rfl
@[simp] theorem State.readMi_mi (s : State) (o : Nat) :
    (s.readMi o).2.mi = s.mi := by unfold State.readMi; split <;> rfl
@[simp] theorem State.readMi_ext (s : State) (o : Nat) :
    (s.readMi o).2.ext = s.ext := by unfold State.readMi; split <;> rfl
@[simp] theorem State.readMi_pi (s : State) (o : Nat) :
    (s.readMi o).2.pi = s.pi := by unfold State.readMi; split <;> rfl
@[simp] theorem State.readMi_dmaInflight (s : State) (o : Nat) :
    (s.readMi o).2.dmaInflight = s.dmaInflight := by unfold State.readMi; split <;> rfl
@[simp] theorem State.readMi_ram (s : State) (o : Nat) :
    (s.readMi o).2.ram = s.ram := by unfold State.readMi; split <;> rfl
@[simp] theorem State.readMi_rom (s : State) (o : Nat) :
    (s.readMi o).2.rom = s.rom := by unfold State.readMi; split <;> rfl
@[simp] theorem State.readMi_bootRom (s : State) (o : Nat) :
    (s.readMi o).2.bootRom = s.bootRom := by unfold State.readMi; split <;> rfl
@[simp] theorem State.readMi_params (s : State) (o : Nat) :
    (s.readMi o).2.params = s.params := by unfold State.readMi; split <;> rfl
@[simp] theorem State.readMi_schedule (s : State) (o : Nat) :
    (s.readMi o).2.schedule = s.schedule := by unfold State.readMi; split <;> rfl

/-! `readPi` -/

@[simp] theorem State.readPi_regs (s : State) (o : Nat) :
    (s.readPi o).2.regs = s.regs := by unfold State.readPi; split <;> (try split) <;> rfl
@[simp] theorem State.readPi_hi (s : State) (o : Nat) :
    (s.readPi o).2.hi = s.hi := by unfold State.readPi; split <;> (try split) <;> rfl
@[simp] theorem State.readPi_lo (s : State) (o : Nat) :
    (s.readPi o).2.lo = s.lo := by unfold State.readPi; split <;> (try split) <;> rfl
@[simp] theorem State.readPi_pc (s : State) (o : Nat) :
    (s.readPi o).2.pc = s.pc := by unfold State.readPi; split <;> (try split) <;> rfl
@[simp] theorem State.readPi_pending (s : State) (o : Nat) :
    (s.readPi o).2.pending = s.pending := by unfold State.readPi; split <;> (try split) <;> rfl
@[simp] theorem State.readPi_llBit (s : State) (o : Nat) :
    (s.readPi o).2.llBit = s.llBit := by unfold State.readPi; split <;> (try split) <;> rfl
@[simp] theorem State.readPi_cop2Latch (s : State) (o : Nat) :
    (s.readPi o).2.cop2Latch = s.cop2Latch := by unfold State.readPi; split <;> (try split) <;> rfl
@[simp] theorem State.readPi_cp0 (s : State) (o : Nat) :
    (s.readPi o).2.cp0 = s.cp0 := by unfold State.readPi; split <;> (try split) <;> rfl
@[simp] theorem State.readPi_mi (s : State) (o : Nat) :
    (s.readPi o).2.mi = s.mi := by unfold State.readPi; split <;> (try split) <;> rfl
@[simp] theorem State.readPi_ext (s : State) (o : Nat) :
    (s.readPi o).2.ext = s.ext := by unfold State.readPi; split <;> (try split) <;> rfl
@[simp] theorem State.readPi_pi (s : State) (o : Nat) :
    (s.readPi o).2.pi = s.pi := by unfold State.readPi; split <;> (try split) <;> rfl
@[simp] theorem State.readPi_dmaInflight (s : State) (o : Nat) :
    (s.readPi o).2.dmaInflight = s.dmaInflight := by unfold State.readPi; split <;> (try split) <;> rfl
@[simp] theorem State.readPi_ram (s : State) (o : Nat) :
    (s.readPi o).2.ram = s.ram := by unfold State.readPi; split <;> (try split) <;> rfl
@[simp] theorem State.readPi_rom (s : State) (o : Nat) :
    (s.readPi o).2.rom = s.rom := by unfold State.readPi; split <;> (try split) <;> rfl
@[simp] theorem State.readPi_bootRom (s : State) (o : Nat) :
    (s.readPi o).2.bootRom = s.bootRom := by unfold State.readPi; split <;> (try split) <;> rfl
@[simp] theorem State.readPi_params (s : State) (o : Nat) :
    (s.readPi o).2.params = s.params := by unfold State.readPi; split <;> (try split) <;> rfl
@[simp] theorem State.readPi_schedule (s : State) (o : Nat) :
    (s.readPi o).2.schedule = s.schedule := by unfold State.readPi; split <;> (try split) <;> rfl

/-! `setProductWord` -/

@[simp] theorem State.setProductWord_regs (s : State) (p : BitVec 64) :
    (s.setProductWord p).regs = s.regs := rfl
@[simp] theorem State.setProductWord_hi (s : State) (p : BitVec 64) :
    (s.setProductWord p).hi = sext32 (p.extractLsb' 32 32) := rfl
@[simp] theorem State.setProductWord_lo (s : State) (p : BitVec 64) :
    (s.setProductWord p).lo = sext32 (p.extractLsb' 0 32) := rfl
@[simp] theorem State.setProductWord_pc (s : State) (p : BitVec 64) :
    (s.setProductWord p).pc = s.pc := rfl
@[simp] theorem State.setProductWord_pending (s : State) (p : BitVec 64) :
    (s.setProductWord p).pending = s.pending := rfl
@[simp] theorem State.setProductWord_llBit (s : State) (p : BitVec 64) :
    (s.setProductWord p).llBit = s.llBit := rfl
@[simp] theorem State.setProductWord_cop2Latch (s : State) (p : BitVec 64) :
    (s.setProductWord p).cop2Latch = s.cop2Latch := rfl
@[simp] theorem State.setProductWord_cp0 (s : State) (p : BitVec 64) :
    (s.setProductWord p).cp0 = s.cp0 := rfl
@[simp] theorem State.setProductWord_mi (s : State) (p : BitVec 64) :
    (s.setProductWord p).mi = s.mi := rfl
@[simp] theorem State.setProductWord_ext (s : State) (p : BitVec 64) :
    (s.setProductWord p).ext = s.ext := rfl
@[simp] theorem State.setProductWord_pi (s : State) (p : BitVec 64) :
    (s.setProductWord p).pi = s.pi := rfl
@[simp] theorem State.setProductWord_dmaInflight (s : State) (p : BitVec 64) :
    (s.setProductWord p).dmaInflight = s.dmaInflight := rfl
@[simp] theorem State.setProductWord_ram (s : State) (p : BitVec 64) :
    (s.setProductWord p).ram = s.ram := rfl
@[simp] theorem State.setProductWord_rom (s : State) (p : BitVec 64) :
    (s.setProductWord p).rom = s.rom := rfl
@[simp] theorem State.setProductWord_bootRom (s : State) (p : BitVec 64) :
    (s.setProductWord p).bootRom = s.bootRom := rfl
@[simp] theorem State.setProductWord_params (s : State) (p : BitVec 64) :
    (s.setProductWord p).params = s.params := rfl
@[simp] theorem State.setProductWord_schedule (s : State) (p : BitVec 64) :
    (s.setProductWord p).schedule = s.schedule := rfl
@[simp] theorem State.setProductWord_draws (s : State) (p : BitVec 64) :
    (s.setProductWord p).draws = s.draws := rfl

/-! `setProductDouble` -/

@[simp] theorem State.setProductDouble_regs (s : State) (p : BitVec 128) :
    (s.setProductDouble p).regs = s.regs := rfl
@[simp] theorem State.setProductDouble_hi (s : State) (p : BitVec 128) :
    (s.setProductDouble p).hi = p.extractLsb' 64 64 := rfl
@[simp] theorem State.setProductDouble_lo (s : State) (p : BitVec 128) :
    (s.setProductDouble p).lo = p.extractLsb' 0 64 := rfl
@[simp] theorem State.setProductDouble_pc (s : State) (p : BitVec 128) :
    (s.setProductDouble p).pc = s.pc := rfl
@[simp] theorem State.setProductDouble_pending (s : State) (p : BitVec 128) :
    (s.setProductDouble p).pending = s.pending := rfl
@[simp] theorem State.setProductDouble_llBit (s : State) (p : BitVec 128) :
    (s.setProductDouble p).llBit = s.llBit := rfl
@[simp] theorem State.setProductDouble_cop2Latch (s : State) (p : BitVec 128) :
    (s.setProductDouble p).cop2Latch = s.cop2Latch := rfl
@[simp] theorem State.setProductDouble_cp0 (s : State) (p : BitVec 128) :
    (s.setProductDouble p).cp0 = s.cp0 := rfl
@[simp] theorem State.setProductDouble_mi (s : State) (p : BitVec 128) :
    (s.setProductDouble p).mi = s.mi := rfl
@[simp] theorem State.setProductDouble_ext (s : State) (p : BitVec 128) :
    (s.setProductDouble p).ext = s.ext := rfl
@[simp] theorem State.setProductDouble_pi (s : State) (p : BitVec 128) :
    (s.setProductDouble p).pi = s.pi := rfl
@[simp] theorem State.setProductDouble_dmaInflight (s : State) (p : BitVec 128) :
    (s.setProductDouble p).dmaInflight = s.dmaInflight := rfl
@[simp] theorem State.setProductDouble_ram (s : State) (p : BitVec 128) :
    (s.setProductDouble p).ram = s.ram := rfl
@[simp] theorem State.setProductDouble_rom (s : State) (p : BitVec 128) :
    (s.setProductDouble p).rom = s.rom := rfl
@[simp] theorem State.setProductDouble_bootRom (s : State) (p : BitVec 128) :
    (s.setProductDouble p).bootRom = s.bootRom := rfl
@[simp] theorem State.setProductDouble_params (s : State) (p : BitVec 128) :
    (s.setProductDouble p).params = s.params := rfl
@[simp] theorem State.setProductDouble_schedule (s : State) (p : BitVec 128) :
    (s.setProductDouble p).schedule = s.schedule := rfl
@[simp] theorem State.setProductDouble_draws (s : State) (p : BitVec 128) :
    (s.setProductDouble p).draws = s.draws := rfl

/-! General registers (R31) -/

/-- Register 0 reads as zero. -/
@[simp] theorem State.gpr_zero (s : State) : s.gpr 0#5 = 0#64 := rfl

/-- Only the registers decide what a register reads. -/
theorem State.gpr_congr {s t : State} (h : t.regs = s.regs) (r : RegIdx) : t.gpr r = s.gpr r := by
  unfold State.gpr; rw [h]

/-- A write is read back at its register, unless it is register 0, and nowhere else. -/
@[simp] theorem State.gpr_setGpr (s : State) (w r : RegIdx) (v : Word) :
    (s.setGpr w v).gpr r = if r = w ∧ w ≠ 0#5 then v else s.gpr r := by
  by_cases hw : w = 0#5
  · simp [State.setGpr, hw]
  by_cases hr : r = 0#5
  · have : ¬ (0#5 = w) := fun h => hw h.symm
    simp [State.gpr, hr, this]
  by_cases h : r = w
  · subst h; simp [State.setGpr, State.gpr, hw]
  · have : w.toNat ≠ r.toNat := fun hn => h (BitVec.eq_of_toNat_eq hn.symm)
    simp [State.setGpr, State.gpr, hw, hr, h, this]

/-- A register write changes nothing but the registers. -/
theorem State.setGpr_frame (s : State) (r : RegIdx) (v : Word) :
    s.setGpr r v = { s with regs := (s.setGpr r v).regs } := by
  unfold State.setGpr; split <;> rfl

/-- The stored entry 0 is never written. -/
theorem State.setGpr_regs_zero (s : State) (r : RegIdx) (v : Word) :
    (s.setGpr r v).regs[0] = s.regs[0] := by
  unfold State.setGpr
  split
  · rfl
  · rename_i h
    have : r.toNat ≠ 0 := fun hn => h (BitVec.eq_of_toNat_eq (by simpa using hn))
    simp [this]

@[simp] theorem State.setHiLo_gpr (s : State) (h l : Word) (r' : RegIdx) :
    (s.setHiLo h l).gpr r' = s.gpr r' := State.gpr_congr (State.setHiLo_regs ..) r'
@[simp] theorem State.setLoHi_gpr (s : State) (p : Word × Word) (r' : RegIdx) :
    (s.setLoHi p).gpr r' = s.gpr r' := State.gpr_congr (State.setLoHi_regs ..) r'
@[simp] theorem State.enter_gpr (s : State) (e : Exc) (a : Word) (bd : Bool) (r' : RegIdx) :
    (s.enter e a bd).gpr r' = s.gpr r' := State.gpr_congr (State.enter_regs ..) r'
@[simp] theorem State.exceptionReturn_gpr (s : State) (r' : RegIdx) :
    s.exceptionReturn.gpr r' = s.gpr r' := State.gpr_congr (State.exceptionReturn_regs ..) r'
@[simp] theorem State.scheduleJump_gpr (s : State) (t : Word) (r' : RegIdx) :
    (s.scheduleJump t).gpr r' = s.gpr r' := State.gpr_congr (State.scheduleJump_regs ..) r'
@[simp] theorem State.jumpIf_gpr (s : State) (c : Bool) (t : Word) (r' : RegIdx) :
    (s.jumpIf c t).gpr r' = s.gpr r' := State.gpr_congr (State.jumpIf_regs ..) r'
@[simp] theorem State.jumpLikely_gpr (s : State) (c : Bool) (t : Word) (r' : RegIdx) :
    (s.jumpLikely c t).gpr r' = s.gpr r' := State.gpr_congr (State.jumpLikely_regs ..) r'
@[simp] theorem State.tick_gpr (s : State) (r' : RegIdx) :
    s.tick.gpr r' = s.gpr r' := State.gpr_congr (State.tick_regs ..) r'
@[simp] theorem State.setFlag_gpr (s : State) (i : Nat) (r' : RegIdx) :
    (s.setFlag i).gpr r' = s.gpr r' := State.gpr_congr (State.setFlag_regs ..) r'
@[simp] theorem State.clearFlag_gpr (s : State) (i : Nat) (r' : RegIdx) :
    (s.clearFlag i).gpr r' = s.gpr r' := State.gpr_congr (State.clearFlag_regs ..) r'
@[simp] theorem State.environment_gpr (s : State) (a : EnvAction) (r' : RegIdx) :
    (s.environment a).gpr r' = s.gpr r' := State.gpr_congr (State.environment_regs ..) r'
@[simp] theorem State.dmaCompletion_gpr (s : State) (r' : RegIdx) :
    s.dmaCompletion.gpr r' = s.gpr r' := State.gpr_congr (State.dmaCompletion_regs ..) r'
@[simp] theorem State.draw_gpr (s : State) (r' : RegIdx) :
    s.draw.2.gpr r' = s.gpr r' := State.gpr_congr (State.draw_regs ..) r'
@[simp] theorem State.advancePending_gpr (s : State) (r' : RegIdx) :
    s.advancePending.gpr r' = s.gpr r' := State.gpr_congr (State.advancePending_regs ..) r'
@[simp] theorem State.writeRam_gpr (s : State) (p n : Nat) (v : Word) (r' : RegIdx) :
    (s.writeRam p n v).gpr r' = s.gpr r' := State.gpr_congr (State.writeRam_regs ..) r'
@[simp] theorem State.startDma_gpr (s : State) (r' : RegIdx) :
    s.startDma.gpr r' = s.gpr r' := State.gpr_congr (State.startDma_regs ..) r'
@[simp] theorem State.transferToRam_gpr (s : State) (len : Nat) (c : BitVec 32) (d : BitVec 24) (r' : RegIdx) :
    (s.transferToRam len c d).gpr r' = s.gpr r' := State.gpr_congr (State.transferToRam_regs ..) r'
@[simp] theorem State.writePiStatus_gpr (s : State) (v : BitVec 32) (r' : RegIdx) :
    (s.writePiStatus v).gpr r' = s.gpr r' := State.gpr_congr (State.writePiStatus_regs ..) r'
@[simp] theorem State.writeMi_gpr (s : State) (o : Nat) (v : BitVec 32) (r' : RegIdx) :
    (s.writeMi o v).gpr r' = s.gpr r' := State.gpr_congr (State.writeMi_regs ..) r'
@[simp] theorem State.readMi_gpr (s : State) (o : Nat) (r' : RegIdx) :
    (s.readMi o).2.gpr r' = s.gpr r' := State.gpr_congr (State.readMi_regs ..) r'
@[simp] theorem State.readPi_gpr (s : State) (o : Nat) (r' : RegIdx) :
    (s.readPi o).2.gpr r' = s.gpr r' := State.gpr_congr (State.readPi_regs ..) r'
@[simp] theorem State.setProductWord_gpr (s : State) (p : BitVec 64) (r' : RegIdx) :
    (s.setProductWord p).gpr r' = s.gpr r' := State.gpr_congr (State.setProductWord_regs ..) r'
@[simp] theorem State.setProductDouble_gpr (s : State) (p : BitVec 128) (r' : RegIdx) :
    (s.setProductDouble p).gpr r' = s.gpr r' := State.gpr_congr (State.setProductDouble_regs ..) r'

/-- The RAM size is a launch parameter. -/
theorem State.ramSize_congr {s t : State} (h : t.params = s.params) : t.ramSize = s.ramSize := by
  unfold State.ramSize; rw [h]

/-- RAM is not empty. -/
theorem State.ramSize_pos (s : State) : 0 < s.ramSize := by
  unfold State.ramSize; cases s.params.rdramSize <;> decide

/-- Only RAM, the images and the RAM size decide what memory holds. -/
theorem State.byteAt_congr {s t : State} (hram : t.ram = s.ram) (hrom : t.rom = s.rom)
    (hboot : t.bootRom = s.bootRom) (hparams : t.params = s.params) (p : Nat) : t.byteAt p = s.byteAt p := by
  unfold State.byteAt State.ramSize; rw [hram, hrom, hboot, hparams]

end Sys2Proof.Machine
end

