-- ==== Sys2Proof/Laws/Outcome.lean ====
section
/-! SUPPORT. How an instruction ends: taking an exception, completing, and the checks that precede an effect. -/

namespace Sys2Proof.Machine

/-- What exception `e` reports in BadVAddr (R472). -/
def Exc.va : Exc → Option Word
  | .addressErrorLoad va | .addressErrorStore va => some va
  | .interrupt | .systemCall | .breakpoint | .reservedInstruction | .coprocessorUnusable _ | .integerOverflow => none

/-- What exception `e` reports in Cause.CE (R472). -/
def Exc.unit : Exc → Option (BitVec 2)
  | .coprocessorUnusable u => some u
  | .interrupt | .addressErrorLoad _ | .addressErrorStore _ | .systemCall | .breakpoint | .reservedInstruction
  | .integerOverflow => none

/-- `enter` is exception entry as R480 describes it. -/
theorem State.entersException_enter (s : State) (e : Exc) (a : Word) (bd : Bool) :
    s.EntersException (s.enter e a bd) e.code e.va e.unit a bd where
  epc := rfl
  bdBit := rfl
  excCode := rfl
  causeCe := by cases e <;> rfl
  badVAddr := by cases e <;> rfl
  status := rfl
  pending := rfl
  pc := rfl
  cp0Rest := rfl
  rest := rfl

/-- Taking an exception enters it, unless Status.BEV refuses it (R480). -/
theorem State.takeException_next {s t : State} {e : Exc} {a : Word} {bd : Bool} :
    s.takeException e a bd = .next t ↔ s.bev = false ∧ t = s.enter e a bd := by
  unfold State.takeException
  cases s.bev <;> simp [eq_comm]

theorem State.takeException_of_bev {s : State} (h : s.bev = true) (e : Exc) (a : Word) (bd : Bool) :
    s.takeException e a bd = .refused .bevVectorsNotModelled := by
  simp [State.takeException, h]

theorem State.takeException_of_not_bev {s : State} (h : s.bev = false) (e : Exc) (a : Word) (bd : Bool) :
    s.takeException e a bd = .next (s.enter e a bd) := by
  simp [State.takeException, h]

@[simp] theorem State.complete_ok (s t : State) : s.complete (.ok t) = .next t := rfl
@[simp] theorem State.complete_refuse (s : State) (r : Refusal) : s.complete (refuse r) = .refused r := rfl
@[simp] theorem State.complete_raise (s : State) (e : Exc) :
    s.complete (raise e) = s.takeException e s.cur s.inDelay := rfl

/-- An instruction that ends in a next state has its effect, or entered an exception at its own address. -/
theorem State.complete_next {s t : State} {r : Result State} :
    s.complete r = .next t ↔
      r = .ok t ∨ ∃ e, r = raise e ∧ s.bev = false ∧ t = s.enter e s.cur s.inDelay := by
  rcases r with x | u
  · rcases x with e | r
    · constructor
      · intro h
        exact .inr ⟨e, rfl, State.takeException_next.mp h⟩
      · rintro (h | ⟨e', h, hb, ht⟩)
        · cases h
        · cases h
          exact State.takeException_next.mpr ⟨hb, ht⟩
    · constructor
      · intro h; cases h
      · rintro (h | ⟨e', h, _⟩) <;> cases h
  · constructor
    · intro h; cases h; exact .inl rfl
    · rintro (h | ⟨e', h, _⟩)
      · cases h; rfl
      · cases h

/-- No instruction ends in a fault. -/
theorem State.complete_ne_fault (s : State) (r : Result State) (f : Fault) : s.complete r ≠ .fault f := by
  rcases r with (e | r) | u
  · simp only [State.complete, State.stopAt, State.takeException]; split <;> simp
  · simp [State.complete, State.stopAt]
  · simp [State.complete]

/-- An instruction that raises: exception entry at its address, or the refusal with BEV = 1. -/
theorem State.raises_complete (s : State) (e : Exc) : s.Raises (s.complete (raise e)) e.code e.va e.unit :=
  ⟨fun h => ⟨_, State.takeException_of_not_bev h .., s.entersException_enter ..⟩,
    fun h => State.takeException_of_bev h ..⟩

/-! The checks -/

theorem State.cp0UsableCheck_ok {s : State} (h : s.mode = .kernel ∨ s.cu0 = true) : s.cp0UsableCheck = .ok () := by
  simp [State.cp0UsableCheck, h]
theorem State.cp0UsableCheck_raise {s : State} (h : ¬ (s.mode = .kernel ∨ s.cu0 = true)) :
    s.cp0UsableCheck = raise (.coprocessorUnusable 0) := by
  simp only [State.cp0UsableCheck, h, if_false]
theorem State.cp1UsableCheck_raise {s : State} (h : s.cu1 = false) :
    s.cp1UsableCheck = raise (.coprocessorUnusable 1) := by
  simp [State.cp1UsableCheck, h]
theorem State.cp1UsableCheck_refuse {s : State} (h : s.cu1 = true) : s.cp1UsableCheck = refuse .fpuNotModelled := by
  simp [State.cp1UsableCheck, h]
theorem State.cp2UsableCheck_ok {s : State} (h : s.cu2 = true) : s.cp2UsableCheck = .ok () := by
  simp [State.cp2UsableCheck, h]
theorem State.cp2UsableCheck_raise {s : State} (h : s.cu2 = false) :
    s.cp2UsableCheck = raise (.coprocessorUnusable 2) := by
  simp [State.cp2UsableCheck, h]
theorem State.doublewordCheck_ok {s : State} (h : s.mode ≠ .user) : s.doublewordCheck = .ok () := by
  simp [State.doublewordCheck, h]
theorem State.doublewordCheck_raise {s : State} (h : s.mode = .user) :
    s.doublewordCheck = raise .reservedInstruction := by
  simp [State.doublewordCheck, h]
theorem State.notInDelaySlot_ok {s : State} (h : s.inDelay = false) : s.notInDelaySlot = .ok () := by
  simp [State.notInDelaySlot, h]
theorem State.notInDelaySlot_refuse {s : State} (h : s.inDelay = true) :
    s.notInDelaySlot = refuse .branchInDelaySlot := by
  simp [State.notInDelaySlot, h]

@[simp] theorem ok_bind {α β : Type} (a : α) (f : α → Result β) : Except.bind (.ok a : Result α) f = f a := rfl
@[simp] theorem raise_bind {α β : Type} (e : Exc) (f : α → Result β) : Except.bind (raise e : Result α) f = raise e := rfl
@[simp] theorem refuse_bind {α β : Type} (r : Refusal) (f : α → Result β) :
    Except.bind (refuse r : Result α) f = refuse r := rfl

/-- A bind that succeeds. -/
theorem bind_ok {α β : Type} {x : Result α} {f : α → Result β} {b : β} :
    x.bind f = .ok b ↔ ∃ a, x = .ok a ∧ f a = .ok b := by
  rcases x with e | a
  · constructor
    · intro h; cases h
    · rintro ⟨a, h, _⟩; cases h
  · constructor
    · intro h; exact ⟨a, rfl, h⟩
    · rintro ⟨a', h, hb⟩; cases h; exact hb

/-- A bind that raises. -/
theorem bind_raise {α β : Type} {x : Result α} {f : α → Result β} {e : Exc} :
    x.bind f = raise e ↔ x = raise e ∨ ∃ a, x = .ok a ∧ f a = raise e := by
  rcases x with y | a
  · constructor
    · intro h; left; exact congrArg _ (Except.error.inj h)
    · rintro (h | ⟨a, h, _⟩)
      · cases h; rfl
      · cases h
  · constructor
    · intro h; exact .inr ⟨a, rfl, h⟩
    · rintro (h | ⟨a', h, hb⟩)
      · cases h
      · cases h; exact hb

/-- A doubleword instruction outside user mode is the operation past its check (R245). -/
theorem next_of_doubleword {i : Instr} {s t : State} {r : Result State} (hu : s.mode ≠ .user)
    (h : exec i s = s.complete (s.doublewordCheck.bind fun _ => r)) (hr : r = .ok t) : exec i s = .next t := by
  rw [h, State.doublewordCheck_ok hu, ok_bind, hr]; rfl

/-! Completing with one register written -/

/-- A write of one register is exactly that. -/
theorem State.writesGpr_setGpr (s : State) (rd : RegIdx) (v : Word) : s.WritesGpr (s.setGpr rd v) rd v :=
  ⟨fun r => s.gpr_setGpr rd r v, s.setGpr_frame rd v,
    fun p => State.byteAt_congr (by simp) (by simp) (by simp) (by simp) p⟩

/-- An instruction whose outcome is a register write. -/
theorem completesGpr_of_eq {i : Instr} {s : State} {rd : RegIdx} {v : Word} {P : Word → Prop}
    (h : exec i s = .next (s.setGpr rd v)) (hv : P v) : CompletesGpr i s rd P :=
  ⟨_, v, h, hv, s.writesGpr_setGpr rd v⟩

end Sys2Proof.Machine
end

