-- ==== Sys2Proof/Laws/Bus.lean ====
section
/-! SUPPORT. Addresses, the physical map and the access primitives of Machine/Bus.lean: what each operation gives
where the spec says it completes, raises or is refused. -/

namespace Sys2Proof.Machine

/-! ### Translation -/

theorem sext32_lo32_iff (va : Word) :
    va = sext32 (lo32 va) ↔ va.toNat < 0x80000000 ∨ 0xFFFFFFFF80000000 ≤ va.toNat := by
  have h1 := va.isLt
  rw [← BitVec.toInt_inj, sext32_toInt, lo32_toInt, signedWord, BitVec.toInt_eq_toNat_cond]
  split <;> (rw [Int.bmod_def]; split <;> omega)

/-- `Translate` in numbers (20_memory.md rule R111). -/
theorem State.translate_eq (s : State) (kind : AccessKind) (va : Word) :
    s.translate kind va =
      if (0x80000000 ≤ va.toNat ∧ va.toNat < 0xFFFFFFFF80000000) ∨ (s.mode = .user ∧ 0x80000000 ≤ va.toNat)
      then raise (kind.addressError va)
      else if va.toNat < 0x80000000 then (if s.erl = true then .ok (BitVec.ofNat 32 va.toNat) else refuse .tlbMappedSegment)
      else if va.toNat < 0xFFFFFFFFA0000000 then .ok (BitVec.ofNat 32 (va.toNat - 0xFFFFFFFF80000000))
      else if va.toNat < 0xFFFFFFFFC0000000 then .ok (BitVec.ofNat 32 (va.toNat - 0xFFFFFFFFA0000000))
      else refuse .tlbMappedSegment := by
  have hlt := va.isLt
  have hlo : (lo32 va).toNat = va.toNat % 4294967296 := by simp [lo32]
  have hmsb : (lo32 va).msb = true ↔ 0x80000000 ≤ va.toNat % 4294967296 := by
    rw [BitVec.msb_eq_decide, hlo]; simp
  have e0 : lo32 va = BitVec.ofNat 32 va.toNat := by
    apply BitVec.eq_of_toNat_eq; rw [hlo]; simp
  have e1 : 0xFFFFFFFF80000000 ≤ va.toNat → lo32 va - 0x80000000#32 = BitVec.ofNat 32 (va.toNat - 0xFFFFFFFF80000000) := by
    intro h; apply BitVec.eq_of_toNat_eq; rw [BitVec.toNat_sub, hlo, BitVec.toNat_ofNat, BitVec.toNat_ofNat]; omega
  have e2 : 0xFFFFFFFFA0000000 ≤ va.toNat → lo32 va - 0xA0000000#32 = BitVec.ofNat 32 (va.toNat - 0xFFFFFFFFA0000000) := by
    intro h; apply BitVec.eq_of_toNat_eq; rw [BitVec.toNat_sub, hlo, BitVec.toNat_ofNat, BitVec.toNat_ofNat]; omega
  unfold State.translate
  by_cases hb : (0x80000000 ≤ va.toNat ∧ va.toNat < 0xFFFFFFFF80000000) ∨ (s.mode = .user ∧ 0x80000000 ≤ va.toNat)
  · rw [if_pos hb]
    by_cases hs : va = sext32 (lo32 va)
    · have hs' := (sext32_lo32_iff va).mp hs
      rw [if_neg (not_not.mpr hs), if_pos]
      rcases hb with hb | hb
      · omega
      · exact ⟨hb.1, hmsb.mpr (by omega)⟩
    · rw [if_pos hs]
  · rw [if_neg hb]
    have hs : va.toNat < 0x80000000 ∨ 0xFFFFFFFF80000000 ≤ va.toNat := by omega
    rw [if_neg (not_not.mpr ((sext32_lo32_iff va).mpr hs)), if_neg (by
      rintro ⟨hu, hm⟩
      exact hb (.inr ⟨hu, by have := hmsb.mp hm; omega⟩))]
    simp only [BitVec.le_def, hlo, BitVec.toNat_ofNat]
    by_cases he : s.erl = true <;> simp only [he, and_true, and_false, if_false, if_true, Bool.false_eq_true] <;>
    split_ifs <;> first | omega | (rw [e1 (by omega)]) | (rw [e2 (by omega)]) | (rw [e0]) | rfl

/-- An address that maps completes (R111). -/
theorem State.translate_mapsTo {s : State} {va : Word} {p : Nat} (h : s.MapsTo va p) (kind : AccessKind) :
    s.translate kind va = .ok (BitVec.ofNat 32 p) := by
  rw [State.translate_eq]
  rcases h with ⟨hm, hp, h | h⟩ | ⟨he, hp, h⟩
  · rw [if_neg (by rintro (h' | h'); omega; exact hm h'.1), if_neg (by omega), if_pos (by omega),
      show va.toNat - 0xFFFFFFFF80000000 = p by omega]
  · rw [if_neg (by rintro (h' | h'); omega; exact hm h'.1), if_neg (by omega), if_neg (by omega), if_pos (by omega),
      show va.toNat - 0xFFFFFFFFA0000000 = p by omega]
  · rw [if_neg (by rintro (h' | h') <;> omega), if_pos (by omega), if_pos he, h]

/-- An address error (R111, R114). -/
theorem State.translate_bad {s : State} {va : Word} (h : s.BadAddress va) (kind : AccessKind) :
    s.translate kind va = raise (kind.addressError va) := by
  rw [State.translate_eq]
  exact if_pos h

/-- A segment only the TLB maps is refused (R111). -/
theorem State.translate_tlb {s : State} {va : Word} (hb : ¬ s.BadAddress va) (h : s.TlbMapped va)
    (kind : AccessKind) : s.translate kind va = refuse .tlbMappedSegment := by
  rw [State.translate_eq]
  refine (if_neg hb).trans ?_
  rcases h with ⟨he, h⟩ | ⟨_, h⟩
  · rw [if_pos h, if_neg (by simp [he])]
  · rw [if_neg (by omega), if_neg (by omega), if_neg (by omega)]

/-- Every address maps, raises an address error, or lies in a TLB segment (R111). -/
theorem State.mapsTo_or (s : State) (va : Word) : (∃ p, s.MapsTo va p) ∨ s.BadAddress va ∨ s.TlbMapped va := by
  by_cases hb : s.BadAddress va
  · exact .inr (.inl hb)
  have hb' := hb
  simp only [State.BadAddress, not_or, not_and, not_lt, not_le] at hb'
  obtain ⟨h1, h2⟩ := hb'
  by_cases hlow : va.toNat < 0x80000000
  · cases he : s.erl
    · exact .inr (.inr (.inl ⟨he, hlow⟩))
    · exact .inl ⟨_, .inr ⟨he, hlow, rfl⟩⟩
  · have hm : s.mode ≠ .user := fun h => hlow (h2 h)
    by_cases h3 : 0xFFFFFFFFC0000000 ≤ va.toNat
    · exact .inr (.inr (.inr ⟨hm, h3⟩))
    · by_cases h4 : 0xFFFFFFFFA0000000 ≤ va.toNat
      · exact .inl ⟨va.toNat - 0xFFFFFFFFA0000000, .inl ⟨hm, by omega, .inr (by omega)⟩⟩
      · exact .inl ⟨va.toNat - 0xFFFFFFFF80000000, .inl ⟨hm, by omega, .inl (by omega)⟩⟩

/-- What a translation gives is what the address maps to (R111). -/
theorem State.mapsTo_of_translate {s : State} {va : Word} {kind : AccessKind} {p : BitVec 32}
    (h : s.translate kind va = .ok p) : s.MapsTo va p.toNat := by
  rcases s.mapsTo_or va with ⟨q, hq⟩ | hb | ht
  · rw [State.translate_mapsTo hq kind] at h
    cases h
    have : q < 2 ^ 32 := by rcases hq with ⟨_, hq, _⟩ | ⟨_, hq, _⟩ <;> omega
    rwa [BitVec.toNat_ofNat, Nat.mod_eq_of_lt this]
  · rw [State.translate_bad hb kind] at h; cases h
  · by_cases hb : s.BadAddress va
    · rw [State.translate_bad hb kind] at h; cases h
    · rw [State.translate_tlb hb ht kind] at h; cases h

theorem State.MapsTo.lt {s : State} {va : Word} {p : Nat} (h : s.MapsTo va p) : p < 0x80000000 := by
  rcases h with ⟨_, h, _⟩ | ⟨_, h, _⟩ <;> omega

theorem State.MapsTo.toNat {s : State} {va : Word} {p : Nat} (h : s.MapsTo va p) : (BitVec.ofNat 32 p).toNat = p := by
  have := h.lt
  rw [BitVec.toNat_ofNat]; omega

/-- The physical address has the virtual one's alignment. -/
theorem State.MapsTo.mod {s : State} {va : Word} {p n : Nat} (h : s.MapsTo va p) (hn : n ∣ 8) :
    va.toNat % n = p % n := by
  have h8 : va.toNat % 8 = p % 8 := by
    rcases h with ⟨_, _, h | h⟩ | ⟨_, _, h⟩ <;> omega
  rw [← Nat.mod_mod_of_dvd va.toNat hn, h8, Nat.mod_mod_of_dvd p hn]

theorem State.MapsTo.unique {s : State} {va : Word} {p q : Nat} (h : s.MapsTo va p) (h' : s.MapsTo va q) : p = q := by
  have a := State.translate_mapsTo h .load
  rw [State.translate_mapsTo h' .load] at a
  have := congrArg BitVec.toNat (Except.ok.inj a)
  rw [h.toNat, h'.toNat] at this
  exact this.symm

/-- A user-mode address maps only through kuseg with ERL, which user mode excludes (R42, R111). -/
theorem State.not_mapsTo_of_user {s : State} (h : s.mode = .user) (va : Word) (p : Nat) : ¬ s.MapsTo va p := by
  rintro (⟨hm, _⟩ | ⟨he, _⟩)
  · exact hm h
  · rw [State.mode, he] at h
    simp at h

/-- The alignment check, then translation. -/
theorem State.alignedAddress_mapsTo {s : State} {va : Word} {p n : Nat} (h : s.MapsTo va p) (hn : n ∣ 8)
    (ha : p % n = 0) (kind : AccessKind) : s.alignedAddress kind n va = .ok (BitVec.ofNat 32 p) := by
  rw [State.alignedAddress, if_neg (by rw [h.mod hn]; simp [ha]), State.translate_mapsTo h]

theorem State.alignedAddress_bad {s : State} {va : Word} {n : Nat} (h : va.toNat % n ≠ 0 ∨ s.BadAddress va)
    (kind : AccessKind) : s.alignedAddress kind n va = raise (kind.addressError va) := by
  rw [State.alignedAddress]
  split
  · rfl
  · exact State.translate_bad (h.resolve_left (by assumption)) kind

theorem State.alignedAddress_tlb {s : State} {va : Word} {n : Nat} (ha : va.toNat % n = 0)
    (hb : ¬ s.BadAddress va) (h : s.TlbMapped va) (kind : AccessKind) :
    s.alignedAddress kind n va = refuse .tlbMappedSegment := by
  rw [State.alignedAddress, if_neg (by simp [ha]), State.translate_tlb hb h]

/-! ### The physical map -/

theorem regionOf_ram {p : Nat} (h : IsRam p) : regionOf p = .ram p := if_pos h
theorem regionOf_mi {p o : Nat} (h : IsMi p o) : regionOf p = .mi o := by
  obtain ⟨rfl, ho⟩ := h
  rw [regionOf, if_neg (by omega), if_pos (by omega), Nat.add_sub_cancel_left]
theorem regionOf_pi {p o : Nat} (h : IsPi p o) : regionOf p = .pi o := by
  obtain ⟨rfl, ho⟩ := h
  rw [regionOf, if_neg (by omega), if_neg (by omega), if_pos (by omega), Nat.add_sub_cancel_left]
theorem regionOf_rom {p : Nat} (h : 0x10000000 ≤ p) (h' : p ≤ 0x1FBFFFFF) : regionOf p = .rom (p - 0x10000000) := by
  rw [regionOf, if_neg (by omega), if_neg (by omega), if_neg (by omega), if_pos ⟨h, h'⟩]
theorem regionOf_bootRom {p : Nat} (h : 0x1FC00000 ≤ p) (h' : p ≤ 0x1FC007BF) :
    regionOf p = .bootRom (p - 0x1FC00000) := by
  rw [regionOf, if_neg (by omega), if_neg (by omega), if_neg (by omega), if_neg (by omega), if_pos ⟨h, h'⟩]
theorem regionOf_unmapped {p : Nat} (h : IsUnmapped p) : regionOf p = .unmapped := by
  rw [regionOf, if_neg (by omega), if_neg (by omega), if_neg (by omega), if_neg (by omega), if_neg (by omega)]

/-- A region is one of the six (R120). -/
theorem regionOf_cases (p : Nat) :
    (IsRam p ∧ regionOf p = .ram p)
    ∨ (∃ o, IsMi p o ∧ regionOf p = .mi o) ∨ (∃ o, IsPi p o ∧ regionOf p = .pi o)
    ∨ (0x10000000 ≤ p ∧ p ≤ 0x1FBFFFFF ∧ regionOf p = .rom (p - 0x10000000))
    ∨ (0x1FC00000 ≤ p ∧ p ≤ 0x1FC007BF ∧ regionOf p = .bootRom (p - 0x1FC00000))
    ∨ (IsUnmapped p ∧ regionOf p = .unmapped) := by
  by_cases h1 : IsRam p
  · exact .inl ⟨h1, regionOf_ram h1⟩
  by_cases h2 : 0x04300000 ≤ p ∧ p ≤ 0x043FFFFF
  · have : IsMi p (p - 0x04300000) := by omega
    exact .inr (.inl ⟨_, this, regionOf_mi this⟩)
  by_cases h3 : 0x04600000 ≤ p ∧ p ≤ 0x046FFFFF
  · have : IsPi p (p - 0x04600000) := by omega
    exact .inr (.inr (.inl ⟨_, this, regionOf_pi this⟩))
  by_cases h4 : 0x10000000 ≤ p ∧ p ≤ 0x1FBFFFFF
  · exact .inr (.inr (.inr (.inl ⟨h4.1, h4.2, regionOf_rom h4.1 h4.2⟩)))
  by_cases h5 : 0x1FC00000 ≤ p ∧ p ≤ 0x1FC007BF
  · exact .inr (.inr (.inr (.inr (.inl ⟨h5.1, h5.2, regionOf_bootRom h5.1 h5.2⟩))))
  · have : IsUnmapped p := by omega
    exact .inr (.inr (.inr (.inr (.inr ⟨this, regionOf_unmapped this⟩))))

/-- The widths of accesses. -/
theorem width_cases {n : Nat} (hn : n ∣ 8) : n = 1 ∨ n = 2 ∨ n = 4 ∨ n = 8 := by
  have h := Nat.le_of_dvd (by decide) hn
  interval_cases n <;> revert hn <;> decide

/-- An aligned access lies in one aligned doubleword. -/
theorem aligned_div {n p j : Nat} (hn : n ∣ 8) (ha : p % n = 0) (hj : j < n) : (p + j) / 8 = p / 8 := by
  rcases width_cases hn with rfl | rfl | rfl | rfl <;> omega

theorem State.ramSize_cases (s : State) : s.ramSize = 0x400000 ∨ s.ramSize = 0x800000 := by
  unfold State.ramSize; cases s.params.rdramSize <;> simp [RdramSize.bytes]

/-- The bytes of one access of at most 8 bytes lie at different RAM offsets. -/
theorem State.ramByte_inj (s : State) (p : Nat) {i j : Nat} (hi : i < 8) (hj : j < 8)
    (h : s.ramByte p i = s.ramByte p j) : i = j := by
  unfold State.ramByte at h
  rcases s.ramSize_cases with hs | hs <;> rw [hs] at h <;> omega

theorem State.ramByte_lt (s : State) (p i : Nat) : s.ramByte p i < s.ramSize := by
  unfold State.ramByte
  rcases s.ramSize_cases with hs | hs <;> rw [hs] <;> omega

/-! ### Big-endian values -/

theorem bigEndian_append (l : List Byte) (b : Byte) : bigEndian (l ++ [b]) = 256 * bigEndian l + b.toNat := by
  simp [bigEndian, List.foldl_append]

theorem bigEndian_lt (l : List Byte) : bigEndian l < 2 ^ (8 * l.length) := by
  induction l using List.reverseRecOn with
  | nil => simp [bigEndian]
  | append_singleton l b ih =>
    rw [bigEndian_append, List.length_append, List.length_singleton, Nat.mul_add, Nat.pow_add]
    have := b.isLt
    omega

/-- The value of the bytes of a list, as `BE_n` reads it (R104). -/
theorem Memory.readBE_bigEndian {m : Memory} {f : Nat → Nat} {bytes : List Byte} (hn : bytes.length ≤ 8)
    (h : ∀ j, (hj : j < bytes.length) → m.read (f j) = bytes[j]) :
    (m.readBE f bytes.length).toNat = bigEndian bytes := by
  induction bytes using List.reverseRecOn with
  | nil => rfl
  | append_singleton l b ih =>
    have hl : l.length < 8 := by simpa using hn
    have ih := ih (by omega) fun j hj => by
      rw [h j (by simp; omega), List.getElem_append_left hj]
    have hb : m.read (f l.length) = b := by rw [h l.length (by simp)]; simp
    have hlt := bigEndian_lt l
    have hp : 2 ^ (8 * l.length) ≤ 2 ^ 56 := Nat.pow_le_pow_right (by decide) (by omega)
    have hbl := b.isLt
    rw [List.length_append, List.length_singleton, Memory.readBE, hb, bigEndian_append]
    have e : m.readBE f l.length <<< 8 ||| b.setWidth 64 = m.readBE f l.length <<< 8 + b.setWidth 64 := by
      rw [BitVec.add_eq_or_of_and_eq_zero]
      apply BitVec.eq_of_getLsbD_eq
      intro i hi
      simp only [BitVec.getLsbD_and, BitVec.getLsbD_shiftLeft, BitVec.getLsbD_setWidth, BitVec.getLsbD_zero]
      by_cases h8 : i < 8
      · simp [h8]
      · simp [BitVec.getLsbD_of_ge b i (by omega)]
    rw [e, BitVec.toNat_add, BitVec.toNat_shiftLeft, ih, BitVec.toNat_setWidth, Nat.shiftLeft_eq]
    omega

theorem byteOf_getLsbD (n j : Nat) (v : Word) (i : Nat) :
    (byteOf n j v).getLsbD i = (decide (i < 8) && v.getLsbD (8 * (n - 1 - j) + i)) := by
  simp [byteOf, BitVec.getLsbD_extractLsb']

/-- Byte `j` of a value read is the byte at that address (R104). -/
theorem byteOf_readBE (m : Memory) (f : Nat → Nat) {n j : Nat} (hn : n ≤ 8) (hj : j < n) :
    byteOf n j (m.readBE f n) = m.read (f j) := by
  apply BitVec.eq_of_getLsbD_eq
  intro i hi
  rw [byteOf_getLsbD, Memory.getLsbD_readBE _ _ _ _ hn,
    show n - 1 - (8 * (n - 1 - j) + i) / 8 = j by omega, show (8 * (n - 1 - j) + i) % 8 = i by omega]
  have : 8 * (n - 1 - j) + i < 8 * n := by omega
  simp [hi, this]

theorem shift_setWidth_eq_byteOf (n j : Nat) (v : Word) : (v >>> (8 * (n - 1 - j))).setWidth 8 = byteOf n j v := by
  apply BitVec.eq_of_getLsbD_eq
  intro i hi
  rw [byteOf_getLsbD, BitVec.getLsbD_setWidth, BitVec.getLsbD_ushiftRight]

/-! ### Reads -/

theorem State.byteAt_ram {s : State} {q : Nat} (h : IsRam q) : s.byteAt q = some (s.ram.read (q % s.ramSize)) := by
  rw [State.byteAt, regionOf_ram h]

theorem Image.readBE_ok {m : Image} {o n : Nat} (h : o + n ≤ m.size) (r : Refusal) :
    m.readBE o n r = .ok (m.cells.readBE (fun i => o + i) n) := if_pos h
theorem Image.readBE_refuse {m : Image} {o n : Nat} (h : m.size < o + n) (r : Refusal) :
    m.readBE o n r = refuse r := if_neg (by omega)

/-- An aligned physical read of bytes memory holds gives their value and changes nothing (R121, R122, R130). -/
theorem State.physRead_holds {s : State} {p : Nat} {bytes : List Byte} (hn : bytes.length ∣ 8)
    (ha : p % bytes.length = 0) (h : s.HoldsBytes p bytes) (form : AccessForm) :
    ∃ v, s.physRead form p bytes.length = .ok (v, s) ∧ v.toNat = bigEndian bytes
      ∧ ∀ j, (hj : j < bytes.length) → byteOf bytes.length j v = bytes[j] := by
  have hw := width_cases hn
  have hle : bytes.length ≤ 8 := by omega
  have hd (j : Nat) (hj : j < bytes.length) := aligned_div hn ha hj
  have h0 := h 0 (by omega)
  have hl := h (bytes.length - 1) (by omega)
  have pack {m : Memory} {f : Nat → Nat} (hf : ∀ j, (hj : j < bytes.length) → m.read (f j) = bytes[j]) :
      (m.readBE f bytes.length).toNat = bigEndian bytes
      ∧ ∀ j, (hj : j < bytes.length) → byteOf bytes.length j (m.readBE f bytes.length) = bytes[j] :=
    ⟨Memory.readBE_bigEndian hle hf, fun j hj => by rw [byteOf_readBE _ _ hle hj, hf j hj]⟩
  rw [Nat.add_zero] at h0
  rcases regionOf_cases p with ⟨hr, hp⟩ | ⟨o, _, hp⟩ | ⟨o, _, hp⟩ | ⟨h1, h2, hp⟩ | ⟨h1, h2, hp⟩ | ⟨_, hp⟩
  · refine ⟨s.readRam p bytes.length, by rw [State.physRead, hp], pack fun j hj => ?_⟩
    have hd := hd j hj
    have := h j hj
    rw [State.byteAt_ram (by omega)] at this
    exact Option.some.inj this
  · rw [State.byteAt, hp] at h0; cases h0
  · rw [State.byteAt, hp] at h0; cases h0
  · have at' : ∀ j < bytes.length, s.byteAt (p + j) =
        if p + j - 0x10000000 < s.rom.size then some (s.rom.cells.read (p + j - 0x10000000)) else none := by
      intro j hj
      have hd := hd j hj
      rw [State.byteAt, regionOf_rom (by omega) (by omega)]
    have hsize : p - 0x10000000 + bytes.length ≤ s.rom.size := by
      rw [at' _ (by omega)] at hl
      split at hl
      · omega
      · cases hl
    refine ⟨s.rom.cells.readBE (fun i => p - 0x10000000 + i) bytes.length, ?_, pack fun j hj => ?_⟩
    · rw [State.physRead, hp]
      change Except.map _ (s.rom.readBE _ _ _) = _
      rw [Image.readBE_ok hsize]; rfl
    · have := h j hj
      rw [at' j hj, if_pos (by omega), show p + j - 0x10000000 = p - 0x10000000 + j by omega] at this
      exact Option.some.inj this
  · rcases hb : s.bootRom with _ | m
    · rw [State.byteAt, hp] at h0
      simp only [hb] at h0
      cases h0
    · have at' : ∀ j < bytes.length, s.byteAt (p + j) =
          if p + j - 0x1FC00000 < m.size then some (m.cells.read (p + j - 0x1FC00000)) else none := by
        intro j hj
        have hd := hd j hj
        rw [State.byteAt, regionOf_bootRom (by omega) (by omega)]
        simp only [hb]
      have hsize : p - 0x1FC00000 + bytes.length ≤ m.size := by
        rw [at' _ (by omega)] at hl
        split at hl
        · omega
        · cases hl
      refine ⟨m.cells.readBE (fun i => p - 0x1FC00000 + i) bytes.length, ?_, pack fun j hj => ?_⟩
      · rw [State.physRead, hp]
        simp only [hb]
        rw [Image.readBE_ok hsize]; rfl
      · have := h j hj
        rw [at' j hj, if_pos (by omega), show p + j - 0x1FC00000 = p - 0x1FC00000 + j by omega] at this
        exact Option.some.inj this
  · rw [State.byteAt, hp] at h0; cases h0

/-! ### Writes -/

/-- Writing RAM stores exactly its bytes (R104, R121). -/
theorem State.storesBytes_writeRam {s : State} (h : s.ram.wf = true) (p : Nat) {n : Nat} (hn : n ≤ 8) (v : Word) :
    s.StoresBytes (s.writeRam p n v) p n (fun j => byteOf n j v) := by
  refine ⟨rfl, fun j hj q hq hqj => ?_, fun q hq => ?_⟩
  · rw [State.byteAt_ram hq]
    change some ((s.ram.writeBE (s.ramByte p) n v).read (q % s.ramSize)) = _
    rw [hqj]
    change some ((s.ram.writeBE (s.ramByte p) n v).read (s.ramByte p j)) = _
    rw [Memory.read_writeBE h hj (fun i hi e => s.ramByte_inj p (by omega) (by omega) e), shift_setWidth_eq_byteOf]
  · by_cases hr : IsRam q
    · rw [State.byteAt_ram hr, State.byteAt_ram hr]
      change some ((s.ram.writeBE (s.ramByte p) n v).read (q % s.ramSize)) = _
      rw [Memory.read_writeBE_of_ne (f := s.ramByte p) h (fun i hi => hq i hi hr)]
    · rcases regionOf_cases q with ⟨hr', _⟩ | ⟨o, _, hp⟩ | ⟨o, _, hp⟩ | ⟨h1, h2, hp⟩ | ⟨h1, h2, hp⟩ | ⟨_, hp⟩
      · exact absurd hr' hr
      all_goals (simp only [State.byteAt, hp]; try rfl)

/-- A store that leaves the bytes outside a part of its unit as they were stores that part. -/
theorem State.StoresBytes.part {s t : State} {p n : Nat} {byte : Nat → Byte} (h : s.StoresBytes t p n byte)
    {a k : Nat} {byte' : Nat → Byte} (hk : a + k ≤ n) (hin : ∀ j < k, byte (a + j) = byte' j)
    (hout : ∀ j < n, j < a ∨ a + k ≤ j → ∀ q, IsRam q → q % s.ramSize = (p + j) % s.ramSize →
      s.byteAt q = some (byte j)) : s.StoresBytes t (p + a) k byte' := by
  obtain ⟨h1, h2, h3⟩ := h
  refine ⟨h1, fun j hj q hq e => ?_, fun q hq => ?_⟩
  · rw [h2 (a + j) (by omega) q hq (by rw [e, Nat.add_assoc]), hin j hj]
  · by_cases hall : ∀ j < n, IsRam q → q % s.ramSize ≠ (p + j) % s.ramSize
    · exact h3 q hall
    · simp only [not_forall, not_not] at hall
      obtain ⟨j, hj, hr, e⟩ := hall
      have : j < a ∨ a + k ≤ j := by
        by_contra hc
        refine hq (j - a) (by omega) hr ?_
        rw [e, show p + a + (j - a) = p + j by omega]
      rw [h2 j hj q hr e, hout j hj this q hr e]

end Sys2Proof.Machine
end

