-- ==== Sys2Proof/Laws/LoadStore.lean ====
section
/-! SUPPORT. The shared operations of Machine/LoadStore.lean where the address maps to memory: what a load gives
and which bytes a store writes (43_loadstore.md). -/

namespace Sys2Proof.Machine

theorem State.ea_eq (s : State) (base : RegIdx) (offset : Imm16) :
    s.ea base offset = s.effectiveAddress base offset := rfl

/-! ### Loads -/

theorem State.memRead_holds {s : State} {va : Word} {p : Nat} {bytes : List Byte} (hm : s.MapsTo va p)
    (hn : bytes.length ∣ 8) (ha : p % bytes.length = 0) (h : s.HoldsBytes p bytes) (form : AccessForm) :
    ∃ v, s.memRead form bytes.length va = .ok (v, s) ∧ v.toNat = bigEndian bytes := by
  obtain ⟨v, hv, hb, _⟩ := State.physRead_holds hn ha h form
  refine ⟨v, ?_, hb⟩
  rw [State.memRead, State.alignedAddress_mapsTo hm hn ha, ok_bind, hm.toNat, hv]

/-- An aligned load of bytes memory holds (R340, R342–R348). -/
theorem State.load_holds {s : State} {va : Word} {p n : Nat} {bytes : List Byte} (hm : s.MapsTo va p)
    (hl : bytes.length = n) (hn : n ∣ 8) (ha : p % n = 0) (h : s.HoldsBytes p bytes) (form : AccessForm)
    (ext : LoadExt) (rt : RegIdx) :
    ∃ v, s.load form n ext rt va = .ok (s.setGpr rt (ext.apply v)) ∧ v.toNat = bigEndian bytes := by
  subst hl
  obtain ⟨v, hv, hb⟩ := State.memRead_holds hm hn ha h form
  exact ⟨v, by rw [State.load, hv]; rfl, hb⟩

/-- The read of the aligned unit around an address (R349–R352). -/
theorem State.unitRead_holds {s : State} {va : Word} {p n : Nat} {bytes : List Byte} (hm : s.MapsTo va p)
    (hl : bytes.length = n) (hn : n ∣ 8) (h : s.HoldsBytes (p - p % n) bytes) :
    ∃ v, s.unitRead n va = .ok (v, s) ∧ v.toNat = bigEndian bytes
      ∧ ∀ j, (hj : j < bytes.length) → byteOf n j v = bytes[j] := by
  subst hl
  have ha : (p - p % bytes.length) % bytes.length = 0 := Nat.sub_mod_eq_zero_of_mod_eq (by simp)
  obtain ⟨v, hv, hb, hj⟩ := State.physRead_holds hn ha h .other
  refine ⟨v, ?_, hb, hj⟩
  rw [State.unitRead, State.translate_mapsTo hm, ok_bind, unitAddress, hm.toNat, hv]

theorem unitOffset_mapsTo {s : State} {va : Word} {p n : Nat} (hm : s.MapsTo va p) (hn : n ∣ 8) :
    unitOffset va n = p % n := hm.mod hn

/-- A partial word load of a unit memory holds (R349, R350). -/
theorem State.loadPartialWord_holds {s : State} {va : Word} {p : Nat} {bytes : List Byte} (hm : s.MapsTo va p)
    (hl : bytes.length = 4) (h : s.HoldsBytes (p - p % 4) bytes)
    (merge : Nat → BitVec 32 → BitVec 32 → BitVec 32) (rt : RegIdx) :
    ∃ v, s.loadPartialWord merge rt va = .ok (s.setGpr rt (sext32 (merge (p % 4) (lo32 v) (lo32 (s.gpr rt)))))
      ∧ ∀ j, (hj : j < bytes.length) → byteOf 4 j v = bytes[j] := by
  obtain ⟨v, e, _, hj⟩ := State.unitRead_holds hm hl (by norm_num) h
  exact ⟨v, by rw [State.loadPartialWord, e, unitOffset_mapsTo hm (by norm_num)]; rfl, hj⟩

/-- A partial doubleword load of a unit memory holds (R351, R352). -/
theorem State.loadPartialDouble_holds {s : State} {va : Word} {p : Nat} {bytes : List Byte} (hm : s.MapsTo va p)
    (hl : bytes.length = 8) (h : s.HoldsBytes (p - p % 8) bytes) (merge : Nat → Word → Word → Word) (rt : RegIdx) :
    ∃ v, s.loadPartialDouble merge rt va = .ok (s.setGpr rt (merge (p % 8) v (s.gpr rt)))
      ∧ ∀ j, (hj : j < bytes.length) → byteOf 8 j v = bytes[j] := by
  obtain ⟨v, e, _, hj⟩ := State.unitRead_holds hm hl (by norm_num) h
  exact ⟨v, by rw [State.loadPartialDouble, e, unitOffset_mapsTo hm (by norm_num)]; rfl, hj⟩

/-! The merges, byte by byte -/

theorem lowMask_getLsbD {w n : Nat} (hn : n < w) (b : Nat) : ((1#w <<< n) - 1#w).getLsbD b = decide (b < n) := by
  have e : (1#w <<< n) - 1#w = BitVec.ofNat w (2 ^ n - 1) := by
    have h1 : 2 ^ n < 2 ^ w := Nat.pow_lt_pow_right (by decide) hn
    have h2 : 0 < 2 ^ n := Nat.two_pow_pos n
    have h3 : 1 < 2 ^ w := by omega
    apply BitVec.eq_of_toNat_eq
    rw [BitVec.toNat_sub, BitVec.toNat_shiftLeft, BitVec.toNat_ofNat, BitVec.toNat_ofNat, Nat.shiftLeft_eq,
      Nat.mod_eq_of_lt h3, Nat.one_mul, Nat.mod_eq_of_lt h1, show 2 ^ w - 1 + 2 ^ n = 2 ^ w + (2 ^ n - 1) by omega,
      Nat.add_mod_left]
  rw [e, BitVec.getLsbD_ofNat, Nat.testBit_two_pow_sub_one]
  by_cases hb : b < n
  · simp [hb, show b < w by omega]
  · simp [hb]

theorem highMask_getLsbD (w n b : Nat) : ((BitVec.allOnes w) >>> n).getLsbD b = decide (n + b < w) := by simp

theorem lowBits_getLsbD (w n b : Nat) : ((BitVec.allOnes w) <<< n).getLsbD b = decide (n ≤ b ∧ b < w) := by
  rw [BitVec.getLsbD_shiftLeft, BitVec.getLsbD_allOnes]
  by_cases h1 : b < w <;> by_cases h2 : b < n <;> simp [h1, h2]
  omega

theorem sext32_getLsbD {x : BitVec 32} {b : Nat} (h : b < 32) : (sext32 x).getLsbD b = x.getLsbD b := by
  rw [sext32, BitVec.getLsbD_signExtend]
  simp [h, show b < 64 by omega]

/-- LWL (R349). -/
theorem byteOf_lwlMerge {k : Nat} (hk : k < 4) (w old : Word) {j : Nat} (hj : j < 4) :
    byteOf 4 j (sext32 (lwlMerge k (lo32 w) (lo32 old))) = if k + j < 4 then byteOf 4 (k + j) w else byteOf 4 j old := by
  apply BitVec.eq_of_getLsbD_eq
  intro i hi
  rw [byteOf_getLsbD, sext32_getLsbD (by omega), lwlMerge, BitVec.getLsbD_or, BitVec.getLsbD_and,
    lowMask_getLsbD (by omega), BitVec.getLsbD_shiftLeft]
  split
  · have h1 : ¬ 8 * (4 - 1 - j) + i < 8 * k := by omega
    rw [byteOf_getLsbD, show 8 * (4 - 1 - j) + i - 8 * k = 8 * (4 - 1 - (k + j)) + i by omega]
    simp [hi, h1, lo32, show 8 * (3 - j) + i < 32 by omega, show 8 * (3 - (k + j)) + i < 32 by omega]
  · have h1 : 8 * (4 - 1 - j) + i < 8 * k := by omega
    rw [byteOf_getLsbD]
    simp [hi, h1, lo32, show 8 * (3 - j) + i < 32 by omega]

/-- LWR (R350). -/
theorem byteOf_lwrMerge {k : Nat} (hk : k < 4) (w old : Word) {j : Nat} (hj : j < 4) :
    byteOf 4 j (sext32 (lwrMerge k (lo32 w) (lo32 old)))
      = if 3 ≤ k + j then byteOf 4 (k + j - 3) w else byteOf 4 j old := by
  apply BitVec.eq_of_getLsbD_eq
  intro i hi
  rw [byteOf_getLsbD, sext32_getLsbD (by omega), lwrMerge, BitVec.getLsbD_or, BitVec.getLsbD_and,
    BitVec.getLsbD_not, show (0xFFFFFFFF#32) = BitVec.allOnes 32 from rfl, highMask_getLsbD,
    BitVec.getLsbD_ushiftRight]
  split
  · have h1 : 8 * (3 - k) + (8 * (4 - 1 - j) + i) < 32 := by omega
    rw [byteOf_getLsbD, show 8 * (3 - k) + (8 * (4 - 1 - j) + i) = 8 * (4 - 1 - (k + j - 3)) + i by omega]
    rw [show 8 * (3 - k) + (8 * (4 - 1 - j) + i) = 8 * (4 - 1 - (k + j - 3)) + i by omega] at h1
    simp [lo32] at *
    simp [hi, h1]
  · have h1 : ¬ 8 * (3 - k) + (8 * (4 - 1 - j) + i) < 32 := by omega
    rw [byteOf_getLsbD, BitVec.getLsbD_of_ge (lo32 w) _ (by omega)]
    simp [lo32] at *
    simp [hi, show 8 * (3 - j) + i < 32 by omega]
    omega

/-- LDL (R351). -/
theorem byteOf_ldlMerge {k : Nat} (hk : k < 8) (w old : Word) {j : Nat} (hj : j < 8) :
    byteOf 8 j (ldlMerge k w old) = if k + j < 8 then byteOf 8 (k + j) w else byteOf 8 j old := by
  apply BitVec.eq_of_getLsbD_eq
  intro i hi
  rw [byteOf_getLsbD, ldlMerge, BitVec.getLsbD_or, BitVec.getLsbD_and,
    lowMask_getLsbD (by omega), BitVec.getLsbD_shiftLeft]
  split
  · have h1 : ¬ 8 * (8 - 1 - j) + i < 8 * k := by omega
    rw [byteOf_getLsbD, show 8 * (8 - 1 - j) + i - 8 * k = 8 * (8 - 1 - (k + j)) + i by omega]
    simp [hi, h1]
    omega
  · have h1 : 8 * (8 - 1 - j) + i < 8 * k := by omega
    rw [byteOf_getLsbD]
    simp [hi, h1]

/-- LDR (R352). -/
theorem byteOf_ldrMerge {k : Nat} (hk : k < 8) (w old : Word) {j : Nat} (hj : j < 8) :
    byteOf 8 j (ldrMerge k w old) = if 7 ≤ k + j then byteOf 8 (k + j - 7) w else byteOf 8 j old := by
  apply BitVec.eq_of_getLsbD_eq
  intro i hi
  rw [byteOf_getLsbD, ldrMerge, BitVec.getLsbD_or, BitVec.getLsbD_and,
    BitVec.getLsbD_not, show (0xFFFFFFFFFFFFFFFF#64) = BitVec.allOnes 64 from rfl, highMask_getLsbD,
    BitVec.getLsbD_ushiftRight]
  split
  · have h1 : 8 * (7 - k) + (8 * (8 - 1 - j) + i) < 64 := by omega
    rw [byteOf_getLsbD, show 8 * (7 - k) + (8 * (8 - 1 - j) + i) = 8 * (8 - 1 - (k + j - 7)) + i by omega]
    rw [show 8 * (7 - k) + (8 * (8 - 1 - j) + i) = 8 * (8 - 1 - (k + j - 7)) + i by omega] at h1
    simp at *
    simp [hi, h1]
  · have h1 : ¬ 8 * (7 - k) + (8 * (8 - 1 - j) + i) < 64 := by omega
    rw [byteOf_getLsbD, BitVec.getLsbD_of_ge w _ (by omega)]
    simp at *
    simp [hi]
    omega

/-! ### Stores -/

theorem State.physWrite_ram (s : State) {p : Nat} (h : IsRam p) (form : AccessForm) (n : Nat) (v : Word) :
    s.physWrite form p n v = .ok (s.writeRam p n v) := by
  simp only [State.physWrite, regionOf_ram h]

theorem State.physWrite_rom (s : State) {p : Nat} (h : IsRom p) (form : AccessForm) (n : Nat) (v : Word) :
    s.physWrite form p n v = .ok s := by
  rcases h with ⟨h1, h2⟩ | ⟨h1, h2⟩
  · simp only [State.physWrite, regionOf_rom h1 h2]
  · simp only [State.physWrite, regionOf_bootRom h1 h2]

/-- An aligned store to RAM (R131, R353–R356). -/
theorem State.memWrite_ram {s : State} {va : Word} {p n : Nat} (hm : s.MapsTo va p) (hr : IsRam p) (hn : n ∣ 8)
    (ha : p % n = 0) (form : AccessForm) (v : Word) : s.memWrite form n va v = .ok (s.writeRam p n v) := by
  rw [State.memWrite, State.alignedAddress_mapsTo hm hn ha, ok_bind, hm.toNat, State.physWrite_ram s hr]

/-- A ROM ignores an aligned store (R124). -/
theorem State.memWrite_rom {s : State} {va : Word} {p n : Nat} (hm : s.MapsTo va p) (hr : IsRom p) (hn : n ∣ 8)
    (ha : p % n = 0) (form : AccessForm) (v : Word) : s.memWrite form n va v = .ok s := by
  rw [State.memWrite, State.alignedAddress_mapsTo hm hn ha, ok_bind, hm.toNat, State.physWrite_rom s hr]

/-- RAM's unit with the masked bits replaced (R132). -/
def State.merged (s : State) (u n : Nat) (v mask : Word) : Word := (s.readRam u n &&& ~~~mask) ||| (v &&& mask)

/-- The start of an aligned unit lies in its region. -/
theorem unit_ram {p : Nat} (n : Nat) (h : IsRam p) : IsRam (p - p % n) := by omega

theorem unit_rom {p n : Nat} (hn : n ∣ 8) (h : IsRom p) : IsRom (p - p % n) := by
  rcases width_cases hn with rfl | rfl | rfl | rfl <;> omega

theorem State.memWriteMasked_ram {s : State} {va : Word} {p : Nat} (hm : s.MapsTo va p) (hr : IsRam p) (n : Nat)
    (v mask : Word) :
    s.memWriteMasked n va v mask = .ok (s.writeRam (p - p % n) n (s.merged (p - p % n) n v mask)) := by
  rw [State.memWriteMasked, State.translate_mapsTo hm, ok_bind, unitAddress, hm.toNat, State.physWriteMasked]
  simp only [regionOf_ram (unit_ram n hr)]
  rfl

theorem State.memWriteMasked_rom {s : State} {va : Word} {p n : Nat} (hm : s.MapsTo va p) (hr : IsRom p)
    (hn : n ∣ 8) (v mask : Word) : s.memWriteMasked n va v mask = .ok s := by
  rw [State.memWriteMasked, State.translate_mapsTo hm, ok_bind, unitAddress, hm.toNat, State.physWriteMasked]
  rcases unit_rom hn hr with ⟨h1, h2⟩ | ⟨h1, h2⟩
  · simp only [regionOf_rom h1 h2]
  · simp only [regionOf_bootRom h1 h2]

/-- Inside the mask the new byte, outside it the old one. -/
theorem byteOf_merge {n j : Nat} (hn : n ≤ 8) (hj : j < n) (old v mask : Word) {b : Bool}
    (h : ∀ i < 8, mask.getLsbD (8 * (n - 1 - j) + i) = b) :
    byteOf n j ((old &&& ~~~mask) ||| (v &&& mask)) = if b then byteOf n j v else byteOf n j old := by
  apply BitVec.eq_of_getLsbD_eq
  intro i hi
  rw [byteOf_getLsbD, BitVec.getLsbD_or, BitVec.getLsbD_and, BitVec.getLsbD_and, BitVec.getLsbD_not, h i hi]
  cases b
  · rw [if_neg (by simp), byteOf_getLsbD]
    have : 8 * (n - 1 - j) + i < 64 := by omega
    simp [hi, this]
  · rw [if_pos rfl, byteOf_getLsbD]
    simp

/-- A masked write of bytes `a .. a+k-1` of a unit stores exactly those (R132). -/
theorem State.storesBytes_masked {s : State} (h : s.ram.wf = true) (u : Nat) {n : Nat} (hn : n ≤ 8) (v mask : Word)
    {a k : Nat} {byte' : Nat → Byte} (hk : a + k ≤ n) (hv : ∀ j < k, byteOf n (a + j) v = byte' j)
    (hmask : ∀ j < n, ∀ i < 8, mask.getLsbD (8 * (n - 1 - j) + i) = decide (a ≤ j ∧ j < a + k)) :
    s.StoresBytes (s.writeRam u n (s.merged u n v mask)) (u + a) k byte' := by
  refine (State.storesBytes_writeRam h u hn _).part hk (fun j hj => ?_) (fun j hj ho q hq e => ?_)
  · change byteOf n (a + j) (_ ||| _) = _
    rw [byteOf_merge hn (by omega) _ _ _ (hmask _ (by omega)), if_pos (by simp; omega), hv j hj]
  · have : byteOf n j (s.merged u n v mask) = byteOf n j (s.readRam u n) := by
      rw [State.merged, byteOf_merge hn hj _ _ _ (hmask _ hj), if_neg (by simp; omega)]
    rw [this, State.byteAt_ram hq, e, State.readRam, byteOf_readBE _ _ hn hj]
    rfl

theorem zext32_getLsbD (x : BitVec 32) (b : Nat) : (zext32 x).getLsbD b = x.getLsbD b := by
  rw [zext32, BitVec.getLsbD_setWidth]
  by_cases h : b < 64
  · simp [h]
  · simp [h, BitVec.getLsbD_of_ge x b (by omega)]

theorem lo32_getLsbD (v : Word) (b : Nat) : (lo32 v).getLsbD b = (decide (b < 32) && v.getLsbD b) := by
  rw [lo32, BitVec.getLsbD_setWidth]

/-- SWL (R357). -/
theorem storesBytes_swl {s : State} (h : s.ram.wf = true) (u : Nat) {k : Nat} (hk : k < 4) (v : Word) :
    s.StoresBytes (s.writeRam u 4 (s.merged u 4 (zext32 (swlBits k (lo32 v)).1) (zext32 (swlBits k (lo32 v)).2)))
      (u + k) (4 - k) (fun j => byteOf 4 j v) := by
  refine State.storesBytes_masked h u (by decide) _ _ (by omega) (fun j hj => ?_) (fun j hj i hi => ?_)
  · apply BitVec.eq_of_getLsbD_eq
    intro i hi
    rw [byteOf_getLsbD, byteOf_getLsbD, zext32_getLsbD, swlBits, BitVec.getLsbD_ushiftRight, lo32_getLsbD,
      show 8 * k + (8 * (4 - 1 - (k + j)) + i) = 8 * (4 - 1 - j) + i by omega]
    simp [show 8 * (3 - j) + i < 32 by omega]
  · rw [zext32_getLsbD, swlBits, show (0xFFFFFFFF#32) = BitVec.allOnes 32 from rfl, highMask_getLsbD]
    congr 1; simp; omega

/-- SWR (R358). -/
theorem storesBytes_swr {s : State} (h : s.ram.wf = true) (u : Nat) {k : Nat} (hk : k < 4) (v : Word) :
    s.StoresBytes (s.writeRam u 4 (s.merged u 4 (zext32 (swrBits k (lo32 v)).1) (zext32 (swrBits k (lo32 v)).2)))
      u (k + 1) (fun j => byteOf 4 (3 - k + j) v) := by
  refine State.storesBytes_masked (a := 0) h u (by decide) _ _ (by omega) (fun j hj => ?_) (fun j hj i hi => ?_)
  · apply BitVec.eq_of_getLsbD_eq
    intro i hi
    rw [byteOf_getLsbD, byteOf_getLsbD, zext32_getLsbD, swrBits, BitVec.getLsbD_shiftLeft, lo32_getLsbD,
      show 8 * (4 - 1 - (0 + j)) + i - 8 * (3 - k) = 8 * (4 - 1 - (3 - k + j)) + i by omega]
    simp [show 8 * (3 - (3 - k + j)) + i < 32 by omega, show 8 * (3 - j) + i < 32 by omega,
      show ¬ 8 * (3 - j) + i < 8 * (3 - k) by omega]
  · rw [zext32_getLsbD, swrBits, show (0xFFFFFFFF#32) = BitVec.allOnes 32 from rfl, lowBits_getLsbD]
    congr 1; simp; omega

/-- SDL (R359). -/
theorem storesBytes_sdl {s : State} (h : s.ram.wf = true) (u : Nat) {k : Nat} (hk : k < 8) (v : Word) :
    s.StoresBytes (s.writeRam u 8 (s.merged u 8 (sdlBits k v).1 (sdlBits k v).2))
      (u + k) (8 - k) (fun j => byteOf 8 j v) := by
  refine State.storesBytes_masked h u (by decide) _ _ (by omega) (fun j hj => ?_) (fun j hj i hi => ?_)
  · apply BitVec.eq_of_getLsbD_eq
    intro i hi
    rw [byteOf_getLsbD, byteOf_getLsbD, sdlBits, BitVec.getLsbD_ushiftRight,
      show 8 * k + (8 * (8 - 1 - (k + j)) + i) = 8 * (8 - 1 - j) + i by omega]
  · rw [sdlBits, show (0xFFFFFFFFFFFFFFFF#64) = BitVec.allOnes 64 from rfl, highMask_getLsbD]
    congr 1; simp; omega

/-- SDR (R360). -/
theorem storesBytes_sdr {s : State} (h : s.ram.wf = true) (u : Nat) {k : Nat} (hk : k < 8) (v : Word) :
    s.StoresBytes (s.writeRam u 8 (s.merged u 8 (sdrBits k v).1 (sdrBits k v).2))
      u (k + 1) (fun j => byteOf 8 (7 - k + j) v) := by
  refine State.storesBytes_masked (a := 0) h u (by decide) _ _ (by omega) (fun j hj => ?_) (fun j hj i hi => ?_)
  · apply BitVec.eq_of_getLsbD_eq
    intro i hi
    rw [byteOf_getLsbD, byteOf_getLsbD, sdrBits, BitVec.getLsbD_shiftLeft,
      show 8 * (8 - 1 - (0 + j)) + i - 8 * (7 - k) = 8 * (8 - 1 - (7 - k + j)) + i by omega]
    simp [show 8 * (7 - j) + i < 64 by omega, show ¬ 8 * (7 - j) + i < 8 * (7 - k) by omega]
  · rw [sdrBits, show (0xFFFFFFFFFFFFFFFF#64) = BitVec.allOnes 64 from rfl, lowBits_getLsbD]
    congr 1; simp; omega

/-! ### Store conditional (R362, R363) -/

theorem State.storeConditional_ram {s : State} {va : Word} {p n : Nat} (hm : s.MapsTo va p) (hr : IsRam p) (hn : n ∣ 8)
    (ha : p % n = 0) (hl : s.llBit = true) (rt : RegIdx) :
    s.storeConditional n rt va = .ok ((s.writeRam p n (s.gpr rt)).setGpr rt 1) := by
  rw [State.storeConditional, State.alignedAddress_mapsTo hm hn ha, ok_bind, if_pos hl, hm.toNat,
    State.physWrite_ram s hr]
  rfl

theorem State.storeConditional_rom {s : State} {va : Word} {p n : Nat} (hm : s.MapsTo va p) (hr : IsRom p) (hn : n ∣ 8)
    (ha : p % n = 0) (hl : s.llBit = true) (rt : RegIdx) :
    s.storeConditional n rt va = .ok (s.setGpr rt 1) := by
  rw [State.storeConditional, State.alignedAddress_mapsTo hm hn ha, ok_bind, if_pos hl, hm.toNat,
    State.physWrite_rom s hr]
  rfl

theorem State.storeConditional_none {s : State} {va : Word} {p n : Nat} (hm : s.MapsTo va p) (hn : n ∣ 8) (ha : p % n = 0)
    (hl : s.llBit = false) (rt : RegIdx) :
    s.storeConditional n rt va = .ok (s.setGpr rt 0) := by
  rw [State.storeConditional, State.alignedAddress_mapsTo hm hn ha, ok_bind, if_neg (by simp [hl])]

theorem State.StoresBytes.setGpr {s t : State} {p n : Nat} {byte : Nat → Byte} (h : s.StoresBytes t p n byte)
    (rt : RegIdx) (v : Word) :
    (∀ r, (t.setGpr rt v).gpr r = if r = rt ∧ rt ≠ 0#5 then v else s.gpr r)
    ∧ s.StoresBytes { t.setGpr rt v with regs := s.regs } p n byte := by
  have e : t.regs = s.regs := by rw [h.1]
  have e2 : { t.setGpr rt v with regs := s.regs } = t := by
    have := t.setGpr_frame rt v
    rw [this, ← e]
  refine ⟨fun r => ?_, by rw [e2]; exact h⟩
  rw [State.gpr_setGpr, State.gpr_congr e]

/-! An address error of each access, before any effect (R340, R481) -/

theorem State.load_raise {s : State} {n : Nat} {va : Word} (h : va.toNat % n ≠ 0 ∨ s.BadAddress va)
    (form : AccessForm) (ext : LoadExt) (rt : RegIdx) : s.load form n ext rt va = raise (.addressErrorLoad va) := by
  rw [State.load, State.memRead, State.alignedAddress_bad h]; rfl
theorem State.loadLinked_raise {s : State} {n : Nat} {va : Word} (h : va.toNat % n ≠ 0 ∨ s.BadAddress va)
    (ext : LoadExt) (rt : RegIdx) : s.loadLinked n ext rt va = raise (.addressErrorLoad va) := by
  rw [State.loadLinked, State.alignedAddress_bad h]; rfl
theorem State.memWrite_raise {s : State} {n : Nat} {va : Word} (h : va.toNat % n ≠ 0 ∨ s.BadAddress va)
    (form : AccessForm) (v : Word) : s.memWrite form n va v = raise (.addressErrorStore va) := by
  rw [State.memWrite, State.alignedAddress_bad h]; rfl
theorem State.storeConditional_raise {s : State} {n : Nat} {va : Word} (h : va.toNat % n ≠ 0 ∨ s.BadAddress va)
    (rt : RegIdx) : s.storeConditional n rt va = raise (.addressErrorStore va) := by
  rw [State.storeConditional, State.alignedAddress_bad h]; rfl
theorem State.unitRead_raise {s : State} {va : Word} (h : s.BadAddress va) (n : Nat) :
    s.unitRead n va = raise (.addressErrorLoad va) := by
  rw [State.unitRead, State.translate_bad h]; rfl
theorem State.memWriteMasked_raise {s : State} {va : Word} (h : s.BadAddress va) (n : Nat) (v mask : Word) :
    s.memWriteMasked n va v mask = raise (.addressErrorStore va) := by
  rw [State.memWriteMasked, State.translate_bad h]; rfl

/-! ### Every load and store, once -/

/-- A doubleword instruction outside user mode, and any other, is the operation past the check (R245). -/
theorem exec_doubleword {i : Instr} {s : State} {r : Result State} (hu : ¬ (isDoubleword i = true ∧ s.mode = .user))
    (hi : isDoubleword i = true) (h : exec i s = s.complete (s.doublewordCheck.bind fun _ => r)) :
    exec i s = s.complete r := by
  rw [h, State.doublewordCheck_ok fun hm => hu ⟨hi, hm⟩, ok_bind]

/-- Which shared operation each load and store is (R134, R340–R364). -/
inductive State.AccessCase (s : State) (i : Instr) (m : MemoryAccess) : Prop where
  | load (form : AccessForm) (ext : LoadExt) (rt : RegIdx)
      (eq : exec i s = s.complete (s.load form m.width ext rt (s.effectiveAddress m.base m.offset)))
      (kind : m.stores = false ∧ m.align = m.width ∧ m.wordForm = decide (form = .word))
  | linked (ext : LoadExt) (rt : RegIdx)
      (eq : exec i s = s.complete (s.loadLinked m.width ext rt (s.effectiveAddress m.base m.offset)))
      (kind : m.stores = false ∧ m.align = m.width ∧ m.wordForm = false)
  | partialLoad (rt : RegIdx) (value : Word → Word)
      (eq : exec i s = s.complete ((s.unitRead m.width (s.effectiveAddress m.base m.offset)).bind fun r =>
        .ok (r.2.setGpr rt (value r.1))))
      (kind : m.stores = false ∧ m.align = 1 ∧ m.wordForm = false)
  | store (form : AccessForm) (v : Word)
      (eq : exec i s = s.complete (s.memWrite form m.width (s.effectiveAddress m.base m.offset) v))
      (kind : m.stores = true ∧ m.align = m.width ∧ m.wordForm = decide (form = .word))
      (word : form = .word → ∃ rt b o, i = .sw rt b o)
  | partialStore (v mask : Word)
      (eq : exec i s = s.complete (s.memWriteMasked m.width (s.effectiveAddress m.base m.offset) v mask))
      (kind : m.stores = true ∧ m.align = 1 ∧ m.wordForm = false)
  | conditional (rt : RegIdx)
      (eq : exec i s = s.complete (s.storeConditional m.width rt (s.effectiveAddress m.base m.offset)))
      (kind : m.stores = true ∧ m.align = m.width ∧ m.wordForm = false)
      (which : ∃ rt b o, i = .sc rt b o ∨ i = .scd rt b o)

theorem State.accessCase {i : Instr} {m : MemoryAccess} (s : State) (h : memoryAccess i = some m)
    (hu : ¬ (isDoubleword i = true ∧ s.mode = .user)) : s.AccessCase i m := by
  cases i <;> simp only [memoryAccess, Option.some.injEq, reduceCtorEq] at h <;> subst h
  case lb => exact .load .other .s8 _ rfl ⟨rfl, rfl, rfl⟩
  case lbu => exact .load .other .zero _ rfl ⟨rfl, rfl, rfl⟩
  case lh => exact .load .other .s16 _ rfl ⟨rfl, rfl, rfl⟩
  case lhu => exact .load .other .zero _ rfl ⟨rfl, rfl, rfl⟩
  case lw => exact .load .word .s32 _ rfl ⟨rfl, rfl, rfl⟩
  case lwu => exact .load .word .zero _ rfl ⟨rfl, rfl, rfl⟩
  case ld => exact .load .other .zero _ (exec_doubleword hu rfl rfl) ⟨rfl, rfl, rfl⟩
  case ll => exact .linked .s32 _ rfl ⟨rfl, rfl, rfl⟩
  case lld => exact .linked .zero _ (exec_doubleword hu rfl rfl) ⟨rfl, rfl, rfl⟩
  case lwl => exact .partialLoad _ (fun w => sext32 (lwlMerge _ (lo32 w) _)) rfl ⟨rfl, rfl, rfl⟩
  case lwr => exact .partialLoad _ (fun w => sext32 (lwrMerge _ (lo32 w) _)) rfl ⟨rfl, rfl, rfl⟩
  case ldl => exact .partialLoad _ (fun w => ldlMerge _ w _) (exec_doubleword hu rfl rfl) ⟨rfl, rfl, rfl⟩
  case ldr => exact .partialLoad _ (fun w => ldrMerge _ w _) (exec_doubleword hu rfl rfl) ⟨rfl, rfl, rfl⟩
  case sb => exact .store .other _ rfl ⟨rfl, rfl, rfl⟩ (fun h => by cases h)
  case sh => exact .store .other _ rfl ⟨rfl, rfl, rfl⟩ (fun h => by cases h)
  case sw => exact .store .word _ rfl ⟨rfl, rfl, rfl⟩ (fun _ => ⟨_, _, _, rfl⟩)
  case sd => exact .store .other _ (exec_doubleword hu rfl rfl) ⟨rfl, rfl, rfl⟩ (fun h => by cases h)
  case swl => exact .partialStore _ _ rfl ⟨rfl, rfl, rfl⟩
  case swr => exact .partialStore _ _ rfl ⟨rfl, rfl, rfl⟩
  case sdl => exact .partialStore _ _ (exec_doubleword hu rfl rfl) ⟨rfl, rfl, rfl⟩
  case sdr => exact .partialStore _ _ (exec_doubleword hu rfl rfl) ⟨rfl, rfl, rfl⟩
  case sc => exact .conditional _ rfl ⟨rfl, rfl, rfl⟩ ⟨_, _, _, .inl rfl⟩
  case scd => exact .conditional _ (exec_doubleword hu rfl rfl) ⟨rfl, rfl, rfl⟩ ⟨_, _, _, .inr rfl⟩

/-- The width of every access is 1, 2, 4 or 8. -/
theorem memoryAccess_width {i : Instr} {m : MemoryAccess} (h : memoryAccess i = some m) : m.width ∣ 8 := by
  cases i <;> simp only [memoryAccess, Option.some.injEq, reduceCtorEq] at h <;> subst h <;> (dsimp only; decide)

end Sys2Proof.Machine
end

