-- ==== Sys2Proof/Laws/Devices.lean ====
section
/-! SUPPORT. The registers of the interrupt controller and the peripheral interface, bit by bit, and word accesses
to them (20_memory.md rules R140–R152, 60_exceptions.md rules R500–R504). -/

namespace Sys2Proof.Machine

theorem zext32_toNat (w : BitVec 32) : (zext32 w).toNat = w.toNat := by
  have := w.isLt
  rw [zext32, BitVec.toNat_setWidth]; omega

@[simp] theorem lo32_zext32 (w : BitVec 32) : lo32 (zext32 w) = w := by
  apply BitVec.eq_of_toNat_eq
  rw [lo32, BitVec.toNat_setWidth, zext32_toNat]
  exact Nat.mod_eq_of_lt w.isLt

theorem oneBit_getLsbD {i j : Nat} (hi : i < 6) (hj : j < 6) : (1#6 <<< i).getLsbD j = decide (j = i) := by
  interval_cases i <;> interval_cases j <;> rfl

theorem setFlagBit_getLsbD (f : BitVec 6) {i j : Nat} (hi : i < 6) (hj : j < 6) :
    (setFlagBit f i).getLsbD j = if j = i then true else f.getLsbD j := by
  rw [setFlagBit, BitVec.getLsbD_or, oneBit_getLsbD hi hj]
  by_cases h : j = i <;> simp [h, hj]

theorem clearFlagBit_getLsbD (f : BitVec 6) {i j : Nat} (hi : i < 6) (hj : j < 6) :
    (clearFlagBit f i).getLsbD j = if j = i then false else f.getLsbD j := by
  rw [clearFlagBit, BitVec.getLsbD_and, BitVec.getLsbD_not, oneBit_getLsbD hi hj]
  by_cases h : j = i <;> simp [h, hj]

/-- A clear bit and a set bit, the clear bit checked first (R502). -/
theorem clearSet_eq (clear set old : Bool) :
    clearSet clear set old = if clear then false else if set then true else old := by
  cases clear <;> cases set <;> rfl

/-- A word of six bits, bit by bit. -/
theorem sixBits_getLsbD (b : Nat → Bool) {j : Nat} (hj : j < 6) :
    BitVec.getLsbD (BitVec.ofBool (b 5) ++ BitVec.ofBool (b 4) ++ BitVec.ofBool (b 3) ++ BitVec.ofBool (b 2)
      ++ BitVec.ofBool (b 1) ++ BitVec.ofBool (b 0)) j = b j := by
  simp only [BitVec.getLsbD_append]
  interval_cases j <;> simp

/-- Each source's mask bit after a write of MI_INTR_MASK (R502). -/
theorem writeMask_getLsbD (mask : BitVec 6) (v : BitVec 32) {j : Nat} (hj : j < 6) :
    (writeMask mask v).getLsbD j = clearSet (v.getLsbD (2 * j)) (v.getLsbD (2 * j + 1)) (mask.getLsbD j) := by
  exact sixBits_getLsbD (fun i => clearSet (v.getLsbD (2 * i)) (v.getLsbD (2 * i + 1)) (mask.getLsbD i)) hj

/-- MI.mode after a write of MI_MODE (R504). -/
theorem writeMode_getLsbD (mode : BitVec 14) (v : BitVec 32) {j : Nat} (hj : j < 14) :
    (writeMode mode v).getLsbD j =
      if j < 7 then v.getLsbD j
      else if j = 7 then clearSet (v.getLsbD 7) (v.getLsbD 8) (mode.getLsbD 7)
      else if j = 8 then clearSet (v.getLsbD 9) (v.getLsbD 10) (mode.getLsbD 8)
      else if j = 9 then clearSet (v.getLsbD 12) (v.getLsbD 13) (mode.getLsbD 9)
      else mode.getLsbD j := by
  change BitVec.getLsbD (mode.extractLsb' 10 4
    ++ BitVec.ofBool (clearSet (v.getLsbD 12) (v.getLsbD 13) (mode.getLsbD 9))
    ++ BitVec.ofBool (clearSet (v.getLsbD 9) (v.getLsbD 10) (mode.getLsbD 8))
    ++ BitVec.ofBool (clearSet (v.getLsbD 7) (v.getLsbD 8) (mode.getLsbD 7)) ++ v.extractLsb' 0 7) j = _
  simp only [BitVec.getLsbD_append]
  interval_cases j <;> simp

/-! ### Reads -/

theorem State.readMi_draw (s : State) {o : Nat} (h : 12 < o) : s.readMi o = s.draw := by
  unfold State.readMi; split <;> first | omega | rfl
theorem State.readPi_address (s : State) (h : s.pi.addrKnown = true) :
    s.readPi 0 = (s.pi.dramAddr.setWidth 32, s) ∧ s.readPi 4 = (s.pi.cartAddr, s) := by
  simp [State.readPi, h]
theorem State.readPi_stale (s : State) (h : s.pi.addrKnown = false) : s.readPi 0 = s.draw ∧ s.readPi 4 = s.draw := by
  simp [State.readPi, h]
theorem State.readPi_draw (s : State) {o : Nat} (h : o = 8 ∨ o = 12 ∨ 16 < o) : s.readPi o = s.draw := by
  unfold State.readPi; split <;> first | omega | rfl

theorem PiRegs.status_toNat (p : PiRegs) :
    p.status.toNat = (if p.busy then 1 else 0) + if p.completed then 8 else 0 := by
  unfold PiRegs.status; cases p.busy <;> cases p.completed <;> rfl

/-- A word load of a device register (R123). -/
theorem State.load_device {s u : State} {va : Word} {p : Nat} (hm : s.MapsTo va p) (ha : p % 4 = 0) {w : BitVec 32}
    (h : s.physRead .word p 4 = .ok (zext32 w, u)) (ext : LoadExt) (rt : RegIdx) :
    s.load .word 4 ext rt va = .ok (u.setGpr rt (ext.apply (zext32 w))) := by
  rw [State.load, State.memRead, State.alignedAddress_mapsTo hm (by norm_num) ha, ok_bind, hm.toNat, h]; rfl

theorem State.physRead_mi (s : State) {p o : Nat} (h : IsMi p o) (n : Nat) :
    s.physRead .word p n = .ok (zext32 (s.readMi o).1, (s.readMi o).2) := by
  simp only [State.physRead, regionOf_mi h]
theorem State.physRead_pi (s : State) {p o : Nat} (h : IsPi p o) (n : Nat) :
    s.physRead .word p n = .ok (zext32 (s.readPi o).1, (s.readPi o).2) := by
  simp only [State.physRead, regionOf_pi h]

/-! ### Writes -/

theorem State.physWrite_mi (s : State) {p o : Nat} (h : IsMi p o) (n : Nat) (v : Word) :
    s.physWrite .word p n v = .ok (s.writeMi o (lo32 v)) := by
  simp only [State.physWrite, regionOf_mi h]
theorem State.physWrite_pi (s : State) {p o : Nat} (h : IsPi p o) (n : Nat) (v : Word) :
    s.physWrite .word p n v = s.writePi o (lo32 v) := by
  simp only [State.physWrite, regionOf_pi h]

/-- SW to an aligned address is the physical word write there (R355). -/
theorem execSw_eq {s : State} {p : Nat} {rt base : RegIdx} {offset : Imm16}
    (hm : s.MapsTo (s.effectiveAddress base offset) p) (ha : p % 4 = 0) {r : Result State}
    (h : s.physWrite .word p 4 (s.gpr rt) = r) : exec (.sw rt base offset) s = s.complete r := by
  change s.complete (s.memWrite .word 4 (s.ea base offset) (s.gpr rt)) = _
  rw [State.memWrite, State.ea_eq, State.alignedAddress_mapsTo hm (by norm_num) ha, ok_bind, hm.toNat, h]

theorem State.writeMi_other (s : State) {o : Nat} (h0 : o ≠ 0) (h12 : o ≠ 12) (v : BitVec 32) : s.writeMi o v = s := by
  unfold State.writeMi; split <;> first | contradiction | rfl
theorem State.writePi_other (s : State) {o : Nat} (h : 16 < o) (v : BitVec 32) : s.writePi o v = .ok s := by
  unfold State.writePi; split <;> first | omega | rfl

/-- How many bytes a transfer copies never reaches past RAM (R147, R152). -/
theorem transferBytes_le (len romSize srcOffset ramSize dstOffset : Nat) :
    transferBytes len romSize srcOffset ramSize dstOffset ≤ ramSize - dstOffset % ramSize := by
  unfold transferBytes; omega

/-- A transfer changes RAM alone (R147). -/
theorem State.transferToRam_frame (s : State) (len : Nat) (cart : BitVec 32) (dram : BitVec 24) :
    s.transferToRam len cart dram = { s with ram := (s.transferToRam len cart dram).ram } := by
  unfold State.transferToRam
  cases cartOffset cart <;> rfl

/-- A transfer, byte by byte (R147). -/
theorem State.byteAt_transferToRam (s : State) (len : Nat) (cart : BitVec 32) (dram : BitVec 24) (q : Nat) :
    (s.transferToRam len cart dram).byteAt q =
      let first := dram.toNat % s.ramSize
      let source := cart.toNat - 0x10000000
      let count := if 0x10000000 ≤ cart.toNat ∧ cart.toNat ≤ 0x1FBFFFFF
        then min len (min (s.rom.size - source) (s.ramSize - first)) else 0
      if IsRam q ∧ first ≤ q % s.ramSize ∧ q % s.ramSize < first + count
      then some (s.rom.cells.read (source + (q % s.ramSize - first))) else s.byteAt q := by
  dsimp only
  unfold State.transferToRam cartOffset
  by_cases hc : 0x10000000 ≤ cart.toNat ∧ cart.toNat ≤ 0x1FBFFFFF
  · rw [if_pos hc, if_pos hc]
    dsimp only
    by_cases hr : IsRam q
    · rw [State.byteAt_ram hr]
      change some ((Memory.copyFrom _ _ _ _ _).read (q % s.ramSize)) = _
      rw [Memory.read_copyFrom, State.byteAt_ram hr, transferBytes]
      split <;> split <;> first | rfl | omega
    · rw [if_neg (fun h => hr h.1)]
      rcases regionOf_cases q with ⟨hr', _⟩ | ⟨o, _, hp⟩ | ⟨o, _, hp⟩ | ⟨_, _, hp⟩ | ⟨_, _, hp⟩ | ⟨_, hp⟩
      · exact absurd hr' hr
      all_goals (simp only [State.byteAt, hp]; try rfl)
  · rw [if_neg hc, if_neg hc, if_neg (by omega)]

end Sys2Proof.Machine
end

