-- ==== Sys2Proof/Laws/Control.lean ====
section
/-! SUPPORT. Jumps and branches: what each shared operation of Machine/Control.lean does, in a delay slot and
outside one (42_control.md rules R291–R297). -/

namespace Sys2Proof.Machine

/-- The target of a branch, as a number of words from the delay slot (R297). -/
theorem State.branchTarget_eq (s : State) (imm : Imm16) :
    s.branchTarget imm = s.pc + BitVec.ofInt 64 (4 * imm.toInt) := by
  have h : branchOffset imm = BitVec.ofInt 64 (4 * imm.toInt) := by
    apply BitVec.eq_of_toNat_eq
    rw [branchOffset, simm_eq_ofInt, BitVec.toNat_shiftLeft, Nat.shiftLeft_eq, BitVec.toNat_ofInt, BitVec.toNat_ofInt]
    have h1 := BitVec.two_mul_toInt_lt (x := imm)
    have h2 := BitVec.le_two_mul_toInt (x := imm)
    omega
  rw [State.branchTarget, h]

/-- The target of J and JAL: the delay slot's upper 36 bits, the field, two zero bits (R297). -/
theorem jumpTarget_eq (slot : Word) (target : BitVec 26) :
    jumpTarget slot target = slot.extractLsb' 28 36 ++ target ++ 0#2 := by
  apply BitVec.eq_of_getLsbD_eq
  intro j hj
  change _ = BitVec.getLsbD (slot.extractLsb' 28 36 ++ target ++ 0#2) j
  simp only [jumpTarget, BitVec.getLsbD_or, BitVec.getLsbD_and, BitVec.getLsbD_shiftLeft, BitVec.getLsbD_setWidth,
    BitVec.getLsbD_append, BitVec.getLsbD_extractLsb', BitVec.getLsbD_zero]
  interval_cases j <;> simp

/-! In a delay slot every one is refused (R294). -/

theorem State.branch_refused {s : State} (h : s.inDelay = true) (c : Bool) (imm : Imm16) :
    s.branch c imm = .refused .branchInDelaySlot := by
  rw [State.branch, State.notInDelaySlot_refuse h]; rfl
theorem State.branchLikely_refused {s : State} (h : s.inDelay = true) (c : Bool) (imm : Imm16) :
    s.branchLikely c imm = .refused .branchInDelaySlot := by
  rw [State.branchLikely, State.notInDelaySlot_refuse h]; rfl
theorem State.branchLink_refused {s : State} (h : s.inDelay = true) (c : Bool) (imm : Imm16) :
    s.branchLink c imm = .refused .branchInDelaySlot := by
  rw [State.branchLink, State.notInDelaySlot_refuse h]; rfl
theorem State.branchLinkLikely_refused {s : State} (h : s.inDelay = true) (c : Bool) (imm : Imm16) :
    s.branchLinkLikely c imm = .refused .branchInDelaySlot := by
  rw [State.branchLinkLikely, State.notInDelaySlot_refuse h]; rfl
theorem execJ_refused {s : State} (h : s.inDelay = true) (target : BitVec 26) :
    execJ target s = .refused .branchInDelaySlot := by
  rw [execJ, State.notInDelaySlot_refuse h]; rfl
theorem execJal_refused {s : State} (h : s.inDelay = true) (target : BitVec 26) :
    execJal target s = .refused .branchInDelaySlot := by
  rw [execJal, State.notInDelaySlot_refuse h]; rfl
theorem execJr_refused {s : State} (h : s.inDelay = true) (rs : RegIdx) :
    execJr rs s = .refused .branchInDelaySlot := by
  rw [execJr, State.notInDelaySlot_refuse h]; rfl
theorem execJalr_refused {s : State} (h : s.inDelay = true) (rd rs : RegIdx) :
    execJalr rd rs s = .refused .branchInDelaySlot := by
  rw [execJalr, State.notInDelaySlot_refuse h]; rfl

/-! Outside one -/

theorem State.branch_next {s : State} (h : s.inDelay = false) (c : Bool) (imm : Imm16) :
    s.branch c imm = .next (s.jumpIf c (s.branchTarget imm)) := by
  rw [State.branch, State.notInDelaySlot_ok h]; rfl
theorem State.branchLikely_next {s : State} (h : s.inDelay = false) (c : Bool) (imm : Imm16) :
    s.branchLikely c imm = .next (s.jumpLikely c (s.branchTarget imm)) := by
  rw [State.branchLikely, State.notInDelaySlot_ok h]; rfl
theorem State.branchLink_next {s : State} (h : s.inDelay = false) (c : Bool) (imm : Imm16) :
    s.branchLink c imm = .next ((s.setGpr 31 s.linkValue).jumpIf c (s.branchTarget imm)) := by
  rw [State.branchLink, State.notInDelaySlot_ok h]; rfl
theorem State.branchLinkLikely_next {s : State} (h : s.inDelay = false) (c : Bool) (imm : Imm16) :
    s.branchLinkLikely c imm = .next ((s.setGpr 31 s.linkValue).jumpLikely c (s.branchTarget imm)) := by
  rw [State.branchLinkLikely, State.notInDelaySlot_ok h]; rfl

/-- A jump with no link. -/
theorem completesJump_of_eq {i : Instr} {s : State} {target : Option Word} {pc : Word}
    (h : exec i s = .next { s with pc := pc, pending := match target with
      | some a => some ⟨a, 1⟩
      | none => s.pending }) : CompletesJump i s none target pc :=
  ⟨_, h, fun r => by simp [State.gpr], rfl⟩

/-- A jump that links. -/
theorem completesJump_of_link {i : Instr} {s t : State} {rd : RegIdx} {target : Option Word} {pc : Word}
    (h : exec i s = .next t) (hr : t.regs = (s.setGpr rd s.linkValue).regs)
    (ht : t = { s with regs := t.regs, pc := pc, pending := match target with
      | some a => some ⟨a, 1⟩
      | none => s.pending }) : CompletesJump i s (some rd) target pc := by
  refine ⟨t, h, fun r => ?_, ht⟩
  rw [State.gpr_congr hr r, State.gpr_setGpr]
  by_cases hr : r = rd
  · subst hr; simp [State.linkValue]
  · have : ¬ rd = r := fun e => hr e.symm
    simp [hr, this]

/-- A jump to `a` that links. -/
theorem completesJump_of_linkJump {i : Instr} {s : State} {rd : RegIdx} {a : Word}
    (h : exec i s = .next ((s.setGpr rd s.linkValue).scheduleJump a)) :
    CompletesJump i s (some rd) (some a) s.pc := by
  refine completesJump_of_link h rfl ?_
  have hf := s.setGpr_frame rd s.linkValue
  simp only [State.scheduleJump]
  rw [hf]

/-- A plain branch is a jump if it is taken. -/
theorem completesBranch_of_eq {i : Instr} {s : State} {c c' : Bool} {imm : Imm16} (hc : c = c')
    (h : exec i s = .next (s.jumpIf c (s.branchTarget imm))) : CompletesBranch i s none c' imm := by
  subst hc
  refine completesJump_of_eq (h.trans ?_)
  rw [State.branchTarget_eq]
  cases c <;> rfl

theorem completesBranch_of_link {i : Instr} {s : State} {c c' : Bool} {imm : Imm16} (hc : c = c')
    (h : exec i s = .next ((s.setGpr 31 s.linkValue).jumpIf c (s.branchTarget imm))) :
    CompletesBranch i s (some 31) c' imm := by
  subst hc
  rw [State.branchTarget_eq] at h
  cases c
  · refine completesJump_of_link (target := none) h rfl ?_
    change s.setGpr 31 s.linkValue = _
    exact s.setGpr_frame 31 s.linkValue
  · exact completesJump_of_linkJump h

theorem completesLikely_of_eq {i : Instr} {s : State} {c c' : Bool} {imm : Imm16} (hc : c = c')
    (h : exec i s = .next (s.jumpLikely c (s.branchTarget imm))) : CompletesLikely i s none c' imm := by
  subst hc
  refine completesJump_of_eq (h.trans ?_)
  rw [State.branchTarget_eq]
  cases c <;> rfl

theorem completesLikely_of_link {i : Instr} {s : State} {c c' : Bool} {imm : Imm16} (hc : c = c')
    (h : exec i s = .next ((s.setGpr 31 s.linkValue).jumpLikely c (s.branchTarget imm))) :
    CompletesLikely i s (some 31) c' imm := by
  subst hc
  rw [State.branchTarget_eq] at h
  cases c
  · refine completesJump_of_link (target := none) h rfl ?_
    change { s.setGpr 31 s.linkValue with pc := (s.setGpr 31 s.linkValue).pc + 4 } = _
    rw [State.setGpr_frame]
    rfl
  · exact completesJump_of_linkJump h

end Sys2Proof.Machine
end

