-- ==== Sys2Proof/Laws/Exec.lean ====
section
/-! SUPPORT. What one instruction can do: it enters an exception at its own address, or has one of the effects
below. Every statement about what instructions leave unchanged goes through this. -/

namespace Sys2Proof.Machine

/-- The effects of instructions on a state, with the instructions that have them. -/
inductive State.Effect (s : State) (i : Instr) : State → Prop where
  | unchanged : s.Effect i s
  | register (rd : RegIdx) (v : Word) (h : destination i = some rd) : s.Effect i (s.setGpr rd v)
  | hiLo (hi lo : Word) (h1 : (writesHiLo i).1 = false → hi = s.hi) (h2 : (writesHiLo i).2 = false → lo = s.lo) :
      s.Effect i { s with hi := hi, lo := lo }
  | jump (u : State) (pc : Word) (pending : Option PendingJump) (h : isControlTransfer i = true) (he : i ≠ .eret)
      (hu : u = s ∨ ∃ rd v, destination i = some rd ∧ u = s.setGpr rd v) :
      s.Effect i { u with pc := pc, pending := pending }
  | exceptionReturn (h : i = .eret) : s.Effect i s.exceptionReturn
  | latch (v : Word) (h : ∃ rt rd, i = .mtc2 rt rd ∨ i = .dmtc2 rt rd ∨ i = .ctc2 rt rd) :
      s.Effect i { s with cop2Latch := v }
  | cp0 (c : Cp0) (h : ∃ rt rd, i = .mtc0 rt rd ∨ i = .dmtc0 rt rd)
      (hw : c.watchLo.extractLsb' 0 3 = 0#3 ∨ c.watchLo = s.cp0.watchLo) : s.Effect i { s with cp0 := c }
  | load (u : State) (rt : RegIdx) (v : Word) (h : destination i = some rt)
      (hu : u = s ∨ (u = { s with draws := s.draws + 1 } ∧ ∃ rt b o, i = .lw rt b o ∨ i = .lwu rt b o)) :
      s.Effect i (u.setGpr rt v)
  | linked (rt : RegIdx) (v : Word) (a : BitVec 32) (h : destination i = some rt)
      (hi : ∃ rt b o, i = .ll rt b o ∨ i = .lld rt b o) :
      s.Effect i { s.setGpr rt v with llBit := true, cp0 := { s.cp0 with llAddr := a } }
  | store (t : State) (m : MemoryAccess) (p : Nat) (form : AccessForm) (v : Word) (hm : memoryAccess i = some m)
      (hs : m.stores = true) (hp : s.MapsTo (s.effectiveAddress m.base m.offset) p) (ha : p % m.width = 0)
      (hf : form = .word → ∃ rt b o, i = .sw rt b o) (h : s.physWrite form p m.width v = .ok t) : s.Effect i t
  | storeMasked (t : State) (m : MemoryAccess) (p : Nat) (v mask : Word) (hm : memoryAccess i = some m)
      (hs : m.stores = true) (hp : s.MapsTo (s.effectiveAddress m.base m.offset) p)
      (h : s.physWriteMasked (p - p % m.width) m.width v mask = .ok t) : s.Effect i t
  | conditional (u : State) (m : MemoryAccess) (p : Nat) (rt : RegIdx) (v w : Word) (hm : memoryAccess i = some m)
      (hs : m.stores = true) (hp : s.MapsTo (s.effectiveAddress m.base m.offset) p) (ha : p % m.width = 0)
      (hd : destination i = some rt) (h : u = s ∨ s.physWrite .other p m.width v = .ok u) :
      s.Effect i (u.setGpr rt w)

/-- What a next state of an instruction is: exception entry at its own address (R290, R480), or an effect. -/
abbrev State.Ends (s : State) (i : Instr) (t : State) : Prop :=
  (∃ e, s.bev = false ∧ t = s.enter e s.cur s.inDelay) ∨ s.Effect i t

theorem State.Ends.of_complete {s t : State} {i : Instr} {r : Result State}
    (hr : ∀ u, r = .ok u → s.Effect i u) (he : s.complete r = .next t) : s.Ends i t := by
  rcases State.complete_next.mp he with h | ⟨e, _, hb, ht⟩
  · exact .inr (hr t h)
  · exact .inl ⟨e, hb, ht⟩

/-- A check before the effect changes nothing about it. -/
theorem State.Ends.of_check {s t : State} {i : Instr} {c : Result Unit} {f : Unit → Result State}
    (hr : ∀ u, f () = .ok u → s.Effect i u) (he : s.complete (c.bind f) = .next t) : s.Ends i t :=
  .of_complete (fun u hu => by obtain ⟨_, _, h⟩ := bind_ok.mp hu; exact hr u h) he

theorem State.Ends.of_finishGpr {s t : State} {i : Instr} {rd : RegIdx} {v : Word} (hd : destination i = some rd)
    (he : s.finishGpr rd v = .next t) : s.Ends i t :=
  .of_complete (fun u hu => by cases hu; exact .register rd v hd) he

theorem State.Ends.of_finishGprDouble {s t : State} {i : Instr} {rd : RegIdx} {v : Word}
    (hd : destination i = some rd) (he : s.finishGprDouble rd v = .next t) : s.Ends i t :=
  .of_check (fun u hu => by cases hu; exact .register rd v hd) he

theorem State.Ends.of_trappingWord {s t : State} {i : Instr} {rd : RegIdx} {n : Int}
    (hd : destination i = some rd) (he : s.trappingWord rd n = .next t) : s.Ends i t := by
  refine .of_complete (fun u hu => ?_) he
  split at hu
  · cases hu
  · cases hu; exact .register rd _ hd

theorem State.Ends.of_trappingDouble {s t : State} {i : Instr} {rd : RegIdx} {n : Int}
    (hd : destination i = some rd) (he : s.trappingDouble rd n = .next t) : s.Ends i t := by
  refine .of_check (fun u hu => ?_) he
  split at hu
  · cases hu
  · cases hu; exact .register rd _ hd

/-- A value computed from `s` put into HI and LO. -/
theorem State.Ends.of_hiLo {s t : State} {i : Instr} {hi lo : Word} (h1 : (writesHiLo i).1 = false → hi = s.hi)
    (h2 : (writesHiLo i).2 = false → lo = s.lo)
    (he : s.complete (.ok { s with hi := hi, lo := lo }) = .next t) : s.Ends i t :=
  .of_complete (fun u hu => by cases hu; exact .hiLo hi lo h1 h2) he

theorem State.Ends.of_hiLoDouble {s t : State} {i : Instr} {hi lo : Word}
    (h1 : (writesHiLo i).1 = false → hi = s.hi) (h2 : (writesHiLo i).2 = false → lo = s.lo)
    (he : s.complete (s.doublewordCheck.bind fun _ => .ok { s with hi := hi, lo := lo }) = .next t) : s.Ends i t :=
  .of_check (fun u hu => by cases hu; exact .hiLo hi lo h1 h2) he

/-- An instruction that only ends early. -/
theorem State.Ends.of_raise {s t : State} {i : Instr} {e : Exc} (he : s.complete (raise e) = .next t) : s.Ends i t :=
  .of_complete (fun u hu => by cases hu) he

theorem State.Ends.of_trapIf {s t : State} {i : Instr} {c : Bool} (he : s.trapIf c = .next t) : s.Ends i t := by
  refine .of_complete (fun u hu => ?_) he
  split at hu
  · cases hu
  · cases hu; exact .unchanged

theorem State.Ends.of_branch {s t : State} {i : Instr} {c : Bool} {imm : Imm16} (h : isControlTransfer i = true)
    (hn : i ≠ .eret) (he : s.branch c imm = .next t) : s.Ends i t := by
  refine .of_check (fun u hu => ?_) he
  cases hu
  cases c
  · exact .unchanged
  · exact .jump s s.pc _ h hn (.inl rfl)

theorem State.Ends.of_branchLikely {s t : State} {i : Instr} {c : Bool} {imm : Imm16}
    (h : isControlTransfer i = true) (hn : i ≠ .eret) (he : s.branchLikely c imm = .next t) : s.Ends i t := by
  refine .of_check (fun u hu => ?_) he
  cases hu
  cases c
  · exact .jump s (s.pc + 4) s.pending h hn (.inl rfl)
  · exact .jump s s.pc _ h hn (.inl rfl)

theorem State.Ends.of_branchLink {s t : State} {i : Instr} {c : Bool} {imm : Imm16}
    (h : isControlTransfer i = true) (hn : i ≠ .eret) (hd : destination i = some 31#5)
    (he : s.branchLink c imm = .next t) : s.Ends i t := by
  refine .of_check (fun u hu => ?_) he
  cases hu
  have hu : s.setGpr 31 s.linkValue = s ∨ ∃ rd v, destination i = some rd ∧ s.setGpr 31 s.linkValue = s.setGpr rd v :=
    .inr ⟨31, _, hd, rfl⟩
  cases c
  · exact .jump _ (s.setGpr 31 s.linkValue).pc (s.setGpr 31 s.linkValue).pending h hn hu
  · exact .jump _ (s.setGpr 31 s.linkValue).pc _ h hn hu

theorem State.Ends.of_branchLinkLikely {s t : State} {i : Instr} {c : Bool} {imm : Imm16}
    (h : isControlTransfer i = true) (hn : i ≠ .eret) (hd : destination i = some 31#5)
    (he : s.branchLinkLikely c imm = .next t) : s.Ends i t := by
  refine .of_check (fun u hu => ?_) he
  cases hu
  have hu : s.setGpr 31 s.linkValue = s ∨ ∃ rd v, destination i = some rd ∧ s.setGpr 31 s.linkValue = s.setGpr rd v :=
    .inr ⟨31, _, hd, rfl⟩
  cases c
  · exact .jump _ ((s.setGpr 31 s.linkValue).pc + 4) (s.setGpr 31 s.linkValue).pending h hn hu
  · exact .jump _ (s.setGpr 31 s.linkValue).pc _ h hn hu

theorem State.Ends.of_cop1 {s t : State} {i : Instr} (he : s.cop1Instruction = .next t) : s.Ends i t :=
  .of_check (fun u hu => by cases hu; exact .unchanged) he

theorem State.Ends.of_moveFromCop2 {s t : State} {i : Instr} {rt : RegIdx} {v : Word}
    (hd : destination i = some rt) (he : s.moveFromCop2 rt v = .next t) : s.Ends i t :=
  .of_check (fun u hu => by cases hu; exact .register rt v hd) he

theorem State.Ends.of_moveToCop2 {s t : State} {i : Instr} {rt : RegIdx}
    (h : ∃ rt rd, i = .mtc2 rt rd ∨ i = .dmtc2 rt rd ∨ i = .ctc2 rt rd) (he : s.moveToCop2 rt = .next t) :
    s.Ends i t :=
  .of_check (fun u hu => by cases hu; exact .latch _ h) he

theorem State.Ends.of_cop2Reserved {s t : State} {i : Instr} (he : s.cop2Reserved = .next t) : s.Ends i t :=
  .of_check (fun u hu => by cases hu) he

theorem State.Ends.of_tlb {s t : State} {i : Instr} (he : s.tlbInstruction = .next t) : s.Ends i t :=
  .of_check (fun u hu => by cases hu) he

/-- A write of a CP0 register keeps WatchLo's low bits 0 (R55). -/
theorem Cp0.write32_watchLo {c c' : Cp0} {n : RegIdx} {v : Word} (h : c.write32 n v = .ok c') :
    c'.watchLo.extractLsb' 0 3 = 0#3 ∨ c'.watchLo = c.watchLo := by
  unfold Cp0.write32 at h
  split at h
  all_goals first
    | (cases h; done)
    | (cases h; right; rfl)
    | (split at h
       · cases h
       · cases h
         left
         apply BitVec.eq_of_getLsbD_eq
         intro i hi
         change ((lo32 v &&& 0xFFFFFFF8#32).extractLsb' 0 3).getLsbD i = _
         rw [BitVec.getLsbD_extractLsb', BitVec.getLsbD_and]
         interval_cases i <;> simp)

theorem Cp0.write64_watchLo (c : Cp0) (n : RegIdx) (v : Word) : (c.write64 n v).watchLo = c.watchLo := by
  unfold Cp0.write64; split <;> rfl

/-- A physical read changes at most the draws, and those only for the word forms (R136, R141). -/
theorem State.physRead_ok {s u : State} {form : AccessForm} {p n : Nat} {v : Word}
    (h : s.physRead form p n = .ok (v, u)) : u = s ∨ (u = { s with draws := s.draws + 1 } ∧ form = .word) := by
  unfold State.physRead at h
  split at h
  · cases h; exact .inl rfl
  · cases form <;> cases h
    unfold State.readMi State.draw; split <;> simp
  · cases form <;> cases h
    unfold State.readPi State.draw; split <;> (try split) <;> simp
  · unfold Image.readBE at h; split at h <;> cases h; exact .inl rfl
  · split at h
    · cases h
    · unfold Image.readBE at h; split at h <;> cases h; exact .inl rfl
  · cases h

/-- What an aligned access's address check gives. -/
theorem State.alignedAddress_ok {s : State} {kind : AccessKind} {n : Nat} {va : Word} {p : BitVec 32}
    (hn : n ∣ 8) (h : s.alignedAddress kind n va = .ok p) : s.MapsTo va p.toNat ∧ p.toNat % n = 0 := by
  unfold State.alignedAddress at h
  split at h
  · cases h
  · have hm := State.mapsTo_of_translate h
    exact ⟨hm, by rw [← hm.mod hn]; omega⟩

/-! Loads and stores -/

theorem State.load_effect {s u : State} {i : Instr} {form : AccessForm} {n : Nat} {ext : LoadExt} {rt : RegIdx}
    {va : Word} (hd : destination i = some rt) (hf : form = .word → ∃ rt b o, i = .lw rt b o ∨ i = .lwu rt b o)
    (h : s.load form n ext rt va = .ok u) : s.Effect i u := by
  obtain ⟨⟨v, w⟩, hr, hu⟩ := bind_ok.mp h
  obtain ⟨p, _, hp⟩ := bind_ok.mp hr
  cases hu
  exact .load w rt _ hd ((State.physRead_ok hp).imp_right fun h => ⟨h.1, hf h.2⟩)

theorem State.unitRead_same {s u : State} {n : Nat} {va v : Word} (h : s.unitRead n va = .ok (v, u)) : u = s := by
  obtain ⟨p, _, hp⟩ := bind_ok.mp h
  exact (State.physRead_ok hp).resolve_right fun h => by cases h.2

theorem State.loadPartialWord_effect {s u : State} {i : Instr} {merge : Nat → BitVec 32 → BitVec 32 → BitVec 32}
    {rt : RegIdx} {va : Word} (hd : destination i = some rt) (h : s.loadPartialWord merge rt va = .ok u) :
    s.Effect i u := by
  obtain ⟨⟨v, w⟩, hr, hu⟩ := bind_ok.mp h
  cases hu
  exact .load w rt _ hd (.inl (State.unitRead_same hr))

theorem State.loadPartialDouble_effect {s u : State} {i : Instr} {merge : Nat → Word → Word → Word}
    {rt : RegIdx} {va : Word} (hd : destination i = some rt) (h : s.loadPartialDouble merge rt va = .ok u) :
    s.Effect i u := by
  obtain ⟨⟨v, w⟩, hr, hu⟩ := bind_ok.mp h
  cases hu
  exact .load w rt _ hd (.inl (State.unitRead_same hr))

theorem State.loadLinked_effect {s u : State} {i : Instr} {n : Nat} {ext : LoadExt} {rt : RegIdx} {va : Word}
    (hd : destination i = some rt) (hi : ∃ rt b o, i = .ll rt b o ∨ i = .lld rt b o)
    (h : s.loadLinked n ext rt va = .ok u) : s.Effect i u := by
  obtain ⟨p, _, h⟩ := bind_ok.mp h
  obtain ⟨⟨v, w⟩, hr, hu⟩ := bind_ok.mp h
  cases hu
  obtain rfl := (State.physRead_ok hr).resolve_right fun h => by cases h.2
  exact .linked rt _ _ hd hi

theorem State.memWrite_effect {s u : State} {i : Instr} {m : MemoryAccess} {form : AccessForm} {v : Word}
    (hm : memoryAccess i = some m) (hs : m.stores = true) (hf : form = .word → ∃ rt b o, i = .sw rt b o)
    (h : s.memWrite form m.width (s.effectiveAddress m.base m.offset) v = .ok u) : s.Effect i u := by
  obtain ⟨p, hp, h⟩ := bind_ok.mp h
  obtain ⟨h1, h2⟩ := State.alignedAddress_ok (memoryAccess_width hm) hp
  exact .store u m p.toNat form v hm hs h1 h2 hf h

theorem State.memWriteMasked_effect {s u : State} {i : Instr} {m : MemoryAccess} {v mask : Word}
    (hm : memoryAccess i = some m) (hs : m.stores = true)
    (h : s.memWriteMasked m.width (s.effectiveAddress m.base m.offset) v mask = .ok u) : s.Effect i u := by
  obtain ⟨p, hp, h⟩ := bind_ok.mp h
  exact .storeMasked u m p.toNat v mask hm hs (State.mapsTo_of_translate hp) h

theorem State.storeConditional_effect {s u : State} {i : Instr} {m : MemoryAccess} {rt : RegIdx}
    (hm : memoryAccess i = some m) (hs : m.stores = true) (hd : destination i = some rt)
    (h : s.storeConditional m.width rt (s.effectiveAddress m.base m.offset) = .ok u) : s.Effect i u := by
  obtain ⟨p, hp, h⟩ := bind_ok.mp h
  obtain ⟨h1, h2⟩ := State.alignedAddress_ok (memoryAccess_width hm) hp
  split at h
  · obtain ⟨w, hw, h⟩ := bind_ok.mp h
    cases h
    exact .conditional w m p.toNat rt (s.gpr rt) 1 hm hs h1 h2 hd (.inr hw)
  · cases h
    exact .conditional s m p.toNat rt 0 0 hm hs h1 h2 hd (.inl rfl)

/-- Every next state of an instruction is exception entry or one of the effects. -/
theorem exec_ends {i : Instr} {s t : State} (he : exec i s = .next t) : s.Ends i t := by
  cases i
  case sll => exact .of_finishGpr rfl he
  case srl => exact .of_finishGpr rfl he
  case sra => exact .of_finishGpr rfl he
  case sllv => exact .of_finishGpr rfl he
  case srlv => exact .of_finishGpr rfl he
  case srav => exact .of_finishGpr rfl he
  case jr => exact .of_check (fun u hu => by cases hu; exact .jump s s.pc _ rfl (by simp) (.inl rfl)) he
  case jalr rd rs =>
    refine .of_check (fun u hu => ?_) he
    split at hu
    · cases hu
    · cases hu
      exact .jump (s.setGpr rd s.linkValue) (s.setGpr rd s.linkValue).pc _ rfl (by simp) (.inr ⟨rd, _, rfl, rfl⟩)
  case syscall => exact .of_raise (e := .systemCall) he
  case brk => exact .of_raise (e := .breakpoint) he
  case sync => exact .of_complete (r := .ok s) (fun u hu => by cases hu; exact .unchanged) he
  case mfhi => exact .of_finishGpr rfl he
  case mthi => exact .of_hiLo (by simp [writesHiLo]) (fun _ => rfl) he
  case mflo => exact .of_finishGpr rfl he
  case mtlo => exact .of_hiLo (fun _ => rfl) (by simp [writesHiLo]) he
  case dsllv => exact .of_finishGprDouble rfl he
  case dsrlv => exact .of_finishGprDouble rfl he
  case dsrav => exact .of_finishGprDouble rfl he
  case mult => exact .of_hiLo (by simp [writesHiLo]) (by simp [writesHiLo]) he
  case multu => exact .of_hiLo (by simp [writesHiLo]) (by simp [writesHiLo]) he
  case div => exact .of_hiLo (by simp [writesHiLo]) (by simp [writesHiLo]) he
  case divu => exact .of_hiLo (by simp [writesHiLo]) (by simp [writesHiLo]) he
  case dmult => exact .of_hiLoDouble (by simp [writesHiLo]) (by simp [writesHiLo]) he
  case dmultu => exact .of_hiLoDouble (by simp [writesHiLo]) (by simp [writesHiLo]) he
  case ddiv => exact .of_hiLoDouble (by simp [writesHiLo]) (by simp [writesHiLo]) he
  case ddivu => exact .of_hiLoDouble (by simp [writesHiLo]) (by simp [writesHiLo]) he
  case add => exact .of_trappingWord rfl he
  case addu => exact .of_finishGpr rfl he
  case sub => exact .of_trappingWord rfl he
  case subu => exact .of_finishGpr rfl he
  case and => exact .of_finishGpr rfl he
  case or => exact .of_finishGpr rfl he
  case xor => exact .of_finishGpr rfl he
  case nor => exact .of_finishGpr rfl he
  case slt => exact .of_finishGpr rfl he
  case sltu => exact .of_finishGpr rfl he
  case dadd => exact .of_trappingDouble rfl he
  case daddu => exact .of_finishGprDouble rfl he
  case dsub => exact .of_trappingDouble rfl he
  case dsubu => exact .of_finishGprDouble rfl he
  case tge => exact .of_trapIf he
  case tgeu => exact .of_trapIf he
  case tlt => exact .of_trapIf he
  case tltu => exact .of_trapIf he
  case teq => exact .of_trapIf he
  case tne => exact .of_trapIf he
  case dsll => exact .of_finishGprDouble rfl he
  case dsrl => exact .of_finishGprDouble rfl he
  case dsra => exact .of_finishGprDouble rfl he
  case dsll32 => exact .of_finishGprDouble rfl he
  case dsrl32 => exact .of_finishGprDouble rfl he
  case dsra32 => exact .of_finishGprDouble rfl he
  case bltz => exact .of_branch rfl (by simp) he
  case bgez => exact .of_branch rfl (by simp) he
  case bltzl => exact .of_branchLikely rfl (by simp) he
  case bgezl => exact .of_branchLikely rfl (by simp) he
  case tgei => exact .of_trapIf he
  case tgeiu => exact .of_trapIf he
  case tlti => exact .of_trapIf he
  case tltiu => exact .of_trapIf he
  case teqi => exact .of_trapIf he
  case tnei => exact .of_trapIf he
  case bltzal => exact .of_branchLink rfl (by simp) rfl he
  case bgezal => exact .of_branchLink rfl (by simp) rfl he
  case bltzall => exact .of_branchLinkLikely rfl (by simp) rfl he
  case bgezall => exact .of_branchLinkLikely rfl (by simp) rfl he
  case j => exact .of_check (fun u hu => by cases hu; exact .jump s s.pc _ rfl (by simp) (.inl rfl)) he
  case jal => exact .of_check (fun u hu => by cases hu; exact .jump (s.setGpr 31 s.linkValue) (s.setGpr 31 s.linkValue).pc _ rfl (by simp) (.inr ⟨31, _, rfl, rfl⟩)) he
  case beq => exact .of_branch rfl (by simp) he
  case bne => exact .of_branch rfl (by simp) he
  case blez => exact .of_branch rfl (by simp) he
  case bgtz => exact .of_branch rfl (by simp) he
  case addi => exact .of_trappingWord rfl he
  case addiu => exact .of_finishGpr rfl he
  case slti => exact .of_finishGpr rfl he
  case sltiu => exact .of_finishGpr rfl he
  case andi => exact .of_finishGpr rfl he
  case ori => exact .of_finishGpr rfl he
  case xori => exact .of_finishGpr rfl he
  case lui => exact .of_finishGpr rfl he
  case beql => exact .of_branchLikely rfl (by simp) he
  case bnel => exact .of_branchLikely rfl (by simp) he
  case blezl => exact .of_branchLikely rfl (by simp) he
  case bgtzl => exact .of_branchLikely rfl (by simp) he
  case daddi => exact .of_trappingDouble rfl he
  case daddiu => exact .of_finishGprDouble rfl he
  case ldl => exact .of_check (fun u hu => State.loadPartialDouble_effect rfl hu) he
  case ldr => exact .of_check (fun u hu => State.loadPartialDouble_effect rfl hu) he
  case lb => exact .of_complete (fun u hu => State.load_effect (form := .other) rfl (fun h => nomatch h) hu) he
  case lh => exact .of_complete (fun u hu => State.load_effect (form := .other) rfl (fun h => nomatch h) hu) he
  case lwl => exact .of_complete (fun u hu => State.loadPartialWord_effect rfl hu) he
  case lw => exact .of_complete (fun u hu => State.load_effect (form := .word) rfl (fun _ => ⟨_, _, _, .inl rfl⟩) hu) he
  case lbu => exact .of_complete (fun u hu => State.load_effect (form := .other) rfl (fun h => nomatch h) hu) he
  case lhu => exact .of_complete (fun u hu => State.load_effect (form := .other) rfl (fun h => nomatch h) hu) he
  case lwr => exact .of_complete (fun u hu => State.loadPartialWord_effect rfl hu) he
  case lwu => exact .of_complete (fun u hu => State.load_effect (form := .word) rfl (fun _ => ⟨_, _, _, .inr rfl⟩) hu) he
  case sb => exact .of_complete (fun u hu => State.memWrite_effect (form := .other) rfl rfl (fun h => nomatch h) hu) he
  case sh => exact .of_complete (fun u hu => State.memWrite_effect (form := .other) rfl rfl (fun h => nomatch h) hu) he
  case swl => exact .of_complete (fun u hu => State.memWriteMasked_effect rfl rfl hu) he
  case sw => exact .of_complete (fun u hu => State.memWrite_effect (form := .word) rfl rfl (fun _ => ⟨_, _, _, rfl⟩) hu) he
  case sdl => exact .of_check (fun u hu => State.memWriteMasked_effect rfl rfl hu) he
  case sdr => exact .of_check (fun u hu => State.memWriteMasked_effect rfl rfl hu) he
  case swr => exact .of_complete (fun u hu => State.memWriteMasked_effect rfl rfl hu) he
  case cache => exact .of_check (fun u hu => by cases hu; exact .unchanged) he
  case ll => exact .of_complete (fun u hu => State.loadLinked_effect rfl ⟨_, _, _, .inl rfl⟩ hu) he
  case lwc1 => exact .of_cop1 he
  case lwc2 => exact .of_cop2Reserved he
  case lld => exact .of_check (fun u hu => State.loadLinked_effect rfl ⟨_, _, _, .inr rfl⟩ hu) he
  case ldc1 => exact .of_cop1 he
  case ldc2 => exact .of_cop2Reserved he
  case ld => exact .of_check (fun u hu => State.load_effect (form := .other) rfl (fun h => nomatch h) hu) he
  case sc => exact .of_complete (fun u hu => State.storeConditional_effect rfl rfl rfl hu) he
  case swc1 => exact .of_cop1 he
  case swc2 => exact .of_cop2Reserved he
  case scd => exact .of_check (fun u hu => State.storeConditional_effect rfl rfl rfl hu) he
  case sdc1 => exact .of_cop1 he
  case sdc2 => exact .of_cop2Reserved he
  case sd => exact .of_check (fun u hu => State.memWrite_effect (form := .other) rfl rfl (fun h => nomatch h) hu) he
  case mfc0 => exact .of_check (fun u hu => by obtain ⟨v, _, h⟩ := bind_ok.mp hu; cases h; exact .register _ _ rfl) he
  case dmfc0 => exact .of_check (fun u hu => by
    obtain ⟨_, _, hu⟩ := bind_ok.mp hu
    obtain ⟨v, _, h⟩ := bind_ok.mp hu
    cases h
    exact .register _ _ rfl) he
  case mtc0 => exact .of_check (fun u hu => by
    obtain ⟨v, hc, h⟩ := bind_ok.mp hu
    cases h
    exact .cp0 v ⟨_, _, .inl rfl⟩ (Cp0.write32_watchLo hc)) he
  case dmtc0 => exact .of_check (fun u hu => by
    obtain ⟨_, _, h⟩ := bind_ok.mp hu
    cases h
    exact .cp0 _ ⟨_, _, .inr rfl⟩ (.inr (Cp0.write64_watchLo ..))) he
  case tlbr => exact .of_tlb he
  case tlbwi => exact .of_tlb he
  case tlbwr => exact .of_tlb he
  case tlbp => exact .of_tlb he
  case eret => exact .of_check (fun u hu => by
    obtain ⟨_, _, h⟩ := bind_ok.mp hu
    cases h
    exact .exceptionReturn rfl) he
  case cop1 => exact .of_cop1 he
  case mfc2 => exact .of_moveFromCop2 rfl he
  case dmfc2 => exact .of_moveFromCop2 rfl he
  case cfc2 => exact .of_moveFromCop2 rfl he
  case dcfc2 => exact .of_cop2Reserved he
  case mtc2 => exact .of_moveToCop2 ⟨_, _, .inl rfl⟩ he
  case dmtc2 => exact .of_moveToCop2 ⟨_, _, .inr (.inl rfl)⟩ he
  case ctc2 => exact .of_moveToCop2 ⟨_, _, .inr (.inr rfl)⟩ he
  case dctc2 => exact .of_cop2Reserved he

end Sys2Proof.Machine
end

