-- ==== Sys2Proof/Laws/Frame.lean ====
section
/-! SUPPORT. What physical writes and instructions leave unchanged. -/

namespace Sys2Proof.Machine

theorem State.writeMi_frame (s : State) (o : Nat) (v : BitVec 32) : s.writeMi o v = { s with mi := (s.writeMi o v).mi } := by
  unfold State.writeMi; split <;> rfl

/-- A write of a PI register (R143–R150). -/
theorem State.writePi_frame {s t : State} {o : Nat} {v : BitVec 32} (h : s.writePi o v = .ok t) :
    t = { s with ram := t.ram, mi := t.mi, pi := t.pi, dmaInflight := t.dmaInflight }
    ∧ (o ≠ 12 → t.ram = s.ram) := by
  unfold State.writePi at h
  split at h
  · cases h; exact ⟨rfl, fun _ => rfl⟩
  · cases h; exact ⟨rfl, fun _ => rfl⟩
  · unfold State.writeRdLen at h
    split at h
    · cases h
    · cases h; exact ⟨rfl, fun _ => rfl⟩
  · unfold State.writeWrLen at h
    split at h
    · cases h
    · cases h
      refine ⟨?_, fun h => absurd rfl h⟩
      rw [State.transferToRam_frame]; rfl
  · cases h
    unfold State.writePiStatus
    split
    · exact ⟨rfl, fun _ => rfl⟩
    · split <;> exact ⟨rfl, fun _ => rfl⟩
  · cases h; exact ⟨rfl, fun _ => rfl⟩

/-- A physical write changes RAM and the two devices alone; but for SW, RAM alone (R124, R136). -/
theorem State.physWrite_frame {s t : State} {form : AccessForm} {p n : Nat} {v : Word}
    (h : s.physWrite form p n v = .ok t) :
    t = { s with ram := t.ram, mi := t.mi, pi := t.pi, dmaInflight := t.dmaInflight }
    ∧ (form = .other → t = { s with ram := t.ram }) := by
  unfold State.physWrite at h
  split at h
  · cases h; exact ⟨rfl, fun _ => rfl⟩
  · cases form <;> cases h
    refine ⟨?_, nofun⟩
    rw [State.writeMi_frame]
  · cases form
    · exact ⟨(State.writePi_frame h).1, nofun⟩
    · cases h
  · cases h; exact ⟨rfl, fun _ => rfl⟩
  · cases h; exact ⟨rfl, fun _ => rfl⟩
  · cases h

theorem State.physWriteMasked_frame {s t : State} {p n : Nat} {v mask : Word}
    (h : s.physWriteMasked p n v mask = .ok t) : t = { s with ram := t.ram } := by
  unfold State.physWriteMasked at h
  split at h <;> cases h <;> rfl

/-- A byte whose RAM offset no write reached is unchanged. -/
theorem State.byteAt_writeRam {s : State} (hw : s.ram.wf = true) (p n : Nat) (v : Word) {q : Nat}
    (hq : ∀ j < n, IsRam q → q % s.ramSize ≠ (p + j) % s.ramSize) (hn : n ≤ 8) :
    (s.writeRam p n v).byteAt q = s.byteAt q := (State.storesBytes_writeRam hw p hn v).2.2 q hq

/-- An aligned write changes only the RAM bytes it reaches, but for a write of PI_WR_LEN (R121, R124, R145). -/
theorem State.byteAt_physWrite {s t : State} {form : AccessForm} {p n : Nat} {v : Word} (hw : s.ram.wf = true)
    (hn : n ≤ 8) (h : s.physWrite form p n v = .ok t) (hp : ¬ IsPi p 12) {q : Nat}
    (hq : ∀ j < n, IsRam p → IsRam q → q % s.ramSize ≠ (p + j) % s.ramSize) : t.byteAt q = s.byteAt q := by
  unfold State.physWrite at h
  rcases regionOf_cases p with ⟨hr, e⟩ | ⟨o, _, e⟩ | ⟨o, ho, e⟩ | ⟨_, _, e⟩ | ⟨_, _, e⟩ | ⟨_, e⟩ <;>
    simp only [e] at h
  · cases h; exact State.byteAt_writeRam hw p n v (fun j hj => hq j hj hr) hn
  · cases form <;> cases h
    rw [State.writeMi_frame]; rfl
  · cases form
    · have := State.writePi_frame h
      have hr := this.2 (fun e => hp (e ▸ ho))
      rw [this.1, hr]; rfl
    · cases h
  · cases h; rfl
  · cases h; rfl
  · cases h

theorem State.byteAt_physWriteMasked {s t : State} {p n : Nat} {v mask : Word} (hw : s.ram.wf = true)
    (hn : n ≤ 8) (h : s.physWriteMasked p n v mask = .ok t) {q : Nat}
    (hq : ∀ j < n, IsRam p → IsRam q → q % s.ramSize ≠ (p + j) % s.ramSize) : t.byteAt q = s.byteAt q := by
  unfold State.physWriteMasked at h
  rcases regionOf_cases p with ⟨hr, e⟩ | ⟨o, _, e⟩ | ⟨o, ho, e⟩ | ⟨_, _, e⟩ | ⟨_, _, e⟩ | ⟨_, e⟩ <;>
    simp only [e] at h <;> cases h
  · exact State.byteAt_writeRam hw p n _ (fun j hj => hq j hj hr) hn
  · rfl
  · rfl

end Sys2Proof.Machine
end

