-- ==== Sys2Proof/Laws/Invariant.lean ====
section
/-! SUPPORT. The machine's invariant under the shared operations: every write of memory keeps its canonical form
inside its region (20_memory.md rules R100–R104), every device write keeps the peripheral interface consistent
(R143–R149). -/

namespace Sys2Proof.Machine

/-- The memories of the machine after reset are in canonical form. -/
theorem reset_memories_wf : State.reset.ram.wf = true ∧ State.reset.rom.cells.wf = true := ⟨rfl, rfl⟩

/-- The invariant reads only these parts of the state. -/
theorem State.Inv.congr {s t : State} (h : s.Inv) (hregs : t.regs = s.regs) (hram : t.ram = s.ram)
    (hrom : t.rom = s.rom) (hboot : t.bootRom = s.bootRom) (hparams : t.params = s.params) (hmi : t.mi = s.mi)
    (hpi : t.pi = s.pi) (hdma : t.dmaInflight = s.dmaInflight)
    (hwatch : t.cp0.watchLo = s.cp0.watchLo ∨ t.cp0.watchLo.extractLsb' 0 3 = 0#3) : t.Inv where
  ramForm := hram ▸ h.ramForm
  ramBounds := by rw [State.ramSize, hram, hparams]; exact h.ramBounds
  romForm := hrom ▸ h.romForm
  bootRomForm := hboot ▸ h.bootRomForm
  registerZero := by rw [hregs]; exact h.registerZero
  miModeHigh := hmi ▸ h.miModeHigh
  watchLoLow := by
    rcases hwatch with hwatch | hwatch
    · rw [hwatch]; exact h.watchLoLow
    · exact hwatch
  busyIffInflight := by rw [hpi, hdma]; exact h.busyIffInflight
  flagIffCompleted := by rw [hpi, hmi]; exact h.flagIffCompleted
  notBusyAndCompleted := by rw [hpi]; exact h.notBusyAndCompleted

/-- Register 0's storage is never written (R31). -/
theorem State.Inv.setGpr {s : State} (h : s.Inv) (rd : RegIdx) (v : Word) : (s.setGpr rd v).Inv := by
  have h0 : (s.setGpr rd v).regs[0] = s.regs[0] := by
    unfold State.setGpr
    split
    · rfl
    · rename_i hr
      have : ¬ rd.toNat = 0 := fun e => hr (BitVec.eq_of_toNat_eq e)
      simp only [Vector.getElem_set, this, if_false]
  exact {
    ramForm := by simpa using h.ramForm
    ramBounds := by simpa [State.ramSize] using h.ramBounds
    romForm := by simpa using h.romForm
    bootRomForm := by simpa using h.bootRomForm
    registerZero := h0.trans h.registerZero
    miModeHigh := by simpa using h.miModeHigh
    watchLoLow := by simpa using h.watchLoLow
    busyIffInflight := by simpa using h.busyIffInflight
    flagIffCompleted := by simpa using h.flagIffCompleted
    notBusyAndCompleted := by simpa using h.notBusyAndCompleted }

/-- A RAM write keeps the canonical form, inside RAM (R100, R104, R121). -/
theorem State.Inv.writeRam {s : State} (h : s.Inv) (p n : Nat) (v : Word) : (s.writeRam p n v).Inv :=
  { h with
    ramForm := Memory.wf_writeBE h.ramForm ..
    ramBounds := Memory.below_writeBE h.ramBounds (fun i _ => s.ramByte_lt p i) v }

/-- MI_MODE's unwritten bits stay 0, and no MI write touches the PI flag (R501–R504). -/
theorem State.Inv.writeMi {s : State} (h : s.Inv) (o : Nat) (v : BitVec 32) : (s.writeMi o v).Inv := by
  unfold State.writeMi
  split
  · refine { h with miModeHigh := ?_, flagIffCompleted := ?_ }
    · rw [← h.miModeHigh]
      apply BitVec.eq_of_getLsbD_eq
      intro i hi
      change ((writeMode s.mi.mode v).extractLsb' 10 4).getLsbD i = _
      rw [BitVec.getLsbD_extractLsb', BitVec.getLsbD_extractLsb', writeMode_getLsbD _ _ (by omega),
        if_neg (by omega), if_neg (by omega), if_neg (by omega), if_neg (by omega)]
    · rw [← h.flagIffCompleted]
      change BitVec.getLsbD (if v.getLsbD 11 = true then clearFlagBit s.mi.flags 5 else s.mi.flags) 4 = _
      split
      · rw [clearFlagBit_getLsbD _ (by decide) (by decide), if_neg (by decide)]
      · rfl
  · exact { h with }
  · exact h

theorem State.Inv.startDma {s : State} (h : s.Inv) : s.startDma.Inv :=
  { h with
    busyIffInflight := rfl
    flagIffCompleted := (clearFlagBit_getLsbD s.mi.flags (i := 4) (j := 4) (by decide) (by decide)).trans rfl
    notBusyAndCompleted := rfl }

/-- A transfer keeps the canonical form, inside RAM (R147, R152). -/
theorem State.Inv.transferToRam {s : State} (h : s.Inv) (len : Nat) (cart : BitVec 32) (dram : BitVec 24) :
    (s.transferToRam len cart dram).Inv := by
  unfold State.transferToRam
  split
  · exact h
  · rename_i o _
    refine { h with ramForm := Memory.wf_copyFrom h.romForm.1 h.ramForm .., ramBounds := ?_ }
    refine Memory.below_copyFrom h.ramBounds ?_
    have h1 := transferBytes_le len s.rom.size o s.ramSize dram.toNat
    have h2 : dram.toNat % s.ramSize < s.ramSize := Nat.mod_lt _ (by rcases s.ramSize_cases with e | e <;> omega)
    omega

/-- Every PI write keeps the status, the transfer record and the flag in step (R143–R150). -/
theorem State.Inv.writePi {s t : State} {o : Nat} {v : BitVec 32} (h : s.Inv) (he : s.writePi o v = .ok t) : t.Inv := by
  unfold State.writePi at he
  split at he
  · cases he; exact { h with }
  · cases he; exact { h with }
  · unfold State.writeRdLen at he
    split at he
    · cases he
    · cases he; exact h.startDma
  · unfold State.writeWrLen at he
    split at he
    · cases he
    · cases he; exact (h.transferToRam ..).startDma
  · cases he
    have hclear := clearFlagBit_getLsbD s.mi.flags (i := 4) (j := 4) (by decide) (by decide)
    unfold State.writePiStatus
    split
    · exact { h with
        busyIffInflight := rfl
        flagIffCompleted := hclear.trans rfl
        notBusyAndCompleted := rfl }
    · split
      · exact { h with
          flagIffCompleted := hclear.trans rfl
          notBusyAndCompleted := by simp }
      · exact h
  · cases he; exact h

theorem State.Inv.physWrite {s t : State} {form : AccessForm} {p n : Nat} {v : Word} (h : s.Inv)
    (he : s.physWrite form p n v = .ok t) : t.Inv := by
  unfold State.physWrite at he
  split at he
  · cases he; exact h.writeRam ..
  · cases form <;> cases he
    exact h.writeMi ..
  · cases form
    · exact h.writePi he
    · cases he
  · cases he; exact h
  · cases he; exact h
  · cases he

theorem State.Inv.physWriteMasked {s t : State} {p n : Nat} {v mask : Word} (h : s.Inv)
    (he : s.physWriteMasked p n v mask = .ok t) : t.Inv := by
  unfold State.physWriteMasked at he
  split at he <;> cases he
  · exact h.writeRam ..
  · exact h
  · exact h

end Sys2Proof.Machine
end

