-- ==== Sys2Proof/Laws/Boot.lean ====
section
/-! SUPPORT. The high-level boot (70_reset_and_hazards.md rule R541): the entry point as the header's bytes, where
its bytes are copied to, and that the registers it may set keep the invariant. -/

namespace Sys2Proof.Machine

/-- The entry point is the header's four bytes, sign-extended. -/
theorem entryPoint_isWord {rom : Image} {entry : List Byte} (hl : entry.length = 4)
    (h : ∀ j, (hj : j < entry.length) → rom.cells.read (8 + j) = entry[j]) : IsWord (entryPoint rom) (bigEndian entry) := by
  have e := Memory.readBE_bigEndian (m := rom.cells) (f := fun i => 8 + i) (bytes := entry) (by omega) h
  apply isWord_sext32_ofNat
  apply BitVec.eq_of_toNat_eq
  rw [lo32, BitVec.toNat_setWidth, ← e, BitVec.toNat_ofNat, hl]

/-- The copy starts at the low 29 bits of the header's entry, modulo the RAM size. -/
theorem entryRamOffset_eq {rom : Image} {entry : List Byte} (hl : entry.length = 4) (n : Nat)
    (h : ∀ j, (hj : j < entry.length) → rom.cells.read (8 + j) = entry[j]) :
    entryRamOffset rom n = bigEndian entry % 2 ^ 29 % n := by
  have e := Memory.readBE_bigEndian (m := rom.cells) (f := fun i => 8 + i) (bytes := entry) (by omega) h
  rw [hl] at e
  have hw : bigEndian entry % 2 ^ 29 = (lo32 (rom.cells.readBE (fun i => 8 + i) 4)).toNat % 2 ^ 29 := by
    rw [lo32, BitVec.toNat_setWidth, e]; omega
  rw [hw, entryRamOffset, entryPoint]
  generalize lo32 (rom.cells.readBE (fun i => 8 + i) 4) = x
  have low : sext32 x &&& 0x1FFFFFFF = (x.setWidth 29).setWidth 64 := by
    apply BitVec.eq_of_getLsbD_eq
    intro i hi
    simp only [sext32, BitVec.getLsbD_and, BitVec.getLsbD_signExtend, BitVec.getLsbD_setWidth]
    have mask : BitVec.getLsbD (0x1FFFFFFF : Word) i = decide (i < 29) := by interval_cases i <;> rfl
    rw [mask]
    by_cases h : i < 29
    · simp [h, hi, show i < 32 by omega]
    · simp [h]
  rw [low, BitVec.toNat_setWidth, BitVec.toNat_setWidth, Nat.mod_eq_of_lt (a := x.toNat % 2 ^ 29) (by omega)]

/-- An entry of `HLE_INIT_REGS` keeps the invariant. -/
theorem State.Inv.setInitReg {s t : State} {r : InitReg} {v : Word} (h : s.Inv) (he : s.setInitReg r v = .ok t) : t.Inv := by
  unfold State.setInitReg at he
  split at he
  · cases he; exact h.setGpr ..
  · split at he
    · cases he; exact h.congr rfl rfl rfl rfl rfl rfl rfl rfl (.inl (Cp0.write64_watchLo ..))
    · obtain ⟨c, hc, he⟩ := bind_ok.mp he
      cases he
      exact h.congr rfl rfl rfl rfl rfl rfl rfl rfl (Cp0.write32_watchLo hc).symm

/-- So do all of them. -/
theorem State.Inv.setInitRegs {l : List (InitReg × Word)} :
    ∀ {s t : State}, s.Inv → s.setInitRegs l = .ok t → t.Inv := by
  induction l with
  | nil => intro s t h he; cases he; exact h
  | cons x l ih =>
    intro s t h he
    obtain ⟨u, hu, he⟩ := bind_ok.mp he
    exact ih (h.setInitReg hu) he

end Sys2Proof.Machine
end

