-- ==== Sys2Proof/Laws/Encoding.lean ====
section
/-! SUPPORT. The bits and the fields of an encoded word, and what the mask of a table row leaves of it
(30_encoding.md rules R181, R192). -/

namespace Sys2Proof

/-! `encodeR` -/

/-- The bits of the word, field by field. -/
theorem encodeR_getLsbD (rs rt rd sa : BitVec 5) (funct : BitVec 6) (i : Nat) :
    (encodeR rs rt rd sa funct).getLsbD i =
      if i < 6 then funct.getLsbD i else
      if i < 11 then sa.getLsbD (i - 6) else
      if i < 16 then rd.getLsbD (i - 11) else
      if i < 21 then rt.getLsbD (i - 16) else
      if i < 26 then rs.getLsbD (i - 21) else
      false := by
  change BitVec.getLsbD (0#6 ++ rs ++ rt ++ rd ++ sa ++ funct) i = _
  simp only [BitVec.getLsbD_append, Nat.sub_sub, BitVec.getLsbD_zero]
  repeat' split
  all_goals first | rfl | omega
@[simp] theorem opOf_encodeR (rs rt rd sa : BitVec 5) (funct : BitVec 6) :
    opOf (encodeR rs rt rd sa funct) = 0#6 := by
  apply BitVec.eq_of_getLsbD_eq
  intro i hi
  rw [opOf, BitVec.getLsbD_extractLsb', encodeR_getLsbD]
  interval_cases i <;> rfl
@[simp] theorem rsOf_encodeR (rs rt rd sa : BitVec 5) (funct : BitVec 6) :
    rsOf (encodeR rs rt rd sa funct) = rs := by
  apply BitVec.eq_of_getLsbD_eq
  intro i hi
  rw [rsOf, BitVec.getLsbD_extractLsb', encodeR_getLsbD]
  interval_cases i <;> rfl
@[simp] theorem rtOf_encodeR (rs rt rd sa : BitVec 5) (funct : BitVec 6) :
    rtOf (encodeR rs rt rd sa funct) = rt := by
  apply BitVec.eq_of_getLsbD_eq
  intro i hi
  rw [rtOf, BitVec.getLsbD_extractLsb', encodeR_getLsbD]
  interval_cases i <;> rfl
@[simp] theorem rdOf_encodeR (rs rt rd sa : BitVec 5) (funct : BitVec 6) :
    rdOf (encodeR rs rt rd sa funct) = rd := by
  apply BitVec.eq_of_getLsbD_eq
  intro i hi
  rw [rdOf, BitVec.getLsbD_extractLsb', encodeR_getLsbD]
  interval_cases i <;> rfl
@[simp] theorem saOf_encodeR (rs rt rd sa : BitVec 5) (funct : BitVec 6) :
    saOf (encodeR rs rt rd sa funct) = sa := by
  apply BitVec.eq_of_getLsbD_eq
  intro i hi
  rw [saOf, BitVec.getLsbD_extractLsb', encodeR_getLsbD]
  interval_cases i <;> rfl
@[simp] theorem functOf_encodeR (rs rt rd sa : BitVec 5) (funct : BitVec 6) :
    functOf (encodeR rs rt rd sa funct) = funct := by
  apply BitVec.eq_of_getLsbD_eq
  intro i hi
  rw [functOf, BitVec.getLsbD_extractLsb', encodeR_getLsbD]
  interval_cases i <;> rfl
theorem encodeR_and_FC00003F (rs rt rd sa : BitVec 5) (funct : BitVec 6) :
    encodeR rs rt rd sa funct &&& 0xFC00003F#32 = 0#26 ++ funct := by
  apply BitVec.eq_of_getLsbD_eq
  intro i hi
  rw [BitVec.getLsbD_and, encodeR_getLsbD]
  simp only [BitVec.getLsbD_append, BitVec.getLsbD_zero]
  interval_cases i <;> simp

/-! `encodeI` -/

/-- The bits of the word, field by field. -/
theorem encodeI_getLsbD (op : BitVec 6) (rs rt : BitVec 5) (imm : BitVec 16) (i : Nat) :
    (encodeI op rs rt imm).getLsbD i =
      if i < 16 then imm.getLsbD i else
      if i < 21 then rt.getLsbD (i - 16) else
      if i < 26 then rs.getLsbD (i - 21) else
      op.getLsbD (i - 26) := by
  change BitVec.getLsbD (op ++ rs ++ rt ++ imm) i = _
  simp only [BitVec.getLsbD_append, Nat.sub_sub]
  repeat' split
  all_goals first | rfl | omega
@[simp] theorem opOf_encodeI (op : BitVec 6) (rs rt : BitVec 5) (imm : BitVec 16) :
    opOf (encodeI op rs rt imm) = op := by
  apply BitVec.eq_of_getLsbD_eq
  intro i hi
  rw [opOf, BitVec.getLsbD_extractLsb', encodeI_getLsbD]
  interval_cases i <;> rfl
@[simp] theorem rsOf_encodeI (op : BitVec 6) (rs rt : BitVec 5) (imm : BitVec 16) :
    rsOf (encodeI op rs rt imm) = rs := by
  apply BitVec.eq_of_getLsbD_eq
  intro i hi
  rw [rsOf, BitVec.getLsbD_extractLsb', encodeI_getLsbD]
  interval_cases i <;> rfl
@[simp] theorem rtOf_encodeI (op : BitVec 6) (rs rt : BitVec 5) (imm : BitVec 16) :
    rtOf (encodeI op rs rt imm) = rt := by
  apply BitVec.eq_of_getLsbD_eq
  intro i hi
  rw [rtOf, BitVec.getLsbD_extractLsb', encodeI_getLsbD]
  interval_cases i <;> rfl
@[simp] theorem immOf_encodeI (op : BitVec 6) (rs rt : BitVec 5) (imm : BitVec 16) :
    immOf (encodeI op rs rt imm) = imm := by
  apply BitVec.eq_of_getLsbD_eq
  intro i hi
  rw [immOf, BitVec.getLsbD_extractLsb', encodeI_getLsbD]
  interval_cases i <;> rfl
theorem encodeI_and_FC000000 (op : BitVec 6) (rs rt : BitVec 5) (imm : BitVec 16) :
    encodeI op rs rt imm &&& 0xFC000000#32 = op ++ 0#26 := by
  apply BitVec.eq_of_getLsbD_eq
  intro i hi
  rw [BitVec.getLsbD_and, encodeI_getLsbD]
  simp only [BitVec.getLsbD_append, BitVec.getLsbD_zero]
  interval_cases i <;> simp
theorem encodeI_and_FC1F0000 (op : BitVec 6) (rs rt : BitVec 5) (imm : BitVec 16) :
    encodeI op rs rt imm &&& 0xFC1F0000#32 = op ++ 0#5 ++ rt ++ 0#16 := by
  apply BitVec.eq_of_getLsbD_eq
  intro i hi
  rw [BitVec.getLsbD_and, encodeI_getLsbD]
  simp only [BitVec.getLsbD_append, BitVec.getLsbD_zero]
  interval_cases i <;> simp

/-! `encodeJ` -/

/-- The bits of the word, field by field. -/
theorem encodeJ_getLsbD (op : BitVec 6) (target : BitVec 26) (i : Nat) :
    (encodeJ op target).getLsbD i =
      if i < 26 then target.getLsbD i else
      op.getLsbD (i - 26) := by
  change BitVec.getLsbD (op ++ target) i = _
  simp only [BitVec.getLsbD_append]

@[simp] theorem opOf_encodeJ (op : BitVec 6) (target : BitVec 26) :
    opOf (encodeJ op target) = op := by
  apply BitVec.eq_of_getLsbD_eq
  intro i hi
  rw [opOf, BitVec.getLsbD_extractLsb', encodeJ_getLsbD]
  interval_cases i <;> rfl
@[simp] theorem targetOf_encodeJ (op : BitVec 6) (target : BitVec 26) :
    targetOf (encodeJ op target) = target := by
  apply BitVec.eq_of_getLsbD_eq
  intro i hi
  rw [targetOf, BitVec.getLsbD_extractLsb', encodeJ_getLsbD]
  interval_cases i <;> rfl
theorem encodeJ_and_FC000000 (op : BitVec 6) (target : BitVec 26) :
    encodeJ op target &&& 0xFC000000#32 = op ++ 0#26 := by
  apply BitVec.eq_of_getLsbD_eq
  intro i hi
  rw [BitVec.getLsbD_and, encodeJ_getLsbD]
  simp only [BitVec.getLsbD_append, BitVec.getLsbD_zero]
  interval_cases i <;> simp

/-! `encodeCode` -/

/-- The bits of the word, field by field. -/
theorem encodeCode_getLsbD (code : BitVec 20) (funct : BitVec 6) (i : Nat) :
    (encodeCode code funct).getLsbD i =
      if i < 6 then funct.getLsbD i else
      if i < 26 then code.getLsbD (i - 6) else
      false := by
  change BitVec.getLsbD (0#6 ++ code ++ funct) i = _
  simp only [BitVec.getLsbD_append, Nat.sub_sub, BitVec.getLsbD_zero]
  repeat' split
  all_goals first | rfl | omega
@[simp] theorem opOf_encodeCode (code : BitVec 20) (funct : BitVec 6) :
    opOf (encodeCode code funct) = 0#6 := by
  apply BitVec.eq_of_getLsbD_eq
  intro i hi
  rw [opOf, BitVec.getLsbD_extractLsb', encodeCode_getLsbD]
  interval_cases i <;> rfl
@[simp] theorem functOf_encodeCode (code : BitVec 20) (funct : BitVec 6) :
    functOf (encodeCode code funct) = funct := by
  apply BitVec.eq_of_getLsbD_eq
  intro i hi
  rw [functOf, BitVec.getLsbD_extractLsb', encodeCode_getLsbD]
  interval_cases i <;> rfl
@[simp] theorem codeOf_encodeCode (code : BitVec 20) (funct : BitVec 6) :
    codeOf (encodeCode code funct) = code := by
  apply BitVec.eq_of_getLsbD_eq
  intro i hi
  rw [codeOf, BitVec.getLsbD_extractLsb', encodeCode_getLsbD]
  interval_cases i <;> rfl
theorem encodeCode_and_FC00003F (code : BitVec 20) (funct : BitVec 6) :
    encodeCode code funct &&& 0xFC00003F#32 = 0#26 ++ funct := by
  apply BitVec.eq_of_getLsbD_eq
  intro i hi
  rw [BitVec.getLsbD_and, encodeCode_getLsbD]
  simp only [BitVec.getLsbD_append, BitVec.getLsbD_zero]
  interval_cases i <;> simp

/-! `encodeTrap` -/

/-- The bits of the word, field by field. -/
theorem encodeTrap_getLsbD (rs rt : BitVec 5) (code : BitVec 10) (funct : BitVec 6) (i : Nat) :
    (encodeTrap rs rt code funct).getLsbD i =
      if i < 6 then funct.getLsbD i else
      if i < 16 then code.getLsbD (i - 6) else
      if i < 21 then rt.getLsbD (i - 16) else
      if i < 26 then rs.getLsbD (i - 21) else
      false := by
  change BitVec.getLsbD (0#6 ++ rs ++ rt ++ code ++ funct) i = _
  simp only [BitVec.getLsbD_append, Nat.sub_sub, BitVec.getLsbD_zero]
  repeat' split
  all_goals first | rfl | omega
@[simp] theorem opOf_encodeTrap (rs rt : BitVec 5) (code : BitVec 10) (funct : BitVec 6) :
    opOf (encodeTrap rs rt code funct) = 0#6 := by
  apply BitVec.eq_of_getLsbD_eq
  intro i hi
  rw [opOf, BitVec.getLsbD_extractLsb', encodeTrap_getLsbD]
  interval_cases i <;> rfl
@[simp] theorem rsOf_encodeTrap (rs rt : BitVec 5) (code : BitVec 10) (funct : BitVec 6) :
    rsOf (encodeTrap rs rt code funct) = rs := by
  apply BitVec.eq_of_getLsbD_eq
  intro i hi
  rw [rsOf, BitVec.getLsbD_extractLsb', encodeTrap_getLsbD]
  interval_cases i <;> rfl
@[simp] theorem rtOf_encodeTrap (rs rt : BitVec 5) (code : BitVec 10) (funct : BitVec 6) :
    rtOf (encodeTrap rs rt code funct) = rt := by
  apply BitVec.eq_of_getLsbD_eq
  intro i hi
  rw [rtOf, BitVec.getLsbD_extractLsb', encodeTrap_getLsbD]
  interval_cases i <;> rfl
@[simp] theorem functOf_encodeTrap (rs rt : BitVec 5) (code : BitVec 10) (funct : BitVec 6) :
    functOf (encodeTrap rs rt code funct) = funct := by
  apply BitVec.eq_of_getLsbD_eq
  intro i hi
  rw [functOf, BitVec.getLsbD_extractLsb', encodeTrap_getLsbD]
  interval_cases i <;> rfl
@[simp] theorem trapCodeOf_encodeTrap (rs rt : BitVec 5) (code : BitVec 10) (funct : BitVec 6) :
    trapCodeOf (encodeTrap rs rt code funct) = code := by
  apply BitVec.eq_of_getLsbD_eq
  intro i hi
  rw [trapCodeOf, BitVec.getLsbD_extractLsb', encodeTrap_getLsbD]
  interval_cases i <;> rfl
theorem encodeTrap_and_FC00003F (rs rt : BitVec 5) (code : BitVec 10) (funct : BitVec 6) :
    encodeTrap rs rt code funct &&& 0xFC00003F#32 = 0#26 ++ funct := by
  apply BitVec.eq_of_getLsbD_eq
  intro i hi
  rw [BitVec.getLsbD_and, encodeTrap_getLsbD]
  simp only [BitVec.getLsbD_append, BitVec.getLsbD_zero]
  interval_cases i <;> simp

/-! `encodeCop` -/

/-- The bits of the word, field by field. -/
theorem encodeCop_getLsbD (op : BitVec 6) (sub rt rd : BitVec 5) (i : Nat) :
    (encodeCop op sub rt rd).getLsbD i =
      if i < 11 then false else
      if i < 16 then rd.getLsbD (i - 11) else
      if i < 21 then rt.getLsbD (i - 16) else
      if i < 26 then sub.getLsbD (i - 21) else
      op.getLsbD (i - 26) := by
  change BitVec.getLsbD (op ++ sub ++ rt ++ rd ++ 0#11) i = _
  simp only [BitVec.getLsbD_append, Nat.sub_sub, BitVec.getLsbD_zero]
  repeat' split
  all_goals first | rfl | omega
@[simp] theorem opOf_encodeCop (op : BitVec 6) (sub rt rd : BitVec 5) :
    opOf (encodeCop op sub rt rd) = op := by
  apply BitVec.eq_of_getLsbD_eq
  intro i hi
  rw [opOf, BitVec.getLsbD_extractLsb', encodeCop_getLsbD]
  interval_cases i <;> rfl
@[simp] theorem rsOf_encodeCop (op : BitVec 6) (sub rt rd : BitVec 5) :
    rsOf (encodeCop op sub rt rd) = sub := by
  apply BitVec.eq_of_getLsbD_eq
  intro i hi
  rw [rsOf, BitVec.getLsbD_extractLsb', encodeCop_getLsbD]
  interval_cases i <;> rfl
@[simp] theorem rtOf_encodeCop (op : BitVec 6) (sub rt rd : BitVec 5) :
    rtOf (encodeCop op sub rt rd) = rt := by
  apply BitVec.eq_of_getLsbD_eq
  intro i hi
  rw [rtOf, BitVec.getLsbD_extractLsb', encodeCop_getLsbD]
  interval_cases i <;> rfl
@[simp] theorem rdOf_encodeCop (op : BitVec 6) (sub rt rd : BitVec 5) :
    rdOf (encodeCop op sub rt rd) = rd := by
  apply BitVec.eq_of_getLsbD_eq
  intro i hi
  rw [rdOf, BitVec.getLsbD_extractLsb', encodeCop_getLsbD]
  interval_cases i <;> rfl
theorem encodeCop_and_FFE00000 (op : BitVec 6) (sub rt rd : BitVec 5) :
    encodeCop op sub rt rd &&& 0xFFE00000#32 = op ++ sub ++ 0#21 := by
  apply BitVec.eq_of_getLsbD_eq
  intro i hi
  rw [BitVec.getLsbD_and, encodeCop_getLsbD]
  simp only [BitVec.getLsbD_append, BitVec.getLsbD_zero]
  interval_cases i <;> simp

/-! `encodeCop0Function` -/

/-- The bits of the word, field by field. -/
theorem encodeCop0Function_getLsbD (funct : BitVec 6) (i : Nat) :
    (encodeCop0Function funct).getLsbD i =
      if i < 6 then funct.getLsbD i else
      if i < 25 then false else
      if i < 26 then BitVec.getLsbD (1#1) (i - 25) else
      BitVec.getLsbD (0x10#6) (i - 26) := by
  change BitVec.getLsbD (0x10#6 ++ 1#1 ++ 0#19 ++ funct) i = _
  simp only [BitVec.getLsbD_append, Nat.sub_sub, BitVec.getLsbD_zero]
  repeat' split
  all_goals first | rfl | omega
@[simp] theorem opOf_encodeCop0Function (funct : BitVec 6) :
    opOf (encodeCop0Function funct) = 0x10#6 := by
  apply BitVec.eq_of_getLsbD_eq
  intro i hi
  rw [opOf, BitVec.getLsbD_extractLsb', encodeCop0Function_getLsbD]
  interval_cases i <;> rfl
@[simp] theorem rsOf_encodeCop0Function (funct : BitVec 6) :
    rsOf (encodeCop0Function funct) = 0x10#5 := by
  apply BitVec.eq_of_getLsbD_eq
  intro i hi
  rw [rsOf, BitVec.getLsbD_extractLsb', encodeCop0Function_getLsbD]
  interval_cases i <;> rfl
@[simp] theorem functOf_encodeCop0Function (funct : BitVec 6) :
    functOf (encodeCop0Function funct) = funct := by
  apply BitVec.eq_of_getLsbD_eq
  intro i hi
  rw [functOf, BitVec.getLsbD_extractLsb', encodeCop0Function_getLsbD]
  interval_cases i <;> rfl
theorem encodeCop0Function_and_FE00003F (funct : BitVec 6) :
    encodeCop0Function funct &&& 0xFE00003F#32 = 0x10#6 ++ 1#1 ++ 0#19 ++ funct := by
  apply BitVec.eq_of_getLsbD_eq
  intro i hi
  rw [BitVec.getLsbD_and, encodeCop0Function_getLsbD]
  simp only [BitVec.getLsbD_append, BitVec.getLsbD_zero]
  interval_cases i <;> simp

/-! Decoding what was encoded. -/

/-- The decoder reads a word's bytes, most significant first, as the word. -/
theorem decodeBytes_wordBytes (w : BitVec 32) : decodeBytes (wordBytes w) = decode w := by
  change decode _ = _
  congr 1
  apply BitVec.eq_of_getLsbD_eq
  intro i hi
  simp only [BitVec.getLsbD_append, BitVec.getLsbD_extractLsb']
  interval_cases i <;> simp

/-- The decoder on a table row's word is `decode` on it. -/
theorem decodeTableWord_32 (w : BitVec 32) : decodeTableWord 32 w.toNat = (decode w).toOption := by
  have h : BitVec.ofNat 32 (w.toNat % 2 ^ 32) = w := by
    apply BitVec.eq_of_toNat_eq; simpa using w.isLt
  rw [decodeTableWord, h, decodeBytes_wordBytes]
  cases decode w <;> rfl

/-! Decoding by the primary map. -/

/-- A SPECIAL word is decoded by its `funct`. -/
theorem decode_of_special {w : BitVec 32} (h : opOf w = 0#6) : decode w = decodeSpecial w := by
  unfold decode; rw [h]; rfl
/-- A REGIMM word is decoded by its `rt`. -/
theorem decode_of_regimm {w : BitVec 32} (h : opOf w = 1#6) : decode w = decodeRegimm w := by
  unfold decode; rw [h]; rfl
/-- A COP0 word is decoded by its `rs`. -/
theorem decode_of_cop0 {w : BitVec 32} (h : opOf w = 0x10#6) : decode w = decodeCop0 w := by
  unfold decode; rw [h]; rfl
/-- A COP2 word is decoded by its `rs`. -/
theorem decode_of_cop2 {w : BitVec 32} (h : opOf w = 0x12#6) : decode w = decodeCop2 w := by
  unfold decode; rw [h]; rfl

/-! The encoding claims, reduced to the secondary map. -/

namespace Machine

theorem decodesSpecial {funct : BitVec 6} {mk : RegIdx → RegIdx → RegIdx → BitVec 5 → Instr}
    (h : ∀ w, functOf w = funct → decodeSpecial w = .ok (mk (rsOf w) (rtOf w) (rdOf w) (saOf w))) :
    DecodesSpecial funct mk := by
  intro w h1 h2
  rw [decode_of_special h1]; exact h w h2

theorem decodesTrap {funct : BitVec 6} {mk : RegIdx → RegIdx → BitVec 10 → Instr}
    (h : ∀ w, functOf w = funct → decodeSpecial w = .ok (mk (rsOf w) (rtOf w) (trapCodeOf w))) :
    DecodesTrap funct mk := by
  intro w h1 h2
  rw [decode_of_special h1]; exact h w h2

theorem decodesRegimm {sub : BitVec 5} {mk : RegIdx → Imm16 → Instr}
    (h : ∀ w, rtOf w = sub → decodeRegimm w = .ok (mk (rsOf w) (immOf w))) : DecodesRegimm sub mk := by
  intro w h1 h2
  rw [decode_of_regimm h1]; exact h w h2

theorem decodesMoveCop0 {sub : BitVec 5} {mk : RegIdx → RegIdx → Instr}
    (h : ∀ w, rsOf w = sub → decodeCop0 w = .ok (mk (rtOf w) (rdOf w))) : DecodesMove 0x10 sub mk := by
  intro w h1 h2
  rw [decode_of_cop0 h1]; exact h w h2

theorem decodesMoveCop2 {sub : BitVec 5} {mk : RegIdx → RegIdx → Instr}
    (h : ∀ w, rsOf w = sub → decodeCop2 w = .ok (mk (rtOf w) (rdOf w))) : DecodesMove 0x12 sub mk := by
  intro w h1 h2
  rw [decode_of_cop2 h1]; exact h w h2

/-- A COP0 word with `CO` = 1 is decoded by its `funct`. -/
theorem decode_of_cop0_function {w : BitVec 32} (h1 : opOf w = 0x10#6) (h2 : w.getLsbD 25 = true) :
    decode w = decodeCop0Function w := by
  have hr : (rsOf w).getLsbD 4 = true := by simp [rsOf, h2]
  have hne : ∀ r : BitVec 5, r.getLsbD 4 = false → rsOf w ≠ r := fun r hr' he => by rw [he, hr'] at hr; cases hr
  rw [decode_of_cop0 h1, decodeCop0]
  split
  · exact absurd (by assumption) (hne _ (by decide))
  · exact absurd (by assumption) (hne _ (by decide))
  · exact absurd (by assumption) (hne _ (by decide))
  · exact absurd (by assumption) (hne _ (by decide))
  · rw [h2, if_pos rfl]

theorem decodesCop0Function {funct : BitVec 6} {i : Instr}
    (h : ∀ w, functOf w = funct → decodeCop0Function w = .ok i) : DecodesCop0Function funct i := by
  intro w h1 h2 h3
  rw [decode_of_cop0_function h1 h2]; exact h w h3

end Machine

end Sys2Proof
end

