-- ==== Sys2Proof/Laws/DecodeTable.lean ====
section
/-! SUPPORT. A word carries a row's match under its mask exactly when the fields the mask covers hold the row's
values (30_encoding.md rule R192), one lemma per mask of the table. -/

namespace Sys2Proof

/-- Equal under a mask: equal at every bit the mask covers. -/
theorem and_eq_iff (w m mask : BitVec 32) :
    w &&& mask = m &&& mask ↔ ∀ i < 32, mask.getLsbD i = true → w.getLsbD i = m.getLsbD i := by
  constructor
  · intro h i _ hm
    have := congrArg (fun v => BitVec.getLsbD v i) h
    simpa [BitVec.getLsbD_and, hm] using this
  · intro h
    apply BitVec.eq_of_getLsbD_eq
    intro i hi
    rw [BitVec.getLsbD_and, BitVec.getLsbD_and]
    cases hm : mask.getLsbD i
    · simp
    · rw [h i hi hm]

/-- Equal fields: equal at every bit of the field. -/
theorem field_eq_iff (w m : BitVec 32) {lo k : Nat} (hk : lo + k ≤ 32) :
    w.extractLsb' lo k = m.extractLsb' lo k ↔ ∀ i < 32, lo ≤ i → i < lo + k → w.getLsbD i = m.getLsbD i := by
  constructor
  · intro h i _ h1 h2
    have := congrArg (fun v => BitVec.getLsbD v (i - lo)) h
    simpa [BitVec.getLsbD_extractLsb', show i - lo < k by omega, show lo + (i - lo) = i by omega] using this
  · intro h
    apply BitVec.eq_of_getLsbD_eq
    intro i hi
    rw [BitVec.getLsbD_extractLsb', BitVec.getLsbD_extractLsb', h _ (by omega) (by omega) (by omega)]

/-- The rows told apart by `op`. -/
theorem row_op {w m : BitVec 32} (hm : m &&& 0xFC000000#32 = m) : w &&& 0xFC000000#32 = m ↔ opOf w = opOf m := by
  have mask : ∀ i < 32, (0xFC000000#32).getLsbD i = decide (26 ≤ i) := by decide
  refine (by rw [hm] : _ ↔ w &&& 0xFC000000#32 = m &&& 0xFC000000#32).trans ?_
  rw [and_eq_iff, opOf, opOf, field_eq_iff w m (by decide)]
  constructor
  · intro h i hi h1 _
    exact h i hi (by rw [mask i hi]; simpa using h1)
  · intro h i hi h1
    rw [mask i hi] at h1
    exact h i hi (by simpa using h1) (by omega)

/-- The rows told apart by `op` and `funct`. -/
theorem row_funct {w m : BitVec 32} (hm : m &&& 0xFC00003F#32 = m) :
    w &&& 0xFC00003F#32 = m ↔ opOf w = opOf m ∧ functOf w = functOf m := by
  have mask : ∀ i < 32, (0xFC00003F#32).getLsbD i = decide (26 ≤ i ∨ i < 6) := by decide
  refine (by rw [hm] : _ ↔ w &&& 0xFC00003F#32 = m &&& 0xFC00003F#32).trans ?_
  rw [and_eq_iff, opOf, opOf, functOf, functOf, field_eq_iff w m (by decide), field_eq_iff w m (by decide)]
  constructor
  · intro h
    exact ⟨fun i hi h1 _ => h i hi (by rw [mask i hi]; simp; omega),
      fun i hi _ h2 => h i hi (by rw [mask i hi]; simp; omega)⟩
  · rintro ⟨h, h'⟩ i hi h1
    rw [mask i hi, decide_eq_true_eq] at h1
    rcases h1 with h1 | h1
    · exact h i hi h1 (by omega)
    · exact h' i hi (by omega) (by omega)

/-- The rows told apart by `op` and `rt`. -/
theorem row_rt {w m : BitVec 32} (hm : m &&& 0xFC1F0000#32 = m) :
    w &&& 0xFC1F0000#32 = m ↔ opOf w = opOf m ∧ rtOf w = rtOf m := by
  have mask : ∀ i < 32, (0xFC1F0000#32).getLsbD i = decide (26 ≤ i ∨ 16 ≤ i ∧ i < 21) := by decide
  refine (by rw [hm] : _ ↔ w &&& 0xFC1F0000#32 = m &&& 0xFC1F0000#32).trans ?_
  rw [and_eq_iff, opOf, opOf, rtOf, rtOf, field_eq_iff w m (by decide), field_eq_iff w m (by decide)]
  constructor
  · intro h
    exact ⟨fun i hi h1 _ => h i hi (by rw [mask i hi]; simp; omega),
      fun i hi h1 h2 => h i hi (by rw [mask i hi]; simp; omega)⟩
  · rintro ⟨h, h'⟩ i hi h1
    rw [mask i hi, decide_eq_true_eq] at h1
    rcases h1 with h1 | h1
    · exact h i hi h1 (by omega)
    · exact h' i hi h1.1 h1.2

/-- The rows told apart by `op` and `rs`. -/
theorem row_rs {w m : BitVec 32} (hm : m &&& 0xFFE00000#32 = m) :
    w &&& 0xFFE00000#32 = m ↔ opOf w = opOf m ∧ rsOf w = rsOf m := by
  have mask : ∀ i < 32, (0xFFE00000#32).getLsbD i = decide (26 ≤ i ∨ 21 ≤ i ∧ i < 26) := by decide
  refine (by rw [hm] : _ ↔ w &&& 0xFFE00000#32 = m &&& 0xFFE00000#32).trans ?_
  rw [and_eq_iff, opOf, opOf, rsOf, rsOf, field_eq_iff w m (by decide), field_eq_iff w m (by decide)]
  constructor
  · intro h
    exact ⟨fun i hi h1 _ => h i hi (by rw [mask i hi]; simp; omega),
      fun i hi h1 h2 => h i hi (by rw [mask i hi]; simp; omega)⟩
  · rintro ⟨h, h'⟩ i hi h1
    rw [mask i hi, decide_eq_true_eq] at h1
    rcases h1 with h1 | h1
    · exact h i hi h1 (by omega)
    · exact h' i hi h1.1 h1.2

/-- The rows told apart by `op`, `CO` and `funct`. -/
theorem row_co {w m : BitVec 32} (hm : m &&& 0xFE00003F#32 = m) :
    w &&& 0xFE00003F#32 = m ↔ opOf w = opOf m ∧ w.getLsbD 25 = m.getLsbD 25 ∧ functOf w = functOf m := by
  have mask : ∀ i < 32, (0xFE00003F#32).getLsbD i = decide (26 ≤ i ∨ i = 25 ∨ i < 6) := by decide
  refine (by rw [hm] : _ ↔ w &&& 0xFE00003F#32 = m &&& 0xFE00003F#32).trans ?_
  rw [and_eq_iff, opOf, opOf, functOf, functOf, field_eq_iff w m (by decide), field_eq_iff w m (by decide)]
  constructor
  · intro h
    exact ⟨fun i hi h1 _ => h i hi (by rw [mask i hi]; simp; omega), h 25 (by decide) (by decide),
      fun i hi _ h2 => h i hi (by rw [mask i hi]; simp; omega)⟩
  · rintro ⟨h, h25, h'⟩ i hi h1
    rw [mask i hi, decide_eq_true_eq] at h1
    rcases h1 with h1 | rfl | h1
    · exact h i hi h1 (by omega)
    · exact h25
    · exact h' i hi (by omega) (by omega)

/-! Decoding an encoded word of each format, given what its map gives a word with those fields (R181, R185–R189) -/

theorem decode_encodeI_of {op : BitVec 6} {rs rt : RegIdx} {imm : Imm16} {i : Instr}
   (h : ∀ w, opOf w = op → rsOf w = rs → rtOf w = rt → immOf w = imm → decode w = .ok i) : decode (encodeI op rs rt imm) = .ok i :=
  h _ (by simp) (by simp) (by simp) (by simp)
theorem decode_encodeR_of {f : BitVec 6} {rs rt rd sa : RegIdx} {i : Instr}
   (h : ∀ w, functOf w = f → rsOf w = rs → rtOf w = rt → rdOf w = rd → saOf w = sa →
      decodeSpecial w = .ok i) : decode (encodeR rs rt rd sa f) = .ok i :=
  (decode_of_special (by simp)).trans (h _ (by simp) (by simp) (by simp) (by simp) (by simp))
theorem decode_encodeTrap_of {f : BitVec 6} {rs rt : RegIdx} {c : BitVec 10} {i : Instr}
   (h : ∀ w, functOf w = f → rsOf w = rs → rtOf w = rt → trapCodeOf w = c → decodeSpecial w = .ok i) : decode (encodeTrap rs rt c f) = .ok i :=
  (decode_of_special (by simp)).trans (h _ (by simp) (by simp) (by simp) (by simp))
theorem decode_encodeCode_of {f : BitVec 6} {c : BitVec 20} {i : Instr}
   (h : ∀ w, functOf w = f → codeOf w = c → decodeSpecial w = .ok i) : decode (encodeCode c f) = .ok i :=
  (decode_of_special (by simp)).trans (h _ (by simp) (by simp))
theorem decode_encodeJ_of {op : BitVec 6} {t : BitVec 26} {i : Instr}
   (h : ∀ w, opOf w = op → targetOf w = t → decode w = .ok i) : decode (encodeJ op t) = .ok i :=
  h _ (by simp) (by simp)
theorem decode_encodeRegimm_of {rs rt : RegIdx} {imm : Imm16} {i : Instr}
   (h : ∀ w, rtOf w = rt → rsOf w = rs → immOf w = imm → decodeRegimm w = .ok i) : decode (encodeI 1#6 rs rt imm) = .ok i :=
  (decode_of_regimm (by simp)).trans (h _ (by simp) (by simp) (by simp))
theorem decode_encodeCop0_of {sub rt rd : RegIdx} {i : Instr}
   (h : ∀ w, rsOf w = sub → rtOf w = rt → rdOf w = rd → decodeCop0 w = .ok i) : decode (encodeCop 0x10#6 sub rt rd) = .ok i :=
  (decode_of_cop0 (by simp)).trans (h _ (by simp) (by simp) (by simp))
theorem decode_encodeCop2_of {sub rt rd : RegIdx} {i : Instr}
   (h : ∀ w, rsOf w = sub → rtOf w = rt → rdOf w = rd → decodeCop2 w = .ok i) : decode (encodeCop 0x12#6 sub rt rd) = .ok i :=
  (decode_of_cop2 (by simp)).trans (h _ (by simp) (by simp) (by simp))

end Sys2Proof
end

