-- ==== Sys2Proof/Laws/Flags.lean ====
section
/-! SUPPORT. Status and Cause bit by bit, the mode, the interrupt condition and the step's first check
(10_state.md rules R41–R43, 60_exceptions.md rules R471, R503, R520). -/

namespace Sys2Proof.Machine

/-- The interrupt controller's line (R503). -/
theorem State.line_iff (s : State) : s.mi.line = true ↔ s.MiLine := by
  have h : s.mi.line = false ↔ ∀ j < 6, ¬ (s.mi.flags.getLsbD j = true ∧ s.mi.mask.getLsbD j = true) := by
    rw [MiRegs.line, bne_eq_false_iff_eq]
    constructor
    · intro h j _ hj
      have := congrArg (fun v => BitVec.getLsbD v j) h
      simp [BitVec.getLsbD_and, hj.1, hj.2] at this
    · intro h
      apply BitVec.eq_of_getLsbD_eq
      intro j hj
      have := h j hj
      rw [BitVec.getLsbD_and]
      change _ = BitVec.getLsbD (0#6) j
      rw [BitVec.getLsbD_zero]
      revert this
      cases s.mi.flags.getLsbD j <;> cases s.mi.mask.getLsbD j <;> simp
  rw [← Bool.not_eq_false, h]
  simp [State.MiLine]

/-- A byte of eight bits, bit by bit. -/
theorem eightBits_getLsbD (b7 b6 b5 b4 b3 b2 b1 b0 : Bool) (j : Nat) :
    BitVec.getLsbD (BitVec.ofBool b7 ++ BitVec.ofBool b6 ++ BitVec.ofBool b5 ++ BitVec.ofBool b4
      ++ BitVec.ofBool b3 ++ BitVec.ofBool b2 ++ BitVec.ofBool b1 ++ BitVec.ofBool b0) j = true ↔
    (j = 0 ∧ b0 = true) ∨ (j = 1 ∧ b1 = true) ∨ (j = 2 ∧ b2 = true) ∨ (j = 3 ∧ b3 = true) ∨ (j = 4 ∧ b4 = true)
      ∨ (j = 5 ∧ b5 = true) ∨ (j = 6 ∧ b6 = true) ∨ (j = 7 ∧ b7 = true) := by
  simp only [BitVec.getLsbD_append]
  by_cases hj : j < 8
  · interval_cases j <;> simp
  · simp [BitVec.getLsbD_ofBool, show ¬ j < 1 by omega, show ¬ j - 1 < 1 by omega, show ¬ j - 1 - 1 < 1 by omega,
      show ¬ j - 1 - 1 - 1 < 1 by omega, show ¬ j - 1 - 1 - 1 - 1 < 1 by omega,
      show ¬ j - 1 - 1 - 1 - 1 - 1 < 1 by omega, show ¬ j - 1 - 1 - 1 - 1 - 1 - 1 < 1 by omega]
    omega

/-- Cause.IP (R43). -/
theorem State.ip_iff (s : State) (j : Nat) : s.ip.getLsbD j = true ↔ s.IpSet j := by
  refine (eightBits_getLsbD ..).trans ?_
  rw [State.line_iff]
  rfl

/-- `InterruptPending()` (R471). -/
theorem State.interruptPending_iff (s : State) : s.interruptPending = true ↔ s.InterruptDue := by
  have h : ((s.ip &&& s.im) != 0) = true ↔ ∃ j, s.IpSet j ∧ s.cp0.status.getLsbD (8 + j) = true := by
    rw [bne_iff_ne, Ne, ← not_iff_not, not_not]
    constructor
    · rintro h ⟨j, hj, hm⟩
      have hj8 : j < 8 := by
        unfold State.IpSet at hj
        omega
      have h2 : (s.ip &&& s.im).getLsbD j = true := by
        rw [BitVec.getLsbD_and, (s.ip_iff j).mpr hj, State.im, BitVec.getLsbD_extractLsb']
        simp [hj8, hm]
      rw [h] at h2
      exact absurd h2 (by simp)
    · intro h
      apply BitVec.eq_of_getLsbD_eq
      intro j hj
      change _ = BitVec.getLsbD (0#8) j
      rw [BitVec.getLsbD_zero, BitVec.getLsbD_and, State.im, BitVec.getLsbD_extractLsb']
      by_contra hc
      simp only [hj, decide_true, Bool.true_and, Bool.and_eq_false_imp, not_forall] at hc
      obtain ⟨h1, h2⟩ := hc
      exact h ⟨j, (s.ip_iff j).mp h1, by simpa using h2⟩
  rw [State.interruptPending, Bool.and_eq_true, h]
  simp [State.InterruptDue, State.ie, State.exl, State.erl, and_assoc]

/-- Kernel mode (R42). -/
theorem State.mode_kernel_iff (s : State) : s.mode = .kernel ↔ s.exl = true ∨ s.erl = true ∨ s.ksu = 0 := by
  unfold State.mode
  cases s.exl <;> cases s.erl <;> simp
  split <;> simp_all
/-- User mode (R42). -/
theorem State.mode_user_iff (s : State) : s.mode = .user ↔ s.exl = false ∧ s.erl = false ∧ s.ksu = 2 := by
  unfold State.mode
  cases s.exl <;> cases s.erl <;> simp
  split <;> simp_all
/-- The modes of R520's first refusal. -/
theorem State.mode_unmodelled_iff (s : State) :
    s.mode = .unmodelled ↔ s.exl = false ∧ s.erl = false ∧ (s.ksu = 1 ∨ s.ksu = 3) := by
  unfold State.mode
  cases s.exl <;> cases s.erl <;> simp
  have : ∀ k : BitVec 2, ((if k = 0#2 then Mode.kernel else if k = 2#2 then .user else .unmodelled) = .unmodelled)
      ↔ (k = 1#2 ∨ k = 3#2) := by decide
  exact this s.ksu

/-- The step's first check admits exactly the modelled configurations (R520). -/
theorem State.startRefusal_none (s : State) : s.startRefusal = none ↔ s.Modelled := by
  unfold State.startRefusal State.Modelled
  cases s.mode <;> simp
  cases s.ux <;> cases s.re <;> simp

/-- Cause's read value, field by field (R43). -/
theorem State.causeWord_getLsbD (s : State) (j : Nat) :
    s.causeWord.getLsbD j =
      if j < 2 then false else if j < 7 then s.cp0.cause.excCode.getLsbD (j - 2) else if j < 8 then false
      else if j < 16 then s.ip.getLsbD (j - 8) else if j < 28 then false
      else if j < 30 then s.cp0.cause.ce.getLsbD (j - 28) else if j < 31 then false
      else decide (j < 32) && s.cp0.cause.bd := by
  change BitVec.getLsbD (BitVec.ofBool s.cp0.cause.bd ++ 0#1 ++ s.cp0.cause.ce ++ 0#12 ++ s.ip ++ 0#1
    ++ s.cp0.cause.excCode ++ 0#2) j = _
  simp only [BitVec.getLsbD_append, BitVec.getLsbD_zero, Nat.sub_sub, BitVec.getLsbD_ofBool]
  split_ifs <;> first | rfl | omega | (congr 2; simp; omega)

end Sys2Proof.Machine
end

