-- ==== Sys2Proof/Laws/PerInstr.lean ====
section
/-! SUPPORT. The per-instruction family: the encoder writes the row of the opcode table (R192). -/

namespace Sys2Proof.Laws.Encoding

/-- The word of `i` carries the match of `i`'s row under its mask. -/
def Statement (i : Instr) : Prop := encode i &&& (tableRow i).1 = (tableRow i).2

theorem sll (rd rt : RegIdx) (sa : BitVec 5) : Statement (.sll rd rt sa) :=
  encodeR_and_FC00003F ..
theorem srl (rd rt : RegIdx) (sa : BitVec 5) : Statement (.srl rd rt sa) :=
  encodeR_and_FC00003F ..
theorem sra (rd rt : RegIdx) (sa : BitVec 5) : Statement (.sra rd rt sa) :=
  encodeR_and_FC00003F ..
theorem sllv (rd rt rs : RegIdx) : Statement (.sllv rd rt rs) :=
  encodeR_and_FC00003F ..
theorem srlv (rd rt rs : RegIdx) : Statement (.srlv rd rt rs) :=
  encodeR_and_FC00003F ..
theorem srav (rd rt rs : RegIdx) : Statement (.srav rd rt rs) :=
  encodeR_and_FC00003F ..
theorem jr (rs : RegIdx) : Statement (.jr rs) :=
  encodeR_and_FC00003F ..
theorem jalr (rd rs : RegIdx) : Statement (.jalr rd rs) :=
  encodeR_and_FC00003F ..
theorem syscall (code : BitVec 20) : Statement (.syscall code) :=
  encodeCode_and_FC00003F ..
theorem brk (code : BitVec 20) : Statement (.brk code) :=
  encodeCode_and_FC00003F ..
theorem sync : Statement .sync :=
  encodeR_and_FC00003F ..
theorem mfhi (rd : RegIdx) : Statement (.mfhi rd) :=
  encodeR_and_FC00003F ..
theorem mthi (rs : RegIdx) : Statement (.mthi rs) :=
  encodeR_and_FC00003F ..
theorem mflo (rd : RegIdx) : Statement (.mflo rd) :=
  encodeR_and_FC00003F ..
theorem mtlo (rs : RegIdx) : Statement (.mtlo rs) :=
  encodeR_and_FC00003F ..
theorem dsllv (rd rt rs : RegIdx) : Statement (.dsllv rd rt rs) :=
  encodeR_and_FC00003F ..
theorem dsrlv (rd rt rs : RegIdx) : Statement (.dsrlv rd rt rs) :=
  encodeR_and_FC00003F ..
theorem dsrav (rd rt rs : RegIdx) : Statement (.dsrav rd rt rs) :=
  encodeR_and_FC00003F ..
theorem mult (rs rt : RegIdx) : Statement (.mult rs rt) :=
  encodeR_and_FC00003F ..
theorem multu (rs rt : RegIdx) : Statement (.multu rs rt) :=
  encodeR_and_FC00003F ..
theorem div (rs rt : RegIdx) : Statement (.div rs rt) :=
  encodeR_and_FC00003F ..
theorem divu (rs rt : RegIdx) : Statement (.divu rs rt) :=
  encodeR_and_FC00003F ..
theorem dmult (rs rt : RegIdx) : Statement (.dmult rs rt) :=
  encodeR_and_FC00003F ..
theorem dmultu (rs rt : RegIdx) : Statement (.dmultu rs rt) :=
  encodeR_and_FC00003F ..
theorem ddiv (rs rt : RegIdx) : Statement (.ddiv rs rt) :=
  encodeR_and_FC00003F ..
theorem ddivu (rs rt : RegIdx) : Statement (.ddivu rs rt) :=
  encodeR_and_FC00003F ..
theorem add (rd rs rt : RegIdx) : Statement (.add rd rs rt) :=
  encodeR_and_FC00003F ..
theorem addu (rd rs rt : RegIdx) : Statement (.addu rd rs rt) :=
  encodeR_and_FC00003F ..
theorem sub (rd rs rt : RegIdx) : Statement (.sub rd rs rt) :=
  encodeR_and_FC00003F ..
theorem subu (rd rs rt : RegIdx) : Statement (.subu rd rs rt) :=
  encodeR_and_FC00003F ..
theorem and (rd rs rt : RegIdx) : Statement (.and rd rs rt) :=
  encodeR_and_FC00003F ..
theorem or (rd rs rt : RegIdx) : Statement (.or rd rs rt) :=
  encodeR_and_FC00003F ..
theorem xor (rd rs rt : RegIdx) : Statement (.xor rd rs rt) :=
  encodeR_and_FC00003F ..
theorem nor (rd rs rt : RegIdx) : Statement (.nor rd rs rt) :=
  encodeR_and_FC00003F ..
theorem slt (rd rs rt : RegIdx) : Statement (.slt rd rs rt) :=
  encodeR_and_FC00003F ..
theorem sltu (rd rs rt : RegIdx) : Statement (.sltu rd rs rt) :=
  encodeR_and_FC00003F ..
theorem dadd (rd rs rt : RegIdx) : Statement (.dadd rd rs rt) :=
  encodeR_and_FC00003F ..
theorem daddu (rd rs rt : RegIdx) : Statement (.daddu rd rs rt) :=
  encodeR_and_FC00003F ..
theorem dsub (rd rs rt : RegIdx) : Statement (.dsub rd rs rt) :=
  encodeR_and_FC00003F ..
theorem dsubu (rd rs rt : RegIdx) : Statement (.dsubu rd rs rt) :=
  encodeR_and_FC00003F ..
theorem tge (rs rt : RegIdx) (code : BitVec 10) : Statement (.tge rs rt code) :=
  encodeTrap_and_FC00003F ..
theorem tgeu (rs rt : RegIdx) (code : BitVec 10) : Statement (.tgeu rs rt code) :=
  encodeTrap_and_FC00003F ..
theorem tlt (rs rt : RegIdx) (code : BitVec 10) : Statement (.tlt rs rt code) :=
  encodeTrap_and_FC00003F ..
theorem tltu (rs rt : RegIdx) (code : BitVec 10) : Statement (.tltu rs rt code) :=
  encodeTrap_and_FC00003F ..
theorem teq (rs rt : RegIdx) (code : BitVec 10) : Statement (.teq rs rt code) :=
  encodeTrap_and_FC00003F ..
theorem tne (rs rt : RegIdx) (code : BitVec 10) : Statement (.tne rs rt code) :=
  encodeTrap_and_FC00003F ..
theorem dsll (rd rt : RegIdx) (sa : BitVec 5) : Statement (.dsll rd rt sa) :=
  encodeR_and_FC00003F ..
theorem dsrl (rd rt : RegIdx) (sa : BitVec 5) : Statement (.dsrl rd rt sa) :=
  encodeR_and_FC00003F ..
theorem dsra (rd rt : RegIdx) (sa : BitVec 5) : Statement (.dsra rd rt sa) :=
  encodeR_and_FC00003F ..
theorem dsll32 (rd rt : RegIdx) (sa : BitVec 5) : Statement (.dsll32 rd rt sa) :=
  encodeR_and_FC00003F ..
theorem dsrl32 (rd rt : RegIdx) (sa : BitVec 5) : Statement (.dsrl32 rd rt sa) :=
  encodeR_and_FC00003F ..
theorem dsra32 (rd rt : RegIdx) (sa : BitVec 5) : Statement (.dsra32 rd rt sa) :=
  encodeR_and_FC00003F ..
theorem bltz (rs : RegIdx) (imm : Imm16) : Statement (.bltz rs imm) :=
  encodeI_and_FC1F0000 ..
theorem bgez (rs : RegIdx) (imm : Imm16) : Statement (.bgez rs imm) :=
  encodeI_and_FC1F0000 ..
theorem bltzl (rs : RegIdx) (imm : Imm16) : Statement (.bltzl rs imm) :=
  encodeI_and_FC1F0000 ..
theorem bgezl (rs : RegIdx) (imm : Imm16) : Statement (.bgezl rs imm) :=
  encodeI_and_FC1F0000 ..
theorem tgei (rs : RegIdx) (imm : Imm16) : Statement (.tgei rs imm) :=
  encodeI_and_FC1F0000 ..
theorem tgeiu (rs : RegIdx) (imm : Imm16) : Statement (.tgeiu rs imm) :=
  encodeI_and_FC1F0000 ..
theorem tlti (rs : RegIdx) (imm : Imm16) : Statement (.tlti rs imm) :=
  encodeI_and_FC1F0000 ..
theorem tltiu (rs : RegIdx) (imm : Imm16) : Statement (.tltiu rs imm) :=
  encodeI_and_FC1F0000 ..
theorem teqi (rs : RegIdx) (imm : Imm16) : Statement (.teqi rs imm) :=
  encodeI_and_FC1F0000 ..
theorem tnei (rs : RegIdx) (imm : Imm16) : Statement (.tnei rs imm) :=
  encodeI_and_FC1F0000 ..
theorem bltzal (rs : RegIdx) (imm : Imm16) : Statement (.bltzal rs imm) :=
  encodeI_and_FC1F0000 ..
theorem bgezal (rs : RegIdx) (imm : Imm16) : Statement (.bgezal rs imm) :=
  encodeI_and_FC1F0000 ..
theorem bltzall (rs : RegIdx) (imm : Imm16) : Statement (.bltzall rs imm) :=
  encodeI_and_FC1F0000 ..
theorem bgezall (rs : RegIdx) (imm : Imm16) : Statement (.bgezall rs imm) :=
  encodeI_and_FC1F0000 ..
theorem j (target : BitVec 26) : Statement (.j target) :=
  encodeJ_and_FC000000 ..
theorem jal (target : BitVec 26) : Statement (.jal target) :=
  encodeJ_and_FC000000 ..
theorem beq (rs rt : RegIdx) (imm : Imm16) : Statement (.beq rs rt imm) :=
  encodeI_and_FC000000 ..
theorem bne (rs rt : RegIdx) (imm : Imm16) : Statement (.bne rs rt imm) :=
  encodeI_and_FC000000 ..
theorem blez (rs : RegIdx) (imm : Imm16) : Statement (.blez rs imm) :=
  encodeI_and_FC000000 ..
theorem bgtz (rs : RegIdx) (imm : Imm16) : Statement (.bgtz rs imm) :=
  encodeI_and_FC000000 ..
theorem addi (rt rs : RegIdx) (imm : Imm16) : Statement (.addi rt rs imm) :=
  encodeI_and_FC000000 ..
theorem addiu (rt rs : RegIdx) (imm : Imm16) : Statement (.addiu rt rs imm) :=
  encodeI_and_FC000000 ..
theorem slti (rt rs : RegIdx) (imm : Imm16) : Statement (.slti rt rs imm) :=
  encodeI_and_FC000000 ..
theorem sltiu (rt rs : RegIdx) (imm : Imm16) : Statement (.sltiu rt rs imm) :=
  encodeI_and_FC000000 ..
theorem andi (rt rs : RegIdx) (imm : Imm16) : Statement (.andi rt rs imm) :=
  encodeI_and_FC000000 ..
theorem ori (rt rs : RegIdx) (imm : Imm16) : Statement (.ori rt rs imm) :=
  encodeI_and_FC000000 ..
theorem xori (rt rs : RegIdx) (imm : Imm16) : Statement (.xori rt rs imm) :=
  encodeI_and_FC000000 ..
theorem lui (rt : RegIdx) (imm : Imm16) : Statement (.lui rt imm) :=
  encodeI_and_FC000000 ..
theorem beql (rs rt : RegIdx) (imm : Imm16) : Statement (.beql rs rt imm) :=
  encodeI_and_FC000000 ..
theorem bnel (rs rt : RegIdx) (imm : Imm16) : Statement (.bnel rs rt imm) :=
  encodeI_and_FC000000 ..
theorem blezl (rs : RegIdx) (imm : Imm16) : Statement (.blezl rs imm) :=
  encodeI_and_FC000000 ..
theorem bgtzl (rs : RegIdx) (imm : Imm16) : Statement (.bgtzl rs imm) :=
  encodeI_and_FC000000 ..
theorem daddi (rt rs : RegIdx) (imm : Imm16) : Statement (.daddi rt rs imm) :=
  encodeI_and_FC000000 ..
theorem daddiu (rt rs : RegIdx) (imm : Imm16) : Statement (.daddiu rt rs imm) :=
  encodeI_and_FC000000 ..
theorem ldl (rt base : RegIdx) (offset : Imm16) : Statement (.ldl rt base offset) :=
  encodeI_and_FC000000 ..
theorem ldr (rt base : RegIdx) (offset : Imm16) : Statement (.ldr rt base offset) :=
  encodeI_and_FC000000 ..
theorem lb (rt base : RegIdx) (offset : Imm16) : Statement (.lb rt base offset) :=
  encodeI_and_FC000000 ..
theorem lh (rt base : RegIdx) (offset : Imm16) : Statement (.lh rt base offset) :=
  encodeI_and_FC000000 ..
theorem lwl (rt base : RegIdx) (offset : Imm16) : Statement (.lwl rt base offset) :=
  encodeI_and_FC000000 ..
theorem lw (rt base : RegIdx) (offset : Imm16) : Statement (.lw rt base offset) :=
  encodeI_and_FC000000 ..
theorem lbu (rt base : RegIdx) (offset : Imm16) : Statement (.lbu rt base offset) :=
  encodeI_and_FC000000 ..
theorem lhu (rt base : RegIdx) (offset : Imm16) : Statement (.lhu rt base offset) :=
  encodeI_and_FC000000 ..
theorem lwr (rt base : RegIdx) (offset : Imm16) : Statement (.lwr rt base offset) :=
  encodeI_and_FC000000 ..
theorem lwu (rt base : RegIdx) (offset : Imm16) : Statement (.lwu rt base offset) :=
  encodeI_and_FC000000 ..
theorem sb (rt base : RegIdx) (offset : Imm16) : Statement (.sb rt base offset) :=
  encodeI_and_FC000000 ..
theorem sh (rt base : RegIdx) (offset : Imm16) : Statement (.sh rt base offset) :=
  encodeI_and_FC000000 ..
theorem swl (rt base : RegIdx) (offset : Imm16) : Statement (.swl rt base offset) :=
  encodeI_and_FC000000 ..
theorem sw (rt base : RegIdx) (offset : Imm16) : Statement (.sw rt base offset) :=
  encodeI_and_FC000000 ..
theorem sdl (rt base : RegIdx) (offset : Imm16) : Statement (.sdl rt base offset) :=
  encodeI_and_FC000000 ..
theorem sdr (rt base : RegIdx) (offset : Imm16) : Statement (.sdr rt base offset) :=
  encodeI_and_FC000000 ..
theorem swr (rt base : RegIdx) (offset : Imm16) : Statement (.swr rt base offset) :=
  encodeI_and_FC000000 ..
theorem cache (op base : RegIdx) (offset : Imm16) : Statement (.cache op base offset) :=
  encodeI_and_FC000000 ..
theorem ll (rt base : RegIdx) (offset : Imm16) : Statement (.ll rt base offset) :=
  encodeI_and_FC000000 ..
theorem lwc1 (ft base : RegIdx) (offset : Imm16) : Statement (.lwc1 ft base offset) :=
  encodeI_and_FC000000 ..
theorem lwc2 (rt base : RegIdx) (offset : Imm16) : Statement (.lwc2 rt base offset) :=
  encodeI_and_FC000000 ..
theorem lld (rt base : RegIdx) (offset : Imm16) : Statement (.lld rt base offset) :=
  encodeI_and_FC000000 ..
theorem ldc1 (ft base : RegIdx) (offset : Imm16) : Statement (.ldc1 ft base offset) :=
  encodeI_and_FC000000 ..
theorem ldc2 (rt base : RegIdx) (offset : Imm16) : Statement (.ldc2 rt base offset) :=
  encodeI_and_FC000000 ..
theorem ld (rt base : RegIdx) (offset : Imm16) : Statement (.ld rt base offset) :=
  encodeI_and_FC000000 ..
theorem sc (rt base : RegIdx) (offset : Imm16) : Statement (.sc rt base offset) :=
  encodeI_and_FC000000 ..
theorem swc1 (ft base : RegIdx) (offset : Imm16) : Statement (.swc1 ft base offset) :=
  encodeI_and_FC000000 ..
theorem swc2 (rt base : RegIdx) (offset : Imm16) : Statement (.swc2 rt base offset) :=
  encodeI_and_FC000000 ..
theorem scd (rt base : RegIdx) (offset : Imm16) : Statement (.scd rt base offset) :=
  encodeI_and_FC000000 ..
theorem sdc1 (ft base : RegIdx) (offset : Imm16) : Statement (.sdc1 ft base offset) :=
  encodeI_and_FC000000 ..
theorem sdc2 (rt base : RegIdx) (offset : Imm16) : Statement (.sdc2 rt base offset) :=
  encodeI_and_FC000000 ..
theorem sd (rt base : RegIdx) (offset : Imm16) : Statement (.sd rt base offset) :=
  encodeI_and_FC000000 ..
theorem mfc0 (rt rd : RegIdx) : Statement (.mfc0 rt rd) :=
  encodeCop_and_FFE00000 ..
theorem dmfc0 (rt rd : RegIdx) : Statement (.dmfc0 rt rd) :=
  encodeCop_and_FFE00000 ..
theorem mtc0 (rt rd : RegIdx) : Statement (.mtc0 rt rd) :=
  encodeCop_and_FFE00000 ..
theorem dmtc0 (rt rd : RegIdx) : Statement (.dmtc0 rt rd) :=
  encodeCop_and_FFE00000 ..
theorem tlbr : Statement .tlbr :=
  encodeCop0Function_and_FE00003F ..
theorem tlbwi : Statement .tlbwi :=
  encodeCop0Function_and_FE00003F ..
theorem tlbwr : Statement .tlbwr :=
  encodeCop0Function_and_FE00003F ..
theorem tlbp : Statement .tlbp :=
  encodeCop0Function_and_FE00003F ..
theorem eret : Statement .eret :=
  encodeCop0Function_and_FE00003F ..
theorem cop1 (bits : BitVec 26) : Statement (.cop1 bits) :=
  encodeJ_and_FC000000 ..
theorem mfc2 (rt rd : RegIdx) : Statement (.mfc2 rt rd) :=
  encodeCop_and_FFE00000 ..
theorem dmfc2 (rt rd : RegIdx) : Statement (.dmfc2 rt rd) :=
  encodeCop_and_FFE00000 ..
theorem cfc2 (rt rd : RegIdx) : Statement (.cfc2 rt rd) :=
  encodeCop_and_FFE00000 ..
theorem dcfc2 (rt rd : RegIdx) : Statement (.dcfc2 rt rd) :=
  encodeCop_and_FFE00000 ..
theorem mtc2 (rt rd : RegIdx) : Statement (.mtc2 rt rd) :=
  encodeCop_and_FFE00000 ..
theorem dmtc2 (rt rd : RegIdx) : Statement (.dmtc2 rt rd) :=
  encodeCop_and_FFE00000 ..
theorem ctc2 (rt rd : RegIdx) : Statement (.ctc2 rt rd) :=
  encodeCop_and_FFE00000 ..
theorem dctc2 (rt rd : RegIdx) : Statement (.dctc2 rt rd) :=
  encodeCop_and_FFE00000 ..

end Sys2Proof.Laws.Encoding
end

