-- ==== Sys2Proof/Laws/Step.lean ====
section
/-! SUPPORT. The step around the execute phase: whose turn it is, the next instruction, fetching, and what a step
of the CPU can end in (42_control.md rules R290, R292, 60_exceptions.md rules R520, R530). -/

namespace Sys2Proof.Machine

/-! ### The next instruction -/

theorem State.nextInstruction_iff (s : State) (c : Word) (d : Bool) : s.nextInstruction = (c, d) ↔ s.NextIs c d := by
  unfold State.nextInstruction State.NextIs
  cases s.pending with
  | none => simp [Prod.ext_iff, eq_comm]
  | some p => by_cases h : p.remaining = 0 <;> simp [h, Prod.ext_iff, eq_comm]

/-- A core is halted when its next instruction is at HALT_PC, outside a delay slot (R550). -/
theorem State.halted_iff (s : State) : s.halted = true ↔ ∃ a, s.params.haltPc = some a ∧ s.NextIs a false := by
  unfold State.halted
  cases h : s.params.haltPc with
  | none => simp
  | some a => simp [State.nextInstruction_iff]

/-- Phase 1: the pc at the next instruction, the pending jump counted down (R290). -/
theorem State.advancePending_eq (s : State) {c : Word} {d : Bool} (h : s.NextIs c d) :
    s.advancePending = { s with pc := c, pending := s.pendingInExecute } ∧ s.advancePending.inDelay = d := by
  unfold State.advancePending State.pendingInExecute State.inDelay
  unfold State.NextIs at h
  cases hp : s.pending with
  | none =>
    simp only [hp] at h
    obtain ⟨rfl, rfl⟩ := h
    simp only [hp, and_true]
    cases s; simp_all
  | some p =>
    by_cases hr : p.remaining = 0 <;> simp only [hp, hr, if_true, if_false] at h ⊢ <;> obtain ⟨rfl, rfl⟩ := h <;> simp

/-! ### Whose turn it is -/

/-- When the core runs, the step is its step (R530). -/
theorem step_of_cpuRuns {s : State} (h : s.CpuRuns) : step s = s.turnTaken.cpuStep := by
  obtain ⟨h1, h2⟩ := h
  have hh : s.halted = false := by
    rw [← Bool.not_eq_true, State.halted_iff]
    rintro ⟨a, ha, hn⟩
    exact h2 a ha hn
  unfold step State.takeTurn
  rcases h1 with ⟨h1, hd⟩ | h1
  · have e : s.turnTaken = s := by unfold State.turnTaken; rw [h1]; cases s; simp_all
    simp only [h1, State.defaultTurn, hd, hh, e]
    rfl
  · cases hs : s.schedule with
    | nil => rw [hs] at h1; cases h1
    | cons x rest =>
      rw [hs] at h1
      cases h1
      simp only [hh, State.turnTaken, hs]
      rfl

/-- Every step is the environment's, a completion of the DMA engine, the end of the run, or a step of the core. -/
theorem step_cases (s : State) :
    (∃ a, step s = .next (s.turnTaken.environment a)) ∨ step s = .next s.turnTaken.dmaCompletion
      ∨ step s = .fault .halted ∨ step s = s.turnTaken.cpuStep := by
  have hd : s.turnTaken.defaultTurn = .next s.turnTaken.dmaCompletion ∨ s.turnTaken.defaultTurn = .fault .halted
      ∨ s.turnTaken.defaultTurn = s.turnTaken.cpuStep := by
    unfold State.defaultTurn
    cases s.turnTaken.dmaInflight <;> cases s.turnTaken.halted <;> simp
  unfold step State.takeTurn
  cases hs : s.schedule with
  | nil =>
    have e : s.turnTaken = s := by unfold State.turnTaken; rw [hs]; cases s; simp_all
    rw [e] at hd ⊢
    exact .inr hd
  | cons x rest =>
    have e : { s with schedule := rest } = s.turnTaken := by unfold State.turnTaken; rw [hs]; rfl
    cases x with
    | cpu =>
      dsimp only
      rw [e]
      split
      · exact .inr hd
      · exact .inr (.inr (.inr rfl))
    | dma =>
      dsimp only
      rw [e]
      exact .inr hd
    | env a =>
      dsimp only
      rw [e]
      exact .inl ⟨a, rfl⟩

/-! ### A step of the core -/

theorem tickOutcome_next {o : Host.Outcome State Fault Refusal} {t : State} (h : tickOutcome o = .next t) :
    ∃ u, o = .next u ∧ t = u.tick := by
  cases o <;> cases h
  exact ⟨_, rfl, rfl⟩

theorem State.cpuStep_refused {s : State} {r : Refusal} (h : s.startRefusal = some r) : s.cpuStep = .refused r := by
  rw [State.cpuStep, h]

theorem State.cpuStep_interrupt {s : State} (h : s.Modelled) (hi : s.InterruptDue) :
    s.cpuStep = tickOutcome (s.takeException .interrupt s.nextInstruction.1 s.nextInstruction.2) := by
  rw [State.cpuStep, s.startRefusal_none.mpr h]
  simp only [s.interruptPending_iff.mpr hi, if_true]

theorem State.cpuStep_execute {s : State} (h : s.Modelled) (hi : ¬ s.InterruptDue) :
    s.cpuStep = tickOutcome s.advancePending.fetchExecute := by
  have : ¬ s.interruptPending = true := fun h => hi (s.interruptPending_iff.mp h)
  rw [State.cpuStep, s.startRefusal_none.mpr h]
  simp only [this]
  rfl

/-- The word fetched where memory holds four bytes (R133). -/
theorem State.fetch_holds {s : State} {va : Word} {p : Nat} {b0 b1 b2 b3 : Byte} (hm : s.MapsTo va p)
    (ha : p % 4 = 0) (h : s.HoldsBytes p [b0, b1, b2, b3]) : s.fetch va = .ok (b0 ++ b1 ++ b2 ++ b3) := by
  obtain ⟨v, hv, hb, hj⟩ := State.physRead_holds (bytes := [b0, b1, b2, b3]) (by norm_num) ha h .other
  have e : lo32 v = b0 ++ b1 ++ b2 ++ b3 := by
    apply BitVec.eq_of_toNat_eq
    rw [lo32, BitVec.toNat_setWidth, hb]
    have h0 := b0.isLt
    have h1 := b1.isLt
    have h2 := b2.isLt
    have h3 := b3.isLt
    simp only [bigEndian, List.foldl, BitVec.toNat_append]
    rw [← Nat.shiftLeft_add_eq_or_of_lt h3, ← Nat.shiftLeft_add_eq_or_of_lt h2, ← Nat.shiftLeft_add_eq_or_of_lt h1]
    simp only [Nat.shiftLeft_eq]
    omega
  have h0 := h 0 (by simp)
  rw [Nat.add_zero] at h0
  rw [State.fetch, State.alignedAddress_mapsTo hm (by norm_num) ha, ok_bind, hm.toNat]
  rcases regionOf_cases p with ⟨_, hp⟩ | ⟨o, _, hp⟩ | ⟨o, _, hp⟩ | ⟨_, _, hp⟩ | ⟨_, _, hp⟩ | ⟨_, hp⟩
  · simp only [hp]; rw [show (4 : Nat) = [b0, b1, b2, b3].length from rfl, hv]; exact congrArg _ e
  · rw [State.byteAt, hp] at h0; cases h0
  · rw [State.byteAt, hp] at h0; cases h0
  · simp only [hp]; rw [show (4 : Nat) = [b0, b1, b2, b3].length from rfl, hv]; exact congrArg _ e
  · simp only [hp]; rw [show (4 : Nat) = [b0, b1, b2, b3].length from rfl, hv]; exact congrArg _ e
  · rw [State.byteAt, hp] at h0; cases h0

/-- What a fetched word, or the refusal or exception of fetching it, can end in: exception entry at the
instruction's address, or an effect of an instruction. -/
theorem State.fetchExecute_ends {s t : State} (h : s.fetchExecute = .next t) :
    (∃ e a bd, t = s.enter e a bd) ∨ (∃ e a bd, t = State.enter { s with pc := s.pc + 4 } e a bd)
      ∨ ∃ i, exec i { s with pc := s.pc + 4 } = .next t := by
  unfold State.fetchExecute at h
  split at h
  · rename_i x _
    cases x with
    | raise e => exact .inl ⟨e, _, _, (State.takeException_next.mp h).2⟩
    | refuse r => cases h
  · unfold State.executeWord at h
    split at h
    · exact .inr (.inr ⟨_, h⟩)
    · rename_i r _
      have key {c : Result Unit} {e : Exc} {u : State} (h : u.complete (c.bind fun _ => raise e) = .next t) :
          ∃ e a bd, t = u.enter e a bd := by
        rcases State.complete_next.mp h with h | ⟨e, _, _, ht⟩
        · obtain ⟨_, _, h⟩ := bind_ok.mp h; cases h
        · exact ⟨e, _, _, ht⟩
      refine .inr (.inl ?_)
      cases r with
      | general => exact key (c := .ok ()) h
      | cop0 => exact key h
      | cop2 => exact key h
      | notAWord => exact key (c := .ok ()) h

end Sys2Proof.Machine
end

