-- ==== Sys2Proof/Tests/Slice0.lean ====
section
/-! SUPPORT. Tests of the model against the spec's own examples and vectors (95_test_vectors.md), the words of
30_encoding.md written out, the WellFormed checks, and a witness for every obligation's hypotheses. -/

namespace Sys2Proof.Tests

open Sys2Proof.Machine

/-! ### Helpers -/

/-- `BASE` of 95_test_vectors.md section 2, where a vector's first word sits. -/
def base : Word := 0xFFFFFFFF80001000

/-- A vector's start: these registers set, the word `w` at BASE, the data of section 3.4 in RAM. -/
def start (regs : List (RegIdx × Word)) (w : Nat) : State :=
  (regs.foldl (fun (s : State) r => s.setGpr r.1 r.2)
    { State.reset with
      pc := base
      ram := [(0x2000, 0x11), (0x2001, 0x22), (0x2002, 0x33), (0x2003, 0x44), (0x2004, 0x55), (0x2005, 0x66),
        (0x2006, 0x77), (0x2007, 0x88), (0x2008, 0x80), (0x2009, 0x01), (0x200A, 0xFF), (0x200B, 0xFE)] }).withFetchWord 32 w

/-- `s` with this Status. -/
def withStatus (s : State) (v : BitVec 32) : State := { s with cp0 := { s.cp0 with status := v } }

/-- What `f` reads of a next state. -/
def after {α : Type} (o : Host.Outcome State Fault Refusal) (f : State → α) : Option α :=
  match o with
  | .next t => some (f t)
  | .fault _ => none
  | .refused _ => none

/-- A register after the step. -/
def gprAfter (s : State) (r : RegIdx) : Option Word := after (step s) (·.gpr r)

/-- HI and LO after the step. -/
def hiLoAfter (s : State) : Option (Word × Word) := after (step s) fun t => (t.hi, t.lo)

/-- ExcCode and EPC after a step that entered an exception. -/
def excAfter (s : State) : Option (BitVec 5 × Word) :=
  (after (step s) fun t => if t.exl then some (t.cp0.cause.excCode, t.cp0.epc) else none).join

/-- The pc and the pending jump after the step. -/
def jumpAfter (s : State) : Option (Word × Option PendingJump) := after (step s) fun t => (t.pc, t.pending)

/-- RAM from 0x2000 after the step. -/
def memAfter (s : State) (n : Nat) : Option (List Byte) :=
  after (step s) fun t => (List.range n).map fun i => t.ram.read (0x2000 + i)

/-- The refusal the step answers. -/
def refusalOf (s : State) : Option Refusal :=
  match step s with
  | .next _ => none
  | .fault _ => none
  | .refused r => some r

/-! ### Well-formedness and the host's words -/

/-- R303, R40, R54: an ill-formed term for each check, refused, and its well-formed neighbour. -/
theorem test_wellFormed :
    WellFormed (.jalr 4 4) = false ∧ WellFormed (.jalr 0 0) = true ∧ WellFormed (.jalr 31 4) = true
    ∧ WellFormed (.mfc0 2 0) = false ∧ WellFormed (.mtc0 2 31) = false ∧ WellFormed (.mfc0 2 8) = true
    ∧ WellFormed (.dmfc0 2 9) = false ∧ WellFormed (.dmtc0 2 12) = false ∧ WellFormed (.dmtc0 2 14) = true := by
  decide

/-- R184: a field the format fixes at 0 is ignored; R180: the bytes are big-endian. -/
theorem test_decode_ignored_and_bytes :
    decode 0b000000_11111_00010_00011_00100_000000#32 = .ok (.sll 3 2 4)
    ∧ decodeBytes [0x00, 0x22, 0x18, 0x21] = .ok (.addu 3 1 2) ∧ decodeBytes [0x00, 0x22, 0x18] = .error .notAWord
    ∧ decodeTableWord 32 0x00221821 = some (.addu 3 1 2) ∧ decodeTableWord 32 0x4C000000 = none := by
  decide

/-- The placed word is what reset's next step runs. -/
theorem test_withFetchWord :
    gprAfter (State.reset.withFetchWord 32 0x24050001) 5 = some 1
    ∧ (State.reset.withFetchWord 32 0x24050001).pc = resetVector := by
  decide

/-! ### The encodings of every constructor -/

/-- R186, part 1: words written out from the map, every operand nonzero where the format has one. -/
theorem test_decode_special_1 :
    decode 0b000000_00000_00010_00011_00100_000000#32 = .ok (.sll 3 2 4)
    ∧ decode 0b000000_00000_00010_00011_00100_000010#32 = .ok (.srl 3 2 4)
    ∧ decode 0b000000_00000_00010_00011_00100_000011#32 = .ok (.sra 3 2 4)
    ∧ decode 0b000000_00001_00010_00011_00000_000100#32 = .ok (.sllv 3 2 1)
    ∧ decode 0b000000_00001_00010_00011_00000_000110#32 = .ok (.srlv 3 2 1)
    ∧ decode 0b000000_00001_00010_00011_00000_000111#32 = .ok (.srav 3 2 1)
    ∧ decode 0b000000_00001_00000_00000_00000_001000#32 = .ok (.jr 1)
    ∧ decode 0b000000_00001_00000_00011_00000_001001#32 = .ok (.jalr 3 1)
    ∧ decode 0b000000_10000000000000000101_001100#32 = .ok (.syscall 0x80005)
    ∧ decode 0b000000_10000000000000000101_001101#32 = .ok (.brk 0x80005)
    ∧ decode 0b000000_00000_00000_00000_00000_001111#32 = .ok .sync
    ∧ decode 0b000000_00000_00000_00011_00000_010000#32 = .ok (.mfhi 3)
    ∧ decode 0b000000_00001_00000_00000_00000_010001#32 = .ok (.mthi 1) := by
  decide

/-- R186, part 2: words written out from the map, every operand nonzero where the format has one. -/
theorem test_decode_special_2 :
    decode 0b000000_00000_00000_00011_00000_010010#32 = .ok (.mflo 3)
    ∧ decode 0b000000_00001_00000_00000_00000_010011#32 = .ok (.mtlo 1)
    ∧ decode 0b000000_00001_00010_00011_00000_010100#32 = .ok (.dsllv 3 2 1)
    ∧ decode 0b000000_00001_00010_00011_00000_010110#32 = .ok (.dsrlv 3 2 1)
    ∧ decode 0b000000_00001_00010_00011_00000_010111#32 = .ok (.dsrav 3 2 1)
    ∧ decode 0b000000_00001_00010_00000_00000_011000#32 = .ok (.mult 1 2)
    ∧ decode 0b000000_00001_00010_00000_00000_011001#32 = .ok (.multu 1 2)
    ∧ decode 0b000000_00001_00010_00000_00000_011010#32 = .ok (.div 1 2)
    ∧ decode 0b000000_00001_00010_00000_00000_011011#32 = .ok (.divu 1 2)
    ∧ decode 0b000000_00001_00010_00000_00000_011100#32 = .ok (.dmult 1 2)
    ∧ decode 0b000000_00001_00010_00000_00000_011101#32 = .ok (.dmultu 1 2)
    ∧ decode 0b000000_00001_00010_00000_00000_011110#32 = .ok (.ddiv 1 2)
    ∧ decode 0b000000_00001_00010_00000_00000_011111#32 = .ok (.ddivu 1 2) := by
  decide

/-- R186, part 3: words written out from the map, every operand nonzero where the format has one. -/
theorem test_decode_special_3 :
    decode 0b000000_00001_00010_00011_00000_100000#32 = .ok (.add 3 1 2)
    ∧ decode 0b000000_00001_00010_00011_00000_100001#32 = .ok (.addu 3 1 2)
    ∧ decode 0b000000_00001_00010_00011_00000_100010#32 = .ok (.sub 3 1 2)
    ∧ decode 0b000000_00001_00010_00011_00000_100011#32 = .ok (.subu 3 1 2)
    ∧ decode 0b000000_00001_00010_00011_00000_100100#32 = .ok (.and 3 1 2)
    ∧ decode 0b000000_00001_00010_00011_00000_100101#32 = .ok (.or 3 1 2)
    ∧ decode 0b000000_00001_00010_00011_00000_100110#32 = .ok (.xor 3 1 2)
    ∧ decode 0b000000_00001_00010_00011_00000_100111#32 = .ok (.nor 3 1 2)
    ∧ decode 0b000000_00001_00010_00011_00000_101010#32 = .ok (.slt 3 1 2)
    ∧ decode 0b000000_00001_00010_00011_00000_101011#32 = .ok (.sltu 3 1 2)
    ∧ decode 0b000000_00001_00010_00011_00000_101100#32 = .ok (.dadd 3 1 2)
    ∧ decode 0b000000_00001_00010_00011_00000_101101#32 = .ok (.daddu 3 1 2)
    ∧ decode 0b000000_00001_00010_00011_00000_101110#32 = .ok (.dsub 3 1 2) := by
  decide

/-- R186, part 4: words written out from the map, every operand nonzero where the format has one. -/
theorem test_decode_special_4 :
    decode 0b000000_00001_00010_00011_00000_101111#32 = .ok (.dsubu 3 1 2)
    ∧ decode 0b000000_00001_00010_1000000101_110000#32 = .ok (.tge 1 2 0x205)
    ∧ decode 0b000000_00001_00010_1000000101_110001#32 = .ok (.tgeu 1 2 0x205)
    ∧ decode 0b000000_00001_00010_1000000101_110010#32 = .ok (.tlt 1 2 0x205)
    ∧ decode 0b000000_00001_00010_1000000101_110011#32 = .ok (.tltu 1 2 0x205)
    ∧ decode 0b000000_00001_00010_1000000101_110100#32 = .ok (.teq 1 2 0x205)
    ∧ decode 0b000000_00001_00010_1000000101_110110#32 = .ok (.tne 1 2 0x205)
    ∧ decode 0b000000_00000_00010_00011_00100_111000#32 = .ok (.dsll 3 2 4)
    ∧ decode 0b000000_00000_00010_00011_00100_111010#32 = .ok (.dsrl 3 2 4)
    ∧ decode 0b000000_00000_00010_00011_00100_111011#32 = .ok (.dsra 3 2 4)
    ∧ decode 0b000000_00000_00010_00011_00100_111100#32 = .ok (.dsll32 3 2 4)
    ∧ decode 0b000000_00000_00010_00011_00100_111110#32 = .ok (.dsrl32 3 2 4)
    ∧ decode 0b000000_00000_00010_00011_00100_111111#32 = .ok (.dsra32 3 2 4) := by
  decide

/-- R187, part 1: words written out from the map, every operand nonzero where the format has one. -/
theorem test_decode_regimm_1 :
    decode 0b000001_00001_00000_1000000000000101#32 = .ok (.bltz 1 0x8005)
    ∧ decode 0b000001_00001_00001_1000000000000101#32 = .ok (.bgez 1 0x8005)
    ∧ decode 0b000001_00001_00010_1000000000000101#32 = .ok (.bltzl 1 0x8005)
    ∧ decode 0b000001_00001_00011_1000000000000101#32 = .ok (.bgezl 1 0x8005)
    ∧ decode 0b000001_00001_01000_1000000000000101#32 = .ok (.tgei 1 0x8005)
    ∧ decode 0b000001_00001_01001_1000000000000101#32 = .ok (.tgeiu 1 0x8005)
    ∧ decode 0b000001_00001_01010_1000000000000101#32 = .ok (.tlti 1 0x8005)
    ∧ decode 0b000001_00001_01011_1000000000000101#32 = .ok (.tltiu 1 0x8005)
    ∧ decode 0b000001_00001_01100_1000000000000101#32 = .ok (.teqi 1 0x8005)
    ∧ decode 0b000001_00001_01110_1000000000000101#32 = .ok (.tnei 1 0x8005)
    ∧ decode 0b000001_00001_10000_1000000000000101#32 = .ok (.bltzal 1 0x8005)
    ∧ decode 0b000001_00001_10001_1000000000000101#32 = .ok (.bgezal 1 0x8005)
    ∧ decode 0b000001_00001_10010_1000000000000101#32 = .ok (.bltzall 1 0x8005)
    ∧ decode 0b000001_00001_10011_1000000000000101#32 = .ok (.bgezall 1 0x8005) := by
  decide

/-- R185, part 1: words written out from the map, every operand nonzero where the format has one. -/
theorem test_decode_primary_1 :
    decode 0b000010_10000000000000000000000101#32 = .ok (.j 0x2000005)
    ∧ decode 0b000011_10000000000000000000000101#32 = .ok (.jal 0x2000005)
    ∧ decode 0b000100_00001_00010_1000000000000101#32 = .ok (.beq 1 2 0x8005)
    ∧ decode 0b000101_00001_00010_1000000000000101#32 = .ok (.bne 1 2 0x8005)
    ∧ decode 0b000110_00001_00000_1000000000000101#32 = .ok (.blez 1 0x8005)
    ∧ decode 0b000111_00001_00000_1000000000000101#32 = .ok (.bgtz 1 0x8005)
    ∧ decode 0b001000_00001_00010_1000000000000101#32 = .ok (.addi 2 1 0x8005)
    ∧ decode 0b001001_00001_00010_1000000000000101#32 = .ok (.addiu 2 1 0x8005)
    ∧ decode 0b001010_00001_00010_1000000000000101#32 = .ok (.slti 2 1 0x8005)
    ∧ decode 0b001011_00001_00010_1000000000000101#32 = .ok (.sltiu 2 1 0x8005)
    ∧ decode 0b001100_00001_00010_1000000000000101#32 = .ok (.andi 2 1 0x8005)
    ∧ decode 0b001101_00001_00010_1000000000000101#32 = .ok (.ori 2 1 0x8005)
    ∧ decode 0b001110_00001_00010_1000000000000101#32 = .ok (.xori 2 1 0x8005) := by
  decide

/-- R185, part 2: words written out from the map, every operand nonzero where the format has one. -/
theorem test_decode_primary_2 :
    decode 0b001111_00000_00010_1000000000000101#32 = .ok (.lui 2 0x8005)
    ∧ decode 0b010100_00001_00010_1000000000000101#32 = .ok (.beql 1 2 0x8005)
    ∧ decode 0b010101_00001_00010_1000000000000101#32 = .ok (.bnel 1 2 0x8005)
    ∧ decode 0b010110_00001_00000_1000000000000101#32 = .ok (.blezl 1 0x8005)
    ∧ decode 0b010111_00001_00000_1000000000000101#32 = .ok (.bgtzl 1 0x8005)
    ∧ decode 0b011000_00001_00010_1000000000000101#32 = .ok (.daddi 2 1 0x8005)
    ∧ decode 0b011001_00001_00010_1000000000000101#32 = .ok (.daddiu 2 1 0x8005)
    ∧ decode 0b011010_00001_00010_1000000000000101#32 = .ok (.ldl 2 1 0x8005)
    ∧ decode 0b011011_00001_00010_1000000000000101#32 = .ok (.ldr 2 1 0x8005)
    ∧ decode 0b100000_00001_00010_1000000000000101#32 = .ok (.lb 2 1 0x8005)
    ∧ decode 0b100001_00001_00010_1000000000000101#32 = .ok (.lh 2 1 0x8005)
    ∧ decode 0b100010_00001_00010_1000000000000101#32 = .ok (.lwl 2 1 0x8005)
    ∧ decode 0b100011_00001_00010_1000000000000101#32 = .ok (.lw 2 1 0x8005) := by
  decide

/-- R185, part 3: words written out from the map, every operand nonzero where the format has one. -/
theorem test_decode_primary_3 :
    decode 0b100100_00001_00010_1000000000000101#32 = .ok (.lbu 2 1 0x8005)
    ∧ decode 0b100101_00001_00010_1000000000000101#32 = .ok (.lhu 2 1 0x8005)
    ∧ decode 0b100110_00001_00010_1000000000000101#32 = .ok (.lwr 2 1 0x8005)
    ∧ decode 0b100111_00001_00010_1000000000000101#32 = .ok (.lwu 2 1 0x8005)
    ∧ decode 0b101000_00001_00010_1000000000000101#32 = .ok (.sb 2 1 0x8005)
    ∧ decode 0b101001_00001_00010_1000000000000101#32 = .ok (.sh 2 1 0x8005)
    ∧ decode 0b101010_00001_00010_1000000000000101#32 = .ok (.swl 2 1 0x8005)
    ∧ decode 0b101011_00001_00010_1000000000000101#32 = .ok (.sw 2 1 0x8005)
    ∧ decode 0b101100_00001_00010_1000000000000101#32 = .ok (.sdl 2 1 0x8005)
    ∧ decode 0b101101_00001_00010_1000000000000101#32 = .ok (.sdr 2 1 0x8005)
    ∧ decode 0b101110_00001_00010_1000000000000101#32 = .ok (.swr 2 1 0x8005)
    ∧ decode 0b101111_00001_00010_1000000000000101#32 = .ok (.cache 2 1 0x8005)
    ∧ decode 0b110000_00001_00010_1000000000000101#32 = .ok (.ll 2 1 0x8005) := by
  decide

/-- R185, part 4: words written out from the map, every operand nonzero where the format has one. -/
theorem test_decode_primary_4 :
    decode 0b110001_00001_00010_1000000000000101#32 = .ok (.lwc1 2 1 0x8005)
    ∧ decode 0b110010_00001_00010_1000000000000101#32 = .ok (.lwc2 2 1 0x8005)
    ∧ decode 0b110100_00001_00010_1000000000000101#32 = .ok (.lld 2 1 0x8005)
    ∧ decode 0b110101_00001_00010_1000000000000101#32 = .ok (.ldc1 2 1 0x8005)
    ∧ decode 0b110110_00001_00010_1000000000000101#32 = .ok (.ldc2 2 1 0x8005)
    ∧ decode 0b110111_00001_00010_1000000000000101#32 = .ok (.ld 2 1 0x8005)
    ∧ decode 0b111000_00001_00010_1000000000000101#32 = .ok (.sc 2 1 0x8005)
    ∧ decode 0b111001_00001_00010_1000000000000101#32 = .ok (.swc1 2 1 0x8005)
    ∧ decode 0b111010_00001_00010_1000000000000101#32 = .ok (.swc2 2 1 0x8005)
    ∧ decode 0b111100_00001_00010_1000000000000101#32 = .ok (.scd 2 1 0x8005)
    ∧ decode 0b111101_00001_00010_1000000000000101#32 = .ok (.sdc1 2 1 0x8005)
    ∧ decode 0b111110_00001_00010_1000000000000101#32 = .ok (.sdc2 2 1 0x8005)
    ∧ decode 0b111111_00001_00010_1000000000000101#32 = .ok (.sd 2 1 0x8005) := by
  decide

/-- R188, R189, R441, part 1: words written out from the map, every operand nonzero where the format has one. -/
theorem test_decode_cop_1 :
    decode 0b010000_00000_00010_01100_00000000000#32 = .ok (.mfc0 2 12)
    ∧ decode 0b010000_00001_00010_01100_00000000000#32 = .ok (.dmfc0 2 12)
    ∧ decode 0b010000_00100_00010_01100_00000000000#32 = .ok (.mtc0 2 12)
    ∧ decode 0b010000_00101_00010_01100_00000000000#32 = .ok (.dmtc0 2 12)
    ∧ decode 0b010000_1_0000000000000000000_000001#32 = .ok .tlbr
    ∧ decode 0b010000_1_0000000000000000000_000010#32 = .ok .tlbwi
    ∧ decode 0b010000_1_0000000000000000000_000110#32 = .ok .tlbwr
    ∧ decode 0b010000_1_0000000000000000000_001000#32 = .ok .tlbp
    ∧ decode 0b010000_1_0000000000000000000_011000#32 = .ok .eret := by
  decide

/-- R188, R189, R441, part 2: words written out from the map, every operand nonzero where the format has one. -/
theorem test_decode_cop_2 :
    decode 0b010001_10000000000000000000000101#32 = .ok (.cop1 0x2000005)
    ∧ decode 0b010010_00000_00010_01100_00000000000#32 = .ok (.mfc2 2 12)
    ∧ decode 0b010010_00001_00010_01100_00000000000#32 = .ok (.dmfc2 2 12)
    ∧ decode 0b010010_00010_00010_01100_00000000000#32 = .ok (.cfc2 2 12)
    ∧ decode 0b010010_00011_00010_01100_00000000000#32 = .ok (.dcfc2 2 12)
    ∧ decode 0b010010_00100_00010_01100_00000000000#32 = .ok (.mtc2 2 12)
    ∧ decode 0b010010_00101_00010_01100_00000000000#32 = .ok (.dmtc2 2 12)
    ∧ decode 0b010010_00110_00010_01100_00000000000#32 = .ok (.ctc2 2 12)
    ∧ decode 0b010010_00111_00010_01100_00000000000#32 = .ok (.dctc2 2 12) := by
  decide

/-! ### One step of the spec's vectors (95_test_vectors.md), by their ids; the few others by their rule -/

/-- VA1: overflow leaves the destination. -/
theorem test_add :
    excAfter (start [(1, 0x7FFFFFFF), (2, 0x1), (3, 0x55)] 0x00221820) = some (12, base)
    ∧ gprAfter (start [(1, 0x7FFFFFFF), (2, 0x1), (3, 0x55)] 0x00221820) 3 = some 0x55 := by
  decide

/-- VA2, VA3, VA44: wrap, only the low word is used, register 0 discards. -/
theorem test_addu :
    gprAfter (start [(1, 0x7FFFFFFF), (2, 0x1)] 0x00221821) 3 = some 0xFFFFFFFF80000000
    ∧ gprAfter (start [(1, 0x100000001)] 0x00201821) 3 = some 0x1
    ∧ gprAfter (start [(1, 0x5), (2, 0x6)] 0x00220021) 0 = some 0x0 := by
  decide

/-- VA4. -/
theorem test_addi :
    excAfter (start [(1, 0xFFFFFFFF80000000)] 0x2023FFFF) = some (12, base) := by
  decide

/-- VA5. -/
theorem test_addiu :
    gprAfter (start [(1, 0xFFFFFFFF80000000)] 0x2423FFFF) 3 = some 0x7FFFFFFF := by
  decide

/-- VA6. -/
theorem test_sub :
    excAfter (start [(1, 0xFFFFFFFF80000000), (2, 0x1)] 0x00221822) = some (12, base) := by
  decide

/-- VA7. -/
theorem test_subu :
    gprAfter (start [(2, 0x1)] 0x00021823) 3 = some 0xFFFFFFFFFFFFFFFF := by
  decide

/-- VA8. -/
theorem test_dadd :
    excAfter (start [(1, 0x7FFFFFFFFFFFFFFF), (2, 0x1)] 0x0022182C) = some (12, base) := by
  decide

/-- VA9. -/
theorem test_daddu :
    gprAfter (start [(1, 0x7FFFFFFFFFFFFFFF), (2, 0x1)] 0x0022182D) 3 = some 0x8000000000000000 := by
  decide

/-- VA10. -/
theorem test_daddi :
    excAfter (start [(1, 0x8000000000000000)] 0x60238000) = some (12, base) := by
  decide

/-- VA11. -/
theorem test_daddiu :
    gprAfter (start [] 0x64238000) 3 = some 0xFFFFFFFFFFFF8000 := by
  decide

/-- VA12. -/
theorem test_dsub :
    excAfter (start [(1, 0x8000000000000000), (2, 0x1)] 0x0022182E) = some (12, base) := by
  decide

/-- VA13. -/
theorem test_dsubu :
    gprAfter (start [(2, 0x1)] 0x0022182F) 3 = some 0xFFFFFFFFFFFFFFFF := by
  decide

/-- VA14. -/
theorem test_slt :
    gprAfter (start [(1, 0xFFFFFFFFFFFFFFFF), (2, 0x1)] 0x0022182A) 3 = some 0x1 := by
  decide

/-- VA15. -/
theorem test_sltu :
    gprAfter (start [(1, 0xFFFFFFFFFFFFFFFF), (2, 0x1), (3, 0x9)] 0x0022182B) 3 = some 0x0 := by
  decide

/-- VA16. -/
theorem test_slti :
    gprAfter (start [(3, 0x9)] 0x28238000) 3 = some 0x0 := by
  decide

/-- VA17. -/
theorem test_sltiu :
    gprAfter (start [(1, 0x5)] 0x2C23FFFF) 3 = some 0x1 := by
  decide

/-- VA18. -/
theorem test_andi :
    gprAfter (start [(1, 0xFFFFFFFFFFFFFFFF)] 0x3023FFFF) 3 = some 0xFFFF := by
  decide

/-- VA19. -/
theorem test_ori :
    gprAfter (start [] 0x34238000) 3 = some 0x8000 := by
  decide

/-- VA20. -/
theorem test_xori :
    gprAfter (start [(1, 0xFF)] 0x3823FFFF) 3 = some 0xFF00 := by
  decide

/-- VA21. -/
theorem test_lui :
    gprAfter (start [] 0x3C038000) 3 = some 0xFFFFFFFF80000000 := by
  decide

/-- VA22. -/
theorem test_and :
    gprAfter (start [(1, 0xF0F0), (2, 0xFF00)] 0x00221824) 3 = some 0xF000 := by
  decide

/-- VA23. -/
theorem test_or :
    gprAfter (start [(1, 0xF0F0), (2, 0xFF00)] 0x00221825) 3 = some 0xFFF0 := by
  decide

/-- VA24. -/
theorem test_xor :
    gprAfter (start [(1, 0xF0F0), (2, 0xFF00)] 0x00221826) 3 = some 0xFF0 := by
  decide

/-- VA25. -/
theorem test_nor :
    gprAfter (start [] 0x00221827) 3 = some 0xFFFFFFFFFFFFFFFF := by
  decide

/-- VA26. -/
theorem test_sll :
    gprAfter (start [(2, 0x1)] 0x00021FC0) 3 = some 0xFFFFFFFF80000000 := by
  decide

/-- VA27. -/
theorem test_srl :
    gprAfter (start [(2, 0xFFFFFFFF80000000)] 0x00021902) 3 = some 0x8000000 := by
  decide

/-- VA28, VA29: the whole register is shifted. -/
theorem test_sra :
    gprAfter (start [(2, 0xFFFFFFFF80000000)] 0x00021903) 3 = some 0xFFFFFFFFF8000000
    ∧ gprAfter (start [(2, 0x180000000)] 0x00021903) 3 = some 0x18000000 := by
  decide

/-- VA30. -/
theorem test_sllv :
    gprAfter (start [(1, 0x21), (2, 0x1)] 0x00221804) 3 = some 0x2 := by
  decide

/-- VA31. -/
theorem test_srlv :
    gprAfter (start [(1, 0x24), (2, 0x80)] 0x00221806) 3 = some 0x8 := by
  decide

/-- VA32. -/
theorem test_srav :
    gprAfter (start [(1, 0x4), (2, 0xFFFFFFFF80000000)] 0x00221807) 3 = some 0xFFFFFFFFF8000000 := by
  decide

/-- VA33. -/
theorem test_dsll :
    gprAfter (start [(2, 0xF00000000000001)] 0x00021938) 3 = some 0xF000000000000010 := by
  decide

/-- VA34. -/
theorem test_dsrl :
    gprAfter (start [(2, 0x8000000000000000)] 0x0002193A) 3 = some 0x800000000000000 := by
  decide

/-- VA35. -/
theorem test_dsra :
    gprAfter (start [(2, 0x8000000000000000)] 0x0002193B) 3 = some 0xF800000000000000 := by
  decide

/-- VA36. -/
theorem test_dsll32 :
    gprAfter (start [(2, 0x89ABCDEF)] 0x0002183C) 3 = some 0x89ABCDEF00000000 := by
  decide

/-- VA37. -/
theorem test_dsrl32 :
    gprAfter (start [(2, 0x89ABCDEF00000000)] 0x0002183E) 3 = some 0x89ABCDEF := by
  decide

/-- VA38. -/
theorem test_dsra32 :
    gprAfter (start [(2, 0x89ABCDEF00000000)] 0x0002183F) 3 = some 0xFFFFFFFF89ABCDEF := by
  decide

/-- VA39. -/
theorem test_dsllv :
    gprAfter (start [(1, 0x3F), (2, 0x1)] 0x00221814) 3 = some 0x8000000000000000 := by
  decide

/-- VA40. -/
theorem test_dsrlv :
    gprAfter (start [(1, 0x44), (2, 0x80)] 0x00221816) 3 = some 0x8 := by
  decide

/-- VA41. -/
theorem test_dsrav :
    gprAfter (start [(1, 0x3F), (2, 0x8000000000000000)] 0x00221817) 3 = some 0xFFFFFFFFFFFFFFFF := by
  decide

/-- VA42, VA43, VY19: words of no row. -/
theorem test_reserved :
    excAfter (start [] 0x00000001) = some (10, base)
    ∧ excAfter (start [] 0x4C000000) = some (10, base)
    ∧ excAfter (start [] 0x4200003F) = some (10, base) := by
  decide

/-- VD1, VD3. -/
theorem test_mult :
    hiLoAfter (start [(1, 0xFFFFFFFFFFFFFFFF), (2, 0xFFFFFFFFFFFFFFFF)] 0x00220018) = some (0x0, 0x1)
    ∧ hiLoAfter (start [(1, 0x40000000), (2, 0x4)] 0x00220018) = some (0x1, 0x0) := by
  decide

/-- VD2. -/
theorem test_multu :
    hiLoAfter (start [(1, 0xFFFFFFFFFFFFFFFF), (2, 0xFFFFFFFFFFFFFFFF)] 0x00220019) = some (0xFFFFFFFFFFFFFFFE, 0x1) := by
  decide

/-- VD4, VD8. -/
theorem test_div :
    hiLoAfter (start [(1, 0xFFFFFFFFFFFFFFF9), (2, 0x2)] 0x0022001A) = some (0xFFFFFFFFFFFFFFFF, 0xFFFFFFFFFFFFFFFD)
    ∧ hiLoAfter (start [(1, 0xFFFFFFFF80000000), (2, 0xFFFFFFFFFFFFFFFF)] 0x0022001A) = some (0x0, 0xFFFFFFFF80000000) := by
  decide

/-- VD6, VD7. -/
theorem test_div_by_zero :
    hiLoAfter (start [(1, 0x5), (2, 0x0)] 0x0022001A) = some (0x5, 0xFFFFFFFFFFFFFFFF)
    ∧ hiLoAfter (start [(1, 0xFFFFFFFFFFFFFFFB), (2, 0x0)] 0x0022001A) = some (0xFFFFFFFFFFFFFFFB, 0x1) := by
  decide

/-- VD5, VD9. -/
theorem test_divu :
    hiLoAfter (start [(1, 0xFFFFFFFFFFFFFFF9), (2, 0x2)] 0x0022001B) = some (0x1, 0x7FFFFFFC)
    ∧ hiLoAfter (start [(1, 0xFFFFFFFF80000000)] 0x0022001B) = some (0xFFFFFFFF80000000, 0xFFFFFFFFFFFFFFFF) := by
  decide

/-- VD10. -/
theorem test_dmult :
    hiLoAfter (start [(1, 0xFFFFFFFFFFFFFFFF), (2, 0x2)] 0x0022001C) = some (0xFFFFFFFFFFFFFFFF, 0xFFFFFFFFFFFFFFFE) := by
  decide

/-- VD11. -/
theorem test_dmultu :
    hiLoAfter (start [(1, 0xFFFFFFFFFFFFFFFF), (2, 0xFFFFFFFFFFFFFFFF)] 0x0022001D) = some (0xFFFFFFFFFFFFFFFE, 0x1) := by
  decide

/-- VD12, VD13. -/
theorem test_ddiv :
    hiLoAfter (start [(1, 0x8000000000000000), (2, 0xFFFFFFFFFFFFFFFF)] 0x0022001E) = some (0x0, 0x8000000000000000)
    ∧ hiLoAfter (start [(1, 0xFFFFFFFFFFFFFFF9), (2, 0x2)] 0x0022001E) = some (0xFFFFFFFFFFFFFFFF, 0xFFFFFFFFFFFFFFFD) := by
  decide

/-- VD14. -/
theorem test_ddivu :
    hiLoAfter (start [(1, 0x7)] 0x0022001F) = some (0x7, 0xFFFFFFFFFFFFFFFF) := by
  decide

/-- VD15, each instruction on its own. -/
theorem test_hi_lo_moves :
    hiLoAfter (start [(1, 0xAA)] 0x00200011) = some (0xAA, 0x0)
    ∧ hiLoAfter (start [(2, 0xBB)] 0x00400013) = some (0x0, 0xBB)
    ∧ gprAfter ({ start [] 0x00001810 with hi := 0xAA, lo := 0xBB }) 3 = some 0xAA
    ∧ gprAfter ({ start [] 0x00002012 with hi := 0xAA, lo := 0xBB }) 4 = some 0xBB := by
  decide

/-- VC1, its first step. -/
theorem test_j :
    jumpAfter (start [] 0x08000080) = some ((base + 4), some ⟨0xFFFFFFFF80000200, 1⟩) := by
  decide

/-- VC3, its first step. -/
theorem test_jal :
    jumpAfter (start [] 0x0C000080) = some ((base + 4), some ⟨0xFFFFFFFF80000200, 1⟩)
    ∧ gprAfter (start [] 0x0C000080) 31 = some (base + 8) := by
  decide

/-- VC4, its first step. -/
theorem test_jr :
    jumpAfter (start [(1, 0xFFFFFFFF8000100C)] 0x00200008) = some ((base + 4), some ⟨base + 12, 1⟩) := by
  decide

/-- VC5, VC6, their first steps. -/
theorem test_jalr :
    refusalOf (start [(4, 0xFFFFFFFF80001008)] 0x00802009) = some .jalrRdEqualsRs
    ∧ jumpAfter (start [(4, 0xFFFFFFFF8000100C)] 0x0080F809) = some ((base + 4), some ⟨base + 12, 1⟩)
    ∧ gprAfter (start [(4, 0xFFFFFFFF8000100C)] 0x0080F809) 31 = some (base + 8) := by
  decide

/-- VC7: taken. -/
theorem test_beq :
    jumpAfter (start [(1, 0x3), (2, 0x3)] 0x10220002) = some ((base + 4), some ⟨base + 12, 1⟩) := by
  decide

/-- VC8: not taken. -/
theorem test_bne :
    jumpAfter (start [(1, 0x3), (2, 0x3)] 0x14220002) = some ((base + 4), none) := by
  decide

/-- VC9: taken on 0. -/
theorem test_blez :
    jumpAfter (start [(1, 0x0)] 0x18200002) = some ((base + 4), some ⟨base + 12, 1⟩) := by
  decide

/-- VC10: not taken on 0. -/
theorem test_bgtz :
    jumpAfter (start [(1, 0x0)] 0x1C200002) = some ((base + 4), none) := by
  decide

/-- VC11: taken. -/
theorem test_bltz :
    jumpAfter (start [(1, 0xFFFFFFFFFFFFFFFF)] 0x04200002) = some ((base + 4), some ⟨base + 12, 1⟩) := by
  decide

/-- R309: taken on 0. -/
theorem test_bgez :
    jumpAfter (start [(1, 0x0)] 0x04210002) = some ((base + 4), some ⟨base + 12, 1⟩) := by
  decide

/-- VC12: not taken, but links. -/
theorem test_bltzal :
    jumpAfter (start [(1, 0x0)] 0x04300002) = some ((base + 4), none)
    ∧ gprAfter (start [(1, 0x0)] 0x04300002) 31 = some (base + 8) := by
  decide

/-- VC13: taken on 0. -/
theorem test_bgezal :
    jumpAfter (start [(1, 0x0)] 0x04310002) = some ((base + 4), some ⟨base + 12, 1⟩)
    ∧ gprAfter (start [(1, 0x0)] 0x04310002) 31 = some (base + 8) := by
  decide

/-- VC14: not taken, the delay slot is nullified. -/
theorem test_beql :
    jumpAfter (start [(1, 0x1), (2, 0x2)] 0x50220002) = some ((base + 8), none) := by
  decide

/-- VC15: taken. -/
theorem test_bnel :
    jumpAfter (start [(1, 0x1), (2, 0x2)] 0x54220002) = some ((base + 4), some ⟨base + 12, 1⟩) := by
  decide

/-- R314: not taken on 1. -/
theorem test_blezl :
    jumpAfter (start [(1, 0x1)] 0x58200002) = some ((base + 8), none) := by
  decide

/-- R315: taken on 1. -/
theorem test_bgtzl :
    jumpAfter (start [(1, 0x1)] 0x5C200002) = some ((base + 4), some ⟨base + 12, 1⟩) := by
  decide

/-- R316: not taken on 0. -/
theorem test_bltzl :
    jumpAfter (start [(1, 0x0)] 0x04220002) = some ((base + 8), none) := by
  decide

/-- R317: taken on 0. -/
theorem test_bgezl :
    jumpAfter (start [(1, 0x0)] 0x04230002) = some ((base + 4), some ⟨base + 12, 1⟩) := by
  decide

/-- R318: not taken on 0, but links. -/
theorem test_bltzall :
    jumpAfter (start [(1, 0x0)] 0x04320002) = some ((base + 8), none)
    ∧ gprAfter (start [(1, 0x0)] 0x04320002) 31 = some (base + 8) := by
  decide

/-- VC16: not taken, links, nullifies. -/
theorem test_bgezall :
    jumpAfter (start [(1, 0xFFFFFFFFFFFFFFFF)] 0x04330002) = some ((base + 8), none)
    ∧ gprAfter (start [(1, 0xFFFFFFFFFFFFFFFF)] 0x04330002) 31 = some (base + 8) := by
  decide

/-- VC22, VY18: the second step. -/
theorem test_branch_in_delay_slot :
    refusalOf ({ start [] 0x10000002 with pending := some ⟨base + 8, 1⟩ }) = some .branchInDelaySlot
    ∧ refusalOf ({ start [] 0x42000018 with pending := some ⟨base + 8, 1⟩ }) = some .branchInDelaySlot := by
  decide

/-- VC17: the third step, a fetch of a misaligned target. -/
theorem test_jump_target_fetch :
    excAfter ({ start [] 0x00000000 with pending := some ⟨base + 2, 0⟩ }) = some (4, base + 2) := by
  decide

/-- VC19: the second step, EPC names the branch. -/
theorem test_exception_in_delay_slot :
    excAfter ({ start [] 0x0000000C with pending := some ⟨base + 16, 1⟩ }) = some (8, base - 4) := by
  decide

/-- VC18: the second step, the interrupt comes before the delay slot. -/
theorem test_interrupt_in_delay_slot :
    excAfter
      { start [] 0x00000000 with
        pending := some ⟨base + 16, 1⟩
        cp0 := { State.reset.cp0 with status := 0x101, cause := { Cause.reset with ip0 := true } } } = some (0, base - 4) := by
  decide

/-- VL1. -/
theorem test_lb :
    gprAfter (start [(1, 0xFFFFFFFF80002000)] 0x80220008) 2 = some 0xFFFFFFFFFFFFFF80 := by
  decide

/-- VL2. -/
theorem test_lbu :
    gprAfter (start [(1, 0xFFFFFFFF80002000)] 0x90220008) 2 = some 0x80 := by
  decide

/-- VL3, VL8: sign, and a misaligned address. -/
theorem test_lh :
    gprAfter (start [(1, 0xFFFFFFFF80002000)] 0x8422000A) 2 = some 0xFFFFFFFFFFFFFFFE
    ∧ excAfter (start [(1, 0xFFFFFFFF80002000), (2, 0x77)] 0x84220001) = some (4, base)
    ∧ gprAfter (start [(1, 0xFFFFFFFF80002000), (2, 0x77)] 0x84220001) 2 = some 0x77 := by
  decide

/-- VL4. -/
theorem test_lhu :
    gprAfter (start [(1, 0xFFFFFFFF80002000)] 0x9422000A) 2 = some 0xFFFE := by
  decide

/-- VL5, VL28, VL29: sign, the RAM mirror, kseg1. -/
theorem test_lw :
    gprAfter (start [(1, 0xFFFFFFFF80002000)] 0x8C220008) 2 = some 0xFFFFFFFF8001FFFE
    ∧ gprAfter (start [(1, 0xFFFFFFFFA0402000)] 0x8C220000) 2 = some 0x11223344
    ∧ gprAfter (start [(1, 0xFFFFFFFFA0002000)] 0x8C220000) 2 = some 0x11223344 := by
  decide

/-- VL33, VL34, VL37. -/
theorem test_lw_stops :
    refusalOf (start [(1, 0x1000)] 0x8C220000) = some .tlbMappedSegment
    ∧ excAfter (start [(1, 0x80000000)] 0x8C220000) = some (4, base)
    ∧ refusalOf (start [(1, 0xFFFFFFFFA4400000)] 0x8C220000) = some .unmappedPhysicalAddress := by
  decide

/-- VL6. -/
theorem test_lwu :
    gprAfter (start [(1, 0xFFFFFFFF80002000)] 0x9C220008) 2 = some 0x8001FFFE := by
  decide

/-- VL7. -/
theorem test_ld :
    gprAfter (start [(1, 0xFFFFFFFF80002000)] 0xDC220000) 2 = some 0x1122334455667788 := by
  decide

/-- VL13, VL15, VL17. -/
theorem test_lwl :
    gprAfter (start [(1, 0xFFFFFFFF80002000), (2, 0xAABBCCDD)] 0x88220001) 2 = some 0x223344DD
    ∧ gprAfter (start [(1, 0xFFFFFFFF80002000), (2, 0xAABBCCDD)] 0x88220000) 2 = some 0x11223344
    ∧ gprAfter (start [(1, 0xFFFFFFFF80002000)] 0x88220008) 2 = some 0xFFFFFFFF8001FFFE := by
  decide

/-- VL14, VL16. -/
theorem test_lwr :
    gprAfter (start [(1, 0xFFFFFFFF80002000), (2, 0xAABBCCDD)] 0x98220001) 2 = some 0xFFFFFFFFAABB1122
    ∧ gprAfter (start [(1, 0xFFFFFFFF80002000), (2, 0xAABBCCDD)] 0x98220003) 2 = some 0x11223344 := by
  decide

/-- VL18. -/
theorem test_ldl :
    gprAfter (start [(1, 0xFFFFFFFF80002000)] 0x68220003) 2 = some 0x4455667788000000 := by
  decide

/-- VL19. -/
theorem test_ldr :
    gprAfter (start [(1, 0xFFFFFFFF80002000)] 0x6C220003) 2 = some 0x11223344 := by
  decide

/-- VL9, VL36: a misaligned address, the bytes' order. -/
theorem test_sw :
    excAfter (start [(1, 0xFFFFFFFF80002000), (2, 0x77)] 0xAC220002) = some (5, base)
    ∧ memAfter (start [(1, 0xFFFFFFFF80002000), (2, 0xDEADBEEF)] 0xAC220000) 4 = some [0xDE, 0xAD, 0xBE, 0xEF] := by
  decide

/-- VL10. -/
theorem test_sh :
    memAfter (start [(1, 0xFFFFFFFF80002000), (2, 0xABCD)] 0xA4220002) 4 = some [0x11, 0x22, 0xAB, 0xCD] := by
  decide

/-- VL11. -/
theorem test_sb :
    memAfter (start [(1, 0xFFFFFFFF80002000), (2, 0x1FF)] 0xA0220003) 4 = some [0x11, 0x22, 0x33, 0xFF] := by
  decide

/-- VL12. -/
theorem test_sd :
    memAfter (start [(1, 0xFFFFFFFF80002000), (2, 0x102030405060708)] 0xFC220000) 8 = some [0x01, 0x02, 0x03, 0x04, 0x05, 0x06, 0x07, 0x08] := by
  decide

/-- VL20. -/
theorem test_swl :
    memAfter (start [(1, 0xFFFFFFFF80002000), (2, 0xAABBCCDD)] 0xA8220001) 4 = some [0x11, 0xAA, 0xBB, 0xCC] := by
  decide

/-- VL21. -/
theorem test_swr :
    memAfter (start [(1, 0xFFFFFFFF80002000), (2, 0xAABBCCDD)] 0xB8220001) 4 = some [0xCC, 0xDD, 0x33, 0x44] := by
  decide

/-- VL22. -/
theorem test_sdl :
    memAfter (start [(1, 0xFFFFFFFF80002000), (2, 0x102030405060708)] 0xB0220002) 8 = some [0x11, 0x22, 0x01, 0x02, 0x03, 0x04, 0x05, 0x06] := by
  decide

/-- VL23. -/
theorem test_sdr :
    memAfter (start [(1, 0xFFFFFFFF80002000), (2, 0x102030405060708)] 0xB4220002) 8 = some [0x06, 0x07, 0x08, 0x44, 0x55, 0x66, 0x77, 0x88] := by
  decide

/-- VL24. -/
theorem test_ll :
    after (step (start [(1, 0xFFFFFFFF80002000)] 0xC0220000)) (fun t => (t.gpr 2, t.llBit, t.cp0.llAddr)) = some (0x11223344, true, 0x200) := by
  decide

/-- VL27, its first step. -/
theorem test_lld :
    after (step (start [(1, 0xFFFFFFFF80002000)] 0xD0230000)) (fun t => (t.gpr 3, t.llBit, t.cp0.llAddr)) = some (0x1122334455667788, true, 0x200) := by
  decide

/-- VL25, VL26: without the link and with it. -/
theorem test_sc :
    gprAfter (start [(1, 0xFFFFFFFF80002000), (2, 0x7)] 0xE0220000) 2 = some 0x0
    ∧ memAfter (start [(1, 0xFFFFFFFF80002000), (2, 0x7)] 0xE0220000) 4 = some [0x11, 0x22, 0x33, 0x44]
    ∧ gprAfter ({ start [(1, 0xFFFFFFFF80002000), (2, 0x7)] 0xE0220000 with llBit := true }) 2 = some 0x1
    ∧ memAfter ({ start [(1, 0xFFFFFFFF80002000), (2, 0x7)] 0xE0220000 with llBit := true }) 4 = some [0x00, 0x00, 0x00, 0x07] := by
  decide

/-- VL27, its second step. -/
theorem test_scd :
    gprAfter ({ start [(1, 0xFFFFFFFF80002000), (2, 0x9)] 0xF0220000 with llBit := true }) 2 = some 0x1
    ∧ memAfter ({ start [(1, 0xFFFFFFFF80002000), (2, 0x9)] 0xF0220000 with llBit := true }) 8 = some [0x00, 0x00, 0x00, 0x00, 0x00, 0x00, 0x00, 0x09] := by
  decide

/-- VL30, VL31, VL32. -/
theorem test_cartridge_rom :
    gprAfter ({ start [(1, 0xFFFFFFFFB0001000)] 0x8C220000 with rom := ⟨0x1004, [(0x1000, 0x8C), (0x1001, 0x22)]⟩ }) 2 = some 0xFFFFFFFF8C220000
    ∧ after (step ({ start [(1, 0xFFFFFFFFB0001000), (2, 0x5)] 0xAC220000 with rom := ⟨0x1004, [(0x1000, 0x8C), (0x1001, 0x22)]⟩ })) (·.rom.cells) = some [(0x1000, 0x8C), (0x1001, 0x22)]
    ∧ refusalOf ({ start [(1, 0xFFFFFFFFB0100000)] 0x8C220000 with rom := ⟨0x1004, [(0x1000, 0x8C), (0x1001, 0x22)]⟩ }) = some .romReadBeyondImage := by
  decide

/-- VL35. -/
theorem test_mmio_form :
    refusalOf (start [(1, 0xFFFFFFFFA4300004)] 0x80220000) = some .mmioAccessFormNotModelled := by
  decide

/-- VY1, VY22, VY23: entry, BEV, and a nested entry that keeps EPC. -/
theorem test_syscall :
    after (step (start [] 0x0000000C)) (fun t => (t.cp0.cause.excCode, t.cp0.epc, t.exl, t.pc)) = some (8, base, true, 0xFFFFFFFF80000180)
    ∧ refusalOf (withStatus (start [] 0x0000000C) 0x400000) = some .bevVectorsNotModelled
    ∧ excAfter (withStatus (start [] 0x0000000C) 0x2) = some (8, 0) := by
  decide

/-- VY2. -/
theorem test_break :
    excAfter (start [] 0x03FF000D) = some (9, base) := by
  decide

/-- VY3, VY4, VY11. -/
theorem test_mfc0 :
    gprAfter (start [] 0x40027800) 2 = some 0xB22
    ∧ gprAfter (start [] 0x40028000) 2 = some 0x7006E460
    ∧ refusalOf (start [] 0x40020000) = some .cp0RegNotModelled := by
  decide

/-- R403: EPC whole, and a 32-bit register. -/
theorem test_dmfc0 :
    gprAfter ({ start [] 0x40227000 with cp0 := { State.reset.cp0 with epc := 0x100000000 } }) 2 = some 0x100000000
    ∧ refusalOf (start [] 0x40226000) = some .cp0DoubleAccessNotModelled := by
  decide

/-- VY5, VY6, VY8, VY12. -/
theorem test_mtc0 :
    after (step (start [(2, 0xFFFFFFFFFFFFFFFF)] 0x40828000)) (fun t => t.cp0.cfgW) = some 0xFFFFFFFF
    ∧ after (step (start [(2, 0xFFFFFFFFFFFFFFFF)] 0x40826800)) State.causeWord = some 0x8300
    ∧ after (step (start [(2, 0x80000004)] 0x40827000)) (·.cp0.epc) = some 0xFFFFFFFF80000004
    ∧ refusalOf (start [(2, 0x1)] 0x40829000) = some .watchNotModelled := by
  decide

/-- VY5: what Config reads after it. -/
theorem test_config_read :
    gprAfter ({ start [] 0x40028000 with cp0 := { State.reset.cp0 with cfgW := 0xFFFFFFFF } }) 2 = some 0x7F06E46F := by
  decide

/-- VY9, VY10. -/
theorem test_dmtc0 :
    after (step (start [(2, 0x100000000)] 0x40A27000)) (·.cp0.epc) = some 0x100000000
    ∧ refusalOf (start [] 0x40A26000) = some .cp0DoubleAccessNotModelled := by
  decide

/-- VY13, R407–R409. -/
theorem test_tlb :
    refusalOf (start [] 0x42000001) = some .tlbNotModelled
    ∧ refusalOf (start [] 0x42000002) = some .tlbNotModelled
    ∧ refusalOf (start [] 0x42000006) = some .tlbNotModelled
    ∧ refusalOf (start [] 0x42000008) = some .tlbNotModelled := by
  decide

/-- VY14. -/
theorem test_cache_sync :
    after (step (start [] 0xBC200000)) (fun t => (t.pc, t.cp0.cause.excCode)) = some (base + 4, 0)
    ∧ after (step (start [] 0x0000000F)) (fun t => (t.pc, t.cp0.cause.excCode)) = some (base + 4, 0) := by
  decide

/-- VY14, VY15. -/
theorem test_teq :
    after (step (start [(1, 0x1), (2, 0x2)] 0x00220034)) (fun t => (t.pc, t.cp0.cause.excCode)) = some (base + 4, 0)
    ∧ refusalOf (start [(1, 0x2), (2, 0x2)] 0x00220034) = some .trapNotModelled := by
  decide

/-- VY15. -/
theorem test_tnei :
    after (step (start [(1, 0x0)] 0x042E0000)) (fun t => (t.pc, t.cp0.cause.excCode)) = some (base + 4, 0)
    ∧ refusalOf (start [(1, 0x2)] 0x042E0000) = some .trapNotModelled := by
  decide

/-- R421. -/
theorem test_tge :
    after (step (start [(1, 0xFFFFFFFFFFFFFFFF), (2, 0x1)] 0x00220030)) (fun t => (t.pc, t.cp0.cause.excCode)) = some (base + 4, 0)
    ∧ refusalOf (start [(1, 0x1), (2, 0x1)] 0x00220030) = some .trapNotModelled := by
  decide

/-- R422. -/
theorem test_tgeu :
    after (step (start [(1, 0x1), (2, 0xFFFFFFFFFFFFFFFF)] 0x00220031)) (fun t => (t.pc, t.cp0.cause.excCode)) = some (base + 4, 0)
    ∧ refusalOf (start [(1, 0xFFFFFFFFFFFFFFFF), (2, 0x1)] 0x00220031) = some .trapNotModelled := by
  decide

/-- R423. -/
theorem test_tlt :
    after (step (start [(1, 0x1), (2, 0x1)] 0x00220032)) (fun t => (t.pc, t.cp0.cause.excCode)) = some (base + 4, 0)
    ∧ refusalOf (start [(1, 0xFFFFFFFFFFFFFFFF), (2, 0x1)] 0x00220032) = some .trapNotModelled := by
  decide

/-- R424. -/
theorem test_tltu :
    after (step (start [(1, 0xFFFFFFFFFFFFFFFF), (2, 0x1)] 0x00220033)) (fun t => (t.pc, t.cp0.cause.excCode)) = some (base + 4, 0)
    ∧ refusalOf (start [(1, 0x1), (2, 0xFFFFFFFFFFFFFFFF)] 0x00220033) = some .trapNotModelled := by
  decide

/-- R426. -/
theorem test_tne :
    after (step (start [(1, 0x1), (2, 0x1)] 0x00220036)) (fun t => (t.pc, t.cp0.cause.excCode)) = some (base + 4, 0)
    ∧ refusalOf (start [(1, 0x1), (2, 0x2)] 0x00220036) = some .trapNotModelled := by
  decide

/-- R427: the immediate is -1. -/
theorem test_tgei :
    after (step (start [(1, 0xFFFFFFFFFFFFFFFE)] 0x0428FFFF)) (fun t => (t.pc, t.cp0.cause.excCode)) = some (base + 4, 0)
    ∧ refusalOf (start [(1, 0xFFFFFFFFFFFFFFFF)] 0x0428FFFF) = some .trapNotModelled := by
  decide

/-- R428: the immediate is sign-extended, then unsigned. -/
theorem test_tgeiu :
    after (step (start [(1, 0x5)] 0x0429FFFF)) (fun t => (t.pc, t.cp0.cause.excCode)) = some (base + 4, 0)
    ∧ refusalOf (start [(1, 0xFFFFFFFFFFFFFFFF)] 0x0429FFFF) = some .trapNotModelled := by
  decide

/-- R429. -/
theorem test_tlti :
    after (step (start [(1, 0xFFFFFFFFFFFFFFFF)] 0x042AFFFF)) (fun t => (t.pc, t.cp0.cause.excCode)) = some (base + 4, 0)
    ∧ refusalOf (start [(1, 0xFFFFFFFFFFFFFFFE)] 0x042AFFFF) = some .trapNotModelled := by
  decide

/-- R430. -/
theorem test_tltiu :
    after (step (start [(1, 0xFFFFFFFFFFFFFFFF)] 0x042BFFFF)) (fun t => (t.pc, t.cp0.cause.excCode)) = some (base + 4, 0)
    ∧ refusalOf (start [(1, 0x5)] 0x042BFFFF) = some .trapNotModelled := by
  decide

/-- R431. -/
theorem test_teqi :
    after (step (start [(1, 0x1)] 0x042CFFFF)) (fun t => (t.pc, t.cp0.cause.excCode)) = some (base + 4, 0)
    ∧ refusalOf (start [(1, 0xFFFFFFFFFFFFFFFF)] 0x042CFFFF) = some .trapNotModelled := by
  decide

/-- VY16: ERL wins over EXL. -/
theorem test_eret :
    after (step { start [] 0x42000018 with
        cp0 := { State.reset.cp0 with status := 6, epc := base + 0x80, errorEpc := base + 0x40 }, llBit := true })
      (fun t => (t.pc, t.cp0.status, t.llBit)) = some (base + 0x40, 2, false) := by
  decide

/-- VY17, its second step. -/
theorem test_user_fetch :
    excAfter (withStatus (start [] 0x00000000) 0x10) = some (4, base) := by
  decide

/-- VY20, VY21. -/
theorem test_start_refusals :
    refusalOf (withStatus (start [] 0x0000000C) 0x8) = some .supervisorModeNotModelled
    ∧ refusalOf (withStatus (start [] 0x0000000C) 0x80) = some .kx64BitAddressingNotModelled := by
  decide

/-- VP2, VP3. -/
theorem test_mfc2 :
    gprAfter (start [(3, 0x55)] 0x48030000) 3 = some 0x55
    ∧ after (step (start [] 0x48030000)) (fun t => (t.cp0.cause.excCode, t.cp0.cause.ce)) = some (11, 2)
    ∧ gprAfter (withStatus { start [] 0x48030000 with cop2Latch := 0x180000000 } 0x40000000) 3 = some 0xFFFFFFFF80000000 := by
  decide

/-- VP1, VP3. -/
theorem test_mtc2 :
    after (step (start [(2, 0x1234)] 0x48820000)) (fun t => (t.cp0.cause.excCode, t.cp0.cause.ce)) = some (11, 2)
    ∧ after (step (start [(2, 0x1234)] 0x48820000)) (·.cop2Latch) = some 0
    ∧ after (step (withStatus (start [(2, 0x180000000)] 0x48820000) 0x40000000)) (·.cop2Latch) = some 0x180000000 := by
  decide

/-- VP3, VP4: DMFC2, CFC2, DMTC2, CTC2. -/
theorem test_cop2_moves :
    gprAfter (withStatus { start [] 0x48240000 with cop2Latch := 0x180000000 } 0x40000000) 4 = some 0x180000000
    ∧ gprAfter (withStatus { start [] 0x48450000 with cop2Latch := 0x180000000 } 0x40000000) 5 = some 0xFFFFFFFF80000000
    ∧ after (step (withStatus (start [(2, 0x7)] 0x48A20000) 0x40000000)) (·.cop2Latch) = some 7
    ∧ after (step (withStatus { start [] 0x48C00000 with cop2Latch := 0x180000000 } 0x40000000)) (·.cop2Latch) = some 0 := by
  decide

/-- VP5–VP9, R461, R462. -/
theorem test_cop2_reserved :
    excAfter (withStatus (start [] 0x48620000) 0x40000000) = some (10, base)
    ∧ excAfter (withStatus (start [] 0x48E20000) 0x40000000) = some (10, base)
    ∧ excAfter (withStatus (start [] 0x49020000) 0x40000000) = some (10, base)
    ∧ excAfter (withStatus (start [] 0xC8000000) 0x40000000) = some (10, base)
    ∧ excAfter (withStatus (start [] 0xD8000000) 0x40000000) = some (10, base)
    ∧ excAfter (withStatus (start [] 0xE8000000) 0x40000000) = some (10, base)
    ∧ excAfter (withStatus (start [] 0xF8000000) 0x40000000) = some (10, base)
    ∧ after (step (start [] 0x48620000)) (fun t => (t.cp0.cause.excCode, t.cp0.cause.ce)) = some (11, 2)
    ∧ after (step (start [] 0xF8000000)) (fun t => (t.cp0.cause.excCode, t.cp0.cause.ce)) = some (11, 2) := by
  decide

/-- VP10–VP12, R442, R444, R445. -/
theorem test_cop1 :
    after (step (start [] 0x44801000)) (fun t => (t.cp0.cause.excCode, t.cp0.cause.ce)) = some (11, 1)
    ∧ after (step (start [] 0xD4000000)) (fun t => (t.cp0.cause.excCode, t.cp0.cause.ce)) = some (11, 1)
    ∧ after (step (start [] 0xC4000000)) (fun t => (t.cp0.cause.excCode, t.cp0.cause.ce)) = some (11, 1)
    ∧ after (step (start [] 0xE4000000)) (fun t => (t.cp0.cause.excCode, t.cp0.cause.ce)) = some (11, 1)
    ∧ after (step (start [] 0xF4000000)) (fun t => (t.cp0.cause.excCode, t.cp0.cause.ce)) = some (11, 1)
    ∧ refusalOf (withStatus (start [] 0x44801000) 0x20000000) = some .fpuNotModelled := by
  decide

/-- VI1, VI2. -/
theorem test_mi_mask :
    after (step (start [(1, 0xFFFFFFFFA4300000), (2, 0xAAA)] 0xAC22000C)) (fun t => (t.mi.mask, t.mi.flags)) = some (0x3F, 0)
    ∧ after (step ({ start [(1, 0xFFFFFFFFA4300000), (2, 0x3)] 0xAC22000C with mi := ⟨0, 1, 0⟩ })) (fun t => (t.mi.mask, t.mi.flags)) = some (0, 0) := by
  decide

/-- VI3, VI8, VI9. -/
theorem test_mi_line :
    after (step ({ start [(1, 0xFFFFFFFFA4300000), (2, 0x200)] 0xAC22000C with mi := ⟨16, 0, 0⟩ })) (fun t => t.causeWord.getLsbD 10) = some true
    ∧ ({ State.reset with mi := ⟨4, 4, 0⟩ } : State).causeWord.getLsbD 10 = true
    ∧ ({ State.reset with mi := ⟨0, 4, 0⟩ } : State).causeWord.getLsbD 10 = false := by
  decide

/-- VI4, VI5. -/
theorem test_mi_reads :
    gprAfter (start [(1, 0xFFFFFFFFA4300000)] 0x8C220004) 2 = some 0x2020102
    ∧ gprAfter (start [(1, 0xFFFFFFFFA4300000), (3, 0x9)] 0x8C230008) 3 = some 0x0 := by
  decide

/-- VI6. -/
theorem test_mi_mode :
    after (step ({ start [(1, 0xFFFFFFFFA4300000), (2, 0x800)] 0xAC220000 with mi := ⟨32, 0, 0⟩ })) (fun t => (t.mi.mask, t.mi.flags)) = some (0, 0) := by
  decide

/-- VM1, its third step: source-bound truncation. -/
theorem test_pi_dma :
    after (step { start [(1, 0xFFFFFFFFA4600000), (4, 7)] 0xAC24000C with
        pi := ⟨0x3000, 0x10002000, false, false, true⟩, mi := ⟨0x10, 0, 0⟩
        rom := ⟨0x2004, [(0x2000, 1), (0x2001, 2), (0x2002, 3), (0x2003, 4)]⟩ })
      (fun t => ((List.range 8).map fun i => t.ram.read (0x3000 + i), t.dmaInflight, t.mi.flags)) =
      some ([1, 2, 3, 4, 0, 0, 0, 0], true, 0)
    ∧ after (step { start [(1, 0xFFFFFFFFA4600000), (5, 9)] 0x8C250010 with pi := ⟨0, 0, true, false, false⟩ }) (·.gpr 5) =
      some 1 := by
  decide

/-- VM7, its third step: destination-bound truncation, no wrap. -/
theorem test_pi_dma_end_of_ram :
    after (step { start [(1, 0xFFFFFFFFA4600000), (4, 7)] 0xAC24000C with
        pi := ⟨0x3FFFFC, 0x10002000, false, false, true⟩
        rom := ⟨0x2008, [(0x2000, 1), (0x2001, 2), (0x2002, 3), (0x2003, 4), (0x2004, 5), (0x2005, 6)]⟩ })
      (fun t => ((List.range 4).map fun i => t.ram.read (0x3FFFFC + i), t.ram.read 0)) = some ([1, 2, 3, 4], 0) := by
  decide

/-- VM2. -/
theorem test_dma_completion :
    after (step { State.reset with pi := ⟨0, 0, true, false, false⟩, dmaInflight := true })
      (fun t => (t.mi.flags, t.pi.status, t.dmaInflight)) = some (0x10, 8, false) := by
  decide

/-- VM3, VM5's second step. -/
theorem test_pi_status :
    after (step { start [(1, 0xFFFFFFFFA4600000), (2, 2)] 0xAC220010 with
        pi := ⟨0, 0, false, true, true⟩, mi := ⟨0x10, 0, 0⟩ })
      (fun t => (t.pi.completed, t.mi.flags)) = some (false, 0)
    ∧ after (step { start [(1, 0xFFFFFFFFA4600000), (5, 1)] 0xAC250010 with
        pi := ⟨0, 0, true, false, false⟩, dmaInflight := true, schedule := [.cpu] })
      (fun t => (t.pi.busy, t.dmaInflight)) = some (false, false) := by
  decide

/-- VM4, its second step; VM6. -/
theorem test_pi_busy :
    refusalOf { start [(1, 0xFFFFFFFFA4600000), (4, 7)] 0xAC24000C with dmaInflight := true, schedule := [.cpu] } =
      some .piDmaWhileBusy
    ∧ after (step { start [(1, 0xFFFFFFFFA4600000), (4, 7)] 0xAC240008 with pi := ⟨0x3000, 0x10000000, false, false, true⟩ })
      (fun t => (t.ram.read 0x3000, t.pi.busy)) = some (0, true) := by
  decide

/-- VT1–VT3. -/
theorem test_timer :
    after (step (start [] 0x00000000)) (fun t => (t.cp0.cause.ip7, t.cp0.count)) = some (true, 0xFFFFFFFF)
    ∧ after (step (start [(2, 0x3)] 0x40824800)) (fun t => (t.cp0.cause.ip7, t.cp0.count)) = some (false, 2)
    ∧ after (step (start [] 0x40805800)) (fun t => (t.cp0.cause.ip7, t.cp0.count)) = some (true, 0xFFFFFFFF) := by
  decide

/-- VY7, its second step. -/
theorem test_interrupt :
    excAfter { start [] 0x00000000 with
        cp0 := { State.reset.cp0 with status := 0x101, cause := { Cause.reset with ip0 := true } } } = some (0, base) := by
  decide

/-- R550: at HALT_PC with nothing in flight the run has ended. -/
theorem test_halt :
    (match step { State.reset with params := { State.reset.params with haltPc := some 0xFFFFFFFFBFC00000 } } with
      | .fault .halted => true
      | .next _ => false
      | .refused _ => false) = true := by
  decide

/-! ### Witnesses: concrete states and operands that meet every obligation's hypotheses -/

/-- Kernel mode, x1 the address 0xFFFFFFFF80002000 of section 3.4's data, x2 = 7. -/
def kernel : State := start [(1, 0xFFFFFFFF80002000), (2, 7)] 0

/-- `kernel` in user mode. -/
def user : State := withStatus kernel 0x10

/-- `kernel` with x1 = `v`. -/
def at1 (v : Word) : State := kernel.setGpr 1 v

/-- DecodeMatchesTable, ReservedWords: a word of no row, in no coprocessor space. -/
theorem witness_no_row (j : Instr) : 0x4C000000#32 &&& (tableRow j).1 ≠ (tableRow j).2 := by
  cases j <;> (simp only [tableRow]; decide)

/-- ReservedWords: a word of no row in the COP0 space. -/
theorem witness_no_row_cop0 (j : Instr) : 0x4200003F#32 &&& (tableRow j).1 ≠ (tableRow j).2 := by
  cases j <;> (simp only [tableRow]; decide)

/-- ReservedWords: a word of no row in the COP2 space. -/
theorem witness_no_row_cop2 (j : Instr) : 0x49020000#32 &&& (tableRow j).1 ≠ (tableRow j).2 := by
  cases j <;> (simp only [tableRow]; decide)

/-- ReservedWords, Cp0UsabilityAndTlb, Cp0Reads, Cp0Writes, CacheSync, ExceptionReturn: CP0 usable in kernel mode and
with CU0 in user mode, unusable in user mode without; CU1 and CU2 on and off. -/
theorem witness_usability :
    (0x4C000000#32).extractLsb' 26 6 ≠ 0x10#6 ∧ (0x4C000000#32).extractLsb' 26 6 ≠ 0x12#6
    ∧ (0x4200003F#32).extractLsb' 26 6 = 0x10#6 ∧ (0x49020000#32).extractLsb' 26 6 = 0x12#6
    ∧ (kernel.mode = .kernel ∨ kernel.cu0 = true)
    ∧ ((withStatus kernel 0x10000010).mode = .user ∧ (withStatus kernel 0x10000010).cu0 = true)
    ∧ ¬ (user.mode = .kernel ∨ user.cu0 = true)
    ∧ kernel.cu1 = false ∧ (withStatus kernel 0x20000000).cu1 = true
    ∧ kernel.cu2 = false ∧ (withStatus kernel 0x40000000).cu2 = true
    ∧ isCp0Instruction (.tlbr) = true ∧ isCop1Instruction (.cop1 0) = true
    ∧ isCop2Move (.mfc2 3 4) = true ∧ isCop2Reserved (.dcfc2 3 4) = true := by
  decide

/-- Cp0Reads, Cp0Writes: a number outside the modelled set, a 32-bit register, and WatchLo values that arm and that
do not. -/
theorem witness_cp0 :
    cp0Modelled 0 = false ∧ cp0Modelled 31 = false ∧ cp0Modelled 9 = true ∧ cp0Double 9 = false
    ∧ ((8 : Word).getLsbD 0 = false ∧ (8 : Word).getLsbD 1 = false) ∧ (1 : Word).getLsbD 0 = true
    ∧ (2 : Word).getLsbD 1 = true := by
  decide

/-- LaunchStart: the boundary sizes of a boot ROM and of a cartridge, and an entry point. -/
theorem witness_launch :
    let l : Launch := ⟨State.reset.params, some ⟨0x1000, [(8, 0x80), (10, 0x10)]⟩, none, [(0x20, 1)], []⟩
    Launch.start { l with rom := none } = none
    ∧ Launch.start { l with bootRom := some ⟨0x7C0, []⟩ } =
        some { State.reset with ram := l.initRam, rom := ⟨0x1000, [(8, 0x80), (10, 0x10)]⟩ }
    ∧ Launch.start { l with bootRom := some ⟨0x7C1, []⟩ } = none
    ∧ Launch.start { l with rom := some ⟨0xFFF, []⟩ } = none
    ∧ l.start.map (·.pc) = some base
    ∧ (∀ j, (h : j < [0x80#8, 0x00#8, 0x10#8, 0x00#8].length) →
        Memory.read [(8, 0x80), (10, 0x10)] (8 + j) = [0x80#8, 0x00#8, 0x10#8, 0x00#8][j])
    ∧ l.initRam.wf = true ∧ l.initRam.below l.params.rdramSize.bytes = true
    ∧ Memory.wf [(8, 0x80), (10, 0x10)] = true ∧ Memory.below [(8, 0x80), (10, 0x10)] 0x1000 = true := by
  decide

/-- The launch of log entry 4 starts in `State.reset`. -/
theorem test_reset_is_a_launch :
    Launch.start ⟨⟨.mib4, none, .vr4300⟩, some ⟨0, []⟩, some ⟨0x7C0, []⟩, [], []⟩ = some State.reset := by
  decide

/-- StepKeepsInvariant: a state other than reset's that satisfies the invariant, and its step. -/
theorem witness_invariant : kernel.Inv ∧ (after (step kernel) fun _ => true) = some true where
  left := {
    ramForm := by decide
    ramBounds := by decide
    romForm := by unfold Image.Wf; decide
    bootRomForm := by
      intro m h
      cases (show some (⟨0x7C0, []⟩ : Image) = some m from h)
      exact ⟨by decide, by decide⟩
    registerZero := by decide
    miModeHigh := by decide
    watchLoLow := by decide
    busyIffInflight := by decide
    flagIffCompleted := by decide
    notBusyAndCompleted := by decide }
  right := by decide

/-- TrappingWordArithmetic, TrappingDoublewordArithmetic: exact results at both ends of the range and one past them. -/
theorem witness_overflow_bounds :
    signedWord 0x7FFFFFFE + signedWord 1 = 2 ^ 31 - 1 ∧ signedWord 0x7FFFFFFF + signedWord 1 = 2 ^ 31
    ∧ signedWord 0x80000000 - signedWord 0 = -2 ^ 31 ∧ signedWord 0x80000000 - signedWord 1 = -2 ^ 31 - 1
    ∧ (0x7FFFFFFFFFFFFFFE : Word).toInt + (1 : Word).toInt = 2 ^ 63 - 1
    ∧ (0x7FFFFFFFFFFFFFFF : Word).toInt + (1 : Word).toInt = 2 ^ 63
    ∧ (0x8000000000000000 : Word).toInt - (0 : Word).toInt = -2 ^ 63
    ∧ (0x8000000000000000 : Word).toInt - (1 : Word).toInt = -2 ^ 63 - 1 := by
  decide

/-- The doubleword statements, outside user mode and in it; RegisterZero's register that is not 0. -/
theorem witness_modes :
    kernel.mode ≠ .user ∧ user.mode = .user ∧ isDoubleword (.dadd 3 1 2) = true ∧ (3 : RegIdx) ≠ 0 := by
  decide

/-- Divide, DivisionCorners: a division away from every corner and each corner's operands, under both results. -/
theorem witness_divide :
    signedWord (kernel.gpr 2) ≠ 0 ∧ ¬ (signedWord (kernel.gpr 2) = -2 ^ 31 ∧ signedWord (kernel.gpr 2) = -1)
    ∧ unsignedWord (kernel.gpr 2) ≠ 0 ∧ kernel.gpr 2 ≠ 0
    ∧ ¬ ((kernel.gpr 2).toInt = -2 ^ 63 ∧ (kernel.gpr 2).toInt = -1)
    ∧ kernel.params.divCorner = .vr4300 ∧ signedWord (kernel.gpr 3) = 0 ∧ kernel.gpr 3 = 0
    ∧ signedWord ((at1 0x80000000).gpr 1) = -2 ^ 31 ∧ ((at1 0x8000000000000000).gpr 1).toInt = -2 ^ 63
    ∧ signedWord ((at1 0xFFFFFFFFFFFFFFFF).gpr 1) = -1 ∧ ((at1 0xFFFFFFFFFFFFFFFF).gpr 1).toInt = -1
    ∧ State.params { kernel with params := ⟨.mib4, none, .unpredictable⟩ } = ⟨.mib4, none, .unpredictable⟩ := by
  decide

/-- Jumps, Branches, LikelyBranches outside a delay slot (JALR at both edges of its condition), and
BranchInDelaySlot, ExceptionReturn inside one. -/
theorem witness_delay_slot :
    kernel.inDelay = false ∧ ((31 : RegIdx) ≠ 4 ∨ (31 : RegIdx) = 0) ∧ ((0 : RegIdx) ≠ 0 ∨ (0 : RegIdx) = 0)
    ∧ (4 : RegIdx) ≠ 0 ∧ State.inDelay { kernel with pending := some ⟨base, 0⟩ } = true
    ∧ isControlTransfer (.beq 1 2 4) = true ∧ isControlTransfer .eret = true := by
  decide

/-- Translation: the ends of the segments that map. -/
theorem witness_mapped_segments :
    (kernel.MapsTo 0xFFFFFFFF80000000 0 ∧ kernel.MapsTo 0xFFFFFFFF9FFFFFFF 0x1FFFFFFF)
    ∧ (kernel.MapsTo 0xFFFFFFFFA0000000 0 ∧ kernel.MapsTo 0xFFFFFFFFBFFFFFFF 0x1FFFFFFF)
    ∧ ((withStatus kernel 4).MapsTo 0 0 ∧ (withStatus kernel 4).MapsTo 0x7FFFFFFF 0x7FFFFFFF) := by
  unfold State.MapsTo
  decide

/-- Translation, FetchErrors: the ends of the invalid addresses. -/
theorem witness_bad_addresses :
    kernel.BadAddress 0x80000000 ∧ kernel.BadAddress 0xFFFFFFFF7FFFFFFF ∧ user.BadAddress 0xFFFFFFFF80000000
    ∧ ¬ kernel.BadAddress 0x7FFFFFFF ∧ ¬ kernel.BadAddress 0xFFFFFFFFFFFFFFFF ∧ ¬ user.BadAddress 0x7FFFFFFF := by
  unfold State.BadAddress
  decide

/-- Translation, FetchErrors: the ends of the segments only the TLB maps. -/
theorem witness_tlb_segments :
    kernel.TlbMapped 0 ∧ kernel.TlbMapped 0x7FFFFFFF ∧ kernel.TlbMapped 0xFFFFFFFFC0000000
    ∧ kernel.TlbMapped 0xFFFFFFFFFFFFFFFF ∧ user.TlbMapped 0 := by
  unfold State.TlbMapped
  decide

/-- AlignedLoads, PartialLoads, LinkedLoads: one, two, four and eight bytes of RAM, and the last word of either ROM. -/
theorem witness_loads :
    kernel.MapsTo (kernel.effectiveAddress 1 0) 0x2000 ∧ kernel.MapsTo (kernel.effectiveAddress 1 3) 0x2003
    ∧ kernel.HoldsBytes 0x2000 [0x11] ∧ kernel.HoldsBytes 0x2000 [0x11, 0x22]
    ∧ kernel.HoldsBytes 0x2000 [0x11, 0x22, 0x33, 0x44]
    ∧ kernel.HoldsBytes 0x2000 [0x11, 0x22, 0x33, 0x44, 0x55, 0x66, 0x77, 0x88]
    ∧ kernel.HoldsBytes (0x2003 - 0x2003 % 4) [0x11, 0x22, 0x33, 0x44]
    ∧ kernel.HoldsBytes (0x2003 - 0x2003 % 8) [0x11, 0x22, 0x33, 0x44, 0x55, 0x66, 0x77, 0x88]
    ∧ kernel.HoldsBytes 0x03EFFFFC [0, 0, 0, 0] ∧ kernel.HoldsBytes 0x1FC007BC [0, 0, 0, 0]
    ∧ State.HoldsBytes { kernel with rom := ⟨0x1004, [(0x1000, 0x8C)]⟩ } 0x10001000 [0x8C, 0, 0, 0] := by
  unfold State.MapsTo State.HoldsBytes
  decide

/-- AlignedStores, PartialStores, StoreConditional, MemoryFrame: RAM and both ROMs at their ends, and LLbit. -/
theorem witness_stores :
    kernel.ram.wf = true ∧ (IsRam 0 ∧ IsRam 0x03EFFFFF) ∧ (IsRom 0x10000000 ∧ IsRom 0x1FBFFFFF)
    ∧ (IsRom 0x1FC00000 ∧ IsRom 0x1FC007BF)
    ∧ ((at1 0xFFFFFFFFB0000000).ram.wf = true ∧ (at1 0xFFFFFFFF83EFFFF8).ram.wf = true ∧ 0x03EFFFF8 % 8 = 0)
    ∧ (at1 0xFFFFFFFFB0000000).MapsTo ((at1 0xFFFFFFFFB0000000).effectiveAddress 1 0) 0x10000000
    ∧ (at1 0xFFFFFFFF83EFFFF8).MapsTo ((at1 0xFFFFFFFF83EFFFF8).effectiveAddress 1 0) 0x03EFFFF8
    ∧ kernel.llBit = false ∧ State.llBit { kernel with llBit := true } = true
    ∧ memoryAccess (.sw 2 1 0) = some ⟨true, 4, 4, true, 1, 0⟩ ∧ ¬ IsPi 0x2000 12
    ∧ (after (exec (.sw 2 1 0) kernel) fun t => t.effectiveAddress 1 0) = some (kernel.effectiveAddress 1 0) := by
  unfold State.MapsTo
  decide

/-- AccessAddressErrors: a misaligned, an invalid and a TLB-mapped address of an access that is no doubleword's in
user mode. -/
theorem witness_address_errors :
    memoryAccess (.lh 2 1 1) = some ⟨false, 2, 2, false, 1, 1⟩
    ∧ ¬ (isDoubleword (.lh 2 1 1) = true ∧ user.mode = .user) ∧ ¬ (isDoubleword (.ld 2 1 0) = true ∧ kernel.mode = .user)
    ∧ (kernel.effectiveAddress 1 1).toNat % 2 ≠ 0
    ∧ (at1 0x80000000).BadAddress ((at1 0x80000000).effectiveAddress 1 0)
    ∧ (at1 0x1000).TlbMapped ((at1 0x1000).effectiveAddress 1 0)
    ∧ ¬ (at1 0x1000).BadAddress ((at1 0x1000).effectiveAddress 1 0) := by
  unfold State.BadAddress State.TlbMapped
  decide

/-- AccessRefusals: the ends of the unmapped ranges. -/
theorem witness_unmapped :
    (IsUnmapped 0x03F00000 ∧ IsUnmapped 0x042FFFFF ∧ IsUnmapped 0x04400000 ∧ IsUnmapped 0x045FFFFF)
    ∧ IsUnmapped 0x04700000 ∧ IsUnmapped 0x0FFFFFFF ∧ IsUnmapped 0x1FC007C0 := by
  decide

/-- AccessRefusals: LB and LW meet its premises in kernel mode at an unmapped address, a device's, one past the
cartridge's image, and one past the boot ROM's image or with no boot ROM. -/
theorem witness_access_refusals :
    (memoryAccess (.lb 2 1 0) = some ⟨false, 1, 1, false, 1, 0⟩ ∧ memoryAccess (.lw 2 1 0) = some ⟨false, 4, 4, true, 1, 0⟩
      ∧ ¬ (isDoubleword (.lw 2 1 0) = true ∧ kernel.mode = .user)
      ∧ ∀ rt b o, Instr.lw 2 1 0 ≠ .sc rt b o ∧ Instr.lw 2 1 0 ≠ .scd rt b o)
    ∧ ((at1 0xFFFFFFFFA4400000).MapsTo ((at1 0xFFFFFFFFA4400000).effectiveAddress 1 0) 0x04400000)
    ∧ ((at1 0xFFFFFFFFA4300004).MapsTo ((at1 0xFFFFFFFFA4300004).effectiveAddress 1 0) 0x04300004 ∧ IsMi 0x04300004 4)
    ∧ ((at1 0xFFFFFFFFB0000000).MapsTo ((at1 0xFFFFFFFFB0000000).effectiveAddress 1 0) 0x10000000
      ∧ kernel.rom.size < 0x10000000 - 0x10000000 % 4 - 0x10000000 + 4)
    ∧ ((at1 0xFFFFFFFFBFC007BC).MapsTo ((at1 0xFFFFFFFFBFC007BC).effectiveAddress 1 0) 0x1FC007BC
      ∧ State.bootRom { kernel with bootRom := none } = none
      ∧ State.bootRom { kernel with bootRom := some ⟨0x7BC, []⟩ } = some ⟨0x7BC, []⟩
      ∧ 0x7BC < 0x1FC007BC - 0x1FC007BC % 4 - 0x1FC00000 + 4) := by
  refine ⟨⟨rfl, rfl, by decide, fun rt b o => ⟨nofun, nofun⟩⟩, ?_, ?_, ?_, ?_⟩ <;> (unfold State.MapsTo; decide)

/-- DeviceReads, InterruptControllerWrites, PeripheralWrites, DmaTransfer: the first and last registers of both
ranges, and every condition on the peripheral interface's state. -/
theorem witness_devices :
    (at1 0xFFFFFFFFA4300000).MapsTo ((at1 0xFFFFFFFFA4300000).effectiveAddress 1 12) 0x0430000C ∧ IsMi 0x0430000C 12
    ∧ (at1 0xFFFFFFFFA43FFFFC).MapsTo ((at1 0xFFFFFFFFA43FFFFC).effectiveAddress 1 0) 0x043FFFFC
    ∧ IsMi 0x04300000 0 ∧ IsMi 0x043FFFFC 0xFFFFC
    ∧ (at1 0xFFFFFFFFA4600000).MapsTo ((at1 0xFFFFFFFFA4600000).effectiveAddress 1 16) 0x04600010 ∧ IsPi 0x04600010 16
    ∧ IsPi 0x04600000 0 ∧ IsPi 0x046FFFFC 0xFFFFC
    ∧ kernel.pi.addrKnown = true ∧ PiRegs.addrKnown ⟨0, 0, true, false, false⟩ = false
    ∧ kernel.dmaInflight = false ∧ State.dmaInflight { kernel with dmaInflight := true } = true
    ∧ (1 : Word).getLsbD 0 = true ∧ (2 : Word).getLsbD 0 = false ∧ (2 : Word).getLsbD 1 = true
    ∧ (4 : Word).getLsbD 0 = false ∧ (4 : Word).getLsbD 1 = false := by
  unfold State.MapsTo
  decide

/-- StepRunsInstruction, DelaySlotThenTarget, and the frames: a core that runs, at ADDU, with a jump pending. -/
theorem witness_step :
    let s := { start [] 0x00221821 with pending := some ⟨base + 16, 1⟩ }
    s.CpuRuns ∧ s.Modelled ∧ ¬ s.InterruptDue ∧ s.NextIs base true ∧ s.MapsTo base 0x1000
    ∧ s.HoldsBytes 0x1000 [0x00, 0x22, 0x18, 0x21] ∧ decodeBytes [0x00, 0x22, 0x18, 0x21] = .ok (.addu 3 1 2)
    ∧ (after (step s) fun t => t.pending) = some (some ⟨base + 16, 0⟩)
    ∧ (after (exec (.addu 3 1 2) s) fun _ => true) = some true := by
  refine ⟨⟨.inl ⟨rfl, rfl⟩, fun a h => nomatch h⟩, .inl ⟨rfl, rfl⟩, fun h => absurd h.1 (by decide), ⟨rfl, rfl⟩, ?_, ?_,
    by decide, by decide, by decide⟩
  · unfold State.MapsTo; decide
  · unfold State.HoldsBytes; decide

/-- StepRunsInstruction: a word of no row (R190: primary opcode 0x13), which the step executes by raising
ReservedInstruction, code 10 (R472). -/
theorem witness_step_reserved :
    let s := start [] 0x4C000000
    s.CpuRuns ∧ s.Modelled ∧ ¬ s.InterruptDue ∧ s.NextIs base false ∧ s.MapsTo base 0x1000
    ∧ s.HoldsBytes 0x1000 [0x4C, 0, 0, 0] ∧ decodeBytes [0x4C, 0, 0, 0] = .error .general
    ∧ excAfter s = some (10, base) := by
  refine ⟨⟨.inl ⟨rfl, rfl⟩, fun a h => nomatch h⟩, .inl ⟨rfl, rfl⟩, fun h => absurd h.1 (by decide), ⟨rfl, rfl⟩, ?_, ?_,
    by decide, by decide⟩
  · unfold State.MapsTo; decide
  · unfold State.HoldsBytes; decide

/-- InterruptTaken: the timer's interrupt due, with BEV off and on. -/
theorem witness_interrupt :
    let s (status : BitVec 32) :=
      { kernel with cp0 := { State.reset.cp0 with status := status, cause := { Cause.reset with ip7 := true } } }
    (s 0x8001).CpuRuns ∧ (s 0x8001).Modelled ∧ (s 0x8001).InterruptDue ∧ (s 0x8001).NextIs base false
    ∧ (s 0x8001).bev = false ∧ (s 0x408001).InterruptDue ∧ (s 0x408001).bev = true := by
  have due (v : BitVec 32) (h : v.getLsbD 0 = true ∧ v.getLsbD 1 = false ∧ v.getLsbD 2 = false ∧ v.getLsbD 15 = true) :
      State.InterruptDue { kernel with cp0 := { State.reset.cp0 with
        status := v, cause := { Cause.reset with ip7 := true } } } :=
    ⟨h.1, h.2.1, h.2.2.1, 7, by unfold State.IpSet; simp, h.2.2.2⟩
  exact ⟨⟨.inl ⟨rfl, rfl⟩, fun a h => nomatch h⟩, .inl ⟨rfl, rfl⟩, due _ (by decide), ⟨rfl, rfl⟩, rfl, due _ (by decide), rfl⟩

/-- StepStartRefusals: each refused configuration. -/
theorem witness_start_refusals :
    ((withStatus kernel 8).exl = false ∧ (withStatus kernel 8).erl = false ∧ (withStatus kernel 8).ksu = 1)
    ∧ (withStatus kernel 0x18).ksu = 3
    ∧ ((withStatus kernel 0x80).ksu = 0 ∧ (withStatus kernel 0x80).kx = true)
    ∧ ((withStatus kernel 0x30).ksu = 2 ∧ (withStatus kernel 0x30).ux = true)
    ∧ ((withStatus kernel 0x2000010).ksu = 2 ∧ (withStatus kernel 0x2000010).ux = false
      ∧ (withStatus kernel 0x2000010).re = true) := by
  decide

/-- FetchErrors: a core that runs with no interrupt due, at a misaligned target, an invalid one, one only the TLB maps,
one in the peripheral interface's range and one in no range. -/
theorem witness_fetch :
    let s (c : Word) := { kernel with pending := some ⟨c, 0⟩ }
    (∀ c, (s c).CpuRuns ∧ (s c).Modelled ∧ ¬ (s c).InterruptDue ∧ (s c).NextIs c false)
    ∧ (base + 2).toNat % 4 ≠ 0 ∧ (s 0x80000000).BadAddress 0x80000000
    ∧ ((0x1000 : Word).toNat % 4 = 0 ∧ ¬ (s 0x1000).BadAddress 0x1000 ∧ (s 0x1000).TlbMapped 0x1000)
    ∧ ((0xFFFFFFFFA4600000 : Word).toNat % 4 = 0 ∧ (s 0xFFFFFFFFA4600000).MapsTo 0xFFFFFFFFA4600000 0x04600000
      ∧ IsPi 0x04600000 0)
    ∧ (s 0xFFFFFFFFA4400000).MapsTo 0xFFFFFFFFA4400000 0x04400000 ∧ IsUnmapped 0x04400000 := by
  refine ⟨fun c => ⟨⟨.inl ⟨rfl, rfl⟩, fun a h => nomatch h⟩,
    .inl ⟨(by decide : kernel.mode = .kernel), (by decide : kernel.kx = false)⟩,
    fun h => absurd h.1 (by decide : ¬ kernel.cp0.status.getLsbD 0 = true), rfl, rfl⟩, by decide, ?_, ?_, ?_, ?_⟩
  · unfold State.BadAddress; decide
  · unfold State.BadAddress State.TlbMapped; decide
  · unfold State.MapsTo; decide
  · unfold State.MapsTo; decide

/-- FetchErrors: the first word of an empty cartridge, the last word of an empty boot ROM's range and of an absent
one; the step's own refusals. -/
theorem witness_fetch_images :
    let s (c : Word) (boot : Option Image) := { kernel with pending := some ⟨c, 0⟩, bootRom := boot }
    let cart := s 0xFFFFFFFFB0000000 none
    let boot := s 0xFFFFFFFFBFC007BC
    cart.CpuRuns ∧ cart.Modelled ∧ ¬ cart.InterruptDue ∧ cart.NextIs 0xFFFFFFFFB0000000 false
    ∧ cart.MapsTo 0xFFFFFFFFB0000000 0x10000000 ∧ cart.rom.size < 4 ∧ refusalOf cart = some .romReadBeyondImage
    ∧ (∀ b, (boot b).CpuRuns ∧ (boot b).Modelled ∧ ¬ (boot b).InterruptDue ∧ (boot b).NextIs 0xFFFFFFFFBFC007BC false
      ∧ (boot b).MapsTo 0xFFFFFFFFBFC007BC 0x1FC007BC)
    ∧ refusalOf (boot none) = some .bootRomAbsent
    ∧ refusalOf (boot (some ⟨0x7BC, []⟩)) = some .bootRomReadBeyondImage := by
  have modelled (c b) : State.Modelled { kernel with pending := some ⟨c, 0⟩, bootRom := b } :=
    .inl ⟨(by decide : kernel.mode = .kernel), (by decide : kernel.kx = false)⟩
  have quiet (c b) : ¬ State.InterruptDue { kernel with pending := some ⟨c, 0⟩, bootRom := b } :=
    fun h => absurd h.1 (by decide : ¬ kernel.cp0.status.getLsbD 0 = true)
  refine ⟨⟨.inl ⟨rfl, rfl⟩, fun a h => nomatch h⟩, modelled .., quiet _ _, ⟨rfl, rfl⟩, ?_, by decide, by decide,
    fun b => ⟨⟨.inl ⟨rfl, rfl⟩, fun a h => nomatch h⟩, modelled .., quiet _ _, ⟨rfl, rfl⟩, ?_⟩, by decide, by decide⟩
  · unfold State.MapsTo; decide
  · exact (by unfold State.MapsTo; decide : State.MapsTo kernel 0xFFFFFFFFBFC007BC 0x1FC007BC)

/-- AgentTurns: a transfer in flight, each scheduled turn, and a core at HALT_PC. -/
theorem witness_turns :
    State.dmaInflight { kernel with dmaInflight := true } = true
    ∧ State.schedule { kernel with schedule := [.dma] } = [.dma]
    ∧ State.schedule { kernel with schedule := [.env (.setFlag .ai)] } = [.env (.setFlag .ai)]
    ∧ State.schedule { kernel with schedule := [.env (.setInput .ext3 true)] } = [.env (.setInput .ext3 true)]
    ∧ (({ kernel with params := ⟨.mib4, some base, .vr4300⟩ } : State).params.haltPc = some base
      ∧ State.NextIs { kernel with params := ⟨.mib4, some base, .vr4300⟩ } base false) :=
  ⟨rfl, rfl, rfl, rfl, rfl, rfl, rfl⟩

end Sys2Proof.Tests
end

section
/-! Register 0, and what an instruction leaves of the registers, from its effects (`exec_ends`). -/

namespace Sys2Proof.Machine

/-! ### General registers (R31) -/

theorem State.gpr_setGpr_of_ne (s : State) {rd r : RegIdx} (h : r ≠ rd) (v : Word) :
    (s.setGpr rd v).gpr r = s.gpr r := by
  rw [State.gpr_setGpr, if_neg fun h' => h h'.1]

theorem State.reset_gpr (r : RegIdx) : State.reset.gpr r = 0 := by
  simp [State.gpr, State.reset]

/-- Settles O9, by read after write (`State.gpr_setGpr`). -/
theorem registerZero : Obligations.RegisterZero := by
  unfold Obligations.RegisterZero
  refine ⟨State.gpr_zero, fun s v => rfl, fun s r q v hr => ?_, State.reset_gpr⟩
  have hr : r ≠ 0#5 := hr
  rw [State.gpr_setGpr]
  simp [hr]

/-! ### The frame of registers, HI, LO, the latch and LLbit (R31–R37) -/

/-- `t` has the general registers, HI, LO, the latch and LLbit of `s`, but for those `i` names. -/
structure State.RegistersKept (s : State) (i : Instr) (t : State) : Prop where
  gpr : ∀ r, destination i ≠ some r → t.gpr r = s.gpr r
  hi : (writesHiLo i).1 = false → t.hi = s.hi
  lo : (writesHiLo i).2 = false → t.lo = s.lo
  latch : (∀ rt rd, i ≠ .mtc2 rt rd ∧ i ≠ .dmtc2 rt rd ∧ i ≠ .ctc2 rt rd) → t.cop2Latch = s.cop2Latch
  llBit : (∀ rt b o, i ≠ .ll rt b o ∧ i ≠ .lld rt b o) → i ≠ .eret → t.llBit = s.llBit

theorem State.RegistersKept.refl (s : State) (i : Instr) : s.RegistersKept i s :=
  ⟨fun _ _ => rfl, fun _ => rfl, fun _ => rfl, fun _ => rfl, fun _ _ => rfl⟩

/-- Writing the destination keeps every other register. -/
theorem State.RegistersKept.setGpr {s u : State} {i : Instr} (h : s.RegistersKept i u) {rd : RegIdx}
    (hd : destination i = some rd) (v : Word) : s.RegistersKept i (u.setGpr rd v) where
  gpr r hr := (u.gpr_setGpr_of_ne (fun e => hr (hd.trans (congrArg some e.symm))) v).trans (h.gpr r hr)
  hi := by simpa using h.hi
  lo := by simpa using h.lo
  latch := by simpa using h.latch
  llBit := by simpa using h.llBit

/-- A physical write reaches no register. -/
theorem State.RegistersKept.physWrite {s t : State} {form : AccessForm} {p n : Nat} {v : Word} (i : Instr)
    (h : s.physWrite form p n v = .ok t) : s.RegistersKept i t := by
  rw [(State.physWrite_frame h).1]
  exact { State.RegistersKept.refl s i with }

theorem State.RegistersKept.physWriteMasked {s t : State} {p n : Nat} {v mask : Word} (i : Instr)
    (h : s.physWriteMasked p n v mask = .ok t) : s.RegistersKept i t := by
  rw [State.physWriteMasked_frame h]
  exact { State.RegistersKept.refl s i with }

theorem State.Effect.registersKept {s t : State} {i : Instr} (h : s.Effect i t) : s.RegistersKept i t := by
  have same := State.RegistersKept.refl s i
  cases h with
  | unchanged => exact same
  | register rd v hd => exact same.setGpr hd v
  | hiLo hi lo h1 h2 => exact { same with hi := h1, lo := h2 }
  | jump u pc pending _ _ hu =>
    have kept : s.RegistersKept i u := by
      rcases hu with rfl | ⟨rd, v, hd, rfl⟩
      · exact same
      · exact same.setGpr hd v
    exact { kept with }
  | exceptionReturn hi =>
    exact {
      gpr := fun r _ => s.exceptionReturn_gpr r
      hi := fun _ => s.exceptionReturn_hi
      lo := fun _ => s.exceptionReturn_lo
      latch := fun _ => s.exceptionReturn_cop2Latch
      llBit := fun _ hne => absurd hi hne }
  | latch v hi =>
    refine { same with latch := fun hne => ?_ }
    obtain ⟨rt, rd, e | e | e⟩ := hi
    · exact absurd e (hne rt rd).1
    · exact absurd e (hne rt rd).2.1
    · exact absurd e (hne rt rd).2.2
  | cp0 => exact { same with }
  | load u rt v hd hu =>
    have kept : s.RegistersKept i u := by
      rcases hu with rfl | ⟨rfl, _⟩
      · exact same
      · exact { same with }
    exact kept.setGpr hd v
  | linked rt v a hd hi =>
    refine { same.setGpr hd v with llBit := fun hne _ => ?_ }
    obtain ⟨rt, b, o, e | e⟩ := hi
    · exact absurd e (hne rt b o).1
    · exact absurd e (hne rt b o).2
  | store _ m p form v _ _ _ _ _ hw => exact .physWrite i hw
  | storeMasked _ m p v mask _ _ _ hw => exact .physWriteMasked i hw
  | conditional u m p rt v w _ _ _ _ hd hu =>
    have kept : s.RegistersKept i u := by
      rcases hu with rfl | hu
      · exact same
      · exact .physWrite i hu
    exact kept.setGpr hd w

/-- Settles O57: exception entry keeps every register, and each effect writes only those its instruction names. -/
theorem registerFrame : Obligations.RegisterFrame := by
  unfold Obligations.RegisterFrame
  intro i s t he
  have kept : s.RegistersKept i t := by
    rcases exec_ends he with ⟨e, _, rfl⟩ | he
    · exact { State.RegistersKept.refl s i with }
    · exact he.registersKept
  exact ⟨kept.gpr, kept.hi, kept.lo, kept.latch, kept.llBit⟩

end Sys2Proof.Machine
end

section
/-! What an instruction leaves of CP0, the pc, the devices and the inputs (R35–R44, R136), from its effects. -/

namespace Sys2Proof.Machine

/-- `t` has the inputs, the images and the launch's fields of `s`, and the devices and draws unless `i` may change
them. Exception entry keeps these too. -/
structure State.DevicesKept (s : State) (i : Instr) (t : State) : Prop where
  devices : (∀ rt b o, i ≠ .sw rt b o) → t.mi = s.mi ∧ t.pi = s.pi ∧ t.dmaInflight = s.dmaInflight
  draws : (∀ rt b o, i ≠ .lw rt b o ∧ i ≠ .lwu rt b o) → t.draws = s.draws
  ext : t.ext = s.ext
  rom : t.rom = s.rom
  bootRom : t.bootRom = s.bootRom
  params : t.params = s.params
  schedule : t.schedule = s.schedule

/-- `t` also has the CP0 registers, the pc and the pending jump of `s`, unless `i` may change them. -/
structure State.SystemKept (s : State) (i : Instr) (t : State) : Prop extends s.DevicesKept i t where
  cp0 : (∀ rt rd, i ≠ .mtc0 rt rd ∧ i ≠ .dmtc0 rt rd) → (∀ rt b o, i ≠ .ll rt b o ∧ i ≠ .lld rt b o) →
    i ≠ .eret → t.cp0 = s.cp0
  flow : isControlTransfer i = false → t.pc = s.pc ∧ t.pending = s.pending

theorem State.SystemKept.refl (s : State) (i : Instr) : s.SystemKept i s where
  devices _ := ⟨rfl, rfl, rfl⟩
  draws _ := rfl
  ext := rfl
  rom := rfl
  bootRom := rfl
  params := rfl
  schedule := rfl
  cp0 _ _ _ := rfl
  flow _ := ⟨rfl, rfl⟩

theorem State.SystemKept.setGpr {s u : State} {i : Instr} (h : s.SystemKept i u) (rd : RegIdx) (v : Word) :
    s.SystemKept i (u.setGpr rd v) := by
  rw [u.setGpr_frame rd v]
  exact { h with }

/-- Only SW reaches the devices (R123, R136). -/
theorem State.SystemKept.physWrite {s t : State} {i : Instr} {form : AccessForm} {p n : Nat} {v : Word}
    (hf : form = .word → ∃ rt b o, i = .sw rt b o) (h : s.physWrite form p n v = .ok t) : s.SystemKept i t := by
  obtain ⟨frame, ram⟩ := State.physWrite_frame h
  have same := State.SystemKept.refl s i
  cases form with
  | word =>
    obtain ⟨rt, b, o, e⟩ := hf rfl
    rw [frame]
    exact { same with devices := fun hne => absurd e (hne rt b o) }
  | other =>
    rw [ram rfl]
    exact { same with }

theorem State.SystemKept.physWriteMasked {s t : State} {p n : Nat} {v mask : Word} (i : Instr)
    (h : s.physWriteMasked p n v mask = .ok t) : s.SystemKept i t := by
  rw [State.physWriteMasked_frame h]
  exact { State.SystemKept.refl s i with }

/-- ERET changes the CP0 registers, the pc, the pending jump and LLbit alone (R411). -/
theorem State.SystemKept.exceptionReturn (s : State) : s.SystemKept .eret s.exceptionReturn where
  devices _ := ⟨s.exceptionReturn_mi, s.exceptionReturn_pi, s.exceptionReturn_dmaInflight⟩
  draws _ := s.exceptionReturn_draws
  ext := s.exceptionReturn_ext
  rom := s.exceptionReturn_rom
  bootRom := s.exceptionReturn_bootRom
  params := s.exceptionReturn_params
  schedule := s.exceptionReturn_schedule
  cp0 _ _ hne := absurd rfl hne
  flow hn := absurd hn (by decide)

theorem State.Effect.systemKept {s t : State} {i : Instr} (h : s.Effect i t) : s.SystemKept i t := by
  have same := State.SystemKept.refl s i
  cases h with
  | unchanged => exact same
  | register rd v => exact same.setGpr rd v
  | hiLo => exact { same with }
  | jump u pc pending hj _ hu =>
    have kept : s.SystemKept i u := by
      rcases hu with rfl | ⟨rd, v, _, rfl⟩
      · exact same
      · exact same.setGpr rd v
    exact { kept with flow := fun hn => absurd (hj.symm.trans hn) (by decide) }
  | exceptionReturn hi => exact hi ▸ .exceptionReturn s
  | latch => exact { same with }
  | cp0 c hi =>
    refine { same with cp0 := fun hne _ _ => ?_ }
    obtain ⟨rt, rd, e | e⟩ := hi
    · exact absurd e (hne rt rd).1
    · exact absurd e (hne rt rd).2
  | load u rt v _ hu =>
    have kept : s.SystemKept i u := by
      rcases hu with rfl | ⟨rfl, rt, b, o, e | e⟩
      · exact same
      · exact { same with draws := fun hne => absurd e (hne rt b o).1 }
      · exact { same with draws := fun hne => absurd e (hne rt b o).2 }
    exact kept.setGpr rt v
  | linked rt v a _ hi =>
    refine { same.setGpr rt v with cp0 := fun _ hne _ => ?_ }
    obtain ⟨rt, b, o, e | e⟩ := hi
    · exact absurd e (hne rt b o).1
    · exact absurd e (hne rt b o).2
  | store _ m p form v _ _ _ _ hf hw => exact .physWrite hf hw
  | storeMasked _ m p v mask _ _ _ hw => exact .physWriteMasked i hw
  | conditional u m p rt v w _ _ _ _ _ hu =>
    have kept : s.SystemKept i u := by
      rcases hu with rfl | hu
      · exact same
      · exact .physWrite (form := .other) nofun hu
    exact kept.setGpr rt w

/-- Settles O58: an exception is entered at the instruction's own address, and each effect keeps what its
instruction does not name. -/
theorem systemFrame : Obligations.SystemFrame := by
  unfold Obligations.SystemFrame
  intro i s t he
  rcases exec_ends he with ⟨e, _, rfl⟩ | effect
  · have kept : s.DevicesKept i (s.enter e s.cur s.inDelay) := { (State.SystemKept.refl s i).toDevicesKept with }
    exact ⟨.inl ⟨_, _, _, s.entersException_enter e s.cur s.inDelay⟩,
      kept.devices, kept.draws, kept.ext, kept.rom, kept.bootRom, kept.params, kept.schedule⟩
  · have kept := effect.systemKept
    exact ⟨.inr ⟨kept.cp0, kept.flow⟩,
      kept.devices, kept.draws, kept.ext, kept.rom, kept.bootRom, kept.params, kept.schedule⟩

end Sys2Proof.Machine
end

section
/-! What an instruction leaves of memory (R104, R121, R132), from its effects. -/

namespace Sys2Proof.Machine

/-- The whole of memory reads in `t` as in `s`. -/
def State.SameBytes (s t : State) : Prop := ∀ q, t.byteAt q = s.byteAt q

/-- What a store to `p` of access `m` leaves (R121, R132): every byte outside the aligned unit of `p`, each address
modulo the RAM size, unless it starts a transfer at PI_WR_LEN (R145). -/
def State.KeepsOutsideUnit (s t : State) (m : MemoryAccess) (p : Nat) : Prop :=
  ¬ IsPi p 12 → ∀ q, (∀ j < m.width, IsRam p → IsRam q → q % s.ramSize ≠ (p - p % m.width + j) % s.ramSize) →
    t.byteAt q = s.byteAt q

theorem State.SameBytes.keepsOutsideUnit {s t : State} (h : s.SameBytes t) (m : MemoryAccess) (p : Nat) :
    s.KeepsOutsideUnit t m p := fun _ q _ => h q

theorem State.byteAt_setGpr (s : State) (rd : RegIdx) (v : Word) (q : Nat) : (s.setGpr rd v).byteAt q = s.byteAt q :=
  (s.writesGpr_setGpr rd v).2.2 q

theorem State.SameBytes.setGpr {s u : State} (h : s.SameBytes u) (rd : RegIdx) (v : Word) :
    s.SameBytes (u.setGpr rd v) := fun q => (u.byteAt_setGpr rd v q).trans (h q)

theorem State.KeepsOutsideUnit.setGpr {s u : State} {m : MemoryAccess} {p : Nat} (h : s.KeepsOutsideUnit u m p)
    (rd : RegIdx) (v : Word) : s.KeepsOutsideUnit (u.setGpr rd v) m p :=
  fun hp q hq => (u.byteAt_setGpr rd v q).trans (h hp q hq)

theorem memoryAccess_width_le {i : Instr} {m : MemoryAccess} (h : memoryAccess i = some m) : m.width ≤ 8 :=
  Nat.le_of_dvd (by decide) (memoryAccess_width h)

theorem State.keepsOutsideUnit_physWrite {s t : State} {m : MemoryAccess} {form : AccessForm} {p : Nat} {v : Word}
    (hw : s.ram.wf = true) (hn : m.width ≤ 8) (ha : p % m.width = 0)
    (h : s.physWrite form p m.width v = .ok t) : s.KeepsOutsideUnit t m p := by
  intro hp q hq
  rw [ha] at hq
  exact State.byteAt_physWrite hw hn h hp hq

/-- The aligned unit of `p` starts in RAM only if `p` is in RAM (R120). -/
theorem isRam_of_unit {p n : Nat} (hn : n ∣ 8) (h : IsRam (p - p % n)) : IsRam p := by
  rcases width_cases hn with rfl | rfl | rfl | rfl <;> omega

theorem State.keepsOutsideUnit_physWriteMasked {s t : State} {m : MemoryAccess} {p : Nat} {v mask : Word}
    (hw : s.ram.wf = true) (hn : m.width ∣ 8)
    (h : s.physWriteMasked (p - p % m.width) m.width v mask = .ok t) : s.KeepsOutsideUnit t m p :=
  fun _ _ hq => State.byteAt_physWriteMasked hw (Nat.le_of_dvd (by decide) hn) h
    fun j hj hu => hq j hj (isRam_of_unit hn hu)

/-- `t` has the memory of `s` but for what `i`, a store whose effective address maps to `p`, may reach. -/
def State.StoresAt (s : State) (i : Instr) (t : State) : Prop :=
  ∃ m p, memoryAccess i = some m ∧ m.stores = true ∧ s.MapsTo (s.effectiveAddress m.base m.offset) p
    ∧ s.KeepsOutsideUnit t m p

/-- An effect leaves memory as it was, or is a store's. -/
theorem State.Effect.sameBytes_or_storesAt {s t : State} {i : Instr} (h : s.Effect i t) (hw : s.ram.wf = true) :
    s.SameBytes t ∨ s.StoresAt i t := by
  have same : s.SameBytes s := fun _ => rfl
  cases h with
  | unchanged => exact .inl same
  | register rd v => exact .inl (same.setGpr rd v)
  | hiLo => exact .inl same
  | jump u pc pending _ _ hu =>
    rcases hu with rfl | ⟨rd, v, _, rfl⟩
    · exact .inl same
    · exact .inl (same.setGpr rd v)
  | exceptionReturn => exact .inl (State.byteAt_congr (by simp) (by simp) (by simp) (by simp))
  | latch => exact .inl same
  | cp0 => exact .inl same
  | load u rt v _ hu =>
    rcases hu with rfl | ⟨rfl, _⟩
    · exact .inl (same.setGpr rt v)
    · exact .inl (State.SameBytes.setGpr (u := { s with draws := s.draws + 1 }) same rt v)
  | linked rt v a => exact .inl (same.setGpr rt v)
  | store _ m p form v hm hs hp ha _ h =>
    exact .inr ⟨m, p, hm, hs, hp, State.keepsOutsideUnit_physWrite hw (memoryAccess_width_le hm) ha h⟩
  | storeMasked _ m p v mask hm hs hp h =>
    exact .inr ⟨m, p, hm, hs, hp, State.keepsOutsideUnit_physWriteMasked hw (memoryAccess_width hm) h⟩
  | conditional u m p rt v w hm hs hp ha _ h =>
    rcases h with rfl | h
    · exact .inl (same.setGpr rt w)
    · have kept := State.keepsOutsideUnit_physWrite hw (memoryAccess_width_le hm) ha h
      exact .inr ⟨m, p, hm, hs, hp, kept.setGpr rt w⟩

/-- Settles O59: exception entry and every effect but a store's leave memory as it was, and a store reaches only
the unit of the one physical address its effective address maps to. -/
theorem memoryFrame : Obligations.MemoryFrame := by
  unfold Obligations.MemoryFrame
  intro i s t hw he
  have memory : s.SameBytes t ∨ s.StoresAt i t := by
    rcases exec_ends he with ⟨e, _, rfl⟩ | effect
    · exact .inl fun _ => rfl
    · exact effect.sameBytes_or_storesAt hw
  rcases memory with same | ⟨m, p, hm, hs, hp, kept⟩
  · exact ⟨fun _ => same, fun m _ _ => ⟨fun _ => same, fun p _ => same.keepsOutsideUnit m p⟩⟩
  · refine ⟨fun hload => absurd hs (by simp [hload m hm]), fun m' hm' _ => ?_⟩
    obtain rfl : m = m' := Option.some.inj (hm.symm.trans hm')
    refine ⟨fun hnone => absurd hp (hnone p), fun p' hp' => ?_⟩
    obtain rfl := hp.unique hp'
    exact kept

end Sys2Proof.Machine
end

section
/-! The invariant under exception entry, the effects of instructions, and the steps of the three agents. -/

namespace Sys2Proof.Machine

theorem State.Inv.enter {s : State} (h : s.Inv) (e : Exc) (a : Word) (bd : Bool) : (s.enter e a bd).Inv :=
  { h with }

theorem State.Inv.exceptionReturn {s : State} (h : s.Inv) : s.exceptionReturn.Inv := by
  unfold State.exceptionReturn
  split
  · exact { h with }
  · exact { h with }

theorem State.Inv.tick {s : State} (h : s.Inv) : s.tick.Inv := { h with }

theorem State.Inv.turnTaken {s : State} (h : s.Inv) : s.turnTaken.Inv := { h with }

theorem State.Inv.advancePending {s : State} (h : s.Inv) : s.advancePending.Inv := by
  unfold State.advancePending
  split
  · exact h
  · split
    · exact { h with }
    · exact { h with }

/-- The PI source is not one of the environment's (R500, R505). -/
theorem EnvSource.bit_ne_piSource (src : EnvSource) : 4 ≠ src.bit := by cases src <;> decide

theorem EnvSource.bit_lt (src : EnvSource) : src.bit < 6 := by cases src <;> decide

/-- The environment never moves the PI flag (R505). -/
theorem State.Inv.environment {s : State} (h : s.Inv) (a : EnvAction) : (s.environment a).Inv := by
  cases a with
  | setFlag src =>
    have hflag := setFlagBit_getLsbD s.mi.flags src.bit_lt (j := 4) (by decide)
    rw [if_neg src.bit_ne_piSource] at hflag
    exact { h with flagIffCompleted := hflag.trans h.flagIffCompleted }
  | clearFlag src =>
    have hflag := clearFlagBit_getLsbD s.mi.flags src.bit_lt (j := 4) (by decide)
    rw [if_neg src.bit_ne_piSource] at hflag
    exact { h with flagIffCompleted := hflag.trans h.flagIffCompleted }
  | setInput line level => exact { h with }

/-- Completion clears busy and the transfer record, and sets completed and the PI flag, together (R148). -/
theorem State.Inv.dmaCompletion {s : State} (h : s.Inv) : s.dmaCompletion.Inv :=
  { h with
    busyIffInflight := rfl
    flagIffCompleted := setFlagBit_getLsbD s.mi.flags (i := 4) (j := 4) (by decide) (by decide)
    notBusyAndCompleted := rfl }

/-- Every effect of an instruction keeps the invariant. -/
theorem State.Inv.effect {s t : State} {i : Instr} (h : s.Inv) (he : s.Effect i t) : t.Inv := by
  cases he with
  | unchanged => exact h
  | register rd v => exact h.setGpr rd v
  | hiLo => exact { h with }
  | jump u pc pending _ _ hu =>
    have hu : u.Inv := by
      rcases hu with rfl | ⟨rd, v, _, rfl⟩
      · exact h
      · exact h.setGpr rd v
    exact { hu with }
  | exceptionReturn => exact h.exceptionReturn
  | latch => exact { h with }
  | cp0 c _ hw => exact { h with watchLoLow := hw.elim id fun e => e ▸ h.watchLoLow }
  | load u rt v _ hu =>
    have hu : u.Inv := by
      rcases hu with rfl | ⟨rfl, _⟩
      · exact h
      · exact { h with }
    exact hu.setGpr rt v
  | linked rt v a => exact { h.setGpr rt v with watchLoLow := h.watchLoLow }
  | store _ m p form v _ _ _ _ _ hw => exact h.physWrite hw
  | storeMasked _ m p v mask _ _ _ hw => exact h.physWriteMasked hw
  | conditional u m p rt v w _ _ _ _ _ hu =>
    have hu : u.Inv := by
      rcases hu with rfl | hu
      · exact h
      · exact h.physWrite hu
    exact hu.setGpr rt w

theorem State.Inv.exec {s t : State} {i : Instr} (h : s.Inv) (he : exec i s = .next t) : t.Inv := by
  rcases exec_ends he with ⟨e, _, rfl⟩ | he
  · exact h.enter ..
  · exact h.effect he

theorem State.Inv.fetchExecute {s t : State} (h : s.Inv) (he : s.fetchExecute = .next t) : t.Inv := by
  have hnext : State.Inv { s with pc := s.pc + 4 } := { h with }
  rcases State.fetchExecute_ends he with ⟨e, a, bd, rfl⟩ | ⟨e, a, bd, rfl⟩ | ⟨i, he⟩
  · exact h.enter ..
  · exact hnext.enter ..
  · exact hnext.exec he

theorem State.Inv.cpuStep {s t : State} (h : s.Inv) (he : s.cpuStep = .next t) : t.Inv := by
  unfold State.cpuStep at he
  split at he
  · cases he
  · split at he
    · obtain ⟨u, hu, rfl⟩ := tickOutcome_next he
      obtain ⟨_, rfl⟩ := State.takeException_next.mp hu
      exact (h.enter ..).tick
    · obtain ⟨u, hu, rfl⟩ := tickOutcome_next he
      exact (h.advancePending.fetchExecute hu).tick

/-- Settles O8: each agent's step keeps the invariant, the CPU's because every effect of an instruction does. -/
theorem stepKeepsInvariant : Obligations.StepKeepsInvariant := by
  unfold Obligations.StepKeepsInvariant
  intro s t h he
  rcases step_cases s with ⟨a, hs⟩ | hs | hs | hs <;> rw [hs] at he
  · cases he; exact h.turnTaken.environment a
  · cases he; exact h.turnTaken.dmaCompletion
  · cases he
  · exact h.turnTaken.cpuStep he

end Sys2Proof.Machine
end

section
/-! Translation, and the word that RAM gives back after a store (R111, R164). -/

namespace Sys2Proof.Machine

/-- Settles O27, from the law of each outcome of `State.translate`. -/
theorem translation : Obligations.Translation := by
  unfold Obligations.Translation
  intro s kind va
  refine ⟨fun p h => State.translate_mapsTo h kind, fun h => ?_, fun hb h => State.translate_tlb hb h kind,
    s.mapsTo_or va, fun h p => State.not_mapsTo_of_user h va p⟩
  rw [State.translate_bad h kind]
  cases kind <;> rfl

/-- RAM admits a read of any form and changes nothing (R121). -/
theorem State.physRead_ram (s : State) {p : Nat} (h : IsRam p) (form : AccessForm) (n : Nat) :
    s.physRead form p n = .ok (s.readRam p n, s) := by
  simp only [State.physRead, regionOf_ram h]

/-- An aligned load from RAM (R130, R342–R348). -/
theorem State.load_ram {s : State} {va : Word} {p n : Nat} (hm : s.MapsTo va p) (hr : IsRam p) (hn : n ∣ 8)
    (ha : p % n = 0) (form : AccessForm) (ext : LoadExt) (rt : RegIdx) :
    s.load form n ext rt va = .ok (s.setGpr rt (ext.apply (s.readRam p n))) := by
  rw [State.load, State.memRead, State.alignedAddress_mapsTo hm hn ha, ok_bind, hm.toNat, State.physRead_ram s hr]
  rfl

/-- The four bytes a word write stores read back as its low word, also where RAM wraps (R121, R164). -/
theorem State.lo32_readRam_writeRam {s : State} (h : s.ram.wf = true) (p : Nat) (v : Word) :
    lo32 ((s.writeRam p 4 v).readRam p 4) = lo32 v := by
  apply BitVec.eq_of_getLsbD_eq
  intro j hj
  have hbyte : ∀ i < 4, ∀ k < 4, s.ramByte p k = s.ramByte p i → k = i :=
    fun i hi k hk => s.ramByte_inj p (by omega) (by omega)
  have hbit : ((s.writeRam p 4 v).readRam p 4).getLsbD j = (decide (j < 8 * 4) && v.getLsbD j) :=
    Memory.readBE_writeBE h hbyte (by decide) v j
  rw [lo32_getLsbD, lo32_getLsbD, hbit]
  simp [hj]

/-- Settles O34: the store writes RAM, and the load reads the word back from the same bytes. -/
theorem storeLoadRoundTrip : Obligations.StoreLoadRoundTrip := by
  unfold Obligations.StoreLoadRoundTrip
  intro s t rt base rt' base' offset offset' p hw hm hr ha he hea
  rw [execSw_eq hm ha (s.physWrite_ram hr .word 4 _)] at he
  obtain rfl : s.writeRam p 4 (s.gpr rt) = t := Host.Outcome.next.inj he
  have hm' : (s.writeRam p 4 (s.gpr rt)).MapsTo (State.effectiveAddress _ base' offset') p := hea ▸ hm
  have load := State.load_ram hm' hr (by norm_num) ha .word .s32 rt'
  refine completesGpr_of_eq (congrArg (State.complete _) load) ?_
  change IsWord (sext32 (lo32 _)) _
  rw [State.lo32_readRam_writeRam hw]
  exact isWord_sext32 (ofInt_signedWord _).symm

end Sys2Proof.Machine
end

section
/-! The accesses that the physical map does not admit (R122, R123, R125). -/

namespace Sys2Proof.Machine

/-- An access of `n` bytes, a store or not, LW, LWU or SW (`word`) or not, is refused in this region as `r`. -/
inductive State.Bars (s : State) (stores word : Bool) (n : Nat) : Region → Refusal → Prop where
  | unmapped : s.Bars stores word n .unmapped .unmappedPhysicalAddress
  | mi (o : Nat) (hf : word = false) : s.Bars stores word n (.mi o) .mmioAccessFormNotModelled
  | pi (o : Nat) (hf : word = false) : s.Bars stores word n (.pi o) .mmioAccessFormNotModelled
  | rom (o : Nat) (hl : stores = false) (h : s.rom.size < o + n) : s.Bars stores word n (.rom o) .romReadBeyondImage
  | noBootRom (o : Nat) (hl : stores = false) (h : s.bootRom = none) : s.Bars stores word n (.bootRom o) .bootRomAbsent
  | bootRom (o : Nat) (m : Image) (hl : stores = false) (hb : s.bootRom = some m) (h : m.size < o + n) :
    s.Bars stores word n (.bootRom o) .bootRomReadBeyondImage

theorem AccessForm.eq_other {form : AccessForm} (h : decide (form = .word) = false) : form = .other := by
  cases form with
  | word => cases h
  | other => rfl

theorem State.physRead_barred {s : State} {form : AccessForm} {p n : Nat} {r : Refusal}
    (h : s.Bars false (decide (form = .word)) n (regionOf p) r) : s.physRead form p n = refuse r := by
  unfold State.physRead
  generalize regionOf p = region at h
  cases h with
  | unmapped => rfl
  | mi o hf => cases AccessForm.eq_other hf; rfl
  | pi o hf => cases AccessForm.eq_other hf; rfl
  | rom o _ h => simp only [Image.readBE_refuse h]; rfl
  | noBootRom o _ h => simp only [h]
  | bootRom o m _ hb h => simp only [hb, Image.readBE_refuse h]; rfl

theorem State.physWrite_barred {s : State} {form : AccessForm} {p n : Nat} {r : Refusal}
    (h : s.Bars true (decide (form = .word)) n (regionOf p) r) (v : Word) : s.physWrite form p n v = refuse r := by
  unfold State.physWrite
  generalize regionOf p = region at h
  cases h with
  | unmapped => rfl
  | mi o hf => cases AccessForm.eq_other hf; rfl
  | pi o hf => cases AccessForm.eq_other hf; rfl
  | rom _ hl _ => cases hl
  | noBootRom _ hl _ => cases hl
  | bootRom _ _ hl _ _ => cases hl

theorem State.physWriteMasked_barred {s : State} {p n : Nat} {r : Refusal}
    (h : s.Bars true false n (regionOf p) r) (v mask : Word) : s.physWriteMasked p n v mask = refuse r := by
  unfold State.physWriteMasked
  generalize regionOf p = region at h
  cases h with
  | unmapped => rfl
  | mi => rfl
  | pi => rfl
  | rom _ hl _ => cases hl
  | noBootRom _ hl _ => cases hl
  | bootRom _ _ hl _ _ => cases hl

/-- A load or store that makes its access is refused where the map bars the aligned unit it reaches. -/
theorem exec_barred {i : Instr} {m : MemoryAccess} {s : State} {p : Nat} {r : Refusal} (hi : memoryAccess i = some m)
    (hu : ¬ (isDoubleword i = true ∧ s.mode = .user)) (hm : s.MapsTo (s.effectiveAddress m.base m.offset) p)
    (ha : p % m.align = 0) (hl : (∀ rt b o, i ≠ .sc rt b o ∧ i ≠ .scd rt b o) ∨ s.llBit = true)
    (h : s.Bars m.stores m.wordForm m.width (regionOf (p - p % m.width)) r) : exec i s = .refused r := by
  have hn := memoryAccess_width hi
  have whole (e : m.align = m.width) : p - p % m.width = p := by rw [← e, ha, Nat.sub_zero]
  cases s.accessCase hi hu with
  | load form ext rt eq kind =>
    obtain ⟨hs, hal, hf⟩ := kind
    rw [hs, hf, whole hal] at h
    rw [eq, State.load, State.memRead, State.alignedAddress_mapsTo hm hn (hal ▸ ha), ok_bind, hm.toNat,
      State.physRead_barred h]
    rfl
  | linked ext rt eq kind =>
    obtain ⟨hs, hal, hf⟩ := kind
    rw [hs, hf, whole hal] at h
    rw [eq, State.loadLinked, State.alignedAddress_mapsTo hm hn (hal ▸ ha), ok_bind, hm.toNat,
      State.physRead_barred (form := .other) h]
    rfl
  | partialLoad rt value eq kind =>
    obtain ⟨hs, _, hf⟩ := kind
    rw [hs, hf] at h
    rw [eq, State.unitRead, State.translate_mapsTo hm, ok_bind, unitAddress, hm.toNat,
      State.physRead_barred (form := .other) h]
    rfl
  | store form v eq kind =>
    obtain ⟨hs, hal, hf⟩ := kind
    rw [hs, hf, whole hal] at h
    rw [eq, State.memWrite, State.alignedAddress_mapsTo hm hn (hal ▸ ha), ok_bind, hm.toNat,
      State.physWrite_barred h]
    rfl
  | partialStore v mask eq kind =>
    obtain ⟨hs, _, hf⟩ := kind
    rw [hs, hf] at h
    rw [eq, State.memWriteMasked, State.translate_mapsTo hm, ok_bind, unitAddress, hm.toNat,
      State.physWriteMasked_barred h]
    rfl
  | conditional rt eq kind which =>
    obtain ⟨hs, hal, hf⟩ := kind
    have hll : s.llBit = true := by
      obtain ⟨rt, b, o, e | e⟩ := which
      · exact hl.resolve_left fun hne => (hne rt b o).1 e
      · exact hl.resolve_left fun hne => (hne rt b o).2 e
    rw [hs, hf, whole hal] at h
    rw [eq, State.storeConditional, State.alignedAddress_mapsTo hm hn (hal ▸ ha), ok_bind, if_pos hll, hm.toNat,
      State.physWrite_barred (form := .other) h]
    rfl

/-! Every range of the map begins and ends at a multiple of 8, so the aligned unit of an address lies in its range
(R120). -/

theorem regionOf_unit_unmapped {p n : Nat} (hn : n ∣ 8) (h : IsUnmapped p) : regionOf (p - p % n) = .unmapped :=
  regionOf_unmapped (by rcases width_cases hn with rfl | rfl | rfl | rfl <;> omega)

theorem regionOf_unit_mi {p n o : Nat} (hn : n ∣ 8) (h : IsMi p o) : regionOf (p - p % n) = .mi (o - p % n) :=
  regionOf_mi (by rcases width_cases hn with rfl | rfl | rfl | rfl <;> omega)

theorem regionOf_unit_pi {p n o : Nat} (hn : n ∣ 8) (h : IsPi p o) : regionOf (p - p % n) = .pi (o - p % n) :=
  regionOf_pi (by rcases width_cases hn with rfl | rfl | rfl | rfl <;> omega)

theorem regionOf_unit_rom {p n : Nat} (hn : n ∣ 8) (h : 0x10000000 ≤ p) (h' : p ≤ 0x1FBFFFFF) :
    regionOf (p - p % n) = .rom (p - p % n - 0x10000000) :=
  regionOf_rom (by rcases width_cases hn with rfl | rfl | rfl | rfl <;> omega) (by omega)

theorem regionOf_unit_bootRom {p n : Nat} (hn : n ∣ 8) (h : 0x1FC00000 ≤ p) (h' : p ≤ 0x1FC007BF) :
    regionOf (p - p % n) = .bootRom (p - p % n - 0x1FC00000) :=
  regionOf_bootRom (by rcases width_cases hn with rfl | rfl | rfl | rfl <;> omega) (by omega)

/-- Settles O36: in each clause the map bars the access in the region of its aligned unit. -/
theorem accessRefusals : Obligations.AccessRefusals := by
  unfold Obligations.AccessRefusals
  intro i m s p hi hu hm ha hl
  have hn := memoryAccess_width hi
  have barred {r : Refusal} := exec_barred (r := r) hi hu hm ha hl
  refine ⟨fun h => barred ?_, fun hf h => barred ?_, fun hs h h' hsize => barred ?_,
    fun hs h h' hb => barred ?_, fun boot hs h h' hb hsize => barred ?_⟩
  · rw [regionOf_unit_unmapped hn h]
    exact .unmapped
  · obtain ⟨o, h | h⟩ := h
    · rw [regionOf_unit_mi hn h]
      exact .mi _ hf
    · rw [regionOf_unit_pi hn h]
      exact .pi _ hf
  · rw [regionOf_unit_rom hn h h']
    exact .rom _ hs hsize
  · rw [regionOf_unit_bootRom hn h h']
    exact .noBootRom _ hs hb
  · rw [regionOf_unit_bootRom hn h h']
    exact .bootRom _ boot hs hb hsize

end Sys2Proof.Machine
end

section
/-! Word accesses to the interrupt controller and the peripheral interface (R141–R152, R504). -/

namespace Sys2Proof.Machine

/-! ### Reads -/

/-- LW and LWU where the physical read gives the word `w` and leaves `u` (R346, R347). -/
theorem exec_loadWord {s u : State} {rt base : RegIdx} {offset : Imm16} {p : Nat} {w : BitVec 32}
    (hm : s.MapsTo (s.effectiveAddress base offset) p) (ha : p % 4 = 0)
    (h : s.physRead .word p 4 = .ok (zext32 w, u)) :
    exec (.lw rt base offset) s = .next (u.setGpr rt (sext32 w))
      ∧ exec (.lwu rt base offset) s = .next (u.setGpr rt (zext32 w)) := by
  have hext : LoadExt.s32.apply (zext32 w) = sext32 w := congrArg sext32 (lo32_zext32 w)
  exact ⟨hext ▸ congrArg s.complete (State.load_device hm ha h .s32 rt),
    congrArg s.complete (State.load_device hm ha h .zero rt)⟩

/-- LW and LWU read the number `n` and change the destination alone. -/
def State.ReadsWord (s : State) (rt base : RegIdx) (offset : Imm16) (n : Nat) : Prop :=
  CompletesGpr (.lw rt base offset) s rt (fun v => IsWord v n)
    ∧ CompletesGpr (.lwu rt base offset) s rt (fun v => v.toNat = n)

/-- LW and LWU complete with the same drawn word, changing the destination and the count of draws. -/
def State.DrawsWord (s : State) (rt base : RegIdx) (offset : Imm16) : Prop :=
  ∃ w : BitVec 32,
    (∃ t, exec (.lw rt base offset) s = .next t
      ∧ (∀ r, t.gpr r = if r = rt ∧ rt ≠ 0#5 then w.signExtend 64 else s.gpr r)
      ∧ t = { s with regs := t.regs, draws := s.draws + 1 })
    ∧ ∃ t, exec (.lwu rt base offset) s = .next t
      ∧ (∀ r, t.gpr r = if r = rt ∧ rt ≠ 0#5 then w.setWidth 64 else s.gpr r)
      ∧ t = { s with regs := t.regs, draws := s.draws + 1 }

theorem State.readsWord {s : State} {rt base : RegIdx} {offset : Imm16} {p n : Nat} {w : BitVec 32}
    (hm : s.MapsTo (s.effectiveAddress base offset) p) (ha : p % 4 = 0)
    (h : s.physRead .word p 4 = .ok (zext32 w, s)) (hw : w.toNat = n) : s.ReadsWord rt base offset n := by
  obtain ⟨lw, lwu⟩ := exec_loadWord (rt := rt) hm ha h
  subst hw
  exact ⟨completesGpr_of_eq lw (isWord_sext32_ofNat (by simp)), completesGpr_of_eq lwu (zext32_toNat w)⟩

theorem State.drawsWord {s : State} {rt base : RegIdx} {offset : Imm16} {p : Nat}
    (hm : s.MapsTo (s.effectiveAddress base offset) p) (ha : p % 4 = 0)
    (h : s.physRead .word p 4 = .ok (zext32 s.draw.1, s.draw.2)) : s.DrawsWord rt base offset := by
  obtain ⟨lw, lwu⟩ := exec_loadWord (rt := rt) hm ha h
  exact ⟨s.draw.1, ⟨_, lw, fun r => s.draw.2.gpr_setGpr rt r _, s.draw.2.setGpr_frame rt _⟩,
    ⟨_, lwu, fun r => s.draw.2.gpr_setGpr rt r _, s.draw.2.setGpr_frame rt _⟩⟩

theorem State.readMi_mode_toNat (s : State) : (s.readMi 0).1.toNat = s.mi.mode.toNat % 2 ^ 10 := by
  change ((s.mi.mode.extractLsb' 0 10).setWidth 32).toNat = _
  rw [BitVec.toNat_setWidth_of_le (by decide), BitVec.extractLsb'_toNat, Nat.shiftRight_zero]

/-- Settles O37: each register is read by its arm of `readMi` or `readPi`, or drawn. -/
theorem deviceReads : Obligations.DeviceReads := by
  unfold Obligations.DeviceReads
  intro s rt base offset p o hm ho
  refine ⟨fun hp => ?_, fun hp => ?_⟩
  · have ha : p % 4 = 0 := by omega
    have read := s.physRead_mi hp 4
    refine ⟨?_, ?_, ?_, ?_, fun h => ?_⟩
    · rintro rfl
      exact State.readsWord hm ha read s.readMi_mode_toNat
    · rintro rfl
      exact State.readsWord hm ha read rfl
    · rintro rfl
      exact State.readsWord hm ha read (BitVec.toNat_setWidth_of_le (by decide))
    · rintro rfl
      exact State.readsWord hm ha read (BitVec.toNat_setWidth_of_le (by decide))
    · rw [s.readMi_draw h] at read
      exact State.drawsWord hm ha read
  · have ha : p % 4 = 0 := by omega
    have read := s.physRead_pi hp 4
    refine ⟨?_, ?_, ?_, fun h hk => ?_, fun h => ?_⟩
    · rintro rfl hk
      rw [(s.readPi_address hk).1] at read
      exact State.readsWord hm ha read (BitVec.toNat_setWidth_of_le (by decide))
    · rintro rfl hk
      rw [(s.readPi_address hk).2] at read
      exact State.readsWord hm ha read rfl
    · rintro rfl
      exact State.readsWord hm ha read s.pi.status_toNat
    · have stale : s.readPi o = s.draw := by
        rcases h with rfl | rfl
        · exact (s.readPi_stale hk).1
        · exact (s.readPi_stale hk).2
      rw [stale] at read
      exact State.drawsWord hm ha read
    · rw [s.readPi_draw h] at read
      exact State.drawsWord hm ha read

/-! ### Writes -/

/-- SW to a PI register is the register's write (R143–R150). -/
theorem execSw_pi {s : State} {rt base : RegIdx} {offset : Imm16} {p o : Nat}
    (hm : s.MapsTo (s.effectiveAddress base offset) p) (hp : IsPi p o) (ho : o % 4 = 0) :
    exec (.sw rt base offset) s = s.complete (s.writePi o (lo32 (s.gpr rt))) :=
  execSw_eq hm (by omega) (s.physWrite_pi hp 4 _)

theorem lo32_eq_extract (v : Word) : lo32 v = v.extractLsb' 0 32 := BitVec.setWidth_eq_extractLsb' (by decide)

theorem lo32_extract_24 (v : Word) : (lo32 v).extractLsb' 0 24 = v.extractLsb' 0 24 := by
  apply BitVec.eq_of_toNat_eq
  rw [BitVec.extractLsb'_toNat, BitVec.extractLsb'_toNat, lo32, BitVec.toNat_setWidth]
  omega

theorem lo32_getLsbD_of_lt (v : Word) {j : Nat} (hj : j < 32) : (lo32 v).getLsbD j = v.getLsbD j := by
  rw [lo32_getLsbD, decide_eq_true hj, Bool.true_and]

/-- Clearing the PI flag leaves the other sources' (R501). -/
theorem clearFlagBit_piSource (flags : BitVec 6) {j : Nat} (hj : j < 6) :
    (clearFlagBit flags piSource).getLsbD j = if j = 4 then false else flags.getLsbD j :=
  clearFlagBit_getLsbD flags (by decide) hj

theorem State.writePiStatus_reset (s : State) {v : BitVec 32} (h : v.getLsbD 0 = true) :
    s.writePiStatus v = { s with
      pi := { s.pi with busy := false, completed := false }
      mi := { s.mi with flags := clearFlagBit s.mi.flags piSource }, dmaInflight := false } := by
  rw [State.writePiStatus, if_pos h]; rfl

theorem State.writePiStatus_clearInterrupt (s : State) {v : BitVec 32} (h0 : v.getLsbD 0 = false)
    (h1 : v.getLsbD 1 = true) :
    s.writePiStatus v = { s with
      pi := { s.pi with completed := false }, mi := { s.mi with flags := clearFlagBit s.mi.flags piSource } } := by
  rw [State.writePiStatus, if_neg (ne_true_of_eq_false h0), if_pos h1]; rfl

theorem State.writePiStatus_neither (s : State) {v : BitVec 32} (h0 : v.getLsbD 0 = false)
    (h1 : v.getLsbD 1 = false) : s.writePiStatus v = s := by
  rw [State.writePiStatus, if_neg (ne_true_of_eq_false h0), if_neg (ne_true_of_eq_false h1)]

/-- Settles O39: each clause is one arm of `writePi`. -/
theorem peripheralWrites : Obligations.PeripheralWrites := by
  unfold Obligations.PeripheralWrites
  intro s rt base offset p o hm hp ho
  have sw := execSw_pi (rt := rt) hm hp ho
  have cleared (j : Nat) (hj : j < 6) := clearFlagBit_piSource s.mi.flags hj
  have b0 := lo32_getLsbD_of_lt (s.gpr rt) (j := 0) (by decide)
  have b1 := lo32_getLsbD_of_lt (s.gpr rt) (j := 1) (by decide)
  have status {t : State} (ho : o = 16) (h : s.writePiStatus (lo32 (s.gpr rt)) = t) :
      exec (.sw rt base offset) s = .next t := by
    subst ho
    exact sw.trans (congrArg Host.Outcome.next h)
  refine ⟨?_, ?_, fun ho h0 => ?_, fun ho h0 h1 => ?_, fun ho h0 h1 => ?_, fun ho => ?_⟩
  · rintro rfl
    rw [sw, ← lo32_extract_24]
    rfl
  · rintro rfl
    rw [sw, ← lo32_eq_extract]
    rfl
  · exact ⟨_, cleared, status ho (s.writePiStatus_reset (b0.trans h0))⟩
  · exact ⟨_, cleared, status ho (s.writePiStatus_clearInterrupt (b0.trans h0) (b1.trans h1))⟩
  · exact status ho (s.writePiStatus_neither (b0.trans h0) (b1.trans h1))
  · rw [sw, s.writePi_other ho]
    rfl

/-! ### Transfers -/

/-- A length write with a transfer in flight is refused (R145, R146). -/
theorem State.writePi_inflight {s : State} (h : s.dmaInflight = true) {o : Nat} (ho : o = 8 ∨ o = 12)
    (v : BitVec 32) : s.writePi o v = refuse .piDmaWhileBusy := by
  rcases ho with rfl | rfl
  · exact if_pos h
  · exact if_pos h

theorem State.writePi_rdLen {s : State} (h : s.dmaInflight = false) (v : BitVec 32) :
    s.writePi 8 v = .ok s.startDma := if_neg (ne_true_of_eq_false h)

theorem State.writePi_wrLen {s : State} (h : s.dmaInflight = false) (v : BitVec 32) :
    s.writePi 12 v =
      .ok (s.transferToRam ((v.extractLsb' 0 24).toNat + 1) s.pi.cartAddr s.pi.dramAddr).startDma :=
  if_neg (ne_true_of_eq_false h)

/-- The length register's value, its low 24 bits and one (R145). -/
theorem lengthField_toNat (v : Word) : ((lo32 v).extractLsb' 0 24).toNat + 1 = v.toNat % 2 ^ 24 + 1 := by
  rw [lo32_extract_24, BitVec.extractLsb'_toNat, Nat.shiftRight_zero]

/-- A transfer has started since `s`: the flag cleared, busy, the addresses forgotten (R145, R146); only RAM may
differ besides. -/
def State.StartsTransfer (s t : State) : Prop :=
  (∀ j < 6, t.mi.flags.getLsbD j = if j = 4 then false else s.mi.flags.getLsbD j)
    ∧ t = { s with
        ram := t.ram, mi := { s.mi with flags := t.mi.flags }, dmaInflight := true
        pi := { s.pi with busy := true, completed := false, addrKnown := false } }

/-- The trigger starts the transfer, whatever RAM holds by then. -/
theorem State.startsTransfer_startDma (s : State) (ram : Memory) :
    s.StartsTransfer (State.startDma { s with ram := ram }) :=
  ⟨fun _ hj => clearFlagBit_piSource s.mi.flags hj, rfl⟩

theorem State.startsTransfer_transferToRam (s : State) (len : Nat) (cart : BitVec 32) (dram : BitVec 24) :
    s.StartsTransfer (s.transferToRam len cart dram).startDma := by
  rw [s.transferToRam_frame len cart dram]
  exact s.startsTransfer_startDma _

/-- Settles O40: the copy byte by byte is `State.byteAt_transferToRam`, and the trigger changes no memory. -/
theorem dmaTransfer : Obligations.DmaTransfer := by
  unfold Obligations.DmaTransfer
  intro s rt base offset p hm
  refine ⟨fun hd hp => ?_, fun hd hp => ?_, fun hd hp => ?_⟩
  · obtain ⟨o, hp, ho⟩ : ∃ o, IsPi p o ∧ (o = 8 ∨ o = 12) := by
      rcases hp with hp | hp
      · exact ⟨8, hp, .inl rfl⟩
      · exact ⟨12, hp, .inr rfl⟩
    rw [execSw_pi hm hp (by omega), State.writePi_inflight hd ho]
    rfl
  · refine ⟨s.startDma, ?_, s.startsTransfer_startDma s.ram, rfl⟩
    rw [execSw_pi hm hp (by decide), State.writePi_rdLen hd]
    rfl
  · have length := lengthField_toNat (s.gpr rt)
    refine ⟨_, ?_, s.startsTransfer_transferToRam ((s.gpr rt).toNat % 2 ^ 24 + 1) s.pi.cartAddr s.pi.dramAddr,
      fun q => s.byteAt_transferToRam _ s.pi.cartAddr s.pi.dramAddr q⟩
    rw [execSw_pi hm hp (by decide), State.writePi_wrLen hd, length]
    rfl

end Sys2Proof.Machine
end

section
/-! The CPU's step where the fetch ends it (R133, R290, R480–R482). -/

namespace Sys2Proof.Machine

/-- The tick is the timer's as R510 describes it. -/
theorem State.ticks_tick (s : State) : s.Ticks s.tick := by
  have hip7 : (s.cp0.cause.ip7 || s.cp0.count == 0) = if s.cp0.count = 0 then true else s.cp0.cause.ip7 := by
    by_cases h : s.cp0.count = 0
    · simp [h]
    · rw [if_neg h, beq_eq_false_iff_ne.mpr h, Bool.or_false]
  unfold State.Ticks State.tick
  rw [hip7]

/-- Whether the physical address is one of the MI's or the PI's (R120). -/
def IsDevice (p : Nat) : Prop := ∃ o, IsMi p o ∨ IsPi p o

theorem State.fetch_device {s : State} {va : Word} {p : Nat} (hm : s.MapsTo va p) (ha : p % 4 = 0)
    (h : IsDevice p) : s.fetch va = refuse .fetchFromMmio := by
  rw [State.fetch, State.alignedAddress_mapsTo hm (by norm_num) ha, ok_bind, hm.toNat]
  obtain ⟨o, h | h⟩ := h
  · simp only [regionOf_mi h]
  · simp only [regionOf_pi h]

/-- Outside the devices a fetch is refused as a load of its word is (R133). -/
theorem State.fetch_barred {s : State} {va : Word} {p : Nat} {r : Refusal} (hm : s.MapsTo va p) (ha : p % 4 = 0)
    (hd : ¬ IsDevice p) (h : s.Bars false false 4 (regionOf p) r) : s.fetch va = refuse r := by
  have read := State.physRead_barred (form := .other) h
  rw [State.fetch, State.alignedAddress_mapsTo hm (by norm_num) ha, ok_bind, hm.toNat, read]
  rcases regionOf_cases p with ⟨_, hp⟩ | ⟨o, ho, _⟩ | ⟨o, ho, _⟩ | ⟨_, _, hp⟩ | ⟨_, _, hp⟩ | ⟨_, hp⟩
  · simp only [hp]; rfl
  · exact absurd ⟨o, .inl ho⟩ hd
  · exact absurd ⟨o, .inr ho⟩ hd
  · simp only [hp]; rfl
  · simp only [hp]; rfl
  · simp only [hp]; rfl

/-- The state in which the CPU's step fetches the next instruction, at `c` (R290 phases 1 and 2). -/
def State.inFetch (s : State) (c : Word) : State :=
  { s.turnTaken with pc := c, pending := s.pendingInExecute }

section
variable {s : State} {c : Word} {d : Bool} (hr : s.CpuRuns) (hm : s.Modelled) (hi : ¬ s.InterruptDue)
  (hn : s.NextIs c d)
include hr hm hi hn

theorem step_fetchExecute : step s = tickOutcome (s.inFetch c).fetchExecute ∧ (s.inFetch c).inDelay = d := by
  obtain ⟨state, delay⟩ := s.turnTaken.advancePending_eq hn
  have state : s.turnTaken.advancePending = s.inFetch c := state
  rw [state] at delay
  exact ⟨by rw [step_of_cpuRuns hr, s.turnTaken.cpuStep_execute hm hi, state], delay⟩

/-- A fetch that stops, stops the step at the next instruction's address (R290 phase 3). -/
theorem step_of_fetch_error {x : Stop} (h : (s.inFetch c).fetch c = .error x) :
    step s = tickOutcome ((s.inFetch c).stopAt c d x) := by
  obtain ⟨step, delay⟩ := step_fetchExecute hr hm hi hn
  rw [step, State.fetchExecute, show (s.inFetch c).fetch (s.inFetch c).pc = .error x from h, ← delay]
  rfl

theorem step_of_fetch_refuse {r : Refusal} (h : (s.inFetch c).fetch c = refuse r) : step s = .refused r :=
  step_of_fetch_error hr hm hi hn h

/-- Exception entry overwrites the pc and the pending jump, so it is entry from the state before the fetch. -/
theorem step_of_fetch_raise {e : Exc} (h : (s.inFetch c).fetch c = raise e) :
    (s.bev = false → ∃ t t', step s = .next t' ∧ s.turnTaken.EntersException t e.code e.va e.unit c d ∧ t.Ticks t')
      ∧ (s.bev = true → step s = .refused .bevVectorsNotModelled) := by
  have stops : step s = tickOutcome (s.turnTaken.takeException e c d) := step_of_fetch_error hr hm hi hn h
  refine ⟨fun hb => ⟨s.turnTaken.enter e c d, _, ?_, s.turnTaken.entersException_enter e c d, State.ticks_tick _⟩,
    fun hb => ?_⟩
  · rw [stops, State.takeException_of_not_bev (s := s.turnTaken) hb]
    rfl
  · rw [stops, State.takeException_of_bev (s := s.turnTaken) hb]
    rfl

end

/-- Settles O54: the fetch raises or is refused in the state the step fetches in, and the step ends with it. -/
theorem fetchErrors : Obligations.FetchErrors := by
  unfold Obligations.FetchErrors
  intro s c d hr hm hi hn
  have refused {r : Refusal} := step_of_fetch_refuse (r := r) hr hm hi hn
  refine ⟨fun h => step_of_fetch_raise hr hm hi hn (e := .addressErrorLoad c) ?_, fun ha hb ht => refused ?_,
    fun p hc hp => ?_⟩
  · rw [State.fetch, State.alignedAddress_bad (s := s.inFetch c) h]
    rfl
  · rw [State.fetch, State.alignedAddress_tlb (s := s.inFetch c) ha hb ht]
    rfl
  · have ha : p % 4 = 0 := (hp.mod (by norm_num)).symm.trans hc
    have hp' : (s.inFetch c).MapsTo c p := hp
    have barred {r : Refusal} (hd : ¬ IsDevice p) (h : (s.inFetch c).Bars false false 4 (regionOf p) r) :
        step s = .refused r := refused (State.fetch_barred hp' ha hd h)
    refine ⟨fun h => refused (State.fetch_device hp' ha h), fun h => barred ?_ ?_, fun h h' hsize => barred ?_ ?_,
      fun h h' hb => barred ?_ ?_, fun boot h h' hb hsize => barred ?_ ?_⟩
    · rintro ⟨o, ho | ho⟩ <;> omega
    · rw [regionOf_unmapped h]
      exact .unmapped
    · rintro ⟨o, ho | ho⟩ <;> omega
    · rw [regionOf_rom h h']
      exact .rom _ rfl hsize
    · rintro ⟨o, ho | ho⟩ <;> omega
    · rw [regionOf_bootRom h h']
      exact .noBootRom _ rfl hb
    · rintro ⟨o, ho | ho⟩ <;> omega
    · rw [regionOf_bootRom h h']
      exact .bootRom _ boot rfl hb hsize

end Sys2Proof.Machine
end

section
/-! The turns of the DMA engine and the environment, and the end of a run (R148, R505, R530, R550). -/

namespace Sys2Proof.Machine

theorem State.turnTaken_of_head {s : State} {x : Turn} (h : s.schedule.head? = some x) :
    ∃ rest, s.schedule = x :: rest ∧ s.turnTaken = { s with schedule := rest } := by
  obtain ⟨rest, hs⟩ := List.head?_eq_some_iff.mp h
  exact ⟨rest, hs, by rw [State.turnTaken, hs]; rfl⟩

/-- With no turn scheduled, or the DMA engine's, the default turn is taken (R530). -/
theorem step_of_default {s : State} (h : s.schedule = [] ∨ s.schedule.head? = some .dma) :
    step s = s.turnTaken.defaultTurn := by
  unfold step State.takeTurn
  rcases h with hs | h
  · have e : s.turnTaken = s := by rw [State.turnTaken, hs, List.tail_nil, ← hs]
    rw [e, hs]
  · obtain ⟨rest, hs, e⟩ := State.turnTaken_of_head h
    rw [e, hs]

theorem step_of_environment {s : State} {a : EnvAction} (h : s.schedule.head? = some (.env a)) :
    step s = .next (s.turnTaken.environment a) := by
  unfold step State.takeTurn
  obtain ⟨rest, hs, e⟩ := State.turnTaken_of_head h
  rw [e, hs]

/-- The CPU's turn falls to the default when it is halted (R530, R550). -/
theorem step_of_haltedTurn {s : State} (h : s.schedule.head? = some .cpu) (hh : s.halted = true) :
    step s = s.turnTaken.defaultTurn := by
  unfold step State.takeTurn
  obtain ⟨rest, hs, e⟩ := State.turnTaken_of_head h
  rw [e, hs]
  exact if_pos hh

theorem State.defaultTurn_inflight {s : State} (h : s.dmaInflight = true) : s.defaultTurn = .next s.dmaCompletion :=
  if_pos h

theorem State.defaultTurn_halted {s : State} (hd : s.dmaInflight = false) (hh : s.halted = true) :
    s.defaultTurn = .fault .halted := by
  rw [State.defaultTurn, if_neg (ne_true_of_eq_false hd), if_pos hh]

/-- Setting or clearing an environment source's flag, bit by bit (R501, R505). -/
theorem environment_flags (s : State) (source : EnvSource) (level : Bool) :
    ∃ flags, s.environment (if level then .setFlag source else .clearFlag source)
        = { s with mi := { s.mi with flags := flags } }
      ∧ ∀ j < 6, flags.getLsbD j = if j = source.bit then level else s.mi.flags.getLsbD j := by
  cases level
  · exact ⟨clearFlagBit s.mi.flags source.bit, rfl, fun j hj => clearFlagBit_getLsbD _ source.bit_lt hj⟩
  · exact ⟨setFlagBit s.mi.flags source.bit, rfl, fun j hj => setFlagBit_getLsbD _ source.bit_lt hj⟩

/-- Settles O56: the agent whose turn it is takes its one step. -/
theorem agentTurns : Obligations.AgentTurns := by
  unfold Obligations.AgentTurns
  refine ⟨fun s hd h => ?_, fun s source level h => ?_, fun s line level h => ?_, fun s a ha hn hd h => ?_⟩
  · refine ⟨setFlagBit s.mi.flags piSource, ?_, fun j hj => setFlagBit_getLsbD s.mi.flags (by decide) hj⟩
    rw [step_of_default h, State.defaultTurn_inflight (s := s.turnTaken) hd]
    rfl
  · obtain ⟨flags, state, bits⟩ := environment_flags s.turnTaken source level
    refine ⟨flags, (step_of_environment h).trans (congrArg _ state), ?_⟩
    cases source <;> exact bits
  · rw [step_of_environment h]
    cases line <;> rfl
  · have hh : s.halted = true := s.halted_iff.mpr ⟨a, ha, hn⟩
    have turn : step s = s.turnTaken.defaultTurn := by
      rcases h with h | h | h
      · exact step_of_default (.inl h)
      · exact step_of_haltedTurn h hh
      · exact step_of_default (.inr h)
    rw [turn]
    exact State.defaultTurn_halted (s := s.turnTaken) hd hh

end Sys2Proof.Machine
end

section
/-! Decoding what was encoded, the rows of the opcode table, and the words of no row (R181–R192). -/

namespace Sys2Proof

/-! ### What was encoded (R181, R185–R189) -/

/-- Per format, the map of the word's space read at the fields the encoder wrote. -/
theorem decode_encode (i : Instr) : decode (encode i) = .ok i := by
  cases i with
  | sll | srl | sra | sllv | srlv | srav | jr | jalr | sync | mfhi | mthi | mflo | mtlo | dsllv | dsrlv | dsrav
  | mult | multu | div | divu | dmult | dmultu | ddiv | ddivu | add | addu | sub | subu | and | or | xor | nor
  | slt | sltu | dadd | daddu | dsub | dsubu | dsll | dsrl | dsra | dsll32 | dsrl32 | dsra32 =>
    exact decode_encodeR_of fun w hf hrs hrt hrd hsa => by rw [decodeSpecial, hf, hrs, hrt, hrd, hsa]; rfl
  | syscall | brk => exact decode_encodeCode_of fun w hf hc => by rw [decodeSpecial, hf, hc]; rfl
  | tge | tgeu | tlt | tltu | teq | tne =>
    exact decode_encodeTrap_of fun w hf hrs hrt hc => by rw [decodeSpecial, hf, hrs, hrt, hc]; rfl
  | bltz | bgez | bltzl | bgezl | tgei | tgeiu | tlti | tltiu | teqi | tnei | bltzal | bgezal | bltzall | bgezall =>
    exact decode_encodeRegimm_of fun w hrt hrs hi => by rw [decodeRegimm, hrt, hrs, hi]; rfl
  | j | jal | cop1 => exact decode_encodeJ_of fun w ho ht => by rw [decode, ho, ht]; rfl
  | mfc0 | dmfc0 | mtc0 | dmtc0 =>
    exact decode_encodeCop0_of fun w hrs hrt hrd => by rw [decodeCop0, hrs, hrt, hrd]; rfl
  | mfc2 | dmfc2 | cfc2 | dcfc2 | mtc2 | dmtc2 | ctc2 | dctc2 =>
    exact decode_encodeCop2_of fun w hrs hrt hrd => by rw [decodeCop2, hrs, hrt, hrd]; rfl
  | tlbr | tlbwi | tlbwr | tlbp | eret => decide
  | beq | bne | blez | bgtz | addi | addiu | slti | sltiu | andi | ori | xori | lui | beql | bnel | blezl | bgtzl
  | daddi | daddiu | ldl | ldr | lb | lh | lwl | lw | lbu | lhu | lwr | lwu | sb | sh | swl | sw | sdl | sdr | swr
  | cache | ll | lwc1 | lwc2 | lld | ldc1 | ldc2 | ld | sc | swc1 | swc2 | scd | sdc1 | sdc2 | sd =>
    exact decode_encodeI_of fun w ho hrs hrt hi => by rw [decode, ho, hrs, hrt, hi]; rfl

/-- Settles O2, by the encoded word of each format (`decode_encode`). -/
theorem decodeEncode : Obligations.DecodeEncode := by
  unfold Obligations.DecodeEncode
  exact fun i => ⟨decode_encode i, by rw [decodeTableWord_32, decode_encode]; rfl⟩

/-- Settles O1: the decoder evaluated on each word. -/
theorem decodeSampleWords : Obligations.DecodeSampleWords := by
  unfold Obligations.DecodeSampleWords
  decide

/-! ### The rows of the table (R190, R192)

Per mask of the table, the fields of `w` that say whether it carries a row with that mask. -/

/-- `w` carries the match of `i`'s row under the row's mask (R192). -/
def CarriesRow (w : BitVec 32) (i : Instr) : Prop := w &&& (tableRow i).1 = (tableRow i).2

theorem carriesRow_op {w m : BitVec 32} {i : Instr} (hr : tableRow i = (0xFC000000#32, m))
    (hm : m &&& 0xFC000000#32 = m) : CarriesRow w i ↔ opOf w = opOf m := by
  rw [CarriesRow, hr, row_op hm]

theorem carriesRow_funct {w m : BitVec 32} {i : Instr} (hr : tableRow i = (0xFC00003F#32, m))
    (hm : m &&& 0xFC00003F#32 = m) : CarriesRow w i ↔ opOf w = opOf m ∧ functOf w = functOf m := by
  rw [CarriesRow, hr, row_funct hm]

theorem carriesRow_rt {w m : BitVec 32} {i : Instr} (hr : tableRow i = (0xFC1F0000#32, m))
    (hm : m &&& 0xFC1F0000#32 = m) : CarriesRow w i ↔ opOf w = opOf m ∧ rtOf w = rtOf m := by
  rw [CarriesRow, hr, row_rt hm]

theorem carriesRow_rs {w m : BitVec 32} {i : Instr} (hr : tableRow i = (0xFFE00000#32, m))
    (hm : m &&& 0xFFE00000#32 = m) : CarriesRow w i ↔ opOf w = opOf m ∧ rsOf w = rsOf m := by
  rw [CarriesRow, hr, row_rs hm]

theorem carriesRow_co {w m : BitVec 32} {i : Instr} (hr : tableRow i = (0xFE00003F#32, m))
    (hm : m &&& 0xFE00003F#32 = m) :
    CarriesRow w i ↔ opOf w = opOf m ∧ w.getLsbD 25 = m.getLsbD 25 ∧ functOf w = functOf m := by
  rw [CarriesRow, hr, row_co hm]

/-- A word that carries a row decodes to an instruction of that row: the fields the row's mask covers select it. -/
theorem exists_decode_of_carriesRow {w : BitVec 32} {j : Instr} (h : CarriesRow w j) :
    ∃ i, decode w = .ok i ∧ tableRow i = tableRow j := by
  cases j with
  | sll | srl | sra | sllv | srlv | srav | jr | jalr | syscall | brk | sync | mfhi | mthi | mflo | mtlo | dsllv
  | dsrlv | dsrav | mult | multu | div | divu | dmult | dmultu | ddiv | ddivu | add | addu | sub | subu | and | or | xor
  | nor | slt | sltu | dadd | daddu | dsub | dsubu | tge | tgeu | tlt | tltu | teq | tne | dsll | dsrl | dsra | dsll32
  | dsrl32 | dsra32 =>
    obtain ⟨ho, hf⟩ := (carriesRow_funct rfl rfl).mp h
    rw [decode_of_special ho, decodeSpecial, hf]
    exact ⟨_, rfl, rfl⟩
  | bltz | bgez | bltzl | bgezl | tgei | tgeiu | tlti | tltiu | teqi | tnei | bltzal | bgezal | bltzall | bgezall =>
    obtain ⟨ho, hrt⟩ := (carriesRow_rt rfl rfl).mp h
    rw [decode_of_regimm ho, decodeRegimm, hrt]
    exact ⟨_, rfl, rfl⟩
  | mfc0 | dmfc0 | mtc0 | dmtc0 =>
    obtain ⟨ho, hrs⟩ := (carriesRow_rs rfl rfl).mp h
    rw [decode_of_cop0 ho, decodeCop0, hrs]
    exact ⟨_, rfl, rfl⟩
  | mfc2 | dmfc2 | cfc2 | dcfc2 | mtc2 | dmtc2 | ctc2 | dctc2 =>
    obtain ⟨ho, hrs⟩ := (carriesRow_rs rfl rfl).mp h
    rw [decode_of_cop2 ho, decodeCop2, hrs]
    exact ⟨_, rfl, rfl⟩
  | tlbr | tlbwi | tlbwr | tlbp | eret =>
    obtain ⟨ho, hco, hf⟩ := (carriesRow_co rfl rfl).mp h
    rw [Machine.decode_of_cop0_function ho hco, decodeCop0Function, hf]
    exact ⟨_, rfl, rfl⟩
  | j | jal | cop1 | beq | bne | blez | bgtz | addi | addiu | slti | sltiu | andi | ori | xori | lui | beql | bnel
  | blezl | bgtzl | daddi | daddiu | ldl | ldr | lb | lh | lwl | lw | lbu | lhu | lwr | lwu | sb | sh | swl | sw | sdl
  | sdr | swr | cache | ll | lwc1 | lwc2 | lld | ldc1 | ldc2 | ld | sc | swc1 | swc2 | scd | sdc1 | sdc2 | sd =>
    have ho := (carriesRow_op rfl rfl).mp h
    rw [decode, ho]
    exact ⟨_, rfl, rfl⟩

/-- The space a word of no row lies in, which names the checks before its exception (R188–R190). -/
def reservedSpace (w : BitVec 32) : Reserved :=
  if opOf w = 0x10#6 then .cop0 else if opOf w = 0x12#6 then .cop2 else .general

theorem reservedSpace_cop0 {w : BitVec 32} (h : opOf w = 0x10#6) : reservedSpace w = .cop0 := if_pos h

theorem reservedSpace_cop2 {w : BitVec 32} (h : opOf w = 0x12#6) : reservedSpace w = .cop2 := by
  rw [reservedSpace, h]; rfl

theorem reservedSpace_general {w : BitVec 32} (h0 : opOf w ≠ 0x10#6) (h2 : opOf w ≠ 0x12#6) :
    reservedSpace w = .general := by
  rw [reservedSpace, if_neg h0, if_neg h2]

/-- What a decoder may answer for `w`: an instruction whose row `w` carries, or the rejection of `w`'s space. -/
inductive DecodeAnswers (w : BitVec 32) : Except Reserved Instr → Prop
  | instr {i : Instr} (h : CarriesRow w i) : DecodeAnswers w (.ok i)
  | rejected {r : Reserved} (h : r = reservedSpace w) : DecodeAnswers w (.error r)

/-! One case per entry of a map, `h_n` its `n`-th; the last are the words the map leaves reserved. -/

theorem answers_decodeSpecial {w : BitVec 32} (h : opOf w = 0x00#6) : DecodeAnswers w (decodeSpecial w) := by
  unfold decodeSpecial
  split
  case h_53 => exact .rejected (reservedSpace_general (by simp [h]) (by simp [h])).symm
  all_goals
    refine .instr ((carriesRow_funct rfl rfl).mpr ?_)
    exact ⟨h, by assumption⟩

theorem answers_decodeRegimm {w : BitVec 32} (h : opOf w = 0x01#6) : DecodeAnswers w (decodeRegimm w) := by
  unfold decodeRegimm
  split
  case h_15 => exact .rejected (reservedSpace_general (by simp [h]) (by simp [h])).symm
  all_goals
    refine .instr ((carriesRow_rt rfl rfl).mpr ?_)
    exact ⟨h, by assumption⟩

theorem answers_decodeCop2 {w : BitVec 32} (h : opOf w = 0x12#6) : DecodeAnswers w (decodeCop2 w) := by
  unfold decodeCop2
  split
  case h_9 => exact .rejected (reservedSpace_cop2 h).symm
  all_goals
    refine .instr ((carriesRow_rs rfl rfl).mpr ?_)
    exact ⟨h, by assumption⟩

theorem answers_decodeCop0Function {w : BitVec 32} (h : opOf w = 0x10#6) (hco : w.getLsbD 25 = true) :
    DecodeAnswers w (decodeCop0Function w) := by
  unfold decodeCop0Function
  split
  case h_6 => exact .rejected (reservedSpace_cop0 h).symm
  all_goals
    refine .instr ((carriesRow_co rfl rfl).mpr ?_)
    exact ⟨h, hco, by assumption⟩

theorem answers_decodeCop0 {w : BitVec 32} (h : opOf w = 0x10#6) : DecodeAnswers w (decodeCop0 w) := by
  unfold decodeCop0
  split
  case h_5 =>
    split
    case isTrue hco => exact answers_decodeCop0Function h hco
    case isFalse => exact .rejected (reservedSpace_cop0 h).symm
  all_goals
    refine .instr ((carriesRow_rs rfl rfl).mpr ?_)
    exact ⟨h, by assumption⟩

/-- Decoding a word answers an instruction of the row it carries, or rejects it by its space (R190). -/
theorem answers_decode (w : BitVec 32) : DecodeAnswers w (decode w) := by
  unfold decode
  split
  case h_1 h => exact answers_decodeSpecial h
  case h_2 h => exact answers_decodeRegimm h
  case h_17 h => exact answers_decodeCop0 h
  case h_19 h => exact answers_decodeCop2 h
  case h_58 => exact .rejected (reservedSpace_general (by assumption) (by assumption)).symm
  all_goals
    refine .instr ((carriesRow_op rfl rfl).mpr ?_)
    assumption

theorem carriesRow_of_decode_ok {w : BitVec 32} {i : Instr} (h : decode w = .ok i) : CarriesRow w i := by
  have ha := answers_decode w
  rw [h] at ha
  cases ha with
  | instr hc => exact hc

theorem carriesRow_iff {w : BitVec 32} {j : Instr} :
    CarriesRow w j ↔ ∃ i, decode w = .ok i ∧ tableRow i = tableRow j := by
  refine ⟨exists_decode_of_carriesRow, ?_⟩
  rintro ⟨i, hi, hr⟩
  rw [CarriesRow, ← hr]
  exact carriesRow_of_decode_ok hi

theorem decode_of_no_row {w : BitVec 32} (h : ∀ j, ¬ CarriesRow w j) : decode w = .error (reservedSpace w) := by
  have ha := answers_decode w
  generalize decode w = answer at ha ⊢
  cases ha with
  | instr hc => exact absurd hc (h _)
  | rejected hr => rw [hr]

/-- Settles O3: rows and decoder agree (`carriesRow_iff`), and a word decodes to one thing only. -/
theorem decodeMatchesTable : Obligations.DecodeMatchesTable := by
  unfold Obligations.DecodeMatchesTable
  refine ⟨fun w j => carriesRow_iff, fun w j k hj hk => ?_, fun w h => ⟨_, decode_of_no_row h⟩⟩
  obtain ⟨i, hi, hij⟩ := exists_decode_of_carriesRow hj
  obtain ⟨i', hi', hik⟩ := exists_decode_of_carriesRow hk
  rw [hi] at hi'
  cases hi'
  exact hij.symm.trans hik

/-! ### The words of no row (R188–R190, R459) -/

namespace Machine

theorem State.executeWord_of_no_row (s : State) {w : BitVec 32} (h : ∀ j, ¬ CarriesRow w j) :
    s.executeWord w = execReserved (reservedSpace w) s := by
  rw [State.executeWord, decode_of_no_row h]

theorem execReserved_cop0_usable {s : State} (h : s.mode = .kernel ∨ s.cu0 = true) :
    execReserved .cop0 s = s.complete (raise .reservedInstruction) := by
  rw [execReserved, State.cp0UsableCheck_ok h, ok_bind]

theorem execReserved_cop0_unusable {s : State} (h : ¬ (s.mode = .kernel ∨ s.cu0 = true)) :
    execReserved .cop0 s = s.complete (raise (.coprocessorUnusable 0)) := by
  rw [execReserved, State.cp0UsableCheck_raise h, raise_bind]

theorem State.cop2Reserved_usable {s : State} (h : s.cu2 = true) :
    s.cop2Reserved = s.complete (raise .reservedInstruction) := by
  rw [State.cop2Reserved, State.cp2UsableCheck_ok h, ok_bind]

theorem State.cop2Reserved_unusable {s : State} (h : s.cu2 = false) :
    s.cop2Reserved = s.complete (raise (.coprocessorUnusable 2)) := by
  rw [State.cop2Reserved, State.cp2UsableCheck_raise h, raise_bind]

/-- Settles O4: the decoder rejects the word by its space (`decode_of_no_row`), whose check then decides. -/
theorem reservedWords : Obligations.ReservedWords := by
  unfold Obligations.ReservedWords
  intro s w h
  rw [s.executeWord_of_no_row h]
  refine ⟨fun h0 h2 => ?_, fun h0 hu => ?_, fun h0 hu => ?_, fun h2 hu => ?_, fun h2 hu => ?_⟩
  · rw [reservedSpace_general h0 h2]
    exact s.raises_complete .reservedInstruction
  · rw [reservedSpace_cop0 h0, execReserved_cop0_usable hu]
    exact s.raises_complete .reservedInstruction
  · rw [reservedSpace_cop0 h0, execReserved_cop0_unusable hu]
    exact s.raises_complete (.coprocessorUnusable 0)
  · rw [reservedSpace_cop2 h2, execReserved, State.cop2Reserved_usable hu]
    exact s.raises_complete .reservedInstruction
  · rw [reservedSpace_cop2 h2, execReserved, State.cop2Reserved_unusable hu]
    exact s.raises_complete (.coprocessorUnusable 2)

end Machine

end Sys2Proof
end

section
/-! Arithmetic, compare, logical and shift instructions: their results as numbers, the two ways they end, and the
doubleword instructions in user mode (40_alu.md rules R200–R245). -/

namespace Sys2Proof.Machine

/-- A word with immediate, by its fields (R181). -/
theorem decodesImmediate {op : BitVec 6} {mk : RegIdx → RegIdx → Imm16 → Instr}
    (h : ∀ w, opOf w = op → decode w = .ok (mk (rsOf w) (rtOf w) (immOf w))) : DecodesImmediate op mk := h

/-! ### Results as numbers (00_scope.md rule R12) -/

theorem isWord_add (a b : Word) : IsWord (sext32 (lo32 a + lo32 b)) (signedWord a + signedWord b) :=
  isWord_sext32 (by rw [BitVec.ofInt_add, ofInt_signedWord, ofInt_signedWord])

theorem isWord_sub (a b : Word) : IsWord (sext32 (lo32 a - lo32 b)) (signedWord a - signedWord b) :=
  isWord_sext32 (by rw [ofInt_sub, ofInt_signedWord, ofInt_signedWord])

theorem isWord_add_simm (a : Word) (imm : Imm16) :
    IsWord (sext32 (lo32 a + lo32 (simm imm))) (signedWord a + imm.toInt) :=
  signedWord_simm imm ▸ isWord_add a (simm imm)

theorem isWord_luimm (imm : Imm16) : IsWord (luimm imm) (imm.toNat * 65536) := by
  have exact_value : imm ++ 0#16 = BitVec.ofNat 32 (imm.toNat * 65536) := by
    apply BitVec.eq_of_toNat_eq
    rw [BitVec.toNat_append, BitVec.toNat_ofNat, BitVec.toNat_ofNat, Nat.shiftLeft_eq, Nat.zero_mod, Nat.or_zero]
    omega
  exact_mod_cast isWord_sext32_ofNat exact_value

theorem isDouble_add (a b : Word) : IsDouble (a + b) (a.toInt + b.toInt) := BitVec.toInt_add a b

theorem isDouble_sub (a b : Word) : IsDouble (a - b) (a.toInt - b.toInt) := BitVec.toInt_sub

theorem isDouble_add_simm (a : Word) (imm : Imm16) : IsDouble (a + simm imm) (a.toInt + imm.toInt) :=
  simm_toInt imm ▸ isDouble_add a (simm imm)

/-- A number in the signed range is the value of its bits. -/
theorem toInt_ofInt_of_fits {w : Nat} {n : Int} (hw : 0 < w) (h1 : -2 ^ (w - 1) ≤ n) (h2 : n ≤ 2 ^ (w - 1) - 1) :
    (BitVec.ofInt w n).toInt = n :=
  BitVec.toInt_ofInt_eq_self hw h1 (by omega)

theorem boolWord_slt (a b : Word) : boolWord (a.slt b) = if a.toInt < b.toInt then 1 else 0 := by
  simp [boolWord, BitVec.slt]

theorem boolWord_ult (a b : Word) : boolWord (a.ult b) = if a.toNat < b.toNat then 1 else 0 := by
  simp [boolWord, BitVec.ult]

theorem zimm_getLsbD (imm : Imm16) {j : Nat} (hj : j < 64) :
    (zimm imm).getLsbD j = (decide (j < 16) && imm.getLsbD j) := by
  rw [← imm_getLsbD, zimm, BitVec.getLsbD_setWidth, decide_eq_true hj, Bool.true_and]

theorem isWord_sllWord (v : Word) (n : Nat) : IsWord (sllWord v n) (unsignedWord v * 2 ^ n : Nat) :=
  isWord_sext32_ofNat (lo32_shl v n)

theorem isWord_srlWord (v : Word) (n : Nat) : IsWord (srlWord v n) (unsignedWord v / 2 ^ n : Nat) :=
  isWord_sext32_ofNat (lo32_shr v n)

theorem isWord_sraWord (v : Word) (n : Nat) : IsWord (sraWord v n) (v.toInt / 2 ^ n) :=
  isWord_sext32 (by rw [lo32_eq_ofInt, sshiftRight_toInt])

theorem shiftLeft_toNat (v : Word) (n : Nat) : (v <<< n).toNat = v.toNat * 2 ^ n % 2 ^ 64 := by
  rw [BitVec.toNat_shiftLeft, Nat.shiftLeft_eq]

theorem ushiftRight_toNat (v : Word) (n : Nat) : (v >>> n).toNat = v.toNat / 2 ^ n := by
  rw [BitVec.toNat_ushiftRight, Nat.shiftRight_eq_div_pow]

/-! ### How they end (R200, R245) -/

theorem completesGpr_of_finishGprDouble {i : Instr} {s : State} {rd : RegIdx} {v : Word} {P : Word → Prop}
    (hu : s.mode ≠ .user) (h : exec i s = s.finishGprDouble rd v) (hv : P v) : CompletesGpr i s rd P :=
  completesGpr_of_eq (next_of_doubleword hu h rfl) hv

/-- Trapping exactly when the result overflows is R200, whatever the width. -/
theorem trapsOnOverflow_of_eq {width : Nat} {i : Instr} {s : State} {rd : RegIdx} {n : Int} {v : Word}
    (h : exec i s = s.complete (if overflows width n then raise .integerOverflow else .ok (s.setGpr rd v)))
    (hv : -2 ^ (width - 1) ≤ n → n ≤ 2 ^ (width - 1) - 1 → v.toInt = n) : TrapsOnOverflow width i s rd n := by
  refine ⟨fun ⟨h1, h2⟩ => completesGpr_of_eq ?_ (hv h1 h2), fun ho => ?_⟩
  · rw [h, overflows_false h1 h2]
    rfl
  · rw [h, (overflows_iff width n).mpr ho]
    exact s.raises_complete .integerOverflow

theorem trapsOnOverflow_word {i : Instr} {s : State} {rd : RegIdx} {n : Int} (h : exec i s = s.trappingWord rd n) :
    TrapsOnOverflow 32 i s rd n :=
  trapsOnOverflow_of_eq h fun h1 h2 => (sext32_toInt _).trans (toInt_ofInt_of_fits (by decide) h1 h2)

theorem trapsOnOverflow_double {i : Instr} {s : State} {rd : RegIdx} {n : Int} (hu : s.mode ≠ .user)
    (h : exec i s = s.trappingDouble rd n) : TrapsOnOverflow 64 i s rd n := by
  rw [State.trappingDouble, State.doublewordCheck_ok hu, ok_bind] at h
  exact trapsOnOverflow_of_eq h (toInt_ofInt_of_fits (by decide))

/-! ### Arithmetic (R201–R213, R227) -/

/-- Settles O10: each result is the word of the exact sum, difference or shifted immediate. -/
theorem wordArithmetic : Obligations.WordArithmetic := by
  unfold Obligations.WordArithmetic
  refine ⟨?addu, ?subu, ?addiu, ?lui, fun s d rs rt imm => ⟨?_, ?_, ?_, ?_⟩⟩
  case addu | subu => exact decodesSpecial fun w h => by rw [decodeSpecial, h]; rfl
  case addiu | lui => exact decodesImmediate fun w h => by rw [decode, h]; rfl
  · exact completesGpr_of_eq rfl (isWord_add _ _)
  · exact completesGpr_of_eq rfl (isWord_sub _ _)
  · exact completesGpr_of_eq rfl (isWord_add_simm _ imm)
  · exact completesGpr_of_eq rfl (isWord_luimm imm)

/-- Settles O11: the exact result is of the signed low words, and either fits or traps (`trapsOnOverflow_word`). -/
theorem trappingWordArithmetic : Obligations.TrappingWordArithmetic := by
  unfold Obligations.TrappingWordArithmetic
  refine ⟨?add, ?sub, ?addi, fun s d rs rt imm => ⟨?_, ?_, ?_⟩⟩
  case add | sub => exact decodesSpecial fun w h => by rw [decodeSpecial, h]; rfl
  case addi => exact decodesImmediate fun w h => by rw [decode, h]; rfl
  · exact trapsOnOverflow_word (by rw [← lo32_toInt, ← lo32_toInt]; rfl)
  · exact trapsOnOverflow_word (by rw [← lo32_toInt, ← lo32_toInt]; rfl)
  · exact trapsOnOverflow_word (by rw [← signedWord_simm, ← lo32_toInt, ← lo32_toInt]; rfl)

/-- Settles O12: past the check of R245, each result is the low 64 bits of the exact one. -/
theorem doublewordArithmetic : Obligations.DoublewordArithmetic := by
  unfold Obligations.DoublewordArithmetic
  refine ⟨?daddu, ?dsubu, ?daddiu, fun s d rs rt imm hu => ⟨?_, ?_, ?_⟩⟩
  case daddu | dsubu => exact decodesSpecial fun w h => by rw [decodeSpecial, h]; rfl
  case daddiu => exact decodesImmediate fun w h => by rw [decode, h]; rfl
  · exact completesGpr_of_finishGprDouble hu rfl (isDouble_add _ _)
  · exact completesGpr_of_finishGprDouble hu rfl (isDouble_sub _ _)
  · exact completesGpr_of_finishGprDouble hu rfl (isDouble_add_simm _ imm)

/-- Settles O13: past the check of R245, the exact result either fits or traps (`trapsOnOverflow_double`). -/
theorem trappingDoublewordArithmetic : Obligations.TrappingDoublewordArithmetic := by
  unfold Obligations.TrappingDoublewordArithmetic
  refine ⟨?dadd, ?dsub, ?daddi, fun s d rs rt imm hu => ⟨?_, ?_, ?_⟩⟩
  case dadd | dsub => exact decodesSpecial fun w h => by rw [decodeSpecial, h]; rfl
  case daddi => exact decodesImmediate fun w h => by rw [decode, h]; rfl
  · exact trapsOnOverflow_double hu rfl
  · exact trapsOnOverflow_double hu rfl
  · exact trapsOnOverflow_double hu (by rw [← simm_toInt]; rfl)

/-! ### Compare and logical (R215–R226) -/

/-- Settles O14: the model's comparisons are those of the registers' numbers (`boolWord_slt`, `boolWord_ult`). -/
theorem setOnLessThan : Obligations.SetOnLessThan := by
  unfold Obligations.SetOnLessThan
  refine ⟨?slt, ?sltu, ?slti, ?sltiu, fun s d rs rt imm => ⟨?_, ?_, ?_, ?_⟩⟩
  case slt | sltu => exact decodesSpecial fun w h => by rw [decodeSpecial, h]; rfl
  case slti | sltiu => exact decodesImmediate fun w h => by rw [decode, h]; rfl
  · exact completesGpr_of_eq rfl (boolWord_slt _ _)
  · exact completesGpr_of_eq rfl (boolWord_ult _ _)
  · exact completesGpr_of_eq rfl (simm_toInt imm ▸ boolWord_slt _ (simm imm))
  · exact completesGpr_of_eq rfl (simm_toNat imm ▸ boolWord_ult _ (simm imm))

/-- Settles O15: bit by bit, the immediate's bits being those of `zimm_getLsbD`. -/
theorem bitwiseLogical : Obligations.BitwiseLogical := by
  unfold Obligations.BitwiseLogical
  refine ⟨?and, ?or, ?xor, ?nor, ?andi, ?ori, ?xori, fun s d rs rt imm => ⟨?_, ?_, ?_, ?_, ?_, ?_, ?_⟩⟩
  case and | or | xor | nor => exact decodesSpecial fun w h => by rw [decodeSpecial, h]; rfl
  case andi | ori | xori => exact decodesImmediate fun w h => by rw [decode, h]; rfl
  · exact completesGpr_of_eq rfl fun _ _ => BitVec.getLsbD_and
  · exact completesGpr_of_eq rfl fun _ _ => BitVec.getLsbD_or
  · exact completesGpr_of_eq rfl fun _ _ => BitVec.getLsbD_xor
  · exact completesGpr_of_eq rfl fun j hj => by simp [hj]
  · exact completesGpr_of_eq rfl fun j hj => by rw [BitVec.getLsbD_and, zimm_getLsbD imm hj]
  · exact completesGpr_of_eq rfl fun j hj => by rw [BitVec.getLsbD_or, zimm_getLsbD imm hj]
  · exact completesGpr_of_eq rfl fun j hj => by rw [BitVec.getLsbD_xor, zimm_getLsbD imm hj]

/-! ### Shifts (R230–R244) -/

/-- Settles O16: one law per kind of shift, at the instruction's amount (`varShamt32_eq` for a variable one). -/
theorem wordShifts : Obligations.WordShifts := by
  unfold Obligations.WordShifts
  refine ⟨?sll, ?srl, ?sra, ?sllv, ?srlv, ?srav, fun s d rt rs sa => ⟨?_, ?_, ?_, ?_, ?_, ?_⟩⟩
  case sll | srl | sra | sllv | srlv | srav => exact decodesSpecial fun w h => by rw [decodeSpecial, h]; rfl
  · exact completesGpr_of_eq rfl (isWord_sllWord _ sa.toNat)
  · exact completesGpr_of_eq rfl (isWord_srlWord _ sa.toNat)
  · exact completesGpr_of_eq rfl (isWord_sraWord _ sa.toNat)
  · exact completesGpr_of_eq rfl (varShamt32_eq (s.gpr rs) ▸ isWord_sllWord _ _)
  · exact completesGpr_of_eq rfl (varShamt32_eq (s.gpr rs) ▸ isWord_srlWord _ _)
  · exact completesGpr_of_eq rfl (varShamt32_eq (s.gpr rs) ▸ isWord_sraWord _ _)

/-- Settles O17: past the check of R245, one law per kind of shift, at the instruction's amount. -/
theorem doublewordShifts : Obligations.DoublewordShifts := by
  unfold Obligations.DoublewordShifts
  refine ⟨?dsll, ?dsrl, ?dsra, ?dsll32, ?dsrl32, ?dsra32, ?dsllv, ?dsrlv, ?dsrav,
    fun s d rt rs sa hu => ⟨?_, ?_, ?_, ?_, ?_, ?_, ?_, ?_, ?_⟩⟩
  case dsll | dsrl | dsra | dsll32 | dsrl32 | dsra32 | dsllv | dsrlv | dsrav =>
    exact decodesSpecial fun w h => by rw [decodeSpecial, h]; rfl
  · exact completesGpr_of_finishGprDouble hu rfl (shiftLeft_toNat _ sa.toNat)
  · exact completesGpr_of_finishGprDouble hu rfl (ushiftRight_toNat _ sa.toNat)
  · exact completesGpr_of_finishGprDouble hu rfl (sshiftRight_toInt _ sa.toNat)
  · exact completesGpr_of_finishGprDouble hu rfl (shiftLeft_toNat _ (sa.toNat + 32))
  · exact completesGpr_of_finishGprDouble hu rfl (ushiftRight_toNat _ (sa.toNat + 32))
  · exact completesGpr_of_finishGprDouble hu rfl (sshiftRight_toInt _ (sa.toNat + 32))
  · exact completesGpr_of_finishGprDouble hu rfl (varShamt64_eq (s.gpr rs) ▸ shiftLeft_toNat _ _)
  · exact completesGpr_of_finishGprDouble hu rfl (varShamt64_eq (s.gpr rs) ▸ ushiftRight_toNat _ _)
  · exact completesGpr_of_finishGprDouble hu rfl (varShamt64_eq (s.gpr rs) ▸ sshiftRight_toInt _ _)

/-! ### In user mode (R245) -/

/-- Every doubleword instruction begins with the check of R245. -/
theorem exec_of_isDoubleword {i : Instr} (h : isDoubleword i = true) (s : State) :
    ∃ r : Result State, exec i s = s.complete (s.doublewordCheck.bind fun _ => r) := by
  cases i with
  | dadd | daddu | dsub | dsubu | daddi | daddiu | dsll | dsrl | dsra | dsll32 | dsrl32 | dsra32 | dsllv | dsrlv
  | dsrav | dmult | dmultu | ddiv | ddivu | ld | ldl | ldr | lld | sd | sdl | sdr | scd => exact ⟨_, rfl⟩
  | _ => cases h

/-- Settles O18: the check raises before the instruction's effect, whatever that is. -/
theorem doublewordInUserMode : Obligations.DoublewordInUserMode := by
  unfold Obligations.DoublewordInUserMode
  intro i s hi hu
  obtain ⟨r, he⟩ := exec_of_isDoubleword hi s
  rw [he, State.doublewordCheck_raise hu, raise_bind]
  exact s.raises_complete .reservedInstruction

end Sys2Proof.Machine
end

section
/-! HI and LO, multiply and divide: the exact results and the corners as numbers, and the instructions that write
exactly HI and LO (41_muldiv.md rules R260–R273). -/

namespace Sys2Proof.Machine

/-! ### Writing exactly HI and LO -/

theorem completesHiLo_of_setLoHi {i : Instr} {s : State} {p : Word × Word} {P : Word → Word → Prop}
    (h : exec i s = .next (s.setLoHi p)) (hp : P p.2 p.1) : CompletesHiLo i s P := ⟨_, _, h, hp⟩

theorem exec_div (rs rt : RegIdx) (s : State) :
    exec (.div rs rt) s = .next (s.setLoHi (s.divWord (lo32 (s.gpr rs)) (lo32 (s.gpr rt)))) := rfl

theorem exec_divu (rs rt : RegIdx) (s : State) :
    exec (.divu rs rt) s = .next (s.setLoHi (s.divuWord (lo32 (s.gpr rs)) (lo32 (s.gpr rt)))) := rfl

theorem exec_ddiv (rs rt : RegIdx) {s : State} (hu : s.mode ≠ .user) :
    exec (.ddiv rs rt) s = .next (s.setLoHi (s.divDouble (s.gpr rs) (s.gpr rt))) := next_of_doubleword hu rfl rfl

theorem exec_ddivu (rs rt : RegIdx) {s : State} (hu : s.mode ≠ .user) :
    exec (.ddivu rs rt) s = .next (s.setLoHi (s.divuDouble (s.gpr rs) (s.gpr rt))) := next_of_doubleword hu rfl rfl

/-! ### Products (R265–R268) -/

theorem completesHiLo_of_productWord {i : Instr} {s : State} {n : Int}
    (h : exec i s = .next (s.setProductWord (BitVec.ofInt 64 n))) :
    CompletesHiLo i s fun hi lo => IsWord lo n ∧ IsWord hi (n / 2 ^ 32) :=
  ⟨_, _, h, isWord_sext32 (product_low n), isWord_sext32 (product_high n)⟩

theorem completesHiLo_of_productDouble {i : Instr} {s : State} {n : Int}
    (h : exec i s = .next (s.setProductDouble (BitVec.ofInt 128 n))) :
    CompletesHiLo i s fun hi lo => IsDouble lo n ∧ IsDouble hi (n / 2 ^ 64) :=
  ⟨_, _, h, isDouble_iff.mpr (wide_product_low n), isDouble_iff.mpr (wide_product_high n)⟩

theorem wide_product_low_toNat (n : Nat) : ((BitVec.ofNat 128 n).extractLsb' 0 64).toNat = n % 2 ^ 64 := by
  rw [BitVec.extractLsb'_toNat, BitVec.toNat_ofNat, Nat.shiftRight_zero, Nat.mod_mod_of_dvd n (by norm_num)]

/-- The upper half is the whole quotient where the product fits 128 bits. -/
theorem wide_product_high_toNat {n : Nat} (h : n < 2 ^ 128) :
    ((BitVec.ofNat 128 n).extractLsb' 64 64).toNat = n / 2 ^ 64 := by
  rw [BitVec.extractLsb'_toNat, BitVec.toNat_ofNat, Nat.mod_eq_of_lt h, Nat.shiftRight_eq_div_pow]
  omega

theorem product_fits (a b : Word) : a.toNat * b.toNat < 2 ^ 128 := by
  calc a.toNat * b.toNat < 2 ^ 64 * 2 ^ 64 := Nat.mul_lt_mul'' a.isLt b.isLt
    _ = 2 ^ 128 := by norm_num

/-! ### Quotient and remainder (R260) -/

theorem ofInt_tdiv {w : Nat} (a b : BitVec w) : BitVec.ofInt w (a.toInt.tdiv b.toInt) = a.sdiv b :=
  BitVec.eq_of_toInt_eq (by rw [BitVec.toInt_ofInt, BitVec.toInt_sdiv])

theorem ofInt_sub_tdiv_mul {w : Nat} (a b : BitVec w) :
    BitVec.ofInt w (a.toInt - a.toInt.tdiv b.toInt * b.toInt) = a.srem b := by
  rw [mul_comm, ← Int.tmod_def, ← BitVec.toInt_srem, BitVec.ofInt_toInt]

/-- A remainder of truncated division has the dividend's sign. -/
theorem tmod_neg_iff {n d : Int} (h : n.tmod d ≠ 0) : n.tmod d < 0 ↔ n < 0 := by
  have hdvd : ¬ d ∣ n := fun hdvd => h (Int.tmod_eq_zero_of_dvd hdvd)
  rw [← Int.sign_eq_neg_one_iff_neg, Int.sign_tmod, if_neg hdvd, Int.sign_eq_neg_one_iff_neg]

/-- Where the divisor is not 0 and the quotient fits, `sdiv` and `srem` are the exact quotient and remainder. -/
theorem sdiv_srem_exact {w : Nat} {a b : BitVec w} (hb : b ≠ 0) (ho : ¬ (a = BitVec.intMin w ∧ b = -1#w)) :
    a.toInt = (a.sdiv b).toInt * b.toInt + (a.srem b).toInt
    ∧ (a.srem b).toInt.natAbs < b.toInt.natAbs
    ∧ ((a.srem b).toInt ≠ 0 → ((a.srem b).toInt < 0 ↔ a.toInt < 0)) := by
  have hpos : 0 < b.toInt.natAbs := Int.natAbs_pos.mpr fun h => hb (BitVec.eq_of_toInt_eq (by simpa using h))
  rw [BitVec.toInt_sdiv_of_ne_or_ne a b (not_and_or.mp ho), BitVec.toInt_srem]
  refine ⟨(Int.tdiv_mul_add_tmod _ _).symm, ?_, tmod_neg_iff⟩
  rw [Int.natAbs_tmod]
  exact Nat.mod_lt _ hpos

theorem lo32_eq_zero_iff_signedWord {v : Word} : lo32 v = 0 ↔ signedWord v = 0 := by
  rw [← lo32_toInt, ← BitVec.toInt_inj]
  rfl

theorem lo32_eq_zero_iff_unsignedWord {v : Word} : lo32 v = 0 ↔ unsignedWord v = 0 := by
  rw [← lo32_toNat, ← BitVec.toNat_inj]
  rfl

theorem lo32_congr {v v' : Word} (h : signedWord v = signedWord v') : lo32 v = lo32 v' := by
  rw [← ofInt_signedWord, h, ofInt_signedWord]

/-! ### Divisions away from their corners (R269–R272) -/

theorem State.divWord_exact (s : State) {n d : BitVec 32} (hd : d ≠ 0) (ho : ¬ (n.toInt = -2 ^ 31 ∧ d.toInt = -1)) :
    s.divWord n d = (sext32 (n.sdiv d), sext32 (n.srem d)) := by
  rw [State.divWord, if_neg hd, if_neg ho, ofInt_tdiv, ofInt_sub_tdiv_mul]

theorem State.divDouble_exact (s : State) {n d : Word} (hd : d ≠ 0) (ho : ¬ (n.toInt = -2 ^ 63 ∧ d.toInt = -1)) :
    s.divDouble n d = (n.sdiv d, n.srem d) := by
  rw [State.divDouble, if_neg hd, if_neg ho, ofInt_tdiv, ofInt_sub_tdiv_mul]

theorem State.divuWord_exact (s : State) {n d : BitVec 32} (hd : d ≠ 0) :
    s.divuWord n d = (sext32 (BitVec.ofNat 32 (n.toNat / d.toNat)), sext32 (BitVec.ofNat 32 (n.toNat % d.toNat))) :=
  if_neg hd

theorem State.divuDouble_exact (s : State) {n d : Word} (hd : d ≠ 0) : s.divuDouble n d = (n / d, n % d) := by
  rw [State.divuDouble, if_neg hd, BitVec.udiv_def, BitVec.umod_def]

/-! ### Corners (R273) -/

theorem State.divCorner_vr4300 {s : State} (h : s.params.divCorner = .vr4300) (c : DivCase) (n : Word) :
    s.divCorner c n = vr4300DivCorner c n := by rw [State.divCorner, h]

/-- A division reads nothing of the state but the configuration. -/
theorem State.division_congr {s s' : State} (h : s.params.divCorner = s'.params.divCorner) :
    s.divWord = s'.divWord ∧ s.divuWord = s'.divuWord ∧ s.divDouble = s'.divDouble ∧ s.divuDouble = s'.divuDouble := by
  have corner : s.divCorner = s'.divCorner := by
    funext c n
    rw [State.divCorner, State.divCorner, h]
  refine ⟨?_, ?_, ?_, ?_⟩ <;> funext n d
  · rw [State.divWord, corner]; rfl
  · rw [State.divuWord, corner]; rfl
  · rw [State.divDouble, corner]; rfl
  · rw [State.divuDouble, corner]; rfl

theorem State.divWord_zero (s : State) (n : BitVec 32) {d : BitVec 32} (hd : d = 0) :
    s.divWord n d = s.divCorner .divByZeroW (sext32 n) := if_pos hd

theorem State.divuWord_zero (s : State) (n : BitVec 32) {d : BitVec 32} (hd : d = 0) :
    s.divuWord n d = s.divCorner .divuByZeroW (sext32 n) := if_pos hd

theorem State.divDouble_zero (s : State) (n : Word) {d : Word} (hd : d = 0) :
    s.divDouble n d = s.divCorner .divByZeroD n := if_pos hd

theorem State.divuDouble_zero (s : State) (n : Word) {d : Word} (hd : d = 0) :
    s.divuDouble n d = s.divCorner .divuByZeroD n := if_pos hd

theorem State.divWord_overflow (s : State) {n d : BitVec 32} (hn : n.toInt = -2 ^ 31) (hd : d.toInt = -1) :
    s.divWord n d = s.divCorner .divOverflowW (sext32 n) := by
  have hd0 : d ≠ 0 := by rintro rfl; cases hd
  rw [State.divWord, if_neg hd0, if_pos ⟨hn, hd⟩]

theorem State.divDouble_overflow (s : State) {n d : Word} (hn : n.toInt = -2 ^ 63) (hd : d.toInt = -1) :
    s.divDouble n d = s.divCorner .divOverflowD n := by
  have hd0 : d ≠ 0 := by rintro rfl; cases hd
  rw [State.divDouble, if_neg hd0, if_pos ⟨hn, hd⟩]

/-- The default quotient by 0 of a signed division, in both widths. -/
theorem byZero_quotient_toInt (n : Word) :
    (if n.msb then 1 else 0xFFFFFFFFFFFFFFFF : Word).toInt = if 0 ≤ n.toInt then -1 else 1 := by
  by_cases h : n.toInt < 0
  · rw [BitVec.msb_eq_toInt, decide_eq_true h, if_neg (not_le.mpr h)]; rfl
  · rw [BitVec.msb_eq_toInt, decide_eq_false h, if_pos (not_lt.mp h)]; rfl

/-- A corner of the default configuration completes with its row of the table. -/
theorem completesHiLo_of_corner {i : Instr} {s : State} {p : Word × Word} {P : Word → Word → Prop} {c : DivCase}
    {n : Word} (hc : s.params.divCorner = .vr4300) (h : exec i s = .next (s.setLoHi p)) (hp : p = s.divCorner c n)
    (hP : P (vr4300DivCorner c n).2 (vr4300DivCorner c n).1) : CompletesHiLo i s P :=
  completesHiLo_of_setLoHi h (by rwa [hp, State.divCorner_vr4300 hc])

/-! ### The instructions (R261–R273) -/

/-- Settles O19: each outcome is the write of the one register. -/
theorem hiLoMoves : Obligations.HiLoMoves := by
  unfold Obligations.HiLoMoves
  refine ⟨?mfhi, ?mthi, ?mflo, ?mtlo, fun s r => ⟨?_, ?_, ?_, ?_⟩⟩
  case mfhi | mthi | mflo | mtlo => exact decodesSpecial fun w h => by rw [decodeSpecial, h]; rfl
  · exact completesGpr_of_eq rfl rfl
  · exact completesGpr_of_eq rfl rfl
  · exact ⟨_, _, rfl, rfl, rfl⟩
  · exact ⟨_, _, rfl, rfl, rfl⟩

/-- Settles O20: the halves of the written pattern are those of the exact product. -/
theorem multiply : Obligations.Multiply := by
  unfold Obligations.Multiply
  refine ⟨?mult, ?multu, ?dmult, ?dmultu, fun s rs rt => ⟨?_, ?_⟩, fun s rs rt hu => ⟨?_, ?_⟩⟩
  case mult | multu | dmult | dmultu => exact decodesSpecial fun w h => by rw [decodeSpecial, h]; rfl
  · exact completesHiLo_of_productWord (by rw [← lo32_toInt, ← lo32_toInt]; rfl)
  · rw [Int.natCast_ediv]
    exact completesHiLo_of_productWord (by rw [BitVec.ofInt_natCast, ← lo32_toNat, ← lo32_toNat]; rfl)
  · exact completesHiLo_of_productDouble (next_of_doubleword hu rfl rfl)
  · exact ⟨_, _, next_of_doubleword hu rfl rfl, wide_product_low_toNat _, wide_product_high_toNat (product_fits _ _)⟩

/-- Settles O21: away from the corners the results are `sdiv` and `srem`, which are exact (`sdiv_srem_exact`), or the
unsigned quotient and remainder. -/
theorem divide : Obligations.Divide := by
  unfold Obligations.Divide
  refine ⟨?div, ?divu, ?ddiv, ?ddivu, fun s rs rt hd ho => ?_, fun s rs rt hd => ?_, fun s rs rt hu hd ho => ?_,
    fun s rs rt hu hd => ?_⟩
  case div | divu | ddiv | ddivu => exact decodesSpecial fun w h => by rw [decodeSpecial, h]; rfl
  · have hd0 := mt lo32_eq_zero_iff_signedWord.mp hd
    rw [← lo32_toInt, ← lo32_toInt] at ho ⊢
    refine completesHiLo_of_setLoHi (exec_div rs rt s) ?_
    rw [s.divWord_exact hd0 ho, sext32_toInt, sext32_toInt]
    exact sdiv_srem_exact hd0 fun ⟨hmin, hone⟩ => ho ⟨hmin ▸ rfl, hone ▸ rfl⟩
  · refine completesHiLo_of_setLoHi (exec_divu rs rt s) ?_
    rw [s.divuWord_exact (mt lo32_eq_zero_iff_unsignedWord.mp hd), lo32_toNat, lo32_toNat]
    exact ⟨isWord_sext32_ofNat rfl, isWord_sext32_ofNat rfl⟩
  · refine completesHiLo_of_setLoHi (exec_ddiv rs rt hu) ?_
    rw [s.divDouble_exact hd ho]
    exact sdiv_srem_exact hd fun ⟨hmin, hone⟩ => ho ⟨hmin ▸ rfl, hone ▸ rfl⟩
  · refine completesHiLo_of_setLoHi (exec_ddivu rs rt hu) ?_
    rw [s.divuDouble_exact hd, BitVec.toNat_udiv, BitVec.toNat_umod]
    exact ⟨(Nat.div_add_mod' _ _).symm, Nat.mod_lt _ (Nat.pos_of_ne_zero (BitVec.toNat_ne.mp hd))⟩

/-- Settles O22: each corner is its case of the default table (`completesHiLo_of_corner`); divisions of the same words
agree in any two states of one configuration (`State.division_congr`). -/
theorem divisionCorners : Obligations.DivisionCorners := by
  unfold Obligations.DivisionCorners
  refine ⟨fun s rs rt hc => ⟨fun hd => ?_, fun hn hd => ?_, fun hd => ?_, fun hu hd => ?_, fun hu hn hd => ?_,
    fun hu hd => ?_⟩, fun s s' rs rt hc hc' => ?_⟩
  · refine completesHiLo_of_corner hc (exec_div rs rt s) (s.divWord_zero _ (lo32_eq_zero_iff_signedWord.mpr hd)) ?_
    rw [← lo32_toInt, ← sext32_toInt]
    exact ⟨byZero_quotient_toInt _, rfl⟩
  · rw [← lo32_toInt] at hn hd
    exact completesHiLo_of_corner hc (exec_div rs rt s) (s.divWord_overflow hn hd) ⟨rfl, rfl⟩
  · refine completesHiLo_of_corner hc (exec_divu rs rt s) (s.divuWord_zero _ (lo32_eq_zero_iff_signedWord.mpr hd)) ?_
    exact ⟨rfl, (sext32_toInt _).trans (lo32_toInt _)⟩
  · exact completesHiLo_of_corner hc (exec_ddiv rs rt hu) (s.divDouble_zero _ hd) ⟨byZero_quotient_toInt _, rfl⟩
  · exact completesHiLo_of_corner hc (exec_ddiv rs rt hu) (s.divDouble_overflow hn hd) ⟨rfl, rfl⟩
  · exact completesHiLo_of_corner hc (exec_ddivu rs rt hu) (s.divuDouble_zero _ hd) ⟨rfl, rfl⟩
  · obtain ⟨word, uword, double, udouble⟩ := State.division_congr (hc'.trans hc.symm)
    refine ⟨fun hn hd => ?_, fun hu hu' hn hd => ?_⟩
    · have div' := exec_div rs rt s'
      have divu' := exec_divu rs rt s'
      rw [word, ← lo32_congr hn, ← lo32_congr hd] at div'
      rw [uword, ← lo32_congr hn, ← lo32_congr hd] at divu'
      exact ⟨_, _, _, _, exec_div rs rt s, div', exec_divu rs rt s, divu'⟩
    · have ddiv' := exec_ddiv rs rt hu'
      have ddivu' := exec_ddivu rs rt hu'
      rw [double, ← hn, ← hd] at ddiv'
      rw [udouble, ← hn, ← hd] at ddivu'
      exact ⟨_, _, _, _, exec_ddiv rs rt hu, ddiv', exec_ddivu rs rt hu, ddivu'⟩

end Sys2Proof.Machine
end

section
/-! Jumps and branches (42_control.md rules R290–R319): refused in a delay slot, completed outside one, and the steps
of the CPU that lead through the delay slot to the target. -/

namespace Sys2Proof.Machine

/-- A word with a target field, by its field (R181). -/
theorem decodesJump {op : BitVec 6} {mk : BitVec 26 → Instr} (h : ∀ w, opOf w = op → decode w = .ok (mk (targetOf w))) :
    DecodesJump op mk := h

/-! ### In a delay slot (R294) -/

/-- Every control transfer begins with the check of R294. -/
theorem exec_of_isControlTransfer {i : Instr} (h : isControlTransfer i = true) (s : State) :
    ∃ f : Unit → Result State, exec i s = s.complete (s.notInDelaySlot.bind f) := by
  cases i with
  | j | jal | jr | jalr | beq | bne | blez | bgtz | bltz | bgez | bltzal | bgezal | beql | bnel | blezl | bgtzl | bltzl
  | bgezl | bltzall | bgezall | eret => exact ⟨_, rfl⟩
  | _ => cases h

/-- Settles O26: the check refuses before the instruction's effect, whatever that is. -/
theorem branchInDelaySlot : Obligations.BranchInDelaySlot := by
  unfold Obligations.BranchInDelaySlot
  intro i s hi hd
  obtain ⟨f, he⟩ := exec_of_isControlTransfer hi s
  rw [he, State.notInDelaySlot_refuse hd, refuse_bind, State.complete_refuse]

/-! ### Jumps outside a delay slot (R300–R303) -/

/-- Outside a delay slot a control transfer ends as the operation past its check does (R294). -/
theorem exec_outside_delay_slot {i : Instr} {s : State} {r : Result State} {o : Host.Outcome State Fault Refusal}
    (hd : s.inDelay = false) (h : exec i s = s.complete (s.notInDelaySlot.bind fun _ => r)) (ho : s.complete r = o) :
    exec i s = o := by
  rw [h, State.notInDelaySlot_ok hd, ok_bind, ho]

/-- Settles O23: past the check each is one scheduled jump, after the link where there is one. -/
theorem jumps : Obligations.Jumps := by
  unfold Obligations.Jumps
  refine ⟨?j, ?jal, ?jr, ?jalr, fun s hd => ⟨fun target => ?_, fun target => ?_, fun rs => ?_, fun rd rs hne => ?_,
    fun rd hrd => ?_⟩⟩
  case j | jal => exact decodesJump fun w h => by rw [decode, h]; rfl
  case jr | jalr => exact decodesSpecial fun w h => by rw [decodeSpecial, h]; rfl
  · rw [← jumpTarget_eq]
    exact completesJump_of_eq (exec_outside_delay_slot hd rfl rfl)
  · rw [← jumpTarget_eq]
    exact completesJump_of_linkJump (exec_outside_delay_slot hd rfl rfl)
  · exact completesJump_of_eq (exec_outside_delay_slot hd rfl rfl)
  · have links : ¬ (rd = rs ∧ rd ≠ 0) := fun ⟨heq, h0⟩ => hne.elim (· heq) h0
    exact completesJump_of_linkJump (exec_outside_delay_slot hd rfl (congrArg s.complete (if_neg links)))
  · exact exec_outside_delay_slot hd rfl (congrArg s.complete (if_pos ⟨rfl, hrd⟩))

/-! ### Branches outside a delay slot (R304–R319) -/

/-- Settles O24: each is one of the two shared plain branches, on the model's form of its condition. -/
theorem branches : Obligations.Branches := by
  unfold Obligations.Branches
  refine ⟨?beq, ?bne, ?blez, ?bgtz, ?bltz, ?bgez, ?bltzal, ?bgezal, fun s rs rt imm hd =>
    ⟨?_, ?_, ?_, ?_, ?_, ?_, ?_, ?_⟩⟩
  case beq | bne | blez | bgtz => exact decodesImmediate fun w h => by rw [decode, h]; rfl
  case bltz | bgez | bltzal | bgezal => exact decodesRegimm fun w h => by rw [decodeRegimm, h]; rfl
  · exact completesBranch_of_eq rfl (State.branch_next hd _ imm)
  · exact completesBranch_of_eq decide_not.symm (State.branch_next hd _ imm)
  · exact completesBranch_of_eq rfl (State.branch_next hd (lez _) imm)
  · exact completesBranch_of_eq rfl (State.branch_next hd (gtz _) imm)
  · exact completesBranch_of_eq rfl (State.branch_next hd (ltz _) imm)
  · exact completesBranch_of_eq rfl (State.branch_next hd (gez _) imm)
  · exact completesBranch_of_link rfl (State.branchLink_next hd (ltz _) imm)
  · exact completesBranch_of_link rfl (State.branchLink_next hd (gez _) imm)

/-- Settles O25: each is one of the two shared branch-likelies, on the model's form of its condition. -/
theorem likelyBranches : Obligations.LikelyBranches := by
  unfold Obligations.LikelyBranches
  refine ⟨?beql, ?bnel, ?blezl, ?bgtzl, ?bltzl, ?bgezl, ?bltzall, ?bgezall, fun s rs rt imm hd =>
    ⟨?_, ?_, ?_, ?_, ?_, ?_, ?_, ?_⟩⟩
  case beql | bnel | blezl | bgtzl => exact decodesImmediate fun w h => by rw [decode, h]; rfl
  case bltzl | bgezl | bltzall | bgezall => exact decodesRegimm fun w h => by rw [decodeRegimm, h]; rfl
  · exact completesLikely_of_eq rfl (State.branchLikely_next hd _ imm)
  · exact completesLikely_of_eq decide_not.symm (State.branchLikely_next hd _ imm)
  · exact completesLikely_of_eq rfl (State.branchLikely_next hd (lez _) imm)
  · exact completesLikely_of_eq rfl (State.branchLikely_next hd (gtz _) imm)
  · exact completesLikely_of_eq rfl (State.branchLikely_next hd (ltz _) imm)
  · exact completesLikely_of_eq rfl (State.branchLikely_next hd (gez _) imm)
  · exact completesLikely_of_link rfl (State.branchLinkLikely_next hd (ltz _) imm)
  · exact completesLikely_of_link rfl (State.branchLinkLikely_next hd (gez _) imm)

/-! ### After a taken branch (R290–R294, R480) -/

/-- An exception was entered: no jump pending, the pc at the vector, EXL set (R480). -/
def State.Entered (t : State) : Prop := t.pending = none ∧ t.pc = exceptionVector ∧ t.exl = true

theorem State.entered_enter (s : State) (e : Exc) (a : Word) (bd : Bool) : (s.enter e a bd).Entered := by
  refine ⟨rfl, rfl, ?_⟩
  change (s.cp0.status ||| 2#32).getLsbD 1 = true
  rw [BitVec.getLsbD_or]
  exact Bool.or_true _

theorem State.Entered.tick {t : State} (h : t.Entered) : t.tick.Entered := h

/-- In a delay slot an instruction that ends in a next state keeps the pending jump, or enters an exception: every
instruction that could move the jump is refused there (R294). -/
theorem exec_in_delay_slot {i : Instr} {s t : State} (hd : s.inDelay = true) (he : exec i s = .next t) :
    t.pending = s.pending ∨ t.Entered := by
  have plain : isControlTransfer i = false := by
    rw [← Bool.not_eq_true]
    intro hi
    cases (branchInDelaySlot i s hi hd).symm.trans he
  rcases exec_ends he with ⟨e, _, rfl⟩ | effect
  · exact .inr (s.entered_enter ..)
  · exact .inl (effect.systemKept.flow plain).2

/-- Fetching and executing a delay slot keeps the pending jump, or enters an exception. -/
theorem State.fetchExecute_in_delay_slot {s t : State} (hd : s.inDelay = true) (he : s.fetchExecute = .next t) :
    t.pending = s.pending ∨ t.Entered := by
  rcases State.fetchExecute_ends he with ⟨e, a, bd, rfl⟩ | ⟨e, a, bd, rfl⟩ | ⟨i, he⟩
  · exact .inr (s.entered_enter ..)
  · exact .inr (State.entered_enter ..)
  · exact exec_in_delay_slot (s := { s with pc := s.pc + 4 }) hd he

/-- A next state of a step of the core is the entry of an interrupt, or what phases 1 to 4 end in; then the timer
has ticked (R290, R471). -/
theorem State.cpuStep_next {s t : State} (he : s.cpuStep = .next t) :
    (∃ c d, t = (s.enter .interrupt c d).tick) ∨ ∃ u, s.advancePending.fetchExecute = .next u ∧ t = u.tick := by
  unfold State.cpuStep at he
  split at he
  · cases he
  · split at he
    · obtain ⟨u, hu, rfl⟩ := tickOutcome_next he
      obtain ⟨_, rfl⟩ := State.takeException_next.mp hu
      exact .inl ⟨_, _, rfl⟩
    · exact .inr (tickOutcome_next he)

/-- A step of the core in a delay slot leaves the jump due, or enters an exception. -/
theorem State.cpuStep_in_delay_slot {s t : State} {a : Word} (hp : s.pending = some ⟨a, 1⟩) (he : s.cpuStep = .next t) :
    t.pending = some ⟨a, 0⟩ ∨ t.Entered := by
  have due : s.advancePending.pending = some ⟨a, 0⟩ := by simp [State.advancePending, hp]
  have delay : s.advancePending.inDelay = true := by simp [State.inDelay, due]
  rcases State.cpuStep_next he with ⟨c, d, rfl⟩ | ⟨u, hu, rfl⟩
  · exact .inr (s.entered_enter ..).tick
  · exact (State.fetchExecute_in_delay_slot delay hu).imp (·.trans due) State.Entered.tick

/-- Settles O55: the delay slot's step leaves the jump due (`State.cpuStep_in_delay_slot`), so its target is the next
instruction. -/
theorem delaySlotThenTarget : Obligations.DelaySlotThenTarget := by
  unfold Obligations.DelaySlotThenTarget
  intro s t a hr hp he
  rw [step_of_cpuRuns hr] at he
  rcases State.cpuStep_in_delay_slot (s := s.turnTaken) hp he with due | entered
  · refine .inl ⟨?_, due⟩
    rw [State.NextIs, due]
    exact ⟨rfl, rfl⟩
  · exact .inr entered

/-! ### The step that runs an instruction (R290, R510) -/

theorem State.executeWord_of_ok {w : BitVec 32} {i : Instr} (h : decode w = .ok i) (s : State) :
    s.executeWord w = exec i s := by
  rw [State.executeWord, h]

/-- A fetched word is executed with the pc past it (R290 phases 2 to 4). -/
theorem State.fetchExecute_of_ok {s : State} {w : BitVec 32} (h : s.fetch s.pc = .ok w) :
    s.fetchExecute = State.executeWord { s with pc := s.pc + 4 } w := by
  rw [State.fetchExecute, h]

/-- A step that ends as `o` before its timer tick: the tick follows a next state, and nothing follows a refusal or
a fault (R290 phase 5, R510). -/
theorem step_ends_of_tickOutcome {s : State} {o : Host.Outcome State Fault Refusal} (h : step s = tickOutcome o) :
    (∀ t, o = .next t → ∃ t', step s = .next t' ∧ t.Ticks t')
      ∧ (∀ r, o = .refused r → step s = .refused r) ∧ ∀ f, o = .fault f → step s = .fault f := by
  refine ⟨fun t ho => ⟨t.tick, ?_, t.ticks_tick⟩, fun r ho => ?_, fun f ho => ?_⟩
  all_goals exact h.trans (congrArg tickOutcome ho)

/-- Settles O51: the fetched bytes are the word (`State.fetch_holds`), which the step executes before it ticks. -/
theorem stepRunsInstruction : Obligations.StepRunsInstruction := by
  unfold Obligations.StepRunsInstruction
  intro s c d p b0 b1 b2 b3 hr hm hi hn hmap halign hbytes u ends
  obtain ⟨turn, delay⟩ := step_fetchExecute hr hm hi hn
  have fetched : (s.inFetch c).fetch c = .ok (b0 ++ b1 ++ b2 ++ b3) :=
    State.fetch_holds (s := s.inFetch c) hmap halign hbytes
  have runs : step s = tickOutcome (u.executeWord (b0 ++ b1 ++ b2 ++ b3)) :=
    turn.trans (congrArg tickOutcome (State.fetchExecute_of_ok (s := s.inFetch c) fetched))
  refine ⟨delay, fun i hdec => ?_, fun r _ => step_ends_of_tickOutcome runs⟩
  rw [State.executeWord_of_ok hdec] at runs
  exact step_ends_of_tickOutcome runs

end Sys2Proof.Machine
end

section
/-! Loads and stores of memory: the value loaded, the bytes stored, and the address errors before either
(43_loadstore.md rules R340–R364). -/

namespace Sys2Proof.Machine

/-- The word of a load or store, by its fields (R181). -/
theorem decodesAccess {op : BitVec 6} {mk : RegIdx → RegIdx → Imm16 → Instr}
    (h : ∀ w, opOf w = op → decode w = .ok (mk (rtOf w) (rsOf w) (immOf w))) : DecodesAccess op mk := h

/-- Outside user mode a doubleword instruction is the operation past its check (R245). -/
theorem exec_outside_user_mode {i : Instr} {s : State} {r : Result State} (hu : s.mode ≠ .user)
    (h : exec i s = s.complete (s.doublewordCheck.bind fun _ => r)) : exec i s = s.complete r := by
  rw [h, State.doublewordCheck_ok hu, ok_bind]

/-! ### Address errors (R340, R481) -/

theorem result_bind_assoc {α β γ : Type} (x : Result α) (f : α → Result β) (g : β → Result γ) :
    (x.bind f).bind g = x.bind fun a => (f a).bind g := by
  cases x <;> rfl

/-- An access without an alignment check of its own is translated at once. -/
theorem State.alignedAddress_one (s : State) (kind : AccessKind) (va : Word) :
    s.alignedAddress kind 1 va = s.translate kind va :=
  if_neg (not_not.mpr (Nat.mod_one _))

/-- The kind of access a load or store makes (R111). -/
def MemoryAccess.kind (m : MemoryAccess) : AccessKind := if m.stores then .store else .load

/-- Every load and store begins with the alignment check and the translation of its effective address (R340). -/
theorem exec_alignedAddress {i : Instr} {m : MemoryAccess} {s : State} (hi : memoryAccess i = some m)
    (hu : ¬ (isDoubleword i = true ∧ s.mode = .user)) : ∃ f : BitVec 32 → Result State,
      exec i s = s.complete ((s.alignedAddress m.kind m.align (s.effectiveAddress m.base m.offset)).bind f) := by
  cases s.accessCase hi hu with
  | load form ext rt eq kind =>
    obtain ⟨hs, hal, _⟩ := kind
    rw [eq, State.load, State.memRead, result_bind_assoc, MemoryAccess.kind, hs, hal]
    exact ⟨_, rfl⟩
  | linked ext rt eq kind =>
    obtain ⟨hs, hal, _⟩ := kind
    rw [eq, MemoryAccess.kind, hs, hal]
    exact ⟨_, rfl⟩
  | partialLoad rt value eq kind =>
    obtain ⟨hs, hal, _⟩ := kind
    rw [eq, State.unitRead, result_bind_assoc, MemoryAccess.kind, hs, hal, State.alignedAddress_one]
    exact ⟨_, rfl⟩
  | store form v eq kind =>
    obtain ⟨hs, hal, _⟩ := kind
    rw [eq, MemoryAccess.kind, hs, hal]
    exact ⟨_, rfl⟩
  | partialStore v mask eq kind =>
    obtain ⟨hs, hal, _⟩ := kind
    rw [eq, MemoryAccess.kind, hs, hal, State.alignedAddress_one]
    exact ⟨_, rfl⟩
  | conditional rt eq kind =>
    obtain ⟨hs, hal, _⟩ := kind
    rw [eq, MemoryAccess.kind, hs, hal]
    exact ⟨_, rfl⟩

/-- The error of an access raises with its code and the address in BadVAddr (R114, R472). -/
theorem State.raises_addressError (s : State) (m : MemoryAccess) (va : Word) :
    s.Raises (s.complete (raise (m.kind.addressError va))) (if m.stores then 5 else 4) (some va) none := by
  rw [MemoryAccess.kind]
  cases m.stores with
  | false => exact s.raises_complete (.addressErrorLoad va)
  | true => exact s.raises_complete (.addressErrorStore va)

/-- Settles O35: the check and the translation end the access before its effect, whatever that is. -/
theorem accessAddressErrors : Obligations.AccessAddressErrors := by
  unfold Obligations.AccessAddressErrors
  intro i m s hi hu ea
  obtain ⟨f, he⟩ := exec_alignedAddress hi hu
  refine ⟨fun h => ?_, fun ha hb ht => ?_⟩
  · rw [he, State.alignedAddress_bad h, raise_bind]
    exact s.raises_addressError m ea
  · rw [he, State.alignedAddress_tlb ha hb ht, refuse_bind, State.complete_refuse]

/-! ### Loads (R342–R352, R361, R364) -/

/-- The sign extension of the low `w` bits of a number, as a number (00_scope.md rule R12). -/
theorem toInt_signExtend_setWidth {w k : Nat} (hw : w ≤ 64) {v : Word} (hv : v.toNat = k) :
    ((v.setWidth w).signExtend 64).toInt = (k : Int).bmod (2 ^ w) := by
  rw [BitVec.toInt_signExtend_of_le hw, BitVec.toInt_setWidth, hv]

theorem sext32_toInt_eq_signedWord (x : BitVec 32) : (sext32 x).toInt = signedWord (sext32 x) := by
  rw [signedWord, sext32_toInt, BitVec.toInt_bmod_cancel]

section
variable {i : Instr} {s : State} {rt base : RegIdx} {offset : Imm16} {p n : Nat} {bytes : List Byte}
  {ext : LoadExt} {P : Word → Prop}

/-- An aligned load completes with the extension of the bytes' value. -/
theorem completesGpr_load {form : AccessForm}
    (he : exec i s = s.complete (s.load form n ext rt (s.effectiveAddress base offset)))
    (hm : s.MapsTo (s.effectiveAddress base offset) p) (hb : s.HoldsBytes p bytes) (hl : bytes.length = n)
    (hn : n ∣ 8) (ha : p % n = 0) (hP : ∀ v : Word, v.toNat = bigEndian bytes → P (ext.apply v)) :
    CompletesGpr i s rt P := by
  obtain ⟨v, hload, hv⟩ := State.load_holds hm hl hn ha hb form ext rt
  exact completesGpr_of_eq (he.trans (congrArg s.complete hload)) (hP v hv)

/-- A partial word load completes with the merge of the unit's bytes and the old word (R349, R350). -/
theorem completesGpr_partialWord {merge : Nat → BitVec 32 → BitVec 32 → BitVec 32}
    (he : exec i s = s.complete (s.loadPartialWord merge rt (s.effectiveAddress base offset)))
    (hm : s.MapsTo (s.effectiveAddress base offset) p) (hl : bytes.length = 4) (hb : s.HoldsBytes (p - p % 4) bytes)
    (hP : ∀ w : Word, (∀ j < 4, byteOf 4 j w = bytes.getD j 0) →
      P (sext32 (merge (p % 4) (lo32 w) (lo32 (s.gpr rt))))) : CompletesGpr i s rt P := by
  obtain ⟨w, hload, hw⟩ := State.loadPartialWord_holds hm hl hb merge rt
  refine completesGpr_of_eq (he.trans (congrArg s.complete hload)) (hP w fun j hj => ?_)
  rw [hw j (hl ▸ hj), List.getD_eq_getElem]

/-- A partial doubleword load completes with the merge of the unit's bytes and the old register (R351, R352). -/
theorem completesGpr_partialDouble {merge : Nat → Word → Word → Word}
    (he : exec i s = s.complete (s.loadPartialDouble merge rt (s.effectiveAddress base offset)))
    (hm : s.MapsTo (s.effectiveAddress base offset) p) (hl : bytes.length = 8) (hb : s.HoldsBytes (p - p % 8) bytes)
    (hP : ∀ w : Word, (∀ j < 8, byteOf 8 j w = bytes.getD j 0) → P (merge (p % 8) w (s.gpr rt))) :
    CompletesGpr i s rt P := by
  obtain ⟨w, hload, hw⟩ := State.loadPartialDouble_holds hm hl hb merge rt
  refine completesGpr_of_eq (he.trans (congrArg s.complete hload)) (hP w fun j hj => ?_)
  rw [hw j (hl ▸ hj), List.getD_eq_getElem]

/-- A linked load of bytes memory holds: the register, LLbit and LLAddr (R361, R364). -/
theorem State.loadLinked_holds (hm : s.MapsTo (s.effectiveAddress base offset) p) (hb : s.HoldsBytes p bytes)
    (hl : bytes.length = n) (hn : n ∣ 8) (ha : p % n = 0) :
    ∃ v, v.toNat = bigEndian bytes ∧ s.loadLinked n ext rt (s.effectiveAddress base offset) =
      .ok { s.setGpr rt (ext.apply v) with
        llBit := true, cp0 := { s.cp0 with llAddr := BitVec.ofNat 32 p >>> 4 } } := by
  subst hl
  obtain ⟨v, hread, hv, _⟩ := State.physRead_holds hn ha hb .other
  refine ⟨v, hv, ?_⟩
  rw [State.loadLinked, State.alignedAddress_mapsTo hm hn ha, ok_bind, hm.toNat, hread, ok_bind]

/-- LLAddr, the physical address shifted right by 4, is that address divided by 16 (R361). -/
theorem State.MapsTo.ofNat_shift_four {va : Word} (hm : s.MapsTo va p) :
    BitVec.ofNat 32 p >>> 4 = BitVec.ofNat 32 (p / 16) := by
  have hlt := hm.lt
  apply BitVec.eq_of_toNat_eq
  rw [BitVec.toNat_ushiftRight, hm.toNat, Nat.shiftRight_eq_div_pow, BitVec.toNat_ofNat]
  omega

/-- A linked load completes with the extension of the bytes' value, LLbit and LLAddr written. -/
theorem exec_loadLinked (he : exec i s = s.complete (s.loadLinked n ext rt (s.effectiveAddress base offset)))
    (hm : s.MapsTo (s.effectiveAddress base offset) p) (hb : s.HoldsBytes p bytes) (hl : bytes.length = n)
    (hn : n ∣ 8) (ha : p % n = 0) (hP : ∀ v : Word, v.toNat = bigEndian bytes → P (ext.apply v)) :
    ∃ t v, exec i s = .next t ∧ P v ∧ (∀ r, t.gpr r = if r = rt ∧ rt ≠ 0#5 then v else s.gpr r)
      ∧ t = { s with regs := t.regs, llBit := true, cp0 := { s.cp0 with llAddr := BitVec.ofNat 32 (p / 16) } }
      ∧ ∀ q, t.byteAt q = s.byteAt q := by
  obtain ⟨v, hv, hload⟩ := State.loadLinked_holds (ext := ext) (rt := rt) hm hb hl hn ha
  obtain ⟨hgpr, hframe, hbytes⟩ := s.writesGpr_setGpr rt (ext.apply v)
  rw [hm.ofNat_shift_four] at hload
  refine ⟨_, _, he.trans (congrArg s.complete hload), hP v hv, hgpr, ?_, hbytes⟩
  rw [hframe]

end

/-- Settles O28: each is the aligned load of its width and extension. -/
theorem alignedLoads : Obligations.AlignedLoads := by
  unfold Obligations.AlignedLoads
  refine ⟨?lb, ?lbu, ?lh, ?lhu, ?lw, ?lwu, ?ld, fun s rt base offset p bytes hm hb =>
    ⟨fun hl => ⟨?_, ?_⟩, fun hl ha => ⟨?_, ?_⟩, fun hl ha => ⟨?_, ?_⟩, fun hl ha hu => ?_⟩⟩
  case lb | lbu | lh | lhu | lw | lwu | ld => exact decodesAccess fun w h => by rw [decode, h]; rfl
  · exact completesGpr_load rfl hm hb hl (by decide) (Nat.mod_one p) fun _ => toInt_signExtend_setWidth (by decide)
  · exact completesGpr_load rfl hm hb hl (by decide) (Nat.mod_one p) fun _ hv => hv
  · exact completesGpr_load rfl hm hb hl (by decide) ha fun _ => toInt_signExtend_setWidth (by decide)
  · exact completesGpr_load rfl hm hb hl (by decide) ha fun _ hv => hv
  · exact completesGpr_load rfl hm hb hl (by decide) ha fun _ => toInt_signExtend_setWidth (by decide)
  · exact completesGpr_load rfl hm hb hl (by decide) ha fun _ hv => hv
  · exact completesGpr_load (exec_outside_user_mode hu rfl) hm hb hl (by decide) ha fun _ hv => hv

/-- Settles O29: each merge is known byte by byte, and the unit's bytes are those memory holds. -/
theorem partialLoads : Obligations.PartialLoads := by
  unfold Obligations.PartialLoads
  refine ⟨?lwl, ?lwr, ?ldl, ?ldr, fun s rt base offset p bytes hm => ⟨fun hl hb => ?_, fun hl hb hu => ?_⟩⟩
  case lwl | lwr | ldl | ldr => exact decodesAccess fun w h => by rw [decode, h]; rfl
  · have hk : p % 4 < 4 := Nat.mod_lt p (by decide)
    refine ⟨completesGpr_partialWord rfl hm hl hb fun w hw => ⟨sext32_toInt_eq_signedWord _, fun j hj => ?_⟩,
      completesGpr_partialWord rfl hm hl hb fun w hw => ⟨sext32_toInt_eq_signedWord _, fun j hj => ?_⟩⟩
    · exact (byteOf_lwlMerge hk w _ hj).trans (ite_congr rfl (fun h => hw _ h) fun _ => rfl)
    · exact (byteOf_lwrMerge hk w _ hj).trans (ite_congr rfl (fun h => hw _ (by omega)) fun _ => rfl)
  · have hk : p % 8 < 8 := Nat.mod_lt p (by decide)
    refine ⟨completesGpr_partialDouble (exec_outside_user_mode hu rfl) hm hl hb fun w hw j hj => ?_,
      completesGpr_partialDouble (exec_outside_user_mode hu rfl) hm hl hb fun w hw j hj => ?_⟩
    · exact (byteOf_ldlMerge hk w _ hj).trans (ite_congr rfl (fun h => hw _ h) fun _ => rfl)
    · exact (byteOf_ldrMerge hk w _ hj).trans (ite_congr rfl (fun h => hw _ (by omega)) fun _ => rfl)

/-- Settles O30: each is the linked load of its width and extension. -/
theorem linkedLoads : Obligations.LinkedLoads := by
  unfold Obligations.LinkedLoads
  refine ⟨?ll, ?lld, fun s rt base offset p bytes hm hb => ⟨fun hl ha => ?_, fun hl ha hu => ?_⟩⟩
  case ll | lld => exact decodesAccess fun w h => by rw [decode, h]; rfl
  · exact exec_loadLinked (ext := .s32) (P := fun v => v.toInt = _) rfl hm hb hl (by decide) ha fun _ =>
      toInt_signExtend_setWidth (by decide)
  · exact exec_loadLinked (ext := .zero) (P := fun v => v.toNat = _) (exec_outside_user_mode hu rfl) hm hb hl
      (by decide) ha fun _ hv => hv

/-! ### Stores (R353–R360, R362, R363) -/

section
variable {i : Instr} {s : State} {rt base : RegIdx} {offset : Imm16} {p n : Nat}

/-- An aligned store to RAM stores the register's low bytes (R353–R356). -/
theorem stores_of_memWrite {form : AccessForm} {v : Word}
    (he : exec i s = s.complete (s.memWrite form n (s.effectiveAddress base offset) v)) (hw : s.ram.wf = true)
    (hm : s.MapsTo (s.effectiveAddress base offset) p) (hr : IsRam p) (hn : n ∣ 8) (ha : p % n = 0) :
    ∃ t, exec i s = .next t ∧ s.StoresBytes t p n (fun j => byteOf n j v) :=
  ⟨_, he.trans (congrArg s.complete (State.memWrite_ram hm hr hn ha form v)),
    State.storesBytes_writeRam hw p (Nat.le_of_dvd (by decide) hn) v⟩

/-- A ROM ignores an aligned store (R124). -/
theorem exec_memWrite_rom {form : AccessForm} {v : Word}
    (he : exec i s = s.complete (s.memWrite form n (s.effectiveAddress base offset) v))
    (hm : s.MapsTo (s.effectiveAddress base offset) p) (hr : IsRom p) (hn : n ∣ 8) (ha : p % n = 0) :
    exec i s = .next s :=
  he.trans (congrArg s.complete (State.memWrite_rom hm hr hn ha form v))

/-- A partial word store to RAM merges its unit under the mask (R357, R358). -/
theorem exec_storePartialWord_ram {bits : Nat → BitVec 32 → BitVec 32 × BitVec 32}
    (he : exec i s = s.complete (s.storePartialWord bits rt (s.effectiveAddress base offset)))
    (hm : s.MapsTo (s.effectiveAddress base offset) p) (hr : IsRam p) :
    exec i s = .next (s.writeRam (p - p % 4) 4 (s.merged (p - p % 4) 4
      (zext32 (bits (p % 4) (lo32 (s.gpr rt))).1) (zext32 (bits (p % 4) (lo32 (s.gpr rt))).2))) := by
  rw [he, State.storePartialWord, State.memWriteMasked_ram hm hr, unitOffset_mapsTo hm (by decide), State.complete_ok]

/-- A partial doubleword store to RAM merges its unit under the mask (R359, R360). -/
theorem exec_storePartialDouble_ram {bits : Nat → Word → Word × Word}
    (he : exec i s = s.complete (s.storePartialDouble bits rt (s.effectiveAddress base offset)))
    (hm : s.MapsTo (s.effectiveAddress base offset) p) (hr : IsRam p) :
    exec i s = .next (s.writeRam (p - p % 8) 8 (s.merged (p - p % 8) 8
      (bits (p % 8) (s.gpr rt)).1 (bits (p % 8) (s.gpr rt)).2)) := by
  rw [he, State.storePartialDouble, State.memWriteMasked_ram hm hr, unitOffset_mapsTo hm (by decide), State.complete_ok]

/-- A ROM ignores a partial store (R124, R132). -/
theorem exec_memWriteMasked_rom {v mask : Word}
    (he : exec i s = s.complete (s.memWriteMasked n (s.effectiveAddress base offset) v mask))
    (hm : s.MapsTo (s.effectiveAddress base offset) p) (hr : IsRom p) (hn : n ∣ 8) : exec i s = .next s :=
  he.trans (congrArg s.complete (State.memWriteMasked_rom hm hr hn v mask))

/-- A store-conditional to an aligned address: with LLbit set it stores and writes 1, or in a ROM writes 1 alone,
and with LLbit clear it writes 0 alone (R362, R363). -/
theorem exec_storeConditional
    (he : exec i s = s.complete (s.storeConditional n rt (s.effectiveAddress base offset))) (hw : s.ram.wf = true)
    (hm : s.MapsTo (s.effectiveAddress base offset) p) (hn : n ∣ 8) (ha : p % n = 0) :
    (s.llBit = true → IsRam p → ∃ t, exec i s = .next t
        ∧ (∀ r, t.gpr r = if r = rt ∧ rt ≠ 0#5 then 1 else s.gpr r)
        ∧ s.StoresBytes { t with regs := s.regs } p n (fun j => byteOf n j (s.gpr rt)))
      ∧ (s.llBit = true → IsRom p → CompletesGpr i s rt (fun v => v = 1))
      ∧ (s.llBit = false → CompletesGpr i s rt (fun v => v = 0)) := by
  refine ⟨fun hl hr => ?_, fun hl hr => ?_, fun hl => ?_⟩
  · rw [State.storeConditional_ram hm hr hn ha hl] at he
    exact ⟨_, he, (State.storesBytes_writeRam hw p (Nat.le_of_dvd (by decide) hn) (s.gpr rt)).setGpr rt 1⟩
  · rw [State.storeConditional_rom hm hr hn ha hl] at he
    exact completesGpr_of_eq he rfl
  · rw [State.storeConditional_none hm hn ha hl] at he
    exact completesGpr_of_eq he rfl

end

/-- Settles O31: in RAM the bytes are written, and a ROM ignores the write. -/
theorem alignedStores : Obligations.AlignedStores := by
  unfold Obligations.AlignedStores
  refine ⟨?sb, ?sh, ?sw, ?sd, fun s rt base offset p hw hm =>
    ⟨fun hr => ⟨?_, fun ha => ?_, fun ha => ?_, fun ha hu => ?_⟩,
      fun hr => ⟨?_, fun ha => ?_, fun ha => ?_, fun ha hu => ?_⟩⟩⟩
  case sb | sh | sw | sd => exact decodesAccess fun w h => by rw [decode, h]; rfl
  · exact stores_of_memWrite rfl hw hm hr (by decide) (Nat.mod_one p)
  · exact stores_of_memWrite rfl hw hm hr (by decide) ha
  · exact stores_of_memWrite rfl hw hm hr (by decide) ha
  · exact stores_of_memWrite (exec_outside_user_mode hu rfl) hw hm hr (by decide) ha
  · exact exec_memWrite_rom rfl hm hr (by decide) (Nat.mod_one p)
  · exact exec_memWrite_rom rfl hm hr (by decide) ha
  · exact exec_memWrite_rom rfl hm hr (by decide) ha
  · exact exec_memWrite_rom (exec_outside_user_mode hu rfl) hm hr (by decide) ha

/-- Settles O32: in RAM the unit is merged under the form's mask, and a ROM ignores the write. -/
theorem partialStores : Obligations.PartialStores := by
  unfold Obligations.PartialStores
  refine ⟨?swl, ?swr, ?sdl, ?sdr, fun s rt base offset p hw hm => ⟨fun hr => ?_, fun hr => ?_⟩⟩
  case swl | swr | sdl | sdr => exact decodesAccess fun w h => by rw [decode, h]; rfl
  · have word_offset : p % 4 < 4 := Nat.mod_lt p (by decide)
    have double_offset : p % 8 < 8 := Nat.mod_lt p (by decide)
    have word_unit : p - p % 4 + p % 4 = p := Nat.sub_add_cancel (Nat.mod_le p 4)
    have double_unit : p - p % 8 + p % 8 = p := Nat.sub_add_cancel (Nat.mod_le p 8)
    refine ⟨⟨_, exec_storePartialWord_ram rfl hm hr, ?_⟩, ⟨_, exec_storePartialWord_ram rfl hm hr, ?_⟩,
      fun hu => ⟨_, exec_storePartialDouble_ram (exec_outside_user_mode hu rfl) hm hr, ?_⟩,
      fun hu => ⟨_, exec_storePartialDouble_ram (exec_outside_user_mode hu rfl) hm hr, ?_⟩⟩
    · simpa only [word_unit] using storesBytes_swl hw (p - p % 4) word_offset (s.gpr rt)
    · exact storesBytes_swr hw (p - p % 4) word_offset (s.gpr rt)
    · simpa only [double_unit] using storesBytes_sdl hw (p - p % 8) double_offset (s.gpr rt)
    · exact storesBytes_sdr hw (p - p % 8) double_offset (s.gpr rt)
  · refine ⟨?_, ?_, fun hu => ⟨?_, ?_⟩⟩
    · exact exec_memWriteMasked_rom rfl hm hr (by decide)
    · exact exec_memWriteMasked_rom rfl hm hr (by decide)
    · exact exec_memWriteMasked_rom (exec_outside_user_mode hu rfl) hm hr (by decide)
    · exact exec_memWriteMasked_rom (exec_outside_user_mode hu rfl) hm hr (by decide)

/-- Settles O33: each is the store-conditional of its width. -/
theorem storeConditional : Obligations.StoreConditional := by
  unfold Obligations.StoreConditional
  refine ⟨?sc, ?scd, fun s rt base offset p hw hm => ⟨fun ha => ?_, fun ha hu => ?_⟩⟩
  case sc | scd => exact decodesAccess fun w h => by rw [decode, h]; rfl
  · exact exec_storeConditional rfl hw hm (by decide) ha
  · exact exec_storeConditional (exec_outside_user_mode hu rfl) hw hm (by decide) ha

end Sys2Proof.Machine
end

section
/-! System instructions (44_system.md): the CP0 usability check, the CP0 moves, ERET and the traps. -/

namespace Sys2Proof.Machine

/-! ### SYSCALL and BREAK (R391, R392) -/

/-- Settles O41: both raise unconditionally, which is R480's entry or its refusal. -/
theorem syscallBreak : Obligations.SyscallBreak := by
  unfold Obligations.SyscallBreak
  refine ⟨fun w hop hf => ?_, fun w hop hf => ?_, fun s code => ⟨?_, ?_⟩⟩
  · rw [decode_of_special hop, decodeSpecial, functOf, hf]; rfl
  · rw [decode_of_special hop, decodeSpecial, functOf, hf]; rfl
  · exact s.raises_complete .systemCall
  · exact s.raises_complete .breakpoint

/-! ### Where CP0 is usable, and where it is not (R400) -/

section
variable {i : Instr} {s : State}

/-- Every COP0-space instruction and CACHE begin with the check of R400, ERET after that of R294. -/
theorem exec_of_isCp0Instruction (hi : isCp0Instruction i = true) (hd : ¬ (i = .eret ∧ s.inDelay = true)) :
    ∃ f : Unit → Result State, exec i s = s.complete (s.cp0UsableCheck.bind f) := by
  cases i with
  | mfc0 | mtc0 | dmfc0 | dmtc0 | tlbr | tlbwi | tlbwr | tlbp | cache => exact ⟨_, rfl⟩
  | eret => exact ⟨_, exec_outside_delay_slot (by simpa using hd) rfl rfl⟩
  | _ => cases hi

theorem raises_of_cp0_unusable (hi : isCp0Instruction i = true) (hu : ¬ (s.mode = .kernel ∨ s.cu0 = true))
    (hd : ¬ (i = .eret ∧ s.inDelay = true) := by nofun) : s.Raises (exec i s) 11 none (some 0) := by
  obtain ⟨f, he⟩ := exec_of_isCp0Instruction hi hd
  rw [he, State.cp0UsableCheck_raise hu, raise_bind]
  exact s.raises_complete (.coprocessorUnusable 0)

/-- Where CP0 is usable an instruction that checks it ends as the operation past its check does. -/
theorem exec_of_cp0_usable {r : Result State} {o : Host.Outcome State Fault Refusal}
    (hu : s.mode = .kernel ∨ s.cu0 = true) (h : exec i s = s.complete (s.cp0UsableCheck.bind fun _ => r))
    (ho : s.complete r = o) : exec i s = o := by
  rw [h, State.cp0UsableCheck_ok hu, ok_bind, ho]

/-- Where CP0 is usable an instruction whose operation begins with a refusal is refused. -/
theorem exec_refused_of_cp0_usable {α : Type} {x : Result α} {f : α → Result State} {r : Refusal}
    (hu : s.mode = .kernel ∨ s.cu0 = true) (h : exec i s = s.complete (s.cp0UsableCheck.bind fun _ => x.bind f))
    (hx : x = refuse r) : exec i s = .refused r :=
  exec_of_cp0_usable hu h (by rw [hx, refuse_bind, State.complete_refuse])

end

/-- Settles O42: past the check of R400 CACHE is the state itself, and SYNC has no check. -/
theorem cacheSync : Obligations.CacheSync := by
  unfold Obligations.CacheSync
  refine ⟨?cache, ?sync, fun s op base offset => ⟨fun hu => ?_, fun hu => ?_, ?_⟩⟩
  case cache => exact decodesImmediate fun w h => by rw [decode, h]; rfl
  case sync => exact decodesSpecial fun w h => by rw [decodeSpecial, h]; rfl
  · exact exec_of_cp0_usable hu rfl rfl
  · exact raises_of_cp0_unusable rfl hu
  · rfl

/-- Settles O43: the check of R400 ends every one of its instructions (`raises_of_cp0_unusable`), and the TLB
instructions refuse past it. -/
theorem cp0UsabilityAndTlb : Obligations.Cp0UsabilityAndTlb := by
  unfold Obligations.Cp0UsabilityAndTlb
  refine ⟨?tlbr, ?tlbwi, ?tlbwr, ?tlbp, fun i s hi hu hd => raises_of_cp0_unusable hi hu hd,
    fun s hu => ⟨?_, ?_, ?_, ?_⟩⟩
  case tlbr | tlbwi | tlbwr | tlbp => exact decodesCop0Function fun w h => by rw [decodeCop0Function, h]; rfl
  all_goals exact exec_of_cp0_usable hu rfl rfl

/-! ### The numbers of the CP0 registers (R40, R54) -/

theorem State.cp0Read_unmodelled (s : State) {n : RegIdx} (h : cp0Modelled n = false) :
    s.cp0Read n = refuse .cp0RegNotModelled := by
  unfold State.cp0Read
  split
  case h_15 => rfl
  all_goals exact absurd h (by decide)

theorem Cp0.write32_unmodelled (c : Cp0) {n : RegIdx} (h : cp0Modelled n = false) (v : Word) :
    c.write32 n v = refuse .cp0RegNotModelled := by
  unfold Cp0.write32
  split
  case h_15 => rfl
  all_goals exact absurd h (by decide)

theorem cp0DoubleCheck_unmodelled :
    ∀ n : RegIdx, cp0Modelled n = false → cp0DoubleCheck n = refuse .cp0RegNotModelled := by
  decide

theorem cp0DoubleCheck_single : ∀ n : RegIdx, cp0Modelled n = true → cp0Double n = false →
    cp0DoubleCheck n = refuse .cp0DoubleAccessNotModelled := by
  decide

/-! ### Reads (R401, R403, R405) -/

section
variable {s : State} {n rt : RegIdx} {v : Word} (hu : s.mode = .kernel ∨ s.cu0 = true)
include hu

theorem exec_mfc0 (hr : s.cp0Read n = .ok v) :
    exec (.mfc0 rt n) s = .next (s.setGpr rt (sext32 (lo32 v))) :=
  exec_of_cp0_usable hu rfl (by rw [hr]; rfl)

/-- MFC0 of a register whose value is the number `k`. -/
theorem completesGpr_mfc0 {k : Nat} (hr : s.cp0Read n = .ok v) (hk : v.toNat = k) :
    CompletesGpr (.mfc0 rt n) s rt fun v => IsWord v k :=
  completesGpr_of_eq (exec_mfc0 hu hr) (toInt_signExtend_setWidth (by decide) hk)

/-- MFC0 of a 32-bit register reads its word, sign-extended. -/
theorem completesGpr_mfc0_bits {x : BitVec 32} {P : Word → Prop}
    (hr : s.cp0Read n = .ok (zext32 x)) (hP : P (sext32 x)) :
    CompletesGpr (.mfc0 rt n) s rt fun v => v.toInt = signedWord v ∧ P v :=
  completesGpr_of_eq (exec_mfc0 hu hr) (by rw [lo32_zext32]; exact ⟨sext32_toInt_eq_signedWord x, hP⟩)

theorem completesGpr_dmfc0 (hd : cp0DoubleCheck n = .ok ()) (hr : s.cp0Read n = .ok v) :
    CompletesGpr (.dmfc0 rt n) s rt fun w => w = v :=
  completesGpr_of_eq (exec_of_cp0_usable hu rfl (by rw [hd, ok_bind, hr]; rfl)) rfl

end

/-- Config's read value: W's bits 27:24 and 3:0 among the constant bits (R49). -/
theorem Cp0.config_getLsbD (c : Cp0) {j : Nat} (hj : j < 32) :
    c.config.getLsbD j = if j < 4 ∨ (24 ≤ j ∧ j < 28) then c.cfgW.getLsbD j else Nat.testBit 0x7006E460 j := by
  have mask : ∀ j < 32, (0x0F00000F#32).getLsbD j = decide (j < 4 ∨ (24 ≤ j ∧ j < 28)) := by decide
  have constant_clear : ∀ j < 32, j < 4 ∨ (24 ≤ j ∧ j < 28) → (0x7006E460#32).getLsbD j = false := by decide
  rw [Cp0.config, BitVec.getLsbD_or, BitVec.getLsbD_and, mask j hj]
  split_ifs with h
  · rw [constant_clear j hj h, decide_eq_true h, Bool.and_true, Bool.false_or]
  · rw [decide_eq_false h, Bool.and_false, Bool.or_false, BitVec.getLsbD_ofNat, decide_eq_true hj, Bool.true_and]

/-- A field of a sign-extended word's low half is the word's. -/
theorem sext32_field {x : BitVec 32} {start len : Nat} {y : BitVec len} (hl : start + len ≤ 32)
    (h : ∀ j < len, x.getLsbD (start + j) = y.getLsbD j) : (sext32 x).extractLsb' start len = y := by
  apply BitVec.eq_of_getLsbD_eq
  intro j hj
  rw [BitVec.getLsbD_extractLsb', sext32_getLsbD (by omega), h j hj, decide_eq_true hj, Bool.true_and]

theorem State.causeWord_ip (s : State) {j : Nat} (hj : j < 8) : s.causeWord.getLsbD (8 + j) = true ↔ s.IpSet j := by
  have bit : s.causeWord.getLsbD (8 + j) = s.ip.getLsbD j := by
    rw [State.causeWord_getLsbD]
    interval_cases j <;> rfl
  rw [bit, State.ip_iff]

/-- Settles O44: each modelled register is one row of `cp0Read`, read as a number, or bit by bit for Config and
Cause. -/
theorem cp0Reads : Obligations.Cp0Reads := by
  unfold Obligations.Cp0Reads
  refine ⟨?mfc0, ?dmfc0, fun s rt n hu => ⟨raises_of_cp0_unusable rfl hu, raises_of_cp0_unusable rfl hu⟩,
    fun s rt hu => ⟨?badVAddr, ?count, ?compare, ?status, ?epc, ?prId, ?config, ?llAddr, ?watchLo, ?watchHi, ?tagLo,
      ?tagHi, ?errorEpc, ?cause, ?badVAddrDouble, ?epcDouble, ?errorEpcDouble, fun n hn => ⟨?_, ?_⟩, fun n hn hs => ?_⟩⟩
  case mfc0 | dmfc0 => exact decodesMoveCop0 fun w h => by rw [decodeCop0, h]; rfl
  case badVAddr | epc | errorEpc => exact completesGpr_mfc0 hu rfl rfl
  case count | compare | status | prId | llAddr | watchLo | tagLo | tagHi =>
    exact completesGpr_mfc0 hu rfl (zext32_toNat _)
  case watchHi => exact completesGpr_mfc0 hu rfl (BitVec.toNat_setWidth_of_le (by decide))
  case config =>
    exact completesGpr_mfc0_bits hu rfl fun j hj => (sext32_getLsbD hj).trans (s.cp0.config_getLsbD hj)
  case cause =>
    refine completesGpr_mfc0_bits hu rfl ⟨?bd, ?ce, fun j hj => ?ip, ?excCode, ?bit30, ?bits27to16, ?bit7, ?bits1to0⟩
    case bd | bit30 | bit7 => exact (sext32_getLsbD (by decide)).trans (s.causeWord_getLsbD _)
    case ip => rw [sext32_getLsbD (by omega), s.causeWord_ip hj]
    case ce | excCode | bits27to16 | bits1to0 =>
      exact sext32_field (by decide) fun j hj => by rw [s.causeWord_getLsbD]; interval_cases j <;> rfl
  case badVAddrDouble | epcDouble | errorEpcDouble => exact completesGpr_dmfc0 hu rfl rfl
  · exact exec_refused_of_cp0_usable hu rfl (s.cp0Read_unmodelled hn)
  · exact exec_refused_of_cp0_usable hu rfl (cp0DoubleCheck_unmodelled n hn)
  · exact exec_refused_of_cp0_usable hu rfl (cp0DoubleCheck_single n hn hs)

/-! ### Writes (R402, R404, R406) -/

section
variable {s : State} {n rt : RegIdx} (hu : s.mode = .kernel ∨ s.cu0 = true)
include hu

theorem exec_mtc0 {c : Cp0} (hw : s.cp0.write32 n (s.gpr rt) = .ok c) :
    exec (.mtc0 rt n) s = .next { s with cp0 := c } :=
  exec_of_cp0_usable hu rfl (by rw [hw]; rfl)

theorem exec_dmtc0 (hd : cp0DoubleCheck n = .ok ()) :
    exec (.dmtc0 rt n) s = .next { s with cp0 := s.cp0.write64 n (s.gpr rt) } :=
  exec_of_cp0_usable hu rfl (by rw [hd]; rfl)

end

/-- A write of WatchLo that arms a watchpoint is refused (R55, R406). -/
theorem Cp0.write32_watchLo_armed {v : Word} (h : v.getLsbD 0 = true ∨ v.getLsbD 1 = true) (c : Cp0) :
    c.write32 18 v = refuse .watchNotModelled := by
  refine if_pos ?_
  rw [Bool.or_eq_true]
  exact h.symm

theorem Cp0.write32_watchLo_unarmed {v : Word} (h0 : v.getLsbD 0 = false) (h1 : v.getLsbD 1 = false) (c : Cp0) :
    c.write32 18 v = .ok { c with watchLo := lo32 v &&& 0xFFFFFFF8#32 } := by
  refine if_neg ?_
  rw [h0, h1]
  decide

/-- The bits of WatchLo a write reaches (R55). -/
theorem watchLo_getLsbD (v : Word) {j : Nat} (hj : j < 32) :
    (lo32 v &&& 0xFFFFFFF8#32).getLsbD j = (decide (3 ≤ j) && v.getLsbD j) := by
  have mask : ∀ j < 32, (0xFFFFFFF8#32).getLsbD j = decide (3 ≤ j) := by decide
  rw [BitVec.getLsbD_and, lo32_getLsbD_of_lt v hj, mask j hj, Bool.and_comm]

theorem sext32_lo32_toInt (v : Word) : (sext32 (lo32 v)).toInt = signedWord v :=
  (sext32_toInt _).trans (lo32_toInt v)

/-- Settles O45: each modelled register is one row of `write32`, or of `write64` for a doubleword. -/
theorem cp0Writes : Obligations.Cp0Writes := by
  unfold Obligations.Cp0Writes
  refine ⟨?mtc0, ?dmtc0, fun s rt n hu => ⟨raises_of_cp0_unusable rfl hu, raises_of_cp0_unusable rfl hu⟩,
    fun s rt hu => ⟨?badVAddr, ?prId, ?count, ?compare, ?status, ?cause, ⟨_, ?epc, sext32_lo32_toInt _⟩, ?config,
      ?llAddr, fun h0 h1 => ⟨_, ?watchLo, fun j hj => watchLo_getLsbD _ hj⟩, fun h => ?armed, ?watchHi, ?tagLo, ?tagHi,
      ⟨_, ?errorEpc, sext32_lo32_toInt _⟩, ?badVAddrDouble, ?epcDouble, ?errorEpcDouble, fun n hn => ⟨?_, ?_⟩,
      fun n hn hs => ?_⟩⟩
  case mtc0 | dmtc0 => exact decodesMoveCop0 fun w h => by rw [decodeCop0, h]; rfl
  case badVAddr | prId | cause | epc | watchHi | errorEpc => exact exec_mtc0 hu rfl
  case count | compare | status | config | llAddr | tagLo | tagHi =>
    exact exec_mtc0 hu (by rw [← lo32_eq_extract]; rfl)
  case watchLo => exact exec_mtc0 hu (s.cp0.write32_watchLo_unarmed h0 h1)
  case armed => exact exec_refused_of_cp0_usable hu rfl (s.cp0.write32_watchLo_armed h)
  case badVAddrDouble | epcDouble | errorEpcDouble => exact exec_dmtc0 hu rfl
  · exact exec_refused_of_cp0_usable hu rfl (s.cp0.write32_unmodelled hn _)
  · exact exec_refused_of_cp0_usable hu rfl (cp0DoubleCheck_unmodelled n hn)
  · exact exec_refused_of_cp0_usable hu rfl (cp0DoubleCheck_single n hn hs)

/-! ### ERET (R411) -/

/-- A word with one bit cleared, bit by bit. -/
theorem clearBit_getLsbD (x : BitVec 32) (i : Nat) {j : Nat} (hj : j < 32) :
    (x &&& ~~~BitVec.twoPow 32 i).getLsbD j = if j = i then false else x.getLsbD j := by
  rw [BitVec.getLsbD_and, BitVec.getLsbD_not, BitVec.getLsbD_twoPow]
  by_cases h : j = i
  · simp [h, h ▸ hj]
  · simp [h, hj, Ne.symm h]

/-- Status after ERET: ERL cleared if it was set, else EXL (R411). -/
theorem State.returnStatus_getLsbD (s : State) {j : Nat} (hj : j < 32) :
    (if s.erl then clearErl s.cp0.status else clearExl s.cp0.status).getLsbD j =
      if j = (if s.erl then 2 else 1) then false else s.cp0.status.getLsbD j := by
  cases s.erl
  · exact clearBit_getLsbD _ 1 hj
  · exact clearBit_getLsbD _ 2 hj

theorem State.exceptionReturn_eq (s : State) : s.exceptionReturn = { s with
    pc := if s.erl then s.cp0.errorEpc else s.cp0.epc
    cp0 := { s.cp0 with status := if s.erl then clearErl s.cp0.status else clearExl s.cp0.status }
    llBit := false
    pending := none } := by
  unfold State.exceptionReturn
  cases s.erl <;> rfl

/-- Settles O46: R294's check refuses, then R400's raises, and past both the outcome is `exceptionReturn`. -/
theorem exceptionReturn : Obligations.ExceptionReturn := by
  unfold Obligations.ExceptionReturn
  refine ⟨?eret, fun s hd => ?_, fun s hd hu => ?_, fun s hd hu => ⟨_, ?_, fun j hj => s.returnStatus_getLsbD hj⟩⟩
  case eret => exact decodesCop0Function fun w h => by rw [decodeCop0Function, h]; rfl
  · exact branchInDelaySlot .eret s rfl hd
  · exact raises_of_cp0_unusable rfl hu fun ⟨_, h⟩ => Bool.false_ne_true (hd.symm.trans h)
  · rw [← State.exceptionReturn_eq]
    exact exec_of_cp0_usable hu (exec_outside_delay_slot hd rfl rfl) rfl

/-! ### Traps (R420–R432) -/

/-- A trap on the model's form `b` of the condition `c` (R420). -/
theorem exec_of_trapIf {i : Instr} {s : State} {b : Bool} {c : Prop} (h : exec i s = s.trapIf b) (hb : b = true ↔ c) :
    (¬ c → exec i s = .next s) ∧ (c → exec i s = .refused .trapNotModelled) := by
  rw [h, State.trapIf, ← hb]
  cases b
  · exact ⟨fun _ => rfl, nofun⟩
  · exact ⟨fun h => absurd rfl h, fun _ => rfl⟩

theorem not_slt_iff (a b : Word) : (!a.slt b) = true ↔ b.toInt ≤ a.toInt := by
  rw [← BitVec.sle_eq_not_slt, BitVec.sle_iff_toInt_le]

theorem not_ult_iff (a b : Word) : (!a.ult b) = true ↔ b.toNat ≤ a.toNat := by
  rw [← BitVec.ule_eq_not_ult, BitVec.ule_iff_toNat_le]

theorem eq_simm_iff (a : Word) (imm : Imm16) : a = simm imm ↔ a.toInt = imm.toInt := by
  rw [← BitVec.toInt_inj, simm_toInt]

/-- Settles O47: each is the shared trap on the model's form of its condition, the immediate as a number. -/
theorem traps : Obligations.Traps := by
  unfold Obligations.Traps
  refine ⟨?tge, ?tgeu, ?tlt, ?tltu, ?teq, ?tne, ?tgei, ?tgeiu, ?tlti, ?tltiu, ?teqi, ?tnei, fun s rs rt code imm =>
    ⟨?_, ?_, ?_, ?_, ?_, ?_, ?_, ?_, ?_, ?_, ?_, ?_⟩⟩
  case tge | tgeu | tlt | tltu | teq | tne => exact decodesTrap fun w h => by rw [decodeSpecial, h]; rfl
  case tgei | tgeiu | tlti | tltiu | teqi | tnei => exact decodesRegimm fun w h => by rw [decodeRegimm, h]; rfl
  · exact exec_of_trapIf rfl (not_slt_iff _ _)
  · exact exec_of_trapIf rfl (not_ult_iff _ _)
  · exact exec_of_trapIf rfl BitVec.slt_iff_toInt_lt
  · exact exec_of_trapIf rfl BitVec.ult_iff_toNat_lt
  · exact exec_of_trapIf rfl beq_iff_eq
  · exact exec_of_trapIf rfl bne_iff_ne
  · exact exec_of_trapIf rfl (simm_toInt imm ▸ not_slt_iff _ (simm imm))
  · exact exec_of_trapIf rfl (simm_toNat imm ▸ not_ult_iff _ (simm imm))
  · exact exec_of_trapIf rfl (simm_toInt imm ▸ BitVec.slt_iff_toInt_lt)
  · exact exec_of_trapIf rfl (simm_toNat imm ▸ BitVec.ult_iff_toNat_lt)
  · exact exec_of_trapIf rfl (beq_iff_eq.trans (eq_simm_iff _ imm))
  · exact exec_of_trapIf rfl (bne_iff_ne.trans (eq_simm_iff _ imm).not)

end Sys2Proof.Machine
end

section
/-! Coprocessors 1 and 2 (45_coprocessors.md): their usability checks, the moves of the coprocessor-2 latch, and the
reserved coprocessor-2 instructions. -/

namespace Sys2Proof.Machine

/-! ### Coprocessor 1 (R440–R445) -/

theorem State.cop1Instruction_usable {s : State} (h : s.cu1 = true) : s.cop1Instruction = .refused .fpuNotModelled := by
  rw [State.cop1Instruction, State.cp1UsableCheck_refuse h, refuse_bind, State.complete_refuse]

theorem State.cop1Instruction_unusable {s : State} (h : s.cu1 = false) :
    s.cop1Instruction = s.complete (raise (.coprocessorUnusable 1)) := by
  rw [State.cop1Instruction, State.cp1UsableCheck_raise h, raise_bind]

/-- Every coprocessor-1 instruction is the check of R440 alone. -/
theorem exec_of_isCop1Instruction {i : Instr} (hi : isCop1Instruction i = true) (s : State) :
    exec i s = s.cop1Instruction := by
  cases i with
  | cop1 | lwc1 | ldc1 | swc1 | sdc1 => rfl
  | _ => cases hi

/-- Settles O48: the check of R440, which is all each instruction does, raises or refuses by CU1. -/
theorem coprocessor1 : Obligations.Coprocessor1 := by
  unfold Obligations.Coprocessor1
  refine ⟨?cop1, ?lwc1, ?ldc1, ?swc1, ?sdc1, fun i s hi => ⟨fun hu => ?_, fun hu => ?_⟩⟩
  case cop1 => exact decodesJump fun w h => by rw [decode, h]; rfl
  case lwc1 | ldc1 | swc1 | sdc1 => exact decodesImmediate fun w h => by rw [decode, h]; rfl
  · rw [exec_of_isCop1Instruction hi, State.cop1Instruction_unusable hu]
    exact s.raises_complete (.coprocessorUnusable 1)
  · rw [exec_of_isCop1Instruction hi, State.cop1Instruction_usable hu]

/-! ### The coprocessor-2 moves (R450–R456) -/

section
variable {i : Instr} {s : State}

/-- Where coprocessor 2 is unusable an instruction that checks it raises (R450). -/
theorem raises_of_cp2_unusable {f : Unit → Result State} (hu : s.cu2 = false)
    (h : exec i s = s.complete (s.cp2UsableCheck.bind f)) : s.Raises (exec i s) 11 none (some 2) := by
  rw [h, State.cp2UsableCheck_raise hu, raise_bind]
  exact s.raises_complete (.coprocessorUnusable 2)

/-- Every coprocessor-2 move begins with the check of R450. -/
theorem exec_of_isCop2Move (hi : isCop2Move i = true) :
    ∃ f : Unit → Result State, exec i s = s.complete (s.cp2UsableCheck.bind f) := by
  cases i with
  | mfc2 | dmfc2 | cfc2 | mtc2 | dmtc2 | ctc2 => exact ⟨_, rfl⟩
  | _ => cases hi

/-- A move from the latch, usable, completes with its register written (R451–R453). -/
theorem completesGpr_of_moveFromCop2 {rt : RegIdx} {v : Word} {P : Word → Prop} (hu : s.cu2 = true)
    (h : exec i s = s.moveFromCop2 rt v) (hv : P v) : CompletesGpr i s rt P := by
  refine completesGpr_of_eq ?_ hv
  rw [h, State.moveFromCop2, State.cp2UsableCheck_ok hu, ok_bind, State.complete_ok]

/-- A move to the latch, usable, writes the latch (R454–R456). -/
theorem State.moveToCop2_usable (hu : s.cu2 = true) (rt : RegIdx) :
    s.moveToCop2 rt = .next { s with cop2Latch := s.gpr rt } := by
  rw [State.moveToCop2, State.cp2UsableCheck_ok hu, ok_bind, State.complete_ok]

end

/-- Settles O49: past the check of R450 each is the shared move from the latch or to it. -/
theorem coprocessor2Moves : Obligations.Coprocessor2Moves := by
  unfold Obligations.Coprocessor2Moves
  refine ⟨?mfc2, ?dmfc2, ?cfc2, ?mtc2, ?dmtc2, ?ctc2, fun s rt rd hu => ⟨?_, ?_, ?_, ?_, ?_, ?_⟩,
    fun i s hi hu => ?unusable⟩
  case mfc2 | dmfc2 | cfc2 | mtc2 | dmtc2 | ctc2 => exact decodesMoveCop2 fun w h => by rw [decodeCop2, h]; rfl
  case unusable =>
    obtain ⟨f, he⟩ := exec_of_isCop2Move hi
    exact raises_of_cp2_unusable hu he
  · exact completesGpr_of_moveFromCop2 hu rfl (toInt_signExtend_setWidth (by decide) rfl)
  · exact completesGpr_of_moveFromCop2 hu rfl rfl
  · exact completesGpr_of_moveFromCop2 hu rfl (toInt_signExtend_setWidth (by decide) rfl)
  all_goals exact State.moveToCop2_usable hu rt

/-! ### The reserved coprocessor-2 instructions (R457–R463) -/

/-- Every one is the check of R450, then ReservedInstruction. -/
theorem exec_of_isCop2Reserved {i : Instr} (hi : isCop2Reserved i = true) (s : State) :
    exec i s = s.cop2Reserved := by
  cases i with
  | dcfc2 | dctc2 | lwc2 | ldc2 | swc2 | sdc2 => rfl
  | _ => cases hi

/-- Settles O50: the check of R450 raises, or past it the instruction does. -/
theorem coprocessor2Reserved : Obligations.Coprocessor2Reserved := by
  unfold Obligations.Coprocessor2Reserved
  refine ⟨?dcfc2, ?dctc2, ?lwc2, ?ldc2, ?swc2, ?sdc2, fun i s hi => ⟨fun hu => ?_, fun hu => ?_⟩⟩
  case dcfc2 | dctc2 => exact decodesMoveCop2 fun w h => by rw [decodeCop2, h]; rfl
  case lwc2 | ldc2 | swc2 | sdc2 => exact decodesImmediate fun w h => by rw [decode, h]; rfl
  · exact raises_of_cp2_unusable hu (exec_of_isCop2Reserved hi s)
  · rw [exec_of_isCop2Reserved hi, State.cop2Reserved_usable hu]
    exact s.raises_complete .reservedInstruction

end Sys2Proof.Machine
end

section
/-! The interrupt controller's writes (60_exceptions.md rules R501, R502, R504), and the CPU's step before any
instruction: an interrupt taken, and the configurations refused (R471, R480, R482, R520). -/

namespace Sys2Proof.Machine

/-! ### Writes to the interrupt controller (R501, R502, R504) -/

/-- SW to an MI register is the register's write (R502, R504). -/
theorem execSw_mi {s : State} {rt base : RegIdx} {offset : Imm16} {p o : Nat}
    (hm : s.MapsTo (s.effectiveAddress base offset) p) (hp : IsMi p o) (ho : o % 4 = 0) :
    exec (.sw rt base offset) s = .next (s.writeMi o (lo32 (s.gpr rt))) :=
  execSw_eq hm (by omega) (s.physWrite_mi hp 4 _)

/-- A pair of a register's low 32 bits clears, else sets, else keeps. -/
theorem clearSet_lo32 (v : Word) {clear set : Nat} (hc : clear < 32) (hs : set < 32) (old : Bool) :
    clearSet ((lo32 v).getLsbD clear) ((lo32 v).getLsbD set) old =
      if v.getLsbD clear then false else if v.getLsbD set then true else old := by
  rw [clearSet_eq, lo32_getLsbD_of_lt v hc, lo32_getLsbD_of_lt v hs]

/-- The DP flag falls on bit 11 of a write of MI_MODE, and no other flag moves (R504). -/
theorem dpCleared_getLsbD (flags : BitVec 6) (v : Word) {j : Nat} (hj : j < 6) :
    (if (lo32 v).getLsbD 11 then clearFlagBit flags EnvSource.dp.bit else flags).getLsbD j =
      if j = 5 ∧ v.getLsbD 11 = true then false else flags.getLsbD j := by
  rw [lo32_getLsbD_of_lt v (by decide)]
  cases v.getLsbD 11 with
  | false => simp
  | true =>
    simp only [if_true, and_true]
    exact clearFlagBit_getLsbD flags EnvSource.dp.bit_lt hj

/-- Settles O38: each clause is one arm of `writeMi`, bit by bit. -/
theorem interruptControllerWrites : Obligations.InterruptControllerWrites := by
  unfold Obligations.InterruptControllerWrites
  intro s rt base offset p o hm hp ho v pair
  have sw := execSw_mi (rt := rt) hm hp ho
  refine ⟨?mask, ?mode, fun h12 h0 => sw.trans (congrArg _ (s.writeMi_other h0 h12 _))⟩
  case mask =>
    rintro rfl
    exact ⟨_, sw, fun j hj => (writeMask_getLsbD _ _ hj).trans (clearSet_lo32 v (by omega) (by omega) _)⟩
  case mode =>
    rintro rfl
    have bit {j : Nat} (hj : j < 14) := writeMode_getLsbD s.mi.mode (lo32 v) hj
    refine ⟨_, _, sw, fun j hj => ?_, ?_, ?_, ?_, fun j hj h10 => ?_, fun j hj => dpCleared_getLsbD s.mi.flags v hj⟩
    · rw [bit (by omega), if_pos hj, lo32_getLsbD_of_lt v (by omega)]
    · exact (bit (by decide)).trans (clearSet_lo32 v (by decide) (by decide) _)
    · exact (bit (by decide)).trans (clearSet_lo32 v (by decide) (by decide) _)
    · exact (bit (by decide)).trans (clearSet_lo32 v (by decide) (by decide) _)
    · rw [bit hj, if_neg (by omega), if_neg (by omega), if_neg (by omega), if_neg (by omega)]

/-! ### An interrupt taken (R471, R480, R482) -/

/-- Settles O52: the interrupt is taken at `State.nextInstruction`, which is the next instruction, and the timer
ticks after its entry. -/
theorem interruptTaken : Obligations.InterruptTaken := by
  unfold Obligations.InterruptTaken
  intro s c d hr hm hi hn
  have hnext : s.turnTaken.nextInstruction = (c, d) := (s.nextInstruction_iff c d).mpr hn
  have taken : step s = tickOutcome (s.turnTaken.takeException .interrupt c d) := by
    rw [step_of_cpuRuns hr, State.cpuStep_interrupt (s := s.turnTaken) hm hi, hnext]
  refine ⟨fun hb => ?_, fun hb => ?_⟩
  · rw [State.takeException_of_not_bev (s := s.turnTaken) hb] at taken
    exact ⟨_, _, taken, s.turnTaken.entersException_enter .interrupt c d, State.ticks_tick _⟩
  · rw [State.takeException_of_bev (s := s.turnTaken) hb] at taken
    exact taken

/-! ### The configurations refused (R520) -/

section
variable {s : State}

theorem State.startRefusal_unmodelled (hm : s.mode = .unmodelled) :
    s.startRefusal = some .supervisorModeNotModelled := by
  rw [State.startRefusal, hm]

theorem State.startRefusal_kernel_kx (hm : s.mode = .kernel) (hk : s.kx = true) :
    s.startRefusal = some .kx64BitAddressingNotModelled := by
  simp only [State.startRefusal, hm, hk, if_true]

theorem State.startRefusal_user_ux (hm : s.mode = .user) (hu : s.ux = true) :
    s.startRefusal = some .ux64BitAddressingNotModelled := by
  simp only [State.startRefusal, hm, hu, if_true]

theorem State.startRefusal_user_re (hm : s.mode = .user) (hu : s.ux = false) (hre : s.re = true) :
    s.startRefusal = some .reverseEndianNotModelled := by
  simp only [State.startRefusal, hm, hu, hre, if_true, Bool.false_eq_true, if_false]

/-- A refusal of the step's first check is the step's: it precedes the interrupt poll and the fetch. -/
theorem step_of_startRefusal {r : Refusal} (hr : s.CpuRuns) (h : s.startRefusal = some r) : step s = .refused r :=
  (step_of_cpuRuns hr).trans (State.cpuStep_refused (s := s.turnTaken) h)

end

/-- Settles O53: the first check refuses by the mode (`State.mode_kernel_iff` and the like) and its bit of Status. -/
theorem stepStartRefusals : Obligations.StepStartRefusals := by
  unfold Obligations.StepStartRefusals
  intro s hr
  refine ⟨fun hx he hk => ?_, fun hm hk => ?_, fun hx he hk hu => ?_, fun hx he hk hu hre => ?_⟩
  · exact step_of_startRefusal hr (State.startRefusal_unmodelled (s.mode_unmodelled_iff.mpr ⟨hx, he, hk⟩))
  · exact step_of_startRefusal hr (State.startRefusal_kernel_kx (s.mode_kernel_iff.mpr hm) hk)
  · exact step_of_startRefusal hr (State.startRefusal_user_ux (s.mode_user_iff.mpr ⟨hx, he, hk⟩) hu)
  · exact step_of_startRefusal hr (State.startRefusal_user_re (s.mode_user_iff.mpr ⟨hx, he, hk⟩) hu hre)

end Sys2Proof.Machine
end

section
/-! The state after reset (R540, R541), and which launches start, in what state (R541, R542). -/

namespace Sys2Proof.Machine

/-! ### Reset (R540) -/

theorem State.reset_mode : State.reset.mode = .kernel := rfl

/-- Status.IE is 0 after reset, so no interrupt is enabled (R471, R540). -/
theorem State.reset_not_interruptDue : ¬ State.reset.InterruptDue :=
  fun ⟨ie, _⟩ => Bool.false_ne_true ie

/-- Settles O5: register by register R540's table; Config and PRId as MFC0 reads them in kernel mode (`exec_mfc0`). -/
theorem resetState : Obligations.ResetState := by
  unfold Obligations.ResetState
  refine ⟨State.reset_gpr, rfl, rfl, rfl, rfl, rfl, rfl, rfl, ?causeWord, rfl, rfl, rfl, rfl, State.reset_mode,
    State.reset_not_interruptDue, .inl ⟨State.reset_mode, rfl⟩, fun rt => ?config, fun rt => ?prId⟩
  case causeWord => decide
  case config | prId => exact completesGpr_of_eq (exec_mfc0 (.inl State.reset_mode) rfl) (by decide)

/-- Settles O6: RAM and both ROMs list nothing (`reset_memories_wf`), and every register is 0. -/
theorem resetInvariant : Obligations.ResetInvariant where
  ramForm := reset_memories_wf.1
  ramBounds := rfl
  romForm := ⟨reset_memories_wf.2, rfl⟩
  bootRomForm
    | _, rfl => ⟨rfl, rfl⟩
  registerZero := rfl
  miModeHigh := rfl
  watchLoLow := rfl
  busyIffInflight := rfl
  flagIffCompleted := rfl
  notBusyAndCompleted := rfl

/-! ### Which launches start (R541, R542) -/

section
variable {l : Launch} {rom boot : Image}

theorem Launch.start_of_no_rom (hr : l.rom = none) : l.start = none := by
  rw [Launch.start, hr]

theorem Launch.start_of_boot (hr : l.rom = some rom) (hb : l.bootRom = some boot) (hs : boot.size ≤ 0x7C0) :
    l.start = some (l.powerOn rom) := by
  simp only [Launch.start, hr, hb, if_pos hs]

theorem Launch.start_of_large_boot (hr : l.rom = some rom) (hb : l.bootRom = some boot) (hs : 0x7C0 < boot.size) :
    l.start = none := by
  simp only [Launch.start, hr, hb, if_neg (Nat.not_le.mpr hs)]

theorem Launch.start_of_no_boot (hr : l.rom = some rom) (hb : l.bootRom = none) (hs : 0x1000 ≤ rom.size) :
    l.start = (l.highLevel rom).toOption := by
  simp only [Launch.start, hr, hb, if_pos hs]

theorem Launch.start_of_small_rom (hr : l.rom = some rom) (hb : l.bootRom = none) (hs : rom.size < 0x1000) :
    l.start = none := by
  simp only [Launch.start, hr, hb, if_neg (Nat.not_le.mpr hs)]

/-- The two ways a launch starts: from the boot ROM, or by the high-level boot. -/
theorem Launch.start_cases {t : State} (h : l.start = some t) :
    ∃ rom, l.rom = some rom ∧ (t = l.powerOn rom ∨ l.highLevel rom = .ok t) := by
  cases hr : l.rom with
  | none => rw [Launch.start_of_no_rom hr] at h; cases h
  | some rom =>
    refine ⟨rom, rfl, ?_⟩
    cases hb : l.bootRom with
    | some boot =>
      rcases Nat.lt_or_ge 0x7C0 boot.size with hs | hs
      · rw [Launch.start_of_large_boot hr hb hs] at h; cases h
      · rw [Launch.start_of_boot hr hb hs] at h
        exact .inl (Option.some.inj h).symm
    | none =>
      rcases Nat.lt_or_ge rom.size 0x1000 with hs | hs
      · rw [Launch.start_of_small_rom hr hb hs] at h; cases h
      · rw [Launch.start_of_no_boot hr hb hs] at h
        cases hl : l.highLevel rom with
        | error x => rw [hl] at h; cases h
        | ok u => rw [hl] at h; cases h; exact .inr rfl

end

/-! ### The high-level boot (R541) -/

/-- The high-level boot's state before `HLE_INIT_REGS`: the pc at the entry and the entry's bytes copied (R541). -/
def Launch.hleEntry (l : Launch) (rom : Image) : State :=
  { l.powerOn rom with
    pc := entryPoint rom
    ram := Memory.copyFrom rom.cells 0x1000 l.initRam (entryRamOffset rom l.params.rdramSize.bytes)
      (hleCopyBytes rom l.params.rdramSize.bytes) }

theorem Launch.highLevel_eq (l : Launch) (rom : Image) :
    l.highLevel rom = (l.hleEntry rom).setInitRegs l.hleInitRegs := rfl

/-- The copy ends inside RAM. -/
theorem entryRamOffset_add_hleCopyBytes_le (rom : Image) {n : Nat} (hn : 0 < n) :
    entryRamOffset rom n + hleCopyBytes rom n ≤ n := by
  have hlt : entryRamOffset rom n < n := Nat.mod_lt _ hn
  unfold hleCopyBytes
  omega

/-- The RAM of the high-level boot: the bytes from the cartridge's offset 0x1000 where they are copied to, the
launch's own elsewhere. -/
theorem Launch.hleEntry_ram_read (l : Launch) (rom : Image) (a : Nat) :
    (l.hleEntry rom).ram.read a =
      if entryRamOffset rom l.params.rdramSize.bytes ≤ a
          ∧ a - entryRamOffset rom l.params.rdramSize.bytes < hleCopyBytes rom l.params.rdramSize.bytes
      then rom.cells.read (0x1000 + (a - entryRamOffset rom l.params.rdramSize.bytes)) else l.initRam.read a := by
  rw [Launch.hleEntry, Memory.read_copyFrom]
  exact if_congr (and_congr_right fun h => (Nat.sub_lt_iff_lt_add' h).symm) rfl rfl

/-! ### A launch starts in the invariant -/

section
variable {l : Launch} {rom : Image} (hf : l.initRam.wf = true)
  (hb : l.initRam.below l.params.rdramSize.bytes = true) (hrom : rom.Wf) (hboot : ∀ m, l.bootRom = some m → m.Wf)
include hf hb hrom hboot

theorem Launch.powerOn_inv : (l.powerOn rom).Inv :=
  { resetInvariant with
    ramForm := hf
    ramBounds := hb
    romForm := hrom
    bootRomForm := hboot }

theorem Launch.hleEntry_inv : (l.hleEntry rom).Inv :=
  { Launch.powerOn_inv hf hb hrom hboot with
    ramForm := Memory.wf_copyFrom hrom.1 hf ..
    ramBounds := Memory.below_copyFrom hb
      (entryRamOffset_add_hleCopyBytes_le rom (by cases l.params.rdramSize <;> decide)) }

end

/-- Settles O7: one equation of `Launch.start` per launch; the high-level boot's RAM is a block copy to where
`entryRamOffset_eq` says, and the copy and `HLE_INIT_REGS` keep the invariant. -/
theorem launchStart : Obligations.LaunchStart := by
  unfold Obligations.LaunchStart
  refine ⟨fun l => Launch.start_of_no_rom, fun l rom boot hr hb hs => ?boot,
    fun l rom boot => Launch.start_of_large_boot, fun l rom => Launch.start_of_small_rom,
    fun l rom entry hr hb hs hi hl he => ?highLevel, fun l t h hf hbelow hrom hboot => ?inv⟩
  case boot => rw [Launch.start_of_boot hr hb hs, Launch.powerOn, hb]
  case highLevel =>
    refine ⟨l.hleEntry rom, ?_, entryPoint_isWord hl he, ?_, fun a _ => ?_⟩
    · rw [Launch.start_of_no_boot hr hb hs, Launch.highLevel_eq, hi]; rfl
    · rw [← hb]; rfl
    · have offset := entryRamOffset_eq hl (l.hleEntry rom).ramSize he
      rw [← offset]
      exact l.hleEntry_ram_read rom a
  case inv =>
    obtain ⟨rom, hr, rfl | hl⟩ := Launch.start_cases h
    · exact Launch.powerOn_inv hf hbelow (hrom rom hr) hboot
    · exact (Launch.hleEntry_inv hf hbelow (hrom rom hr) hboot).setInitRegs hl

end Sys2Proof.Machine
end
